-- ==== Sys2Proof/Word.lean ====
section
/-!
DEFINITION. The machine's word types (`spec/00_scope.md` R7, R8; `spec/10_state.md`).
-/

namespace Sys2Proof

/-- One byte of `IN` or of a mask memory. -/
abbrev Byte := BitVec 8

/-- A 32-bit register or a 32-bit stream word. -/
abbrev Word := BitVec 32

/-- The 32 bits of an IEEE 754 binary32 value. -/
abbrev F32 := BitVec 32

/-- The 64 bits of an IEEE 754 binary64 value. -/
abbrev F64 := BitVec 64

end Sys2Proof
end

