-- ==== Sys2Proof/Syntax.lean ====
section
/-!
DEFINITION. The instructions: one constructor for each row of `spec/opcode_table.json`. A record's operands are its tag
and its fixed fields (`spec/30_encoding.md` R61 to R73); payloads whose length depends on the state stay in `IN`.
-/

namespace Sys2Proof

/-- The element types, in the order of their codes 0 to 7 (R7). -/
inductive EType where
  | i8 | u8 | i16 | u16 | i32 | u32 | f32 | f64
  deriving DecidableEq, Repr

/-- The base-offset field of a `CZB` record with the width its selector names (R65): `otype` 0 float32, 1 int16,
2 int8. Selector 3 is invalid and no field follows it. -/
inductive CzOffset where
  | float32 (bits : F32)
  | int16 (v : BitVec 16)
  | int8 (v : Byte)
  | invalid
  deriving DecidableEq, Repr

/-- A count field with the width its selector `ctype` names (R65, R72): 0 uint32, 1 uint16, 2 uint8. Selector 3 is
invalid and no field follows it. -/
inductive CountField where
  | uint32 (n : Word)
  | uint16 (n : BitVec 16)
  | uint8 (n : Byte)
  | invalid
  deriving DecidableEq, Repr

/-- The fields of an `L2.HDR` record after the identifier (R67). A version outside 1 to 5 is refused before any other
field is read (R216, R268), so such a header carries nothing else. -/
inductive L2Header where
  | unsupported (version : Word)
  | fields (version checksum height width numDims numValidPixel microBlockSize blobSize imageType : Word)
      (maxZError zMin zMax : F64)
  deriving DecidableEq, Repr

/-- The two forms of `HUF.PLANE`: with accumulation (R171) and without (R173). -/
inductive PlaneMode where
  | delta | plain
  deriving DecidableEq, Repr

/-- Where `CONST.SURF` takes its per-dimension value from: the global `zMin` (R227) or `DIMMIN` (R228). -/
inductive SurfSource where
  | globalMin | dimMin
  deriving DecidableEq, Repr

/-- The instruction set (R1, R60, R79). -/
inductive Instr where
  -- the host's command and the dispatcher's records
  | cmdGo (ignored : BitVec 31)
  | idCntz (leading : Bool) (space : Byte)
  | idLerc2 (sixth : Byte)
  -- CntZImage
  | czHdr (version imageType height width : Word) (maxZError : F64)
  | czMsec (numBlocksY numBlocksX numBytes : Word) (maxValue : F32)
  | czPsec (numBlocksY numBlocksX numBytes : Word) (maxValue : F32)
  | czRaw (off : CzOffset)
  | czBs (off : CzOffset) (bitsPerPixel : BitVec 6) (count : CountField)
  | czConst (off : CzOffset)
  | czRsvd (header : Byte)
  -- mask runs
  | rleLit (run : BitVec 16)
  | rleRep (run : BitVec 16)
  | rleEnd
  | rleZero
  -- Lerc2
  | l2Hdr (header : L2Header)
  | l2Mask (numBytes : Word)
  | l2Ranges
  | l2Sweep (flag : Byte)
  | l2Body
  | l2HfTiles
  | l2HfDelta
  | l2HfPlain
  | l2TileRaw (otype : BitVec 2) (tag : BitVec 4)
  | l2TileBs (otype : BitVec 2) (tag : BitVec 4)
  | l2TileXb (otype : BitVec 2) (tag : BitVec 4)
  | l2TileConst (otype : BitVec 2) (tag : BitVec 4)
  -- nested records
  | bs2Aff (numBits : BitVec 5) (count : CountField)
  | bs2Lut (numBits : BitVec 5) (count : CountField)
  | hufTable (hversion size i0 i1 : Word)
  -- internal operations
  | unpkL (a n : Word) (k : BitVec 6)
  | unpkM (a n : Word) (k : BitVec 6)
  | remapAff (c : Word) (off step vmax : F64) (clamp : Bool)
  | remapLut (c : Word)
  | maskExpand
  | f32Sum (a len : Word)
  | hufBuild
  | hufSym
  | hufPlane (mode : PlaneMode)
  | constSurf (source : SurfSource)
  | maskAnd
  | reshape
  deriving DecidableEq, Repr

end Sys2Proof
end

