-- ==== Sys2Proof/WellFormed.lean ====
section
/-!
DEFINITION. Which instruction terms stand for an encoding (`spec/30_encoding.md` R62, R65 to R72, R76). Operands whose
type already admits exactly the encoded values need no check.
-/

namespace Sys2Proof

/-- The bytes an identifier is trimmed of: space and 09 to 0D (R62). -/
def isTrimByte (x : Byte) : Bool :=
  x == 0x20#8 || (0x09#8 ≤ x && x ≤ 0x0D#8)

/-- A block header byte the legacy container reserves: mode 3, or any of bits 5:2 set (R65, R199). -/
def isReservedBlockHeader (hb : Byte) : Bool :=
  hb.extractLsb' 0 2 == 3#2 || hb.extractLsb' 2 4 != 0#4

/-- The versions of the Lerc2 container (R1, R268), as signed 32-bit numbers. -/
def isSupportedVersion (v : Word) : Bool :=
  1 ≤ v.toInt && v.toInt ≤ 5

/-- A header's absent fields stand at the value R216 gives them. -/
def L2Header.wf : L2Header → Bool
  | .unsupported v => !isSupportedVersion v
  | .fields v checksum _ _ numDims _ _ _ _ _ _ _ =>
    isSupportedVersion v && (3 ≤ v.toInt || checksum == 0#32) && (4 ≤ v.toInt || numDims == 1#32)

/-- The term is one an encoding decodes to. -/
def Instr.wf : Instr → Bool
  | .idCntz _ space => isTrimByte space
  | .czBs off bits count => off != .invalid || (bits == 0#6 && count == .invalid)
  | .czRsvd hb => isReservedBlockHeader hb
  | .rleLit run => run != 0#16 && !run.msb
  | .rleRep run => run != 0x8000#16 && run.msb
  | .l2Hdr header => header.wf
  | .l2Sweep flag => flag != 0#8
  | _ => true

end Sys2Proof
end

