-- ==== Sys2Proof/Decode.lean ====
section
/-!
DEFINITION. Record bytes to instructions and back (`spec/30_encoding.md`). The stream has no self-describing opcode:
which format the bytes at the cursor have is fixed by the position in the sequence (R77, R257), so decoding takes it.
-/

namespace Sys2Proof

/-! ## Byte order -/

/-- The number a byte list holds, first byte least significant (R8, R47). -/
def leNat : List Byte → Nat
  | [] => 0
  | x :: xs => x.toNat + 256 * leNat xs

/-- The `n` bytes of a number, least significant first (R47). -/
def leBytes : Nat → Nat → List Byte
  | 0, _ => []
  | n + 1, v => BitVec.ofNat 8 v :: leBytes n (v / 256)

/-! ## Positions and rejections -/

/-- What the sequence rules allow at a point of the stream (R60), and the host's command word (R61). -/
inductive StreamPos where
  | command | ident | czHdr | czMsec | czPsec | czBlock | rle | l2Hdr | l2Mask | l2Ranges | l2Flag | l2Hf | l2Tile | bs2
  | hufTable
  deriving DecidableEq, Repr

/-- Why bytes are no record. -/
inductive DecodeError where
  /-- The field of `width` bytes at offset `off` passes the end of the bytes given. -/
  | short (off width : Nat)
  /-- Neither identifier (R62). -/
  | noIdentifier
  /-- A second flag byte of 3 to 255 (R70). -/
  | badHuffmanFlag
  /-- A word written to `CMD` with bit 0 clear (R61). -/
  | notACommand
  deriving DecidableEq, Repr

/-- The `n`-byte little-endian field at offset `off`. -/
def fieldAt (bs : List Byte) (off n : Nat) : Except DecodeError Nat :=
  if off + n ≤ bs.length then .ok (leNat ((bs.drop off).take n)) else .error (.short off n)

def word32At (bs : List Byte) (off : Nat) : Except DecodeError Word := do
  return BitVec.ofNat 32 (← fieldAt bs off 4)

def word64At (bs : List Byte) (off : Nat) : Except DecodeError (BitVec 64) := do
  return BitVec.ofNat 64 (← fieldAt bs off 8)

def word16At (bs : List Byte) (off : Nat) : Except DecodeError (BitVec 16) := do
  return BitVec.ofNat 16 (← fieldAt bs off 2)

def byteAt (bs : List Byte) (off : Nat) : Except DecodeError Byte := do
  return BitVec.ofNat 8 (← fieldAt bs off 1)

/-! ## Fields with a selected width -/

/-- The base-offset field of a block with selector `otype` (R65). -/
def decodeCzOffset (otype : BitVec 2) (bs : List Byte) (off : Nat) : Except DecodeError CzOffset := do
  if otype == 0#2 then return .float32 (← word32At bs off)
  else if otype == 1#2 then return .int16 (← word16At bs off)
  else if otype == 2#2 then return .int8 (← byteAt bs off)
  else return .invalid

/-- The selector and the length in bytes of a base-offset field (R65, R195). -/
def CzOffset.otype : CzOffset → BitVec 2
  | .float32 _ => 0#2 | .int16 _ => 1#2 | .int8 _ => 2#2 | .invalid => 3#2

def CzOffset.len : CzOffset → Nat
  | .float32 _ => 4 | .int16 _ => 2 | .int8 _ => 1 | .invalid => 0

def CzOffset.bytes : CzOffset → List Byte
  | .float32 v => leBytes 4 v.toNat | .int16 v => leBytes 2 v.toNat | .int8 v => [v] | .invalid => []

/-- The count field with selector `ctype` (R65, R72). -/
def decodeCount (ctype : BitVec 2) (bs : List Byte) (off : Nat) : Except DecodeError CountField := do
  if ctype == 0#2 then return .uint32 (← word32At bs off)
  else if ctype == 1#2 then return .uint16 (← word16At bs off)
  else if ctype == 2#2 then return .uint8 (← byteAt bs off)
  else return .invalid

/-- The selector and the length in bytes of a count field (R113, R197). -/
def CountField.ctype : CountField → BitVec 2
  | .uint32 _ => 0#2 | .uint16 _ => 1#2 | .uint8 _ => 2#2 | .invalid => 3#2

def CountField.len : CountField → Nat
  | .uint32 _ => 4 | .uint16 _ => 2 | .uint8 _ => 1 | .invalid => 0

def CountField.bytes : CountField → List Byte
  | .uint32 n => leBytes 4 n.toNat | .uint16 n => leBytes 2 n.toNat | .uint8 n => [n] | .invalid => []

/-! ## One decoder for each format -/

/-- `CMD` (R61): bit 0 is `GO`, the rest is ignored. -/
def decodeCommand (bs : List Byte) : Except DecodeError Instr := do
  let w ← word32At bs 0
  if w.getLsbD 0 then return .cmdGo (w.extractLsb' 1 31) else .error .notACommand

/-- The letters of the two identifiers (R62). -/
def cntzMagic : List Byte :=
  [0x43#8, 0x6E#8, 0x74#8, 0x5A#8, 0x49#8, 0x6D#8, 0x61#8, 0x67#8, 0x65#8]

def lercMagic : List Byte :=
  [0x4C#8, 0x65#8, 0x72#8, 0x63#8, 0x32#8]

/-- Leading and trailing white space removed (R62). -/
def trimBytes (bs : List Byte) : List Byte :=
  ((bs.dropWhile isTrimByte).reverse.dropWhile isTrimByte).reverse

/-- `ID` (R62): ten bytes are read, `ID.CNTZ` is tested first. -/
def decodeIdent (bs : List Byte) : Except DecodeError Instr := do
  let _ ← fieldAt bs 0 10
  let id := bs.take 10
  let first := id.headD 0#8
  if trimBytes id = cntzMagic then
    if isTrimByte first then return .idCntz true first else return .idCntz false (id.getD 9 0#8)
  else if id.take 5 = lercMagic then return .idLerc2 (id.getD 5 0#8)
  else .error .noIdentifier

/-- `CZH` (R63), from the first byte after the identifier. -/
def decodeCzHdr (bs : List Byte) : Except DecodeError Instr := do
  let version ← word32At bs 0
  let imageType ← word32At bs 4
  let height ← word32At bs 8
  let width ← word32At bs 12
  let maxZError ← word64At bs 16
  return .czHdr version imageType height width maxZError

/-- `CZS` (R64), the mask section. -/
def decodeCzMsec (bs : List Byte) : Except DecodeError Instr := do
  let nby ← word32At bs 0
  let nbx ← word32At bs 4
  let numBytes ← word32At bs 8
  let maxValue ← word32At bs 12
  return .czMsec nby nbx numBytes maxValue

/-- `CZS` (R64), the pixel section. -/
def decodeCzPsec (bs : List Byte) : Except DecodeError Instr := do
  let nby ← word32At bs 0
  let nbx ← word32At bs 4
  let numBytes ← word32At bs 8
  let maxValue ← word32At bs 12
  return .czPsec nby nbx numBytes maxValue

/-- `CZB` (R65, R195): a reserved header byte, else the offset field and, for mode 1, the second header byte and the
count field. -/
def decodeCzBlock (bs : List Byte) : Except DecodeError Instr := do
  let hb ← byteAt bs 0
  if isReservedBlockHeader hb then return .czRsvd hb
  let off ← decodeCzOffset (hb.extractLsb' 6 2) bs 1
  let mode := hb.extractLsb' 0 2
  if mode == 0#2 then return .czRaw off
  else if mode == 1#2 then
    if off = .invalid then return .czBs .invalid 0#6 .invalid
    let hb1 ← byteAt bs (1 + off.len)
    let count ← decodeCount (hb1.extractLsb' 6 2) bs (2 + off.len)
    return .czBs off (hb1.extractLsb' 0 6) count
  else return .czConst off

/-- `RLE` (R66): a signed 16-bit run header. -/
def decodeRle (bs : List Byte) : Except DecodeError Instr := do
  let run ← word16At bs 0
  if run == 0x8000#16 then return .rleEnd
  else if run == 0#16 then return .rleZero
  else if run.msb then return .rleRep run
  else return .rleLit run

/-- `L2H` (R67, R216), from the first byte after the identifier: the version decides the layout. -/
def decodeL2Hdr (bs : List Byte) : Except DecodeError Instr := do
  let version ← word32At bs 0
  if !isSupportedVersion version then return .l2Hdr (.unsupported version)
  let checksum ← if 3 ≤ version.toInt then word32At bs 4 else pure 0#32
  let p := if 3 ≤ version.toInt then 8 else 4
  let height ← word32At bs p
  let width ← word32At bs (p + 4)
  let numDims ← if 4 ≤ version.toInt then word32At bs (p + 8) else pure 1#32
  let q := if 4 ≤ version.toInt then p + 12 else p + 8
  let numValid ← word32At bs q
  let mbs ← word32At bs (q + 4)
  let blobSize ← word32At bs (q + 8)
  let imageType ← word32At bs (q + 12)
  let maxZError ← word64At bs (q + 16)
  let zMin ← word64At bs (q + 24)
  let zMax ← word64At bs (q + 32)
  return .l2Hdr (.fields version checksum height width numDims numValid mbs blobSize imageType maxZError zMin zMax)

/-- `L2M` (R68). -/
def decodeL2Mask (bs : List Byte) : Except DecodeError Instr := do
  return .l2Mask (← word32At bs 0)

/-- The first `L2F` byte (R70). -/
def decodeL2Flag (bs : List Byte) : Except DecodeError Instr := do
  let fb ← byteAt bs 0
  if fb == 0#8 then return .l2Body else return .l2Sweep fb

/-- The second `L2F` byte (R70). -/
def decodeL2Hf (bs : List Byte) : Except DecodeError Instr := do
  let hf ← byteAt bs 0
  if hf == 0#8 then return .l2HfTiles
  else if hf == 1#8 then return .l2HfDelta
  else if hf == 2#8 then return .l2HfPlain
  else .error .badHuffmanFlag

/-- `L2T` (R71): the mode selects the record. The tag and the origin field are interpreted by its meaning. -/
def decodeL2Tile (bs : List Byte) : Except DecodeError Instr := do
  let th ← byteAt bs 0
  let otype := th.extractLsb' 6 2
  let tag := th.extractLsb' 2 4
  let mode := th.extractLsb' 0 2
  if mode == 0#2 then return .l2TileRaw otype tag
  else if mode == 1#2 then return .l2TileBs otype tag
  else if mode == 2#2 then return .l2TileXb otype tag
  else return .l2TileConst otype tag

/-- `BS2` (R72, R113). -/
def decodeBs2 (bs : List Byte) : Except DecodeError Instr := do
  let bh ← byteAt bs 0
  let count ← decodeCount (bh.extractLsb' 6 2) bs 1
  if bh.getLsbD 5 then return .bs2Lut (bh.extractLsb' 0 5) count
  else return .bs2Aff (bh.extractLsb' 0 5) count

/-- `HUFT` (R73, R156). -/
def decodeHufTable (bs : List Byte) : Except DecodeError Instr := do
  let hversion ← word32At bs 0
  let size ← word32At bs 4
  let i0 ← word32At bs 8
  let i1 ← word32At bs 12
  return .hufTable hversion size i0 i1

/-- The record the bytes hold at a position. Total: bytes that are no record are rejected by name. -/
def decodeAt : StreamPos → List Byte → Except DecodeError Instr
  | .command, bs => decodeCommand bs
  | .ident, bs => decodeIdent bs
  | .czHdr, bs => decodeCzHdr bs
  | .czMsec, bs => decodeCzMsec bs
  | .czPsec, bs => decodeCzPsec bs
  | .czBlock, bs => decodeCzBlock bs
  | .rle, bs => decodeRle bs
  | .l2Hdr, bs => decodeL2Hdr bs
  | .l2Mask, bs => decodeL2Mask bs
  | .l2Ranges, _ => .ok .l2Ranges
  | .l2Flag, bs => decodeL2Flag bs
  | .l2Hf, bs => decodeL2Hf bs
  | .l2Tile, bs => decodeL2Tile bs
  | .bs2, bs => decodeBs2 bs
  | .hufTable, bs => decodeHufTable bs

/-- The longest fixed part of a record: `L2.HDR` of version 4 and 5 after its identifier (R67). -/
def maxRecordBytes : Nat := 60

/-! ## The encoder -/

/-- Where a record stands in the stream. Internal operations have no encoding (R79). -/
def Instr.streamPos : Instr → Option StreamPos
  | .cmdGo _ => some .command
  | .idCntz _ _ => some .ident
  | .idLerc2 _ => some .ident
  | .czHdr _ _ _ _ _ => some .czHdr
  | .czMsec _ _ _ _ => some .czMsec
  | .czPsec _ _ _ _ => some .czPsec
  | .czRaw _ => some .czBlock
  | .czBs _ _ _ => some .czBlock
  | .czConst _ => some .czBlock
  | .czRsvd _ => some .czBlock
  | .rleLit _ => some .rle
  | .rleRep _ => some .rle
  | .rleEnd => some .rle
  | .rleZero => some .rle
  | .l2Hdr _ => some .l2Hdr
  | .l2Mask _ => some .l2Mask
  | .l2Ranges => some .l2Ranges
  | .l2Sweep _ => some .l2Flag
  | .l2Body => some .l2Flag
  | .l2HfTiles => some .l2Hf
  | .l2HfDelta => some .l2Hf
  | .l2HfPlain => some .l2Hf
  | .l2TileRaw _ _ => some .l2Tile
  | .l2TileBs _ _ => some .l2Tile
  | .l2TileXb _ _ => some .l2Tile
  | .l2TileConst _ _ => some .l2Tile
  | .bs2Aff _ _ => some .bs2
  | .bs2Lut _ _ => some .bs2
  | .hufTable _ _ _ _ => some .hufTable
  | .unpkL _ _ _ => none
  | .unpkM _ _ _ => none
  | .remapAff _ _ _ _ _ => none
  | .remapLut _ => none
  | .maskExpand => none
  | .f32Sum _ _ => none
  | .hufBuild => none
  | .hufSym => none
  | .hufPlane _ => none
  | .constSurf _ => none
  | .maskAnd => none
  | .reshape => none

def le32 (w : Word) : List Byte := leBytes 4 w.toNat

def le64 (w : BitVec 64) : List Byte := leBytes 8 w.toNat

/-- A block header byte: selector, four zero bits, mode (R65). -/
def czHeaderByte (off : CzOffset) (mode : BitVec 2) : Byte := off.otype ++ 0#4 ++ mode

/-- A tile header byte: selector, tag, mode (R71). -/
def tileHeaderByte (otype : BitVec 2) (tag : BitVec 4) (mode : BitVec 2) : Byte := otype ++ tag ++ mode

/-- A `BS2` header byte: count selector, table flag, code width (R72). -/
def bs2HeaderByte (count : CountField) (lutf : Bool) (numBits : BitVec 5) : Byte :=
  count.ctype ++ BitVec.ofBool lutf ++ numBits

/-- The bytes of an `L2.HDR` record after the identifier (R67). -/
def encodeL2Header : L2Header → List Byte
  | .unsupported v => le32 v
  | .fields v checksum height width numDims numValid mbs blobSize imageType maxZError zMin zMax =>
    le32 v ++ (if 3 ≤ v.toInt then le32 checksum else []) ++ le32 height ++ le32 width
      ++ (if 4 ≤ v.toInt then le32 numDims else []) ++ le32 numValid ++ le32 mbs ++ le32 blobSize ++ le32 imageType
      ++ le64 maxZError ++ le64 zMin ++ le64 zMax

/-- The bytes of an instruction, from the same tables. Empty for what has no encoding: an internal operation, and
`L2.RANGES`, which is all payload. -/
def encode : Instr → List Byte
  | .cmdGo ignored => le32 (ignored ++ 1#1)
  | .idCntz leading space => if leading then space :: cntzMagic else cntzMagic ++ [space]
  | .idLerc2 sixth => lercMagic ++ [sixth]
  | .czHdr version imageType height width maxZError =>
    le32 version ++ le32 imageType ++ le32 height ++ le32 width ++ le64 maxZError
  | .czMsec nby nbx numBytes maxValue => le32 nby ++ le32 nbx ++ le32 numBytes ++ le32 maxValue
  | .czPsec nby nbx numBytes maxValue => le32 nby ++ le32 nbx ++ le32 numBytes ++ le32 maxValue
  | .czRaw off => czHeaderByte off 0#2 :: off.bytes
  | .czBs off bits count =>
    czHeaderByte off 1#2 :: off.bytes
      ++ (if off = .invalid then [] else (count.ctype ++ bits : BitVec 8) :: count.bytes)
  | .czConst off => czHeaderByte off 2#2 :: off.bytes
  | .czRsvd hb => [hb]
  | .rleLit run => leBytes 2 run.toNat
  | .rleRep run => leBytes 2 run.toNat
  | .rleEnd => leBytes 2 0x8000
  | .rleZero => leBytes 2 0
  | .l2Hdr header => encodeL2Header header
  | .l2Mask numBytes => le32 numBytes
  | .l2Ranges => []
  | .l2Sweep flag => [flag]
  | .l2Body => [0#8]
  | .l2HfTiles => [0#8]
  | .l2HfDelta => [1#8]
  | .l2HfPlain => [2#8]
  | .l2TileRaw otype tag => [tileHeaderByte otype tag 0#2]
  | .l2TileBs otype tag => [tileHeaderByte otype tag 1#2]
  | .l2TileXb otype tag => [tileHeaderByte otype tag 2#2]
  | .l2TileConst otype tag => [tileHeaderByte otype tag 3#2]
  | .bs2Aff numBits count => bs2HeaderByte count false numBits :: count.bytes
  | .bs2Lut numBits count => bs2HeaderByte count true numBits :: count.bytes
  | .hufTable hversion size i0 i1 => le32 hversion ++ le32 size ++ le32 i0 ++ le32 i1
  | .unpkL _ _ _ => []
  | .unpkM _ _ _ => []
  | .remapAff _ _ _ _ _ => []
  | .remapLut _ => []
  | .maskExpand => []
  | .f32Sum _ _ => []
  | .hufBuild => []
  | .hufSym => []
  | .hufPlane _ => []
  | .constSurf _ => []
  | .maskAnd => []
  | .reshape => []

/-! ## One word of the opcode table -/

/-- The position a table word is decoded at. Several rows share one word (`CZ.RAW`, `L2.BODY`, `L2.HF.TILES`,
`L2.TILE.RAW` and `BS2.AFF` are all the byte 00): the table names the position in words only. The first row, in the
table's order, whose match the word is exactly is taken; failing that, the first whose mask accepts it (DESIGN CHOICE,
log 13). -/
def tablePos (nbits w : Nat) : Option StreamPos :=
  if nbits = 8 then
    let hb := BitVec.ofNat 8 w
    some (if hb == 0x20#8 then .bs2
      else if hb &&& 0x3C#8 == 0#8 || hb &&& 0x03#8 == 0x03#8 then .czBlock
      else .l2Tile)
  else if nbits = 16 then some .rle
  else if nbits = 32 then some (if w % 2 = 1 then .command else .l2Mask)
  else if nbits = 48 || nbits = 80 then some .ident
  else if nbits = 128 then some .czMsec
  else if nbits = 192 then some .czHdr
  else if nbits = 416 || nbits = 448 || nbits = 480 then some .l2Hdr
  else none

/-- A table word as the stream holds it: its bytes in order, then zeros. -/
def tableBytes (nbits w : Nat) : List Byte :=
  leBytes (nbits / 8) w ++ List.replicate maxRecordBytes 0#8

/-- The instruction the decoder reads from a word of the opcode table. -/
def decodeTableWord (nbits w : Nat) : Option Instr :=
  match tablePos nbits w with
  | none => none
  | some pos => (decodeAt pos (tableBytes nbits w)).toOption

end Sys2Proof
end

