-- ==== Sys2Proof/Config.lean ====
section
/-!
DEFINITION. What an implementation fixes (`spec/00_scope.md` R5, `spec/45_lerc2.md` R243) and the free values
(`spec/93_implementation_defined.md`, treatment "any value").
-/

namespace Sys2Proof

/-- The element type with a given code, read modulo 8 (R7). -/
def EType.ofCode (c : BitVec 3) : EType :=
  if c == 0#3 then .i8 else if c == 1#3 then .u8 else if c == 2#3 then .i16 else if c == 3#3 then .u16
  else if c == 4#3 then .i32 else if c == 5#3 then .u32 else if c == 6#3 then .f32 else .f64

/-- The code of an element type (R7). -/
def EType.code : EType → BitVec 3
  | .i8 => 0#3 | .u8 => 1#3 | .i16 => 2#3 | .u16 => 3#3 | .i32 => 4#3 | .u32 => 5#3 | .f32 => 6#3 | .f64 => 7#3

/-- The configuration record: the open parameters of R5 and the origin map of R243, one row of four entries for each
image type. A machine is made with one record and no step changes it. -/
structure Config where
  inMax : Nat
  pixMax : Nat
  dimMax : Nat
  bandMax : Nat
  hufSymMax : Nat
  originMap : List (List (Option EType))
  deriving DecidableEq, Repr

/-- The bounds R5 puts on the parameters, and the bound the 16-bit symbol fields of R19 put on the alphabet
(DEDUCED, log 16). -/
abbrev Config.wf (c : Config) : Prop :=
  c.inMax < 4294967296 ∧ c.pixMax < 4294967296 ∧ 1 ≤ c.dimMax ∧ 1 ≤ c.bandMax ∧ 256 ≤ c.hufSymMax ∧ c.hufSymMax ≤ 65536

/-- The default origin map, the same for every image type: 0 float32, 1 int32, 2 int16, 3 int8 (R243). -/
def Config.defaultOriginMap : List (List (Option EType)) :=
  List.replicate 8 [some .f32, some .i32, some .i16, some .i8]

/-- The record the reset machine is made with: the largest limits R5 allows, the smallest alphabet (DESIGN CHOICE,
log 3). -/
def Config.default : Config :=
  { inMax := 4294967295, pixMax := 4294967295, dimMax := 4294967295, bandMax := 4294967295, hufSymMax := 256,
    originMap := Config.defaultOriginMap }

/-- Width cap of the Huffman quick table (R5). -/
def Config.quickBitsMax : Nat := 12

/-- Fletcher-32 pairs between reductions (R5, R146). -/
def Config.f32Block : Nat := 359

/-- The places where a value is left open: each has its own free values. -/
inductive FreeSite where
  | step        -- NaN of `step = 2 * maxZError` (R109)
  | mul         -- NaN of the affine remap's product (R109)
  | add         -- NaN of the affine remap's sum (R109)
  | lutMul      -- the same two in a table load (R118)
  | lutAdd
  | cross       -- NaN of a cross-band sum (R248)
  | origin      -- NaN of a binary32 base offset or origin taken to binary64 (R74, R255)
  | widen       -- NaN of a binary32 value taken to binary64 (R255)
  | stat        -- NaN of a binary32 maximum taken to binary64 for the statistics (R202)
  | narrow      -- NaN of a binary64 value stored as binary32 (R112)
  | hostRead    -- a host read of an unspecified value (R323, U3)
  | result      -- a `RES` register after a fault (R291, U1)
  deriving DecidableEq, Repr

/-- The free values: nothing constrains them. The first argument is a counter every step advances, the last the
element concerned. -/
opaque Config.freeBits : Nat → FreeSite → Nat → BitVec 64

end Sys2Proof
end

