-- ==== Sys2Proof/Machine/Memory.lean ====
section
/-!
DEFINITION. A memory as plain data: (address, value) pairs, addresses strictly rising. An address that is not listed
holds no value: `spec/10_state.md` gives no memory a reset content and forbids reading before the first write (log 4).
-/

namespace Sys2Proof.Machine

/-- A memory of values of type `α`. `Memory (BitVec 8)` is a list of `Host.Cell`. -/
abbrev Memory (α : Type) := List (Nat × α)

/-- The canonical form: addresses strictly rising. No entry can equal what an unlisted address reads as, since that is
no value, so equal memories are equal lists. -/
abbrev Memory.wf {α : Type} (m : Memory α) : Prop := (m.map Prod.fst).Pairwise (· < ·)

/-- The value at an address, if it has been written. -/
def Memory.read {α : Type} : Memory α → Nat → Option α
  | [], _ => none
  | (x, v) :: rest, a => if x = a then some v else Memory.read rest a

/-- Write one element, keeping the canonical form. -/
def Memory.write {α : Type} : Memory α → Nat → α → Memory α
  | [], a, v => [(a, v)]
  | (x, w) :: rest, a, v =>
    if a < x then (a, v) :: (x, w) :: rest
    else if a = x then (a, v) :: rest
    else (x, w) :: Memory.write rest a v

/-- The entries that put a list of values at consecutive addresses. -/
def Memory.cellsFrom {α : Type} (base : Nat) : List α → Memory α
  | [] => []
  | v :: vs => (base, v) :: Memory.cellsFrom (base + 1) vs

/-- Write a list of values at consecutive addresses, keeping the canonical form. -/
def Memory.writeRange {α : Type} (m : Memory α) (base : Nat) (vs : List α) : Memory α :=
  m.filter (fun c => c.1 < base) ++ (Memory.cellsFrom base vs ++ m.filter (fun c => base + vs.length ≤ c.1))

/-- Write a list of (address, value) pairs, in order. -/
def Memory.writeAll {α : Type} (m : Memory α) (cells : List (Nat × α)) : Memory α :=
  cells.foldl (fun acc c => Memory.write acc c.1 c.2) m

end Sys2Proof.Machine
end

