-- ==== Sys2Proof/Machine/State.lean ====
section
/-!
DEFINITION. The state of the machine as plain data: every register, table and memory of `spec/10_state.md`, the local
state the rules name, and the model's own fields (each marked so). Reset values: `spec/70_reset_and_hazards.md` R316.
-/

namespace Sys2Proof.Machine

/-- The container of the current blob, `H.FMT` (R16). -/
inductive Format where
  | none | cntz | lerc2
  deriving DecidableEq, Repr

/-- The unpacker's convention, `H.CONV` (R16, R101). -/
inductive Conv where
  | legacy | msbf
  deriving DecidableEq, Repr

/-- One element of `PIX`: a value of a type of R7, its bits in the low `8 * esize` bits. -/
structure Elem where
  ty : EType
  bits : BitVec 64
  deriving DecidableEq, Repr

/-- The `H` group (R16) without `DIMMIN` and `DIMMAX`, which are memories of State. -/
structure HGroup where
  fmt : Format
  blob0 : Word
  version : Word
  checksum : Word
  height : Word
  width : Word
  nDim : Word
  nValid : Word
  mbs : Word
  blobSize : Word
  imgType : Word
  maxZErr : F64
  zMin : F64
  zMax : F64
  mNby : Word
  mNbx : Word
  mBytes : Word
  mMaxVal : F32
  maskBytes : Word
  nby : Word
  nbx : Word
  pixBytes : Word
  maxVal : F32
  etype : EType
  conv : Conv
  deriving DecidableEq, Repr

/-- The `T` group: the current tile or block (R17). -/
structure TGroup where
  y0 : Word
  x0 : Word
  height : Word
  width : Word
  dim : Word
  mode : BitVec 2
  otype : BitVec 2
  xband : Bool
  offset : F64
  bits : BitVec 6
  nVal : Word
  lutf : Bool
  nLut : BitVec 8
  cnt : Word
  deriving DecidableEq, Repr

/-- A bit cursor: base address of word 0, word index, bits consumed in the current word (R13, R159). -/
structure BitCursor where
  base : Word
  widx : Word
  bit : BitVec 6
  deriving DecidableEq, Repr

/-- The scalars of the Huffman table (R19). -/
structure HufGroup where
  size : Word
  i0 : Word
  i1 : Word
  maxLen : BitVec 6
  qBits : BitVec 4
  nNodes : Word
  deriving DecidableEq, Repr

/-- An entry of the quick table; `len = 0` means miss (R19). -/
structure QEntry where
  len : BitVec 6
  sym : BitVec 16
  deriving DecidableEq, Repr

/-- A node of the trie arena; `none` is NIL (R19). -/
structure TrieNode where
  leaf : Bool
  sym : BitVec 16
  c0 : Option Nat
  c1 : Option Nat
  deriving DecidableEq, Repr

/-- The scalars of the mask state (R21). -/
structure MaskGroup where
  present : Bool
  allVoid : Bool
  count : Word
  held : Bool
  deriving DecidableEq, Repr

/-- The `RES` registers (R14). -/
structure ResGroup where
  width : Word
  height : Word
  nBands : Word
  maskValid : Bool
  encValid : Bool
  ndValid : Bool
  etype : EType
  eof : Word
  noData : F64
  deriving DecidableEq, Repr

/-- The header echo of a band: a copy of the whole `H` group (R22, R280), its per-dimension registers `DIMMIN[d]` and
`DIMMAX[d]` (R16) among them. -/
structure FileInfo where
  h : HGroup
  dimMin : Memory F64
  dimMax : Memory F64
  deriving DecidableEq, Repr

/-- One record of `BSTAT` (R22). The per-dimension lists are empty, and the file info absent, where the spec leaves
them unspecified (versions below 4; U5). -/
structure BandStat where
  min : F64
  max : F64
  etype : EType
  nDim : Word
  dimMin : List F64
  dimMax : List F64
  fileInfo : Option FileInfo
  deriving DecidableEq, Repr

/-- The registers of the `H` group (R16), for a host read of `BSTAT[b].FILEINFO` (R280). -/
inductive HReg where
  | fmt | blob0 | version | checksum | height | width | nDim | nValid | mbs | blobSize | imgType | maxZErr | zMin | zMax
  | mNby | mNbx | mBytes | mMaxVal | maskBytes | nby | nbx | pixBytes | maxVal | etype | conv
  | dimMin (d : Nat)
  | dimMax (d : Nat)
  deriving DecidableEq, Repr

/-- The fields of `BSTAT[b]` a host can read (R22). -/
inductive StatField where
  | min | max | etype | nDim
  | dimMin (d : Nat)
  | dimMax (d : Nat)
  | fileInfo (r : HReg)
  deriving DecidableEq, Repr

/-- What the outside world does (R14, R40, R315, R320). Register accesses name the word, offset `4 * word`. -/
inductive HostEvent where
  /-- The engine takes one step before the next access. -/
  | turn
  | reset
  | writeReg (word : Nat) (value : Word)
  | readReg (word : Nat)
  | writeIn (addr : Nat) (value : Byte)
  | readIn (addr : Nat)
  | readPix (band i : Nat)
  | readMaskx (k : Nat)
  | readCmask (k : Nat)
  | readEncmask (j : Nat)
  | readStat (band : Nat) (field : StatField)
  deriving DecidableEq, Repr

/-- What is due: a record of the stream, an internal operation, or a rule between records (R185, R215, R155, R265,
R257). The model's own field holds it (log 1). -/
inductive Phase where
  | idle
  | bandStart                     -- R269, R270
  | ident                         -- record ID
  | czHdr                         -- record CZ.HDR
  | czSetup                       -- R187, R271
  | czMsec                        -- record CZ.MSEC
  | rle                           -- one run of the mask payload
  | maskExpand                    -- operation MASK.EXPAND
  | maskEnd                       -- R189, R223
  | czPsec                        -- record CZ.PSEC
  | czPrefill                     -- R194
  | czBlock (by_ bx : Nat)        -- one block record
  | czStats                       -- R202
  | l2Hdr                         -- record L2.HDR
  | checksum                      -- operation F32.SUM under R147
  | checksumTest                  -- the comparison of R147
  | l2Setup                       -- R219, R271
  | l2Prefill                     -- R220
  | l2Mask                        -- record L2.MASK
  | constSurf (source : SurfSource)
  | l2Ranges                      -- record L2.RANGES
  | rangesTest                    -- R228
  | l2Flag                        -- first L2F byte
  | l2Hf                          -- second L2F byte
  | hufTable                      -- record HUF.TABLE
  | bs2 (ty tx d : Nat)           -- record BS2; the tile it belongs to when not bare
  | hufCodes                      -- R158 (lengths), R161 to R164
  | hufBuild                      -- operation HUF.BUILD
  | hufAlign                      -- R165
  | hufPlane                      -- operation HUF.PLANE
  | hufEnd                        -- R179
  | l2Tile (ty tx d : Nat)        -- one tile record
  | tileDeliver (ty tx d : Nat)   -- the delivery loop of R245
  | l2Stats                       -- R251
  | bandEnd                       -- R203, R262
  | maskAnd                       -- operation MASK.AND
  | bandTail                      -- R278, R280, R272, R273
  | sweep                         -- R275
  | reshape                       -- operation RESHAPE
  | finish                        -- R277, R281
  deriving DecidableEq, Repr

/-- The fault codes of R285. -/
inductive ErrCode where
  | magic | version | checksum | rle | blockMode | integrity | typeTag | count | hufVersion
  | trunc | param | cursor | hufCode | lutIndex | hufTable | mask
  deriving DecidableEq, Repr

/-- The memories, for the name of a stop. -/
inductive MemName where
  | input | pix | bitset | maskx | cmask | encmask | bstat | lut | codes | hlen | hcode | qt | trie | dimMin | dimMax
  deriving DecidableEq, Repr

/-- Why the model stops. The hardware's own faults are next states (R290), not these. -/
inductive Fault where
  /-- A rule reads a memory element nothing has written: "a read before the first write is a fault of the model, not a
  value" (10_state.md, opening; the memories are those of R316). No call of R320 reaches one (R316, U2, R322). Raised by
  the readers of Machine/Ops.lean and by the fetch. Safe. -/
  | unwritten (memory : MemName) (index : Nat)
  /-- The host writes `IN` at or past `IN_MAX`: no such byte exists (R40). Raised by Machine/HostPort.lean. Safe. -/
  | inputAddress (addr : Nat)
  deriving DecidableEq, Repr

/-- Why the model gives an access no meaning. -/
inductive Refusal where
  /-- An instruction without a meaning. No arm uses it. Safe. -/
  | notModelled (mnemonic : String)
  /-- `CMD.GO` with `IN_LEN > IN_MAX` or a byte below `IN_LEN` never written: the outcome is unspecified (R322, U4).
  Raised by `execCmdGo`. Safe. -/
  | inputNotReady
  /-- A host write to `IN`, `IN_LEN` or an OPT register while `BUSY`: the outcome is unspecified (R322, U4). Raised by
  Machine/HostPort.lean. Safe. -/
  | writeWhileBusy
  deriving DecidableEq, Repr

/-- The machine. -/
structure State where
  /-- Parameters (R5, R24); no step changes them. -/
  cfg : Config
  -- the input space and the control registers (R14, R40)
  inMem : List Host.Cell
  busy : Bool
  done : Bool
  err : Bool
  errCode : BitVec 8
  errInfo : Word
  inLen : Word
  optOffset : Word
  optFlags : BitVec 6
  optPixelType : BitVec 3
  optNoData : F64
  res : ResGroup
  -- cursors (R12, R13)
  cur : Word
  bs : BitCursor
  hb : BitCursor
  -- header, tile (R16, R17)
  h : HGroup
  dimMin : Memory F64
  dimMax : Memory F64
  t : TGroup
  -- tables (R18, R19)
  lut : Memory F64
  codes : Memory Word
  huf : HufGroup
  hlen : Memory (BitVec 6)
  hcode : Memory Word
  qt : Memory QEntry
  trie : Memory TrieNode
  -- unit work registers (R20)
  fSum1 : Word
  fSum2 : Word
  rlIp : Word
  rlOp : Word
  rlRun : BitVec 16
  hpPrev : Byte
  -- masks and outputs (R21, R22)
  m : MaskGroup
  bitset : Memory Byte
  maskx : Memory Byte
  cmask : Memory Byte
  encmask : Memory Byte
  pix : Memory Elem
  bstat : Memory BandStat
  -- local state the rules name (log 18)
  band : Word
  pstart : Word
  qstep : F64
  val : List F64
  bare : Bool
  planeMode : PlaneMode
  rlBase : Word
  rlBytes : Word
  czMin : Option F64
  -- the model's own
  seq : Phase
  port : List HostEvent
  rdata : BitVec 64
  opResult : BitVec 64
  fresh : Nat
  deriving DecidableEq, Repr

def HGroup.reset : HGroup :=
  { fmt := .none, blob0 := 0#32, version := 0#32, checksum := 0#32, height := 0#32, width := 0#32, nDim := 0#32,
    nValid := 0#32, mbs := 0#32, blobSize := 0#32, imgType := 0#32, maxZErr := 0#64, zMin := 0#64, zMax := 0#64,
    mNby := 0#32, mNbx := 0#32, mBytes := 0#32, mMaxVal := 0#32, maskBytes := 0#32, nby := 0#32, nbx := 0#32,
    pixBytes := 0#32, maxVal := 0#32, etype := .i8, conv := .legacy }

def TGroup.reset : TGroup :=
  { y0 := 0#32, x0 := 0#32, height := 0#32, width := 0#32, dim := 0#32, mode := 0#2, otype := 0#2, xband := false,
    offset := 0#64, bits := 0#6, nVal := 0#32, lutf := false, nLut := 0#8, cnt := 0#32 }

def BitCursor.reset : BitCursor := { base := 0#32, widx := 0#32, bit := 0#6 }

def HufGroup.reset : HufGroup :=
  { size := 0#32, i0 := 0#32, i1 := 0#32, maxLen := 0#6, qBits := 0#4, nNodes := 0#32 }

def MaskGroup.reset : MaskGroup := { present := false, allVoid := false, count := 0#32, held := false }

def ResGroup.reset : ResGroup :=
  { width := 0#32, height := 0#32, nBands := 0#32, maskValid := false, encValid := false, ndValid := false,
    etype := .i8, eof := 0#32, noData := 0#64 }

/-- The reset state of a machine made with a configuration (R316): registers at their reset values, memories with
nothing listed. -/
def State.resetWith (cfg : Config) : State :=
  { cfg := cfg, inMem := [], busy := false, done := false, err := false, errCode := 0#8, errInfo := 0#32,
    inLen := 0#32, optOffset := 0#32, optFlags := 0#6, optPixelType := 0#3, optNoData := 0#64, res := ResGroup.reset,
    cur := 0#32, bs := BitCursor.reset, hb := BitCursor.reset, h := HGroup.reset, dimMin := [], dimMax := [],
    t := TGroup.reset, lut := [], codes := [], huf := HufGroup.reset, hlen := [], hcode := [], qt := [], trie := [],
    fSum1 := 0#32, fSum2 := 0#32, rlIp := 0#32, rlOp := 0#32, rlRun := 0#16, hpPrev := 0#8, m := MaskGroup.reset,
    bitset := [], maskx := [], cmask := [], encmask := [], pix := [], bstat := [], band := 0#32, pstart := 0#32,
    qstep := 0#64, val := [], bare := false, planeMode := .delta, rlBase := 0#32, rlBytes := 0#32, czMin := none,
    seq := .idle, port := [], rdata := 0#64, opResult := 0#64, fresh := 0 }

/-- The machine right after reset (R316, R317: idle, nothing fetched). -/
def State.reset : State := State.resetWith Config.default

end Sys2Proof.Machine
end

