-- ==== Sys2Proof/Machine/Flags.lean ====
section
/-!
DEFINITION. The status flags `BUSY`, `DONE`, `ERR` (`spec/10_state.md` R15): the only flags; no record sets a condition
code. Three rules write them: R266 (`CMD.GO`), R281 (completion), R290 (fault entry).
-/

namespace Sys2Proof.Machine

/-- `GO` moves IDLE, DONE or ERROR to BUSY and clears the error record (R266, R15). -/
def State.flagsGo (s : State) : State :=
  { s with busy := true, done := false, err := false, errCode := 0#8, errInfo := 0#32 }

/-- The end without error: BUSY to DONE (R281). -/
def State.flagsDone (s : State) : State :=
  { s with busy := false, done := true }

/-- The end in a fault: BUSY to ERROR, with the code and the value recorded (R290). -/
def State.flagsErr (s : State) (code : BitVec 8) (info : Word) : State :=
  { s with errCode := code, errInfo := info, busy := false, err := true }

/-- The `STATUS` register: `BUSY` bit 0, `DONE` bit 1, `ERR` bit 2, the rest 0 (R14). -/
def State.statusWord (s : State) : Word :=
  (BitVec.ofBool s.err ++ BitVec.ofBool s.done ++ BitVec.ofBool s.busy).setWidth 32

/-- Exactly one of the four states of R15 holds, and `ERRCODE` and `ERRINFO` are 0 unless `ERR` (R14, R266, R323). -/
abbrev State.flagsOk (s : State) : Prop :=
  ((s.busy = false ∧ s.done = false ∧ s.err = false) ∨ (s.busy = true ∧ s.done = false ∧ s.err = false)
    ∨ (s.busy = false ∧ s.done = true ∧ s.err = false) ∨ (s.busy = false ∧ s.done = false ∧ s.err = true))
  ∧ (s.err = false → s.errCode = 0#8 ∧ s.errInfo = 0#32)

end Sys2Proof.Machine
end

