-- ==== Sys2Proof/Machine/Float.lean ====
section
/-!
DEFINITION. Binary64 arithmetic (`spec/47_arithmetic_and_access.md` R255; `spec/40_bitstream_unpacker.md` R109, R112):
round to nearest, ties to even, no traps, no flushing. Values are computed exactly as integers and narrowed at the end:
every finite binary64 value is an integer multiple of 2^-1074. Where a result is a NaN its sign and payload are a free
value the caller supplies (U6, log 5).
-/

namespace Sys2Proof.Machine

/-! ## Fields -/

def f64Neg (x : F64) : Bool := x.msb

def f64Exp (x : F64) : Nat := x.toNat / 4503599627370496 % 2048

def f64Frac (x : F64) : Nat := x.toNat % 4503599627370496

def f64IsNaN (x : F64) : Bool := f64Exp x == 2047 && f64Frac x != 0

def f64IsInf (x : F64) : Bool := f64Exp x == 2047 && f64Frac x == 0

/-- The magnitude in units of 2^-1074. An infinity's exponent field gives it 2^2098, above every finite magnitude, so
magnitudes also order the infinities. -/
def f64Mag (x : F64) : Nat :=
  if f64Exp x = 0 then f64Frac x else (4503599627370496 + f64Frac x) <<< (f64Exp x - 1)

/-- The signed value in units of 2^-1074. -/
def f64Num (x : F64) : Int := if f64Neg x then -(f64Mag x : Int) else f64Mag x

def f64WithSign (neg : Bool) (bits : Nat) : F64 :=
  BitVec.ofNat 64 (if neg then bits + 9223372036854775808 else bits)

def f64InfBits : Nat := 0x7FF0000000000000

/-- A NaN made of free bits: any sign, any payload but zero (which would be an infinity). -/
def f64FreeNaN (bits : BitVec 64) : F64 :=
  let frac := bits.toNat % 4503599627370496
  f64WithSign bits.msb (f64InfBits + if frac = 0 then 1 else frac)

/-! ## Rounding -/

/-- Round `n` units, `2^k` of which make the format's least step, to a format with `p` fraction bits: nearest, ties to
even. The result is exponent field and fraction as one number, `top` (infinity) on overflow. `q <= 2^(p+1)`, so a carry
out of the fraction enters the exponent field as it should, and exponent field 0 is the subnormal range. -/
def roundPack (p k top n : Nat) : Nat :=
  let sh := max (Nat.log2 n - p) k
  let q := n >>> sh
  let r := n % 2 ^ sh
  let up := if 2 * r > 2 ^ sh || (2 * r == 2 ^ sh && q % 2 == 1) then 1 else 0
  min top ((sh - k) * 2 ^ p + q + up)

/-- Round `n * 2^-(1074 + k)` to binary64. -/
def roundF64 (neg : Bool) (k n : Nat) : F64 := f64WithSign neg (roundPack 52 k f64InfBits n)

/-! ## Arithmetic and comparison (R8, R255) -/

/-- IEEE 754 binary64 addition; `nan` is the NaN it delivers when it delivers one. -/
def fadd (nan a b : F64) : F64 :=
  if f64IsNaN a || f64IsNaN b then nan
  else if f64IsInf a then (if f64IsInf b && f64Neg a != f64Neg b then nan else a)
  else if f64IsInf b then b
  else
    let n := f64Num a + f64Num b
    if n = 0 then f64WithSign (f64Neg a && f64Neg b) 0
    else roundF64 (decide (n < 0)) 0 n.natAbs

/-- IEEE 754 binary64 multiplication; `nan` is the NaN it delivers when it delivers one. -/
def fmul (nan a b : F64) : F64 :=
  let neg := f64Neg a != f64Neg b
  if f64IsNaN a || f64IsNaN b then nan
  else if f64IsInf a || f64IsInf b then
    (if f64Mag a = 0 || f64Mag b = 0 then nan else f64WithSign neg f64InfBits)
  else if f64Mag a = 0 || f64Mag b = 0 then f64WithSign neg 0
  else roundF64 neg 1074 (f64Mag a * f64Mag b)

/-- `a < b`: false when either is a NaN; `-0 = +0`. -/
def flt (a b : F64) : Bool := !f64IsNaN a && !f64IsNaN b && decide (f64Num a < f64Num b)

/-- `a = b`: false when either is a NaN; `-0 = +0`. -/
def feq (a b : F64) : Bool := !f64IsNaN a && !f64IsNaN b && decide (f64Num a = f64Num b)

def fabs (a : F64) : F64 := a &&& 0x7FFFFFFFFFFFFFFF#64

/-! ## Conversions -/

/-- An integer as binary64; exact below 2^53 (R8 `real`). -/
def realOfInt (z : Int) : F64 :=
  if z = 0 then 0#64 else roundF64 (decide (z < 0)) 0 (z.natAbs <<< 1074)

def realOfNat (n : Nat) : F64 := realOfInt n

/-- A binary32 field as binary64, exactly (R255); `nan` when it is a NaN. -/
def widenF32 (nan : F64) (x : F32) : F64 :=
  let e := x.toNat / 8388608 % 256
  let f := x.toNat % 8388608
  if e = 255 then (if f = 0 then f64WithSign x.msb f64InfBits else nan)
  else
    let mag := if e = 0 then f else (8388608 + f) <<< (e - 1)
    if mag = 0 then f64WithSign x.msb 0 else roundF64 x.msb 0 (mag <<< 925)

/-- A binary64 value as binary32, nearest, ties to even (R112); `nan` supplies the sign and payload of a NaN. -/
def narrowF64 (nan : BitVec 64) (v : F64) : F32 :=
  let sign := if f64Neg v then 2147483648 else 0
  if f64IsNaN v then
    let frac := nan.toNat % 8388608
    BitVec.ofNat 32 ((if nan.msb then 2147483648 else 0) + 0x7F800000 + if frac = 0 then 1 else frac)
  else if f64IsInf v then BitVec.ofNat 32 (sign + 0x7F800000)
  else if f64Mag v = 0 then BitVec.ofNat 32 sign
  else BitVec.ofNat 32 (sign + roundPack 23 925 0x7F800000 (f64Mag v))

/-- Truncation toward zero; a NaN or an infinity gives 0 (R112). -/
def truncF64 (v : F64) : Int :=
  if f64Exp v = 2047 then 0
  else if f64Neg v then -((f64Mag v >>> 1074 : Nat) : Int) else ((f64Mag v >>> 1074 : Nat) : Int)

/-! ## Element types (R7) -/

/-- Bytes of an element, `esize` (R7). -/
def esize : EType → Nat
  | .i8 => 1 | .u8 => 1 | .i16 => 2 | .u16 => 2 | .i32 => 4 | .u32 => 4 | .f32 => 4 | .f64 => 8

/-- Truncation, then reduction modulo 2^N (R112). -/
def truncMod (v : F64) (n : Nat) : BitVec 64 := BitVec.ofNat 64 (BitVec.ofInt n (truncF64 v)).toNat

/-- `store_T(v)` (R112); `nan` supplies the sign and payload of a NaN stored as binary32. -/
def storeElem (nan : BitVec 64) (ty : EType) (v : F64) : Elem :=
  { ty := ty,
    bits := match ty with
      | .i8 => truncMod v 8
      | .u8 => truncMod v 8
      | .i16 => truncMod v 16
      | .u16 => truncMod v 16
      | .i32 => truncMod v 32
      | .u32 => truncMod v 32
      | .f32 => (narrowF64 nan v).zeroExtend 64
      | .f64 => v }

/-- The value of an element as binary64, exactly (R74, R112); `nan` when it is a binary32 NaN. -/
def Elem.real (nan : F64) (e : Elem) : F64 :=
  match e.ty with
  | .i8 => realOfInt (e.bits.setWidth 8).toInt
  | .u8 => realOfNat (e.bits.setWidth 8).toNat
  | .i16 => realOfInt (e.bits.setWidth 16).toInt
  | .u16 => realOfNat (e.bits.setWidth 16).toNat
  | .i32 => realOfInt (e.bits.setWidth 32).toInt
  | .u32 => realOfNat (e.bits.setWidth 32).toNat
  | .f32 => widenF32 nan (e.bits.setWidth 32)
  | .f64 => e.bits

/-- `byte(x)`: the integer value of an element modulo 256 (R171). -/
def Elem.byte (e : Elem) : Nat := (BitVec.ofInt 8 (truncF64 (e.real (f64FreeNaN 0#64)))).toNat

/-! ## Constants -/

/-- 2.0 (R111). -/
def f64Two : F64 := 0x4000000000000000#64

/-- 1.0 (R115). -/
def f64One : F64 := 0x3FF0000000000000#64

/-- -0.5 (R234). -/
def f64MinusHalf : F64 := 0xBFE0000000000000#64

/-- The binary64 nearest 0.00001 (R234). -/
def f64Tolerance : F64 := 0x3EE4F8B588E368F1#64

/-- -3.4027999387901484e+38, the legacy default no-data value (R194). -/
def f64LegacyNoData : F64 := 0xC7EFFFF160000000#64

/-- 1.7976931348623157e308, the minimum of a band that delivered nothing (R202). -/
def f64Largest : F64 := 0x7FEFFFFFFFFFFFFF#64

end Sys2Proof.Machine
end

