-- ==== Sys2Proof/Machine/Ops.lean ====
section
/-!
DEFINITION. The operations every unit shares: fault entry, bounds-checked reads of `IN`, the readers of the tables and
output memories, the pixel stores, and the cursor (`spec/60_exceptions.md` R290; `spec/20_memory.md` R44, R47).
-/

namespace Sys2Proof.Machine

/-! ## How a rule ends early -/

/-- A rule that does not complete: the hardware took a fault, with the state after the fault entry; or the model
stops. -/
inductive Stop where
  | halt (s : State)
  | stuck (f : Fault)
  deriving DecidableEq, Repr

/-- A rule: it completes with a value or ends early. -/
abbrev Rule (α : Type) := Except Stop α

/-- The outcome of a rule that ends in a state. -/
def Rule.outcome (r : Rule State) : Host.Outcome State Fault Refusal :=
  match r with
  | .ok s => .next s
  | .error (.halt s) => .next s
  | .error (.stuck f) => .fault f

/-! ## Fault entry (R285, R290, R291). There is no return (R294): only `CMD.GO` or a reset leaves ERROR. -/

/-- The number of a fault code (R285). -/
def ErrCode.number : ErrCode → BitVec 8
  | .magic => 1#8 | .version => 2#8 | .checksum => 3#8 | .rle => 4#8 | .blockMode => 5#8 | .integrity => 6#8
  | .typeTag => 7#8 | .count => 8#8 | .hufVersion => 9#8 | .trunc => 16#8 | .param => 17#8 | .cursor => 18#8
  | .hufCode => 19#8 | .lutIndex => 20#8 | .hufTable => 21#8 | .mask => 22#8

/-- The `RES` registers after a fault: unspecified, so free values (R291, U1, log 7). -/
def freeResults (fresh : Nat) : ResGroup :=
  let w (i : Nat) : BitVec 64 := Config.freeBits fresh .result i
  { width := (w 0).setWidth 32, height := (w 1).setWidth 32, nBands := (w 2).setWidth 32,
    maskValid := (w 3).getLsbD 0, encValid := (w 4).getLsbD 0, ndValid := (w 5).getLsbD 0,
    etype := EType.ofCode ((w 6).setWidth 3), eof := (w 7).setWidth 32, noData := w 8 }

/-- Fault entry: the flags, the code and the value of R290; the outputs become unspecified (R291, R137): the memories
hold no value and the `RES` registers free values. The engine stops. -/
def State.takeFault (s : State) (code : ErrCode) (info : Nat) : State :=
  { s.flagsErr code.number (BitVec.ofNat 32 info) with
    res := freeResults s.fresh, pix := [], bitset := [], maskx := [], cmask := [], encmask := [], bstat := [],
    seq := .idle }

/-- `raise E_x(info)`. -/
def raise {α : Type} (s : State) (code : ErrCode) (info : Nat) : Rule α :=
  .error (.halt (s.takeFault code info))

/-- `raise E_x` if a test holds; else go on. -/
def raiseIf (s : State) (test : Bool) (code : ErrCode) (info : Nat) : Rule Unit :=
  if test then raise s code info else .ok ()

/-- The value read, or the stop the spec asks of a model for a read before the first write (10_state.md, opening; R316;
log 4). -/
def written {α : Type} (mem : MemName) (index : Nat) : Option α → Rule α
  | some v => .ok v
  | none => .error (.stuck (.unwritten mem index))

/-! ## The cursor -/

/-- `CUR <- CUR + n` (R12). -/
def State.advance (s : State) (n : Nat) : State := { s with cur := s.cur + BitVec.ofNat 32 n }

/-! ## Reads of `IN` -/

/-- The bounds check of `MemRead(a, n)` (R44). -/
def memCheck (s : State) (a n : Nat) : Rule Unit :=
  if a + n ≤ s.inLen.toNat then .ok () else raise s .trunc a

/-- One byte of `IN`, already inside the bounds. -/
def inByte (s : State) (a : Nat) : Rule Byte := written .input a (Memory.read s.inMem a)

/-- The `n` bytes from `a`, already inside the bounds. -/
def inBytes (s : State) : Nat → Nat → Rule (List Byte)
  | _, 0 => .ok []
  | a, n + 1 => do
    let x ← inByte s a
    let xs ← inBytes s (a + 1) n
    return x :: xs

/-- `MemRead(a, n)` (R8, R44). -/
def memRead (s : State) (a n : Nat) : Rule (List Byte) := do
  memCheck s a n
  inBytes s a n

/-- The little-endian number in `n` bytes (R8 `u8`, `u16`, `u32`; R47). -/
def readLe (s : State) (a n : Nat) : Rule Nat := do
  return leNat (← memRead s a n)

/-- `elem_T(a)`: one value of an element type (R8). -/
def readElem (s : State) (ty : EType) (a : Nat) : Rule Elem := do
  return { ty := ty, bits := BitVec.ofNat 64 (← readLe s a (esize ty)) }

/-- `n` consecutive values of an element type. -/
def readElems (s : State) (ty : EType) : Nat → Nat → Rule (List Elem)
  | _, 0 => .ok []
  | a, n + 1 => do
    let e ← readElem s ty a
    let es ← readElems s ty (a + (esize ty)) n
    return e :: es

/-! ## Free values -/

def State.freeNaN (s : State) (site : FreeSite) (i : Nat) : F64 := f64FreeNaN (Config.freeBits s.fresh site i)

/-! ## The pixel memory -/

/-- The address of `PIX[b][i]`: band and index in one key. DESIGN CHOICE (log 26). The indices a call uses are below
`PIX_MAX < 2^32` (R5, R217), and the host cannot name one at or above 2^32 (`State.pixelOutput`), so no two elements share
a key. -/
def pixKey (b i : Nat) : Nat := b * 4294967296 + i

/-- `real` of an element; a binary32 NaN takes free bits. -/
def State.elemReal (s : State) (i : Nat) (e : Elem) : F64 := e.real (s.freeNaN .widen i)

/-- `real` of consecutive elements, numbered from `base`. -/
def State.elemReals (s : State) (base : Nat) (es : List Elem) : List F64 :=
  es.zipIdx.map fun c => s.elemReal (base + c.2) c.1

/-- The cell that stores `store_T(v)` at `PIX[b][i]` (R112). -/
def State.pixCell (s : State) (ty : EType) (b i : Nat) (v : F64) : Nat × Elem :=
  (pixKey b i, storeElem (Config.freeBits s.fresh .narrow (pixKey b i)) ty v)

def State.putPix (s : State) (cells : List (Nat × Elem)) : State :=
  { s with pix := Memory.writeAll s.pix cells }

/-- The current band's `PIX[b][i]`. -/
def State.readPix (s : State) (b i : Nat) : Rule Elem :=
  written .pix (pixKey b i) (Memory.read s.pix (pixKey b i))

/-! ## Image geometry -/

/-- `ceil(a / b)`. -/
def ceilDiv (a b : Nat) : Nat := (a + b - 1) / b

/-- `NP` (R8). -/
def State.np (s : State) : Nat := s.h.width.toNat * s.h.height.toNat

/-- The pixel indices of the current tile, row-major (R196, R244). -/
def State.tilePixels (s : State) : List Nat :=
  (List.range s.t.height.toNat).flatMap fun y =>
    (List.range s.t.width.toNat).map fun x => (s.t.y0.toNat + y) * s.h.width.toNat + s.t.x0.toNat + x

/-- `valid(k)` (R21). -/
def State.valid (s : State) (k : Nat) : Rule Bool :=
  if s.m.present then do
    let x ← written .maskx k (Memory.read s.maskx k)
    return x == 1#8
  else .ok !s.m.allVoid

/-- The valid ones among some pixels, in order. -/
def State.validOf (s : State) : List Nat → Rule (List Nat)
  | [] => .ok []
  | k :: ks => do
    let v ← s.valid k
    let rest ← s.validOf ks
    return if v then k :: rest else rest

/-- The valid pixels of the current tile, in row-major order (R200). -/
def State.tileValid (s : State) : Rule (List Nat) := s.validOf s.tilePixels

/-- `nvalid(mask)` (R140). -/
def State.nvalid (s : State) : Rule Nat := do
  return (← s.validOf (List.range s.np)).length

end Sys2Proof.Machine
end

