-- ==== Sys2Proof/Machine/Fletcher.lean ====
section
/-!
DEFINITION. The Fletcher-32 engine (`spec/42_fletcher32.md`): `F32.SUM`.
-/

namespace Sys2Proof.Machine

/-- The end-around carry fold of one sum (R146). -/
def carryFold (x : Nat) : Nat := x % 65536 + x / 65536

/-- The sums over the rest of a byte list, `t` pairs into a block. A block of 359 pairs is folded when it is full, a
shorter last block when the pairs run out, and an odd last byte is the high half of a pair that is not in a block
(R146). The result is before the final fold. -/
def fletcherSums : List Byte → Nat → Nat → Nat → Nat × Nat
  | x :: y :: rest, t, s1, s2 =>
    let s1' := s1 + x.toNat * 256 + y.toNat
    let s2' := s2 + s1'
    if t + 1 = Config.f32Block then fletcherSums rest 0 (carryFold s1') (carryFold s2')
    else fletcherSums rest (t + 1) s1' s2'
  | [x], t, s1, s2 =>
    let a := if t = 0 then s1 else carryFold s1
    let b := if t = 0 then s2 else carryFold s2
    (a + x.toNat * 256, b + (a + x.toNat * 256))
  | [], t, s1, s2 => if t = 0 then (s1, s2) else (carryFold s1, carryFold s2)

/-- Both sums after the final fold (R146). -/
def fletcher (bytes : List Byte) : Nat × Nat :=
  let r := fletcherSums bytes 0 0xFFFF 0xFFFF
  (carryFold r.1, carryFold r.2)

/-- The 32-bit result: `+`, not OR, modulo 2^32 (R146, R148). -/
def fletcherWord (bytes : List Byte) : Word :=
  BitVec.ofNat 32 ((fletcher bytes).2 * 65536 + (fletcher bytes).1)

/-- `F32.SUM` (R146): the sums, and the result in the result register (log 19). -/
def f32Sum (s : State) (a len : Nat) : Rule State := do
  let bytes ← memRead s a len
  return { s with fSum1 := BitVec.ofNat 32 (fletcher bytes).1, fSum2 := BitVec.ofNat 32 (fletcher bytes).2,
                  opResult := (fletcherWord bytes).setWidth 64 }

def execF32Sum (a len : Word) (s : State) : Host.Outcome State Fault Refusal := (f32Sum s a.toNat len.toNat).outcome

end Sys2Proof.Machine
end

