-- ==== Sys2Proof/Machine/Operands.lean ====
section
/-!
DEFINITION. Operand forms: offset and count fields, origin fields, element types, the clamp bound, and the ways values
are handed to pixels (`spec/30_encoding.md` R74; `spec/45_lerc2.md` R241 to R243, R248).
-/

namespace Sys2Proof.Machine

/-- The block offset as binary64 (R74, R195); a binary32 NaN takes free bits. -/
def State.czOffsetReal (s : State) : CzOffset → F64
  | .float32 x => widenF32 (s.freeNaN .origin 0) x
  | .int16 v => realOfInt v.toInt
  | .int8 v => realOfInt v.toInt
  | .invalid => s.t.offset

/-- A count, zero-extended (R74). -/
def CountField.value : CountField → Nat
  | .uint32 n => n.toNat | .uint16 n => n.toNat | .uint8 n => n.toNat | .invalid => 0

/-- The native element type of a Lerc2 band, from `H.IMGTYPE` in 0..7 (R7, R217). -/
def State.imgEType (s : State) : EType := EType.ofCode (s.h.imgType.setWidth 3)

/-- `es` (45_lerc2.md). -/
def State.imgSize (s : State) : Nat := esize s.imgEType

/-- `ORIGIN_MAP(H.IMGTYPE, otype)` (R243). -/
def State.originType (s : State) (otype : BitVec 2) : Option EType :=
  (s.cfg.originMap.getD s.h.imgType.toNat []).getD otype.toNat none

/-- `zmax(d)`: `DIMMAX[d]` from version 4 on, else `H.ZMAX` (R241, R295). -/
def State.zmax (s : State) (d : Nat) : Rule F64 :=
  if 4 ≤ s.h.version.toInt then written .dimMax d (Memory.read s.dimMax d) else .ok s.h.zMax

/-- The element type of the output: the override, else the given type (R187, R219). -/
def State.outType (s : State) (own : EType) : EType :=
  if s.optFlags.getLsbD 0 then EType.ofCode s.optPixelType else own

/-- The origin field of modes 1 and 3 (R242): its type, its value, the advance. -/
def originField (s : State) : Rule State := do
  match s.originType s.t.otype with
  | none => raise s .typeTag (s.cur - 1#32).toNat
  | some ot =>
    let e ← readElem s ot s.cur.toNat
    return { s with t := { s.t with offset := e.real (s.freeNaN .origin 0) } }.advance (esize ot)

/-- The values of a band's pixels `ks` of dimension `d` are `vs`, stored by `store_T` in order (R200, R244). -/
def State.deliver (s : State) (d : Nat) (ks : List Nat) (vs : List F64) : State :=
  { s.putPix ((ks.zip vs).map fun c => s.pixCell s.h.etype s.band.toNat (d * s.np + c.1) c.2) with
    t := { s.t with cnt := s.t.cnt + BitVec.ofNat 32 (min ks.length vs.length) } }

/-- `xsum(k, delta)`, the cross-band sum (R248). -/
def xsum (s : State) (k : Nat) (delta : F64) : Rule F64 := do
  let zm ← s.zmax s.t.dim.toNat
  let i := (s.t.dim.toNat - 1) * s.np + k
  let ref ← s.readPix s.band.toNat i
  let v := fadd (s.freeNaN .cross k) (s.elemReal i ref) delta
  return if flt zm v then zm else v

/-- The cross-band sums of the values of some pixels. -/
def xsumAll (s : State) : List Nat → List F64 → Rule (List F64)
  | k :: ks, v :: vs => do
    let x ← xsum s k v
    let xs ← xsumAll s ks vs
    return x :: xs
  | _, _ => .ok []

/-- The values of the current tile's valid pixels as they are stored: the cross-band sums when the flag is set (R245,
R249). -/
def tileValues (s : State) (ks : List Nat) (vs : List F64) : Rule (List F64) :=
  if s.t.xband then xsumAll s ks vs else .ok vs

end Sys2Proof.Machine
end

