-- ==== Sys2Proof/Machine/Bsu.lean ====
section
/-!
DEFINITION. The bit-stream unpacker (`spec/40_bitstream_unpacker.md`): `UNPK.L`, `UNPK.M`, `REMAP.AFF`, `REMAP.LUT`,
`BS2.AFF`, `BS2.LUT`.
-/

namespace Sys2Proof.Machine

/-! ## Extraction (R103 to R106) -/

/-- `NB = ceil(n*k/8)` (R100). -/
def packedBytes (n k : Nat) : Nat := ceilDiv (n * k) 8

/-- Word `i` of a stream; bytes past its end count as 0 (R103). -/
def streamWord (bytes : List Byte) (i : Nat) : Nat := leNat ((bytes.drop (4 * i)).take 4)

/-- The words of a stream as `UNPK.L` reads them (R103). -/
def wordsL (bytes : List Byte) : List Nat :=
  (List.range (ceilDiv bytes.length 4)).map (streamWord bytes)

/-- The words of a stream as `UNPK.M` reads them: a partial last word is moved to the top (R104). -/
def wordsM (bytes : List Byte) : List Nat :=
  (List.range (ceilDiv bytes.length 4)).map fun i =>
    let r := bytes.length % 4
    if r ≠ 0 ∧ i + 1 = ceilDiv bytes.length 4 then (streamWord bytes i <<< (8 * (4 - r))) % 4294967296
    else streamWord bytes i

/-- The extraction loop of `UNPK.M` (R104) from word index and bit count; also the final cursor. -/
def takeCodesM (ws : List Nat) (k : Nat) : Nat → Nat → Nat → List Nat × Nat × Nat
  | 0, w, b => ([], w, b)
  | n + 1, w, b =>
    let avail := 32 - b
    if k ≤ avail then
      let code := (ws.getD w 0 >>> (avail - k)) % 2 ^ k
      let r := if b + k = 32 then takeCodesM ws k n (w + 1) 0 else takeCodesM ws k n w (b + k)
      (code :: r.1, r.2)
    else
      let m := k - avail
      let code := ((ws.getD w 0 % 2 ^ avail) <<< m) + (ws.getD (w + 1) 0 >>> (32 - m))
      let r := takeCodesM ws k n (w + 1) m
      (code :: r.1, r.2)

/-- The extraction loop of `UNPK.L` (R105). -/
def takeCodesL (ws : List Nat) (k : Nat) : Nat → Nat → Nat → List Nat × Nat × Nat
  | 0, w, b => ([], w, b)
  | n + 1, w, b =>
    let avail := 32 - b
    if k ≤ avail then
      let code := (ws.getD w 0 >>> b) % 2 ^ k
      let r := if b + k = 32 then takeCodesL ws k n (w + 1) 0 else takeCodesL ws k n w (b + k)
      (code :: r.1, r.2)
    else
      let m := k - avail
      let code := (ws.getD w 0 >>> b) + ((ws.getD (w + 1) 0 % 2 ^ m) <<< avail)
      let r := takeCodesL ws k n (w + 1) m
      (code :: r.1, r.2)

/-- The codes in a stream and the final cursor; a width of 0 gives zeros (R106). -/
def extractCodes (conv : Conv) (bytes : List Byte) (n k : Nat) : List Nat × Nat × Nat :=
  if k = 0 then (List.replicate n 0, 0, 0)
  else match conv with
    | .legacy => takeCodesL (wordsL bytes) k n 0 0
    | .msbf => takeCodesM (wordsM bytes) k n 0 0

/-- The state after an extraction: `CODES` and the `BS` cursor (R13, R100). -/
def State.withCodes (s : State) (a : Nat) (r : List Nat × Nat × Nat) : State :=
  { s with codes := Memory.writeRange s.codes 0 (r.1.map (BitVec.ofNat 32)),
           bs := { base := BitVec.ofNat 32 a, widx := BitVec.ofNat 32 r.2.1, bit := BitVec.ofNat 6 r.2.2 } }

/-- `UNPK(A, n, k, conv)` (R100 to R106): the codes, and the state with `CODES` and the cursor written. `CUR` does not
move. -/
def unpk (s : State) (conv : Conv) (a n k : Nat) : Rule (List Nat × State) := do
  raiseIf s (decide (32 < k)) .param s.cur.toNat
  let bytes ← if k = 0 then .ok [] else memRead s a (packedBytes n k)
  let r := extractCodes conv bytes n k
  return (r.1, s.withCodes a r)

/-! ## Remapping (R108 to R111) -/

/-- `REMAP.AFF` (R108); the first two arguments are the NaNs its product and its sum deliver (R109). -/
def remapAff (nanMul nanAdd : F64) (c : Nat) (off step vmax : F64) (clamp : Bool) : F64 :=
  let v := fadd nanAdd off (fmul nanMul (realOfNat c) step)
  if clamp && flt vmax v then vmax else v

/-- `REMAP.LUT` (R110). -/
def remapLut (s : State) (c : Nat) : Rule F64 := do
  raiseIf s (decide (s.t.nLut.toNat ≤ c)) .lutIndex s.cur.toNat
  written .lut c (Memory.read s.lut c)

def remapLutAll (s : State) : List Nat → Rule (List F64)
  | [] => .ok []
  | c :: cs => do
    let v ← remapLut s c
    let vs ← remapLutAll s cs
    return v :: vs

/-- The affine remap of a list of codes, the NaNs of code `o` being the free values of index `o` (R114). -/
def State.remapCodes (s : State) (off step vmax : F64) (clamp : Bool) (cs : List Nat) : List F64 :=
  cs.zipIdx.map fun c => remapAff (s.freeNaN .mul c.2) (s.freeNaN .add c.2) c.1 off step vmax clamp

/-- The affine remap of the stored entries of a lookup table (R118). -/
def State.remapEntries (s : State) (off step vmax : F64) (clamp : Bool) (cs : List Nat) : List F64 :=
  cs.zipIdx.map fun c => remapAff (s.freeNaN .lutMul c.2) (s.freeNaN .lutAdd c.2) c.1 off step vmax clamp

/-! ## The BS2 record (R113 to R118) -/

/-- The caller's operands of a `BS2` record: base offset, step, bound, clamp (R114, R115, R245). -/
structure RemapArgs where
  off : F64
  step : F64
  vmax : F64
  clamp : Bool
  deriving DecidableEq, Repr

/-- In a tile: the origin, the band's step, `zmax` of the dimension, the clamp unless cross-band (R245). Bare: 0, 1, no
clamp (R115). -/
def bs2Args (s : State) : Rule RemapArgs :=
  if s.bare then .ok { off := 0#64, step := f64One, vmax := 0#64, clamp := false }
  else do
    let zm ← s.zmax s.t.dim.toNat
    return { off := s.t.offset, step := s.qstep, vmax := zm, clamp := !s.t.xband }

/-- The header and the count checks (R113, R116, R246). -/
def bs2Head (s : State) (lutf : Bool) (numBits : BitVec 5) (count : CountField) : Rule State := do
  let s1 := { s with t := { s.t with bits := numBits.setWidth 6, lutf := lutf } }
  raiseIf s1 (decide (count = .invalid)) .typeTag s.cur.toNat
  let s2 := { s1 with t := { s1.t with nVal := BitVec.ofNat 32 (CountField.value count) } }.advance (1 + count.len)
  if s2.bare then
    raiseIf s2 (decide (s2.cfg.hufSymMax < CountField.value count)) .param s2.cur.toNat
    return s2
  else
    let ks ← s2.tileValid
    raiseIf s2 (decide (CountField.value count ≠ ks.length)) .count s2.cur.toNat
    return s2

/-- `BS2.AFF` (R114). Bare codes are kept as exact binary64 numbers (R115, log 17). -/
def bs2Aff (s : State) (numBits : BitVec 5) (count : CountField) : Rule State := do
  let s1 ← bs2Head s false numBits count
  let args ← bs2Args s1
  let (codes, s2) ← unpk s1 s1.h.conv s1.cur.toNat s1.t.nVal.toNat numBits.toNat
  let s3 := s2.advance (packedBytes s1.t.nVal.toNat numBits.toNat)
  return { s3 with
    val := if s3.bare then codes.map realOfNat else s3.remapCodes args.off args.step args.vmax args.clamp codes }

/-- `kIdx`: the number of bits of `n` (R117). -/
def bitLength (n : Nat) : Nat := if n = 0 then 0 else Nat.log2 n + 1

/-- The table load (R118). -/
def lutLoad (s : State) (args : RemapArgs) : Rule State := do
  let n := s.t.nLut.toNat - 1
  let (entries, s1) ← unpk s s.h.conv s.cur.toNat n s.t.bits.toNat
  let s2 := s1.advance (packedBytes n s.t.bits.toNat)
  return { s2 with
    lut := Memory.writeRange s2.lut 0 (args.off :: s2.remapEntries args.off args.step args.vmax args.clamp entries) }

/-- `BS2.LUT` (R117). -/
def bs2Lut (s : State) (numBits : BitVec 5) (count : CountField) : Rule State := do
  let s1 ← bs2Head s true numBits count
  let nLut ← readLe s1 s1.cur.toNat 1
  let s2 := { s1 with t := { s1.t with nLut := BitVec.ofNat 8 nLut } }.advance 1
  raiseIf s2 (decide (nLut = 0)) .param s2.cur.toNat
  let args ← bs2Args s2
  let s3 ← lutLoad s2 args
  let k := bitLength (nLut - 1)
  let (indices, s4) ← unpk s3 s3.h.conv s3.cur.toNat s3.t.nVal.toNat k
  let s5 := s4.advance (packedBytes s3.t.nVal.toNat k)
  let vs ← remapLutAll s5 indices
  return { s5 with val := vs }

/-! ## Meanings -/

def execUnpkL (a n : Word) (k : BitVec 6) (s : State) : Host.Outcome State Fault Refusal :=
  Rule.outcome do return (← unpk s .legacy a.toNat n.toNat k.toNat).2

def execUnpkM (a n : Word) (k : BitVec 6) (s : State) : Host.Outcome State Fault Refusal :=
  Rule.outcome do return (← unpk s .msbf a.toNat n.toNat k.toNat).2

/-- `REMAP.AFF`: the result `v` goes to the result register (log 19). -/
def execRemapAff (c : Word) (off step vmax : F64) (clamp : Bool) (s : State) : Host.Outcome State Fault Refusal :=
  .next { s with opResult := remapAff (s.freeNaN .mul 0) (s.freeNaN .add 0) c.toNat off step vmax clamp }

/-- `REMAP.LUT`: the result `LUT[c]` goes to the result register (log 19). -/
def execRemapLut (c : Word) (s : State) : Host.Outcome State Fault Refusal :=
  Rule.outcome do return { s with opResult := ← remapLut s c.toNat }

def execBs2Aff (numBits : BitVec 5) (count : CountField) (s : State) : Host.Outcome State Fault Refusal :=
  (bs2Aff s numBits count).outcome

def execBs2Lut (numBits : BitVec 5) (count : CountField) (s : State) : Host.Outcome State Fault Refusal :=
  (bs2Lut s numBits count).outcome

end Sys2Proof.Machine
end

