-- ==== Sys2Proof/Machine/Rmd.lean ====
section
/-!
DEFINITION. The run-length mask decoder (`spec/41_rle_mask.md`): `RLE.LIT`, `RLE.REP`, `RLE.END`, `RLE.ZERO`,
`MASK.EXPAND`.
-/

namespace Sys2Proof.Machine

/-- `L = ceil(NP/8)` (R130). -/
def State.maskBytes (s : State) : Nat := ceilDiv s.np 8

/-- The call of the RMD at `CUR` (R130): one bounds check, then the run loop starts. -/
def rmdStart (s : State) (numBytes : Word) : Rule State := do
  memCheck s s.cur.toNat numBytes.toNat
  return { s with rlBase := s.cur, rlBytes := numBytes, rlIp := 0#32, rlOp := 0#32 }

/-- The address `A + RL.IP`. -/
def State.rlAddr (s : State) : Nat := s.rlBase.toNat + s.rlIp.toNat

/-- The run header is consumed (R132). -/
def State.rlHead (s : State) (run : BitVec 16) : State := { s with rlRun := run, rlIp := s.rlIp + 2#32 }

/-- `BITSET[RL.OP ..] <- bytes`; `RL.IP` and `RL.OP` advance (R133, R134). -/
def State.rlPut (s : State) (consumed : Nat) (bytes : List Byte) : State :=
  { s with bitset := Memory.writeRange s.bitset s.rlOp.toNat bytes,
           rlIp := s.rlIp + BitVec.ofNat 32 consumed, rlOp := s.rlOp + BitVec.ofNat 32 bytes.length }

/-- `RLE.LIT` (R133). -/
def rleLit (s0 : State) (run : BitVec 16) : Rule State := do
  let s := s0.rlHead run
  let n := run.toNat
  raiseIf s (decide (s.rlBytes.toNat < s.rlIp.toNat + n)) .rle s.rlAddr
  raiseIf s (decide (s.maskBytes < s.rlOp.toNat + n)) .rle s.rlAddr
  let bytes ← memRead s s.rlAddr n
  return s.rlPut n bytes

/-- The count of a repeat run: minus the header (R134). -/
def repeatCount (run : BitVec 16) : Nat := (-run).toNat

/-- `RLE.REP` (R134). -/
def rleRep (s0 : State) (run : BitVec 16) : Rule State := do
  let s := s0.rlHead run
  let n := repeatCount run
  raiseIf s (decide (s.rlBytes.toNat < s.rlIp.toNat + 1)) .rle s.rlAddr
  raiseIf s (decide (s.maskBytes < s.rlOp.toNat + n)) .rle s.rlAddr
  let bytes ← memRead s s.rlAddr 1
  return s.rlPut 1 (List.replicate n (bytes.headD 0#8))

/-- `RLE.END` (R135). -/
def rleEnd (s0 : State) : Rule State := do
  let s := s0.rlHead 0x8000#16
  raiseIf s (decide (s.rlOp.toNat ≠ s.maskBytes)) .rle s.rlAddr
  raiseIf s (decide (s.rlIp ≠ s.rlBytes)) .rle s.rlAddr
  return s

/-- `RLE.ZERO` (R136): always `E_RLE`, at the run header. -/
def rleZero (s0 : State) : Rule State := raise (s0.rlHead 0#16) .rle s0.rlAddr

/-- Pixel `k` of a byte of the bitset (R138). -/
def maskBit (x : Byte) (k : Nat) : Byte := if x.getLsbD (7 - k % 8) then 1#8 else 0#8

/-- `MASKX[k]` from `BITSET` for some pixels (R139). -/
def expandBits (s : State) : List Nat → Rule (List Byte)
  | [] => .ok []
  | k :: ks => do
    let x ← written .bitset (k / 8) (Memory.read s.bitset (k / 8))
    let xs ← expandBits s ks
    return maskBit x k :: xs

/-- `MASK.EXPAND` (R139). -/
def maskExpand (s : State) : Rule State := do
  let xs ← expandBits s (List.range s.np)
  return { s with maskx := Memory.writeRange s.maskx 0 xs }

/-! ## Meanings -/

def execRleLit (run : BitVec 16) (s : State) : Host.Outcome State Fault Refusal := (rleLit s run).outcome

def execRleRep (run : BitVec 16) (s : State) : Host.Outcome State Fault Refusal := (rleRep s run).outcome

def execRleEnd (s : State) : Host.Outcome State Fault Refusal := (rleEnd s).outcome

def execRleZero (s : State) : Host.Outcome State Fault Refusal := (rleZero s).outcome

def execMaskExpand (s : State) : Host.Outcome State Fault Refusal := (maskExpand s).outcome

end Sys2Proof.Machine
end

