-- ==== Sys2Proof/Machine/CntZ.lean ====
section
/-!
DEFINITION. The CntZImage decoder (`spec/44_cntzimage.md`): `CZ.HDR`, `CZ.MSEC`, `CZ.PSEC`, `CZ.RAW`, `CZ.BS`,
`CZ.CONST`, `CZ.RSVD`, and the rules between them (R187, R194, R202).
-/

namespace Sys2Proof.Machine

/-! ## Header and sections -/

/-- `CZ.HDR` (R186). `CUR` stands at the identifier. -/
def czHdr (s : State) (version imageType height width : Word) (maxZError : F64) : Rule State := do
  let s1 := { s with h := { s.h with version := version, imgType := imageType, height := height, width := width,
                                     maxZErr := maxZError, nDim := 1#32 } }
  raiseIf s1 (decide (width = 0#32 ∨ height = 0#32 ∨ s.cfg.pixMax < width.toNat * height.toNat)) .param s.cur.toNat
  raiseIf s1 (decide (s.band ≠ 0#32 ∧ (width ≠ s.res.width ∨ height ≠ s.res.height))) .param s.cur.toNat
  return s1.advance 34

/-- In band 0, the results the header settles (R271). -/
def State.firstBandResults (s : State) : State :=
  if s.band = 0#32 then
    { s with res := { s.res with width := s.h.width, height := s.h.height, etype := s.h.etype } }
  else s

/-- Element type, convention and step of a legacy band (R187, R101, R111, R271). -/
def czSetup (s : State) : State :=
  { s with h := { s.h with etype := s.outType .f32, conv := .legacy },
           qstep := fmul (s.freeNaN .step 0) f64Two s.h.maxZErr }.firstBandResults

/-- `CZ.MSEC` (R188) and the start of its payload (R189), or no mask (R190). -/
def czMsec (s : State) (nby nbx numBytes : Word) (maxValue : F32) : Rule State :=
  let s1 := { s with h := { s.h with mNby := nby, mNbx := nbx, mBytes := numBytes, mMaxVal := maxValue } }.advance 16
  if numBytes = 0#32 then .ok { s1 with m := { s1.m with present := false, allVoid := false } }
  else rmdStart s1 numBytes

/-- `CZ.PSEC` (R192). -/
def czPsec (s : State) (nby nbx numBytes : Word) (maxValue : F32) : Rule State := do
  let s1 := { s with h := { s.h with nby := nby, nbx := nbx, pixBytes := numBytes, maxVal := maxValue } }
  raiseIf s1 (decide (nbx = 0#32 ∨ nby = 0#32 ∨ s.h.width.toNat < nbx.toNat ∨ s.h.height.toNat < nby.toNat)) .param
    s.cur.toNat
  let s2 := s1.advance 16
  return { s2 with pstart := s2.cur }

/-! ## The grid (R193) -/

/-- Width and height of a full tile, columns and rows of tiles (R193). -/
def State.czTileW (s : State) : Nat := ceilDiv s.h.width.toNat s.h.nbx.toNat

def State.czTileH (s : State) : Nat := ceilDiv s.h.height.toNat s.h.nby.toNat

def State.czCols (s : State) : Nat := ceilDiv s.h.width.toNat s.czTileW

def State.czRows (s : State) : Nat := ceilDiv s.h.height.toNat s.czTileH

/-- The tile `(by, bx)` becomes the current one (R193). -/
def czEnter (s : State) (by_ bx : Nat) : State :=
  let x0 := bx * s.czTileW
  let y0 := by_ * s.czTileH
  { s with t := { s.t with x0 := BitVec.ofNat 32 x0, y0 := BitVec.ofNat 32 y0,
                           width := BitVec.ofNat 32 (min s.czTileW (s.h.width.toNat - x0)),
                           height := BitVec.ofNat 32 (min s.czTileH (s.h.height.toNat - y0)) },
           seq := .czBlock by_ bx }

/-- The no-data value of a legacy band (R194). -/
def State.czNoData (s : State) : F64 := if s.optFlags.getLsbD 1 then s.optNoData else f64LegacyNoData

/-- The elements a pre-fill writes: `store_T(ND)` at every index below `n` of the current band (R194, R220). -/
def State.fillBand (s : State) (n : Nat) (nd : F64) : State :=
  let b := s.band.toNat
  let elems := (List.range n).map fun i => (s.pixCell s.h.etype b i nd).2
  { s with pix := Memory.writeRange s.pix (pixKey b 0) elems }

/-- Pre-fill (R194). No value has been delivered yet (R202). -/
def czPrefill (s : State) : State :=
  { s.fillBand s.np s.czNoData with
    res := { s.res with noData := s.czNoData, ndValid := true }, czMin := none }

/-! ## Blocks (R195 to R201) -/

/-- The running minimum of the values delivered, NaNs skipped (R202). -/
def runMin (acc : Option F64) (vs : List F64) : Option F64 :=
  vs.foldl (fun m v =>
    if f64IsNaN v then m
    else match m with
      | none => some v
      | some x => if flt v x then some v else some x) acc

/-- The values go to the tile's valid pixels and into the running minimum (R200, R202). -/
def czDeliver (s : State) (ks : List Nat) (vs : List F64) : State :=
  { s.deliver 0 ks vs with czMin := runMin s.czMin vs }

/-- The block header and the offset field, read for all three modes (R195). -/
def czHead (s : State) (mode : BitVec 2) (off : CzOffset) : Rule State := do
  let s1 := { s with t := { s.t with mode := mode, otype := off.otype } }
  raiseIf s1 (decide (off = .invalid)) .typeTag s.cur.toNat
  return { s1 with t := { s1.t with offset := s1.czOffsetReal off, cnt := 0#32 } }.advance (1 + off.len)

/-- `CZ.RAW` (R196): the offset is read and not used. -/
def czRaw (s : State) (off : CzOffset) : Rule State := do
  let s1 ← czHead s 0#2 off
  let ks ← s1.tileValid
  memCheck s1 s1.cur.toNat (4 * ks.length)
  let es ← readElems s1 .f32 s1.cur.toNat ks.length
  return (czDeliver s1 ks (s1.elemReals 0 es)).advance (4 * ks.length)

/-- `CZ.BS` (R197, R201). -/
def czBs (s : State) (off : CzOffset) (bitsPerPixel : BitVec 6) (count : CountField) : Rule State := do
  let s1 ← czHead s 1#2 off
  let s2 := { s1 with t := { s1.t with bits := bitsPerPixel } }
  raiseIf s2 (decide (count = .invalid)) .typeTag s2.cur.toNat
  let s3 := { s2 with t := { s2.t with nVal := BitVec.ofNat 32 (CountField.value count) } }.advance (1 + count.len)
  raiseIf s3 (decide (32 < bitsPerPixel.toNat)) .param s3.cur.toNat
  let ks ← s3.tileValid
  raiseIf s3 (decide (CountField.value count ≠ ks.length)) .count s3.cur.toNat
  let (codes, s4) ← unpk s3 .legacy s3.cur.toNat (CountField.value count) bitsPerPixel.toNat
  let s5 := s4.advance (packedBytes (CountField.value count) bitsPerPixel.toNat)
  let vs := s5.remapCodes s5.t.offset s5.qstep (widenF32 (s5.freeNaN .stat 0) s5.h.maxVal) true codes
  return czDeliver s5 ks vs

/-- `CZ.CONST` (R198). No clamp. -/
def czConst (s : State) (off : CzOffset) : Rule State := do
  let s1 ← czHead s 2#2 off
  let ks ← s1.tileValid
  return czDeliver s1 ks (List.replicate ks.length s1.t.offset)

/-- `CZ.RSVD` (R199): always `E_BLOCK_MODE`, at the header byte. -/
def czRsvd (s : State) : Rule State := raise s .blockMode s.cur.toNat

/-! ## End of band -/

/-- Put a record into `BSTAT`. -/
def State.putStat (s : State) (st : BandStat) : State :=
  { s with bstat := Memory.write s.bstat s.band.toNat st }

/-- Statistics of a legacy band (R202). -/
def czStats (s : State) : State :=
  s.putStat { min := s.czMin.getD f64Largest, max := widenF32 (s.freeNaN .stat 0) s.h.maxVal, etype := s.h.etype,
              nDim := 1#32, dimMin := [], dimMax := [], fileInfo := none }

/-! ## Meanings -/

def execCzHdr (version imageType height width : Word) (maxZError : F64) (s : State) :
    Host.Outcome State Fault Refusal :=
  (czHdr s version imageType height width maxZError).outcome

def execCzMsec (nby nbx numBytes : Word) (maxValue : F32) (s : State) : Host.Outcome State Fault Refusal :=
  (czMsec s nby nbx numBytes maxValue).outcome

def execCzPsec (nby nbx numBytes : Word) (maxValue : F32) (s : State) : Host.Outcome State Fault Refusal :=
  (czPsec s nby nbx numBytes maxValue).outcome

def execCzRaw (off : CzOffset) (s : State) : Host.Outcome State Fault Refusal := (czRaw s off).outcome

def execCzBs (off : CzOffset) (bitsPerPixel : BitVec 6) (count : CountField) (s : State) :
    Host.Outcome State Fault Refusal :=
  (czBs s off bitsPerPixel count).outcome

def execCzConst (off : CzOffset) (s : State) : Host.Outcome State Fault Refusal := (czConst s off).outcome

/-- The header byte has no operand: every reserved byte does the same. -/
def execCzRsvd (_header : Byte) (s : State) : Host.Outcome State Fault Refusal := (czRsvd s).outcome

end Sys2Proof.Machine
end

