-- ==== Sys2Proof/Machine/Huffman.lean ====
section
/-!
DEFINITION. The Huffman decoder (`spec/43_huffman.md`): `HUF.TABLE`, `HUF.BUILD`, `HUF.SYM`, `HUF.PLANE`, and the rules
between them (R158, R161 to R165, R179).
-/

namespace Sys2Proof.Machine

/-! ## The table header (R156) -/

/-- `HUF.TABLE` (R156). The record after it is a bare `BS2` (R158). -/
def hufTable (s : State) (hversion size i0 i1 : Word) : Rule State := do
  let s1 := { s with huf := { s.huf with size := size, i0 := i0, i1 := i1 }, bare := true }
  raiseIf s1 (decide (hversion.toInt < 2)) .hufVersion s.cur.toNat
  raiseIf s1 (decide (size.toInt < 1 ∨ (s.cfg.hufSymMax : Int) < size.toInt)) .hufTable s.cur.toNat
  raiseIf s1 (decide (i0.toInt < 0 ∨ i1.toInt ≤ i0.toInt)) .hufTable s.cur.toNat
  raiseIf s1 (decide (size.toInt < i1.toInt - i0.toInt ∨ 2 * size.toInt < i1.toInt)) .hufTable s.cur.toNat
  return s1.advance 16

/-! ## The bit reader (R159, R160) -/

/-- `pos = 32*HB.WIDX + HB.BIT`. -/
def State.hbPos (s : State) : Nat := 32 * s.hb.widx.toNat + s.hb.bit.toNat

/-- The address of the current word. -/
def State.hbAddr (s : State) : Nat := s.hb.base.toNat + 4 * s.hb.widx.toNat

/-- The address of the byte that holds stream bit `t`: bit `31 - (t mod 32)` of the little-endian word at
`HB.BASE + 4*floor(t/32)` (R159). -/
def State.bitByte (s : State) (t : Nat) : Nat := s.hb.base.toNat + 4 * (t / 32) + (31 - t % 32) / 8

/-- Stream bit `t` (R159); 0 in a byte at or past `IN_LEN` (R160). -/
def hbit (s : State) (t : Nat) : Rule Bool :=
  if s.inLen.toNat ≤ s.bitByte t then .ok false
  else do
    let x ← inByte s (s.bitByte t)
    return x.getLsbD ((31 - t % 32) % 8)

/-- `m` bits from position `t`, the first most significant, appended to `acc`. -/
def peekFrom (s : State) : Nat → Nat → Nat → Rule Nat
  | 0, _, acc => .ok acc
  | m + 1, t, acc => do
    let b ← hbit s t
    peekFrom s m (t + 1) (2 * acc + b.toNat)

/-- `peek(m)` (R159). -/
def peek (s : State) (m : Nat) : Rule Nat := peekFrom s m s.hbPos 0

/-- Move the bit cursor to a position. -/
def State.setHbPos (s : State) (pos : Nat) : State :=
  { s with hb := { s.hb with widx := BitVec.ofNat 32 (pos / 32), bit := BitVec.ofNat 6 (pos % 32) } }

/-- The next `m` bits may be consumed: the bit count of R159 holds, and no bit lies in a byte at or past `IN_LEN` (R160,
R44, U13). When `IN_LEN - HB.BASE` is no multiple of 4 the count alone would let such a bit through. DEDUCED (log 25): both
are required. -/
abbrev State.consumable (s : State) (m : Nat) : Prop :=
  s.hbPos + m + 8 * s.hb.base.toNat ≤ 8 * s.inLen.toNat ∧ ∀ j < m, s.bitByte (s.hbPos + j) < s.inLen.toNat

/-- `consume(m)` (R159, R160). -/
def consume (s : State) (m : Nat) : Rule State :=
  if s.consumable m then .ok (s.setHbPos (s.hbPos + m)) else raise s .trunc s.hbAddr

/-! ## Lengths and codes (R157, R158, R161 to R164) -/

/-- `sym(i)`: the index wraps once (R157). -/
def hufIndex (size i : Nat) : Nat := if i < size then i else i - size

/-- The serialized indices `HUF.I0 .. HUF.I1 - 1`, as symbols (R157). -/
def State.hufSymbols (s : State) : List Nat :=
  (List.range (s.huf.i1.toNat - s.huf.i0.toNat)).map fun j => hufIndex s.huf.size.toNat (s.huf.i0.toNat + j)

/-- The lengths of R158: all 0, then one for each serialized index. -/
def hufLengths (s : State) : Rule State := do
  let syms := s.hufSymbols
  raiseIf s (decide (s.t.nVal.toNat ≠ syms.length)) .hufTable s.cur.toNat
  let lens := s.val.map fun v => (truncF64 v).toNat
  raiseIf s (lens.any fun l => decide (32 < l)) .hufTable s.cur.toNat
  let zeros := Memory.writeRange s.hlen 0 (List.replicate s.huf.size.toNat 0#6)
  return { s with hlen := Memory.writeAll zeros (syms.zip (lens.map (BitVec.ofNat 6))) }

/-- `HLEN[s]`. -/
def State.hlenOf (s : State) (sym : Nat) : Rule Nat := do
  return (← written .hlen sym (Memory.read s.hlen sym)).toNat

/-- `HCODE[s]`. -/
def State.hcodeOf (s : State) (sym : Nat) : Rule Nat := do
  return (← written .hcode sym (Memory.read s.hcode sym)).toNat

/-- The stored codes, in index order (R162). -/
def readCodes (s : State) : List Nat → Rule State
  | [] => .ok s
  | sym :: syms => do
    let l ← s.hlenOf sym
    if l = 0 then readCodes s syms
    else
      let code ← peek s l
      let s1 ← consume { s with hcode := Memory.write s.hcode sym (BitVec.ofNat 32 code) } l
      readCodes s1 syms

/-- A code of the table: symbol, length, bits. -/
structure HufEntry where
  sym : Nat
  len : Nat
  code : Nat
  deriving DecidableEq, Repr

/-- The symbols with a code, in increasing order. -/
def entriesOf (s : State) : List Nat → Rule (List HufEntry)
  | [] => .ok []
  | sym :: syms => do
    let l ← s.hlenOf sym
    if l = 0 then entriesOf s syms
    else
      let code ← s.hcodeOf sym
      let rest ← entriesOf s syms
      return { sym := sym, len := l, code := code } :: rest

def State.hufEntries (s : State) : Rule (List HufEntry) := entriesOf s (List.range s.huf.size.toNat)

/-- One code equals, or is a prefix of, the other (R163). -/
def HufEntry.clash (x y : HufEntry) : Bool :=
  (x.len ≤ y.len && y.code >>> (y.len - x.len) == x.code) || (y.len ≤ x.len && x.code >>> (x.len - y.len) == y.code)

/-- Some two entries clash. -/
def anyClash : List HufEntry → Bool
  | [] => false
  | x :: xs => xs.any x.clash || anyClash xs

/-- The rule after the length record: lengths (R158), start of the bit stream (R161), stored codes (R162), checks
(R163), the two scalars (R164). -/
def hufCodes (s : State) : Rule State := do
  let s1 ← hufLengths s
  let s2 := { s1 with hb := { base := s1.cur, widx := 0#32, bit := 0#6 } }
  let s3 ← readCodes s2 s2.hufSymbols
  let entries ← s3.hufEntries
  raiseIf s3 entries.isEmpty .hufTable s3.cur.toNat
  raiseIf s3 (anyClash entries) .hufTable s3.cur.toNat
  let maxLen := (entries.map HufEntry.len).foldl max 0
  return { s3 with huf := { s3.huf with maxLen := BitVec.ofNat 6 maxLen,
                                        qBits := BitVec.ofNat 4 (min maxLen Config.quickBitsMax) } }

/-- Alignment after the table (R165). -/
def hufAlign (s : State) : Rule State :=
  .ok (if s.hb.bit = 0#6 then s else { s with hb := { s.hb with widx := s.hb.widx + 1#32, bit := 0#6 } })

/-! ## The two lookup structures (R166, R167) -/

/-- The quick table's cells for one code: every index whose top `len` bits are the code (R166). -/
def quickCells (q : Nat) (e : HufEntry) : List (Nat × QEntry) :=
  (List.range (2 ^ (q - e.len))).map fun j =>
    ((e.code <<< (q - e.len)) + j, { len := BitVec.ofNat 6 e.len, sym := BitVec.ofNat 16 e.sym })

def buildQuick (s : State) (entries : List HufEntry) : State :=
  let q := s.huf.qBits.toNat
  let miss := Memory.writeRange s.qt 0 (List.replicate (2 ^ q) { len := 0#6, sym := 0#16 })
  { s with qt := Memory.writeAll miss ((entries.filter fun e => e.len ≤ q).flatMap (quickCells q)) }

def emptyNode : TrieNode := { leaf := false, sym := 0#16, c0 := none, c1 := none }

def TrieNode.child (n : TrieNode) (bit : Bool) : Option Nat := if bit then n.c1 else n.c0

def TrieNode.link (n : TrieNode) (bit : Bool) (c : Nat) : TrieNode :=
  if bit then { n with c1 := some c } else { n with c0 := some c }

/-- Insert the remaining bits of a code below a node, most significant first (R167). -/
def trieInsert (sym : Nat) : List Bool → Nat → State → Rule State
  | [], node, s => do
    let n ← written .trie node (Memory.read s.trie node)
    return { s with trie := Memory.write s.trie node { n with leaf := true, sym := BitVec.ofNat 16 sym } }
  | bit :: bits, node, s => do
    let n ← written .trie node (Memory.read s.trie node)
    match n.child bit with
    | some c => trieInsert sym bits c s
    | none =>
      let c := s.huf.nNodes.toNat
      let trie := Memory.write (Memory.write s.trie c emptyNode) node (n.link bit c)
      trieInsert sym bits c { s with trie := trie, huf := { s.huf with nNodes := s.huf.nNodes + 1#32 } }

/-- The bits of a code, most significant first. -/
def codeBits (e : HufEntry) : List Bool :=
  (List.range e.len).map fun j => (e.code >>> (e.len - 1 - j)) % 2 == 1

def trieInsertAll : List HufEntry → State → Rule State
  | [], s => .ok s
  | e :: es, s => do
    let s1 ← trieInsert e.sym (codeBits e) 0 s
    trieInsertAll es s1

/-- `HUF.BUILD` (R166, R167). -/
def hufBuild (s : State) : Rule State := do
  let entries ← s.hufEntries
  let s1 := buildQuick s entries
  let s2 := { s1 with trie := Memory.write s1.trie 0 emptyNode, huf := { s1.huf with nNodes := 1#32 } }
  trieInsertAll (entries.filter fun e => decide (s.huf.qBits.toNat < e.len)) s2

/-! ## One symbol (R168) -/

/-- The descent: `left` more bits may be read, `taken` have been. -/
def trieDescend (s : State) : Nat → Nat → Nat → Rule (Nat × Nat)
  | 0, _, _ => raise s .hufCode s.hbAddr
  | left + 1, taken, node => do
    let p ← peek s (taken + 1)
    let n ← written .trie node (Memory.read s.trie node)
    match n.child (p % 2 == 1) with
    | none => raise s .hufCode s.hbAddr
    | some c =>
      let m ← written .trie c (Memory.read s.trie c)
      if m.leaf then return (m.sym.toNat, taken + 1) else trieDescend s left (taken + 1) c

/-- `HUF.SYM` (R168): the symbol, and the state with the bit cursor moved past its code. -/
def hufSym (s : State) : Rule (Nat × State) := do
  let q ← peek s s.huf.qBits.toNat
  let e ← written .qt q (Memory.read s.qt q)
  if e.len ≠ 0#6 then
    let s1 ← consume s e.len.toNat
    return (e.sym.toNat, s1)
  else
    let r ← trieDescend s s.huf.maxLen.toNat 0 0
    let s1 ← consume s r.2
    return (r.1, s1)

/-! ## The plane (R170 to R174) -/

/-- `bias` (R170). -/
def State.bias (s : State) : Int := if s.h.imgType = 0#32 then 128 else 0

/-- The byte value as the band's image type reads it (R171). -/
def State.planeValue (s : State) (v8 : Byte) : F64 :=
  if s.h.imgType = 0#32 then realOfInt v8.toInt else realOfNat v8.toNat

/-- The predictor of pixel `k` of dimension `d` (R171): the left neighbour, else the sample above, else the last value. -/
def predictor (s : State) (d k : Nat) : Rule Nat := do
  let w := s.h.width.toNat
  let left ← if k % w = 0 then .ok false else s.valid (k - 1)
  if left then return s.hpPrev.toNat
  else
    let above ← if k < w then .ok false else s.valid (k - w)
    if above then return (← s.readPix s.band.toNat (d * s.np + k - w)).byte
    else return s.hpPrev.toNat

/-- One valid pixel with accumulation (R171). -/
def deltaPixel (s : State) (d k : Nat) : Rule State := do
  let (sym, s1) ← hufSym s
  let pred ← predictor s1 d k
  let v8 := BitVec.ofInt 8 (sym - s1.bias + pred)
  return { s1.putPix [s1.pixCell s1.h.etype s1.band.toNat (d * s1.np + k) (s1.planeValue v8)] with hpPrev := v8 }

/-- One sample without accumulation (R173). -/
def plainSample (s : State) (d k : Nat) : Rule State := do
  let (sym, s1) ← hufSym s
  return s1.putPix [s1.pixCell s1.h.etype s1.band.toNat (d * s1.np + k) (realOfInt (sym - s1.bias))]

/-- The samples of a list of (dimension, pixel) pairs, one after another. -/
def planeLoop (f : State → Nat → Nat → Rule State) : List (Nat × Nat) → State → Rule State
  | [], s => .ok s
  | c :: cs, s => do
    let s1 ← f s c.1 c.2
    planeLoop f cs s1

/-- With accumulation: dimension outermost, `HP.PREV` reset for each (R171). -/
def deltaDims (ks : List Nat) : List Nat → State → Rule State
  | [], s => .ok s
  | d :: ds, s => do
    let s1 ← planeLoop deltaPixel (ks.map fun k => (d, k)) { s with hpPrev := 0#8 }
    deltaDims ks ds s1

/-- `HUF.PLANE` (R171, R173). Without accumulation the dimension is innermost. -/
def hufPlane (s : State) (mode : PlaneMode) : Rule State := do
  let ks ← s.validOf (List.range s.np)
  match mode with
  | .delta => deltaDims ks (List.range s.h.nDim.toNat) s
  | .plain => planeLoop plainSample (ks.flatMap fun k => (List.range s.h.nDim.toNat).map fun d => (d, k)) s

/-- The end of the Huffman data (R179): the rest of the word and one padding word. -/
def hufEnd (s : State) : Rule State := do
  let used := s.hb.widx.toNat + (if s.hb.bit = 0#6 then 0 else 1) + 1
  let stop := s.hb.base.toNat + 4 * used
  raiseIf s (decide (s.inLen.toNat < stop)) .trunc s.hbAddr
  return { s with cur := BitVec.ofNat 32 stop }

/-! ## Meanings -/

def execHufTable (hversion size i0 i1 : Word) (s : State) : Host.Outcome State Fault Refusal :=
  (hufTable s hversion size i0 i1).outcome

def execHufBuild (s : State) : Host.Outcome State Fault Refusal := (hufBuild s).outcome

/-- `HUF.SYM`: the symbol goes to the result register (log 19). -/
def execHufSym (s : State) : Host.Outcome State Fault Refusal :=
  Rule.outcome do
    let (sym, s1) ← hufSym s
    return { s1 with opResult := BitVec.ofNat 64 sym }

def execHufPlane (mode : PlaneMode) (s : State) : Host.Outcome State Fault Refusal := (hufPlane s mode).outcome

end Sys2Proof.Machine
end

