-- ==== Sys2Proof/Machine/Lerc2.lean ====
section
/-!
DEFINITION. The Lerc2 decoder (`spec/45_lerc2.md`): `L2.HDR`, `L2.MASK`, `L2.RANGES`, `L2.SWEEP`, `L2.BODY`,
`L2.HF.TILES`, `L2.HF.DELTA`, `L2.HF.PLAIN`, the four tile records, `CONST.SURF`, and the rules between them.
-/

namespace Sys2Proof.Machine

/-! ## Header (R216, R217) -/

/-- `HL(v)` (R67). -/
def headerLength (v : Int) : Nat := if v < 3 then 58 else if v < 4 then 62 else 66

/-- The header checks of R217, in one test: all of them raise `E_PARAM(H.BLOB0)`. -/
def State.badHeader (s : State) : Bool :=
  s.h.width == 0#32 || s.h.height == 0#32
  || s.h.nDim == 0#32 || decide (s.cfg.dimMax < s.h.nDim.toNat)
  || decide (s.cfg.pixMax < s.np * s.h.nDim.toNat)
  || !(decide (0 ≤ s.h.imgType.toInt) && decide (s.h.imgType.toInt ≤ 7))
  || decide (s.h.mbs.toInt ≤ 0)
  || decide (s.h.blobSize.toInt < headerLength s.h.version.toInt)
  || decide (s.np < s.h.nValid.toNat)
  || (s.band != 0#32 && (s.h.width != s.res.width || s.h.height != s.res.height))

/-- `L2.HDR` (R216, R217, R268). The advance comes before the checks, which do not use `CUR`. -/
def l2Hdr (s : State) : L2Header → Rule State
  | .unsupported version => raise { s with h := { s.h with version := version } } .version s.h.blob0.toNat
  | .fields version checksum height width numDims numValid mbs blobSize imageType maxZError zMin zMax => do
    let s1 := { s with h := { s.h with version := version, checksum := checksum, height := height, width := width,
                                       nDim := numDims, nValid := numValid, mbs := mbs, blobSize := blobSize,
                                       imgType := imageType, maxZErr := maxZError, zMin := zMin, zMax := zMax } }
    let s2 := s1.advance (headerLength version.toInt)
    raiseIf s2 s2.badHeader .param s2.h.blob0.toNat
    return s2

/-- The comparison of R147, after `F32.SUM`. -/
def checksumTest (s : State) : Rule State := do
  let c : Word := s.opResult.setWidth 32
  raiseIf s (c != s.h.checksum) .checksum c.toNat
  return s

/-- Element type, convention and step of a Lerc2 band (R219, R101, R111, R271). -/
def l2Setup (s : State) : State :=
  { s with h := { s.h with etype := s.outType s.imgEType,
                           conv := if 3 ≤ s.h.version.toInt then .msbf else .legacy },
           qstep := fmul (s.freeNaN .step 0) f64Two s.h.maxZErr }.firstBandResults

/-- The no-data value of a Lerc2 band (R220). -/
def State.l2NoData (s : State) : F64 := if s.optFlags.getLsbD 1 then s.optNoData else 0#64

/-- Pre-fill (R220). -/
def l2Prefill (s : State) : State :=
  { s.fillBand (s.np * s.h.nDim.toNat) s.l2NoData with
    res := { s.res with noData := s.l2NoData, ndValid := s.optFlags.getLsbD 1 } }

/-! ## Mask (R222 to R224) -/

/-- `nvalid` must equal `H.NVALID` (R140). -/
def checkValidCount (s : State) : Rule State := do
  let n ← s.nvalid
  raiseIf s (decide (n ≠ s.h.nValid.toNat)) .count s.cur.toNat
  return s

/-- `L2.MASK` (R222): no mask array, the start of the payload (R223), or reuse (R224). -/
def l2Mask (s : State) (numBytes : Word) : Rule State := do
  let s1 := { s with h := { s.h with maskBytes := numBytes } }.advance 4
  if s1.h.nValid = 0#32 ∨ s1.h.nValid.toNat = s1.np then
    raiseIf s1 (numBytes != 0#32) .mask s1.cur.toNat
    return { s1 with m := { s1.m with present := false, allVoid := s1.h.nValid == 0#32 } }
  else if numBytes ≠ 0#32 then rmdStart s1 numBytes
  else
    raiseIf s1 (!s1.m.held) .mask s1.cur.toNat
    checkValidCount { s1 with m := { s1.m with present := true, allVoid := false } }

/-- The end of a mask payload of either container (R130, R189, R223). -/
def maskEnd (s : State) : Rule State :=
  let bytes := if s.h.fmt = .lerc2 then s.h.maskBytes else s.h.mBytes
  let s1 := { s with m := { present := true, allVoid := false, count := s.m.count + 1#32, held := true } }.advance
    bytes.toNat
  if s.h.fmt = .lerc2 then checkValidCount s1 else .ok s1

/-! ## Constant surface and ranges (R226 to R229) -/

/-- `L2.RANGES` (R226). -/
def l2Ranges (s : State) : Rule State := do
  let n := s.h.nDim.toNat
  let mins ← readElems s s.imgEType s.cur.toNat n
  let maxs ← readElems s s.imgEType (s.cur.toNat + n * s.imgSize) n
  return { s with
    dimMin := Memory.writeRange s.dimMin 0 (s.elemReals 0 mins),
    dimMax := Memory.writeRange s.dimMax 0 (s.elemReals n maxs) }.advance
      (2 * n * s.imgSize)

/-- `c[d]` (R227, R228). -/
def surfValue (s : State) (source : SurfSource) (d : Nat) : Rule F64 :=
  match source with
  | .globalMin => .ok s.h.zMin
  | .dimMin => written .dimMin d (Memory.read s.dimMin d)

/-- The surface of each of some dimensions (R229). -/
def surfDims (source : SurfSource) (ks : List Nat) : List Nat → State → Rule State
  | [], s => .ok s
  | d :: ds, s => do
    let c ← surfValue s source d
    surfDims source ks ds
      (s.putPix (ks.map fun k => s.pixCell s.h.etype s.band.toNat (d * s.np + k) c))

/-- `CONST.SURF` (R229). -/
def constSurf (s : State) (source : SurfSource) : Rule State := do
  let ks ← s.validOf (List.range s.np)
  surfDims source ks (List.range s.h.nDim.toNat) s

/-- Every dimension is constant (R228). -/
def constDims (s : State) : List Nat → Rule Bool
  | [] => .ok true
  | d :: ds => do
    let lo ← written .dimMin d (Memory.read s.dimMin d)
    let hi ← written .dimMax d (Memory.read s.dimMax d)
    let rest ← constDims s ds
    return feq lo hi && rest

/-! ## Body dispatch (R231 to R235) -/

/-- The cells of a one-sweep body: the values of one pixel are adjacent (R232). -/
def sweepCells (s : State) (ks : List Nat) (es : List Elem) : List (Nat × Elem) :=
  let spots := ks.flatMap fun k => (List.range s.h.nDim.toNat).map fun d => d * s.np + k
  (spots.zip (s.elemReals 0 es)).map fun c => s.pixCell s.h.etype s.band.toNat c.1 c.2

/-- `L2.SWEEP` (R231, R232). -/
def l2Sweep (s : State) : Rule State := do
  let s1 := s.advance 1
  let n := s1.h.nValid.toNat * s1.h.nDim.toNat
  memCheck s1 s1.cur.toNat (n * s1.imgSize)
  let es ← readElems s1 s1.imgEType s1.cur.toNat n
  let ks ← s1.validOf (List.range s1.np)
  return (s1.putPix (sweepCells s1 ks es)).advance (n * s1.imgSize)

/-- The Huffman condition (R234). A NaN never satisfies it, so which NaN the sum delivers does not matter. -/
def State.huffmanCondition (s : State) : Bool :=
  decide (1 < s.h.version.toInt) && decide (s.h.imgType.toInt ≤ 1)
    && flt (fabs (fadd (s.freeNaN .step 1) s.h.maxZErr f64MinusHalf)) f64Tolerance

/-- `L2.BODY` (R231, R234). -/
def l2Body (s : State) : State := s.advance 1

/-- `L2.HF.TILES` (R234). -/
def l2HfTiles (s : State) : State := s.advance 1

/-- `L2.HF.DELTA` (R234, R235): the encode-mode flag selects accumulation. -/
def l2HfDelta (s : State) : State := { s.advance 1 with planeMode := .delta }

/-- `L2.HF.PLAIN` (R234, R235): version 4 and above only. -/
def l2HfPlain (s : State) : Rule State := do
  let s1 := s.advance 1
  raiseIf s1 (decide (s1.h.version.toInt < 4)) .blockMode s.cur.toNat
  return { s1 with planeMode := .plain }

/-! ## Tiling (R236 to R249) -/

def State.l2Cols (s : State) : Nat := ceilDiv s.h.width.toNat s.h.mbs.toNat

def State.l2Rows (s : State) : Nat := ceilDiv s.h.height.toNat s.h.mbs.toNat

/-- Tile `(ty, tx)` of dimension `d` becomes the current one (R236, R237). -/
def l2Enter (s : State) (ty tx d : Nat) : State :=
  let side := s.h.mbs.toNat
  { s with t := { s.t with x0 := BitVec.ofNat 32 (tx * side), y0 := BitVec.ofNat 32 (ty * side),
                           width := BitVec.ofNat 32 (min side (s.h.width.toNat - tx * side)),
                           height := BitVec.ofNat 32 (min side (s.h.height.toNat - ty * side)),
                           dim := BitVec.ofNat 32 d },
           seq := .l2Tile ty tx d }

/-- The expected tag: bits 6:3 of the tile's first column (R71, R239). -/
def State.tag4 (s : State) : BitVec 4 := s.t.x0.extractLsb' 3 4

/-- The positional tag does not match (R238): all four bits up to version 4, the upper three in version 5. -/
def State.tagMismatch (s : State) (tag : BitVec 4) : Bool :=
  if s.h.version.toInt ≤ 4 then tag != s.tag4
  else tag.extractLsb' 1 3 != s.tag4.extractLsb' 1 3

/-- The tile header (R238, R240). -/
def tileHead (s : State) (mode otype : BitVec 2) (tag : BitVec 4) : Rule State := do
  raiseIf s (s.tagMismatch tag) .integrity s.cur.toNat
  let xband := decide (4 < s.h.version.toInt) && tag.getLsbD 0
  let s1 := { s with t := { s.t with xband := xband } }
  raiseIf s1 (xband && (s.t.dim == 0#32 || mode == 0#2)) .integrity s.cur.toNat
  return { s1 with t := { s1.t with mode := mode, otype := otype, cnt := 0#32 } }.advance 1

/-- `L2.TILE.RAW` (R244). -/
def l2TileRaw (s : State) (otype : BitVec 2) (tag : BitVec 4) : Rule State := do
  let s1 ← tileHead s 0#2 otype tag
  let ks ← s1.tileValid
  memCheck s1 s1.cur.toNat (ks.length * s1.imgSize)
  let es ← readElems s1 s1.imgEType s1.cur.toNat ks.length
  return (s1.deliver s1.t.dim.toNat ks (s1.elemReals 0 es)).advance (ks.length * s1.imgSize)

/-- `L2.TILE.BS` up to its `BS2` record (R238, R242, R245). The record is the next step and the delivery loop of R245,
`tileDeliver`, the one after it (log 1). -/
def l2TileBs (s : State) (otype : BitVec 2) (tag : BitVec 4) : Rule State := do
  let s1 ← tileHead s 1#2 otype tag
  let s2 ← originField s1
  return { s2 with bare := false }

/-- The delivery loop of `L2.TILE.BS` (R245). -/
def tileDeliver (s : State) : Rule State := do
  let ks ← s.tileValid
  let vs ← tileValues s ks s.val
  return s.deliver s.t.dim.toNat ks vs

/-- The elements of the reference dimension at some pixels (R247). -/
def refElems (s : State) : List Nat → Rule (List Elem)
  | [] => .ok []
  | k :: ks => do
    let e ← s.readPix s.band.toNat ((s.t.dim.toNat - 1) * s.np + k)
    let es ← refElems s ks
    return e :: es

/-- `L2.TILE.XB` (R247): the reference element unchanged, or the constant 0. -/
def l2TileXb (s : State) (otype : BitVec 2) (tag : BitVec 4) : Rule State := do
  let s1 ← tileHead s 2#2 otype tag
  let ks ← s1.tileValid
  if s1.t.xband then
    let es ← refElems s1 ks
    let cells := (ks.zip es).map fun c => (pixKey s1.band.toNat (s1.t.dim.toNat * s1.np + c.1), c.2)
    return { s1.putPix cells with t := { s1.t with cnt := BitVec.ofNat 32 ks.length } }
  else return s1.deliver s1.t.dim.toNat ks (List.replicate ks.length 0#64)

/-- `L2.TILE.CONST` (R249). -/
def l2TileConst (s : State) (otype : BitVec 2) (tag : BitVec 4) : Rule State := do
  let s1 ← tileHead s 3#2 otype tag
  let s2 ← originField s1
  let ks ← s2.tileValid
  let vs ← tileValues s2 ks (List.replicate ks.length s2.t.offset)
  return s2.deliver s2.t.dim.toNat ks vs

/-! ## End of band -/

/-- The per-dimension list of a memory, for the statistics (R251). -/
def dimList (mem : MemName) (m : Memory F64) : List Nat → Rule (List F64)
  | [] => .ok []
  | d :: ds => do
    let v ← written mem d (Memory.read m d)
    let vs ← dimList mem m ds
    return v :: vs

/-- `L2.RANGES` is present in the band (R226). -/
def State.hasRanges (s : State) : Bool :=
  decide (4 ≤ s.h.version.toInt) && s.h.nValid != 0#32 && !feq s.h.zMin s.h.zMax

/-- Statistics of a Lerc2 band (R251). -/
def l2Stats (s : State) : Rule State := do
  let n := s.h.nDim.toNat
  let dims := List.range n
  let lo ← if s.hasRanges then dimList .dimMin s.dimMin dims else .ok (List.replicate n s.h.zMin)
  let hi ← if s.hasRanges then dimList .dimMax s.dimMax dims else .ok (List.replicate n s.h.zMax)
  let v4 := decide (4 ≤ s.h.version.toInt)
  return s.putStat { min := s.h.zMin, max := s.h.zMax, etype := s.h.etype, nDim := s.h.nDim,
                     dimMin := if v4 then lo else [], dimMax := if v4 then hi else [], fileInfo := none }

/-- The declared end of the band (R203, R262). -/
def State.declaredEnd (s : State) : Nat :=
  if s.h.fmt = .lerc2 then s.h.blob0.toNat + s.h.blobSize.toNat else s.pstart.toNat + s.h.pixBytes.toNat

/-- End of band, either container (R203, R262). -/
def bandEnd (s : State) : Rule State := do
  let stop := s.declaredEnd
  raiseIf s (decide (s.cur.toNat + 1 < stop ∨ stop + 1 < s.cur.toNat)) .cursor s.cur.toNat
  raiseIf s (decide (s.inLen.toNat < stop)) .trunc stop
  return { s with cur := BitVec.ofNat 32 stop }

/-! ## Meanings -/

def execL2Hdr (header : L2Header) (s : State) : Host.Outcome State Fault Refusal := (l2Hdr s header).outcome

def execL2Mask (numBytes : Word) (s : State) : Host.Outcome State Fault Refusal := (l2Mask s numBytes).outcome

def execL2Ranges (s : State) : Host.Outcome State Fault Refusal := (l2Ranges s).outcome

/-- Any non-zero flag byte means the same (R70). -/
def execL2Sweep (_flag : Byte) (s : State) : Host.Outcome State Fault Refusal := (l2Sweep s).outcome

def execL2Body (s : State) : Host.Outcome State Fault Refusal := .next (l2Body s)

def execL2HfTiles (s : State) : Host.Outcome State Fault Refusal := .next (l2HfTiles s)

def execL2HfDelta (s : State) : Host.Outcome State Fault Refusal := .next (l2HfDelta s)

def execL2HfPlain (s : State) : Host.Outcome State Fault Refusal := (l2HfPlain s).outcome

def execL2TileRaw (otype : BitVec 2) (tag : BitVec 4) (s : State) : Host.Outcome State Fault Refusal :=
  (l2TileRaw s otype tag).outcome

def execL2TileBs (otype : BitVec 2) (tag : BitVec 4) (s : State) : Host.Outcome State Fault Refusal :=
  (l2TileBs s otype tag).outcome

def execL2TileXb (otype : BitVec 2) (tag : BitVec 4) (s : State) : Host.Outcome State Fault Refusal :=
  (l2TileXb s otype tag).outcome

def execL2TileConst (otype : BitVec 2) (tag : BitVec 4) (s : State) : Host.Outcome State Fault Refusal :=
  (l2TileConst s otype tag).outcome

def execConstSurf (source : SurfSource) (s : State) : Host.Outcome State Fault Refusal :=
  (constSurf s source).outcome

end Sys2Proof.Machine
end

