-- ==== Sys2Proof/Machine/Dispatcher.lean ====
section
/-!
DEFINITION. The top-level dispatcher (`spec/46_dispatcher.md`): `CMD.GO`, `ID.CNTZ`, `ID.LERC2`, `MASK.AND`, `RESHAPE`,
the band loop, the no-data sweep and the completion.
-/

namespace Sys2Proof.Machine

/-! ## Start of a call (R266, R321, R322) -/

/-- What the host must hold at `GO`: `IN_LEN <= IN_MAX` and every byte below `IN_LEN` written (R322). -/
def State.inputReady (s : State) : Bool :=
  decide (s.inLen.toNat ≤ s.cfg.inMax)
    && (List.range s.inLen.toNat).all fun a => (Memory.read s.inMem a).isSome

/-- The accepted `GO` (R266, R11): the state of the call at its reset values, `CUR` at `OPT.OFFSET`, busy. `IN`,
`IN_LEN`, the OPT registers and the configuration stay; the memories hold no value the call may read. -/
def State.startCall (s : State) : State :=
  { State.resetWith s.cfg with
    inMem := s.inMem, inLen := s.inLen, optOffset := s.optOffset, optFlags := s.optFlags,
    optPixelType := s.optPixelType, optNoData := s.optNoData,
    cur := s.optOffset, seq := .bandStart, port := s.port, rdata := s.rdata, fresh := s.fresh }.flagsGo

/-- `CMD.GO`: ignored while `BUSY` (R321); refused when the host broke R322 (U4); else the call starts (R266). -/
def execCmdGo (_ignored : BitVec 31) (s : State) : Host.Outcome State Fault Refusal :=
  if s.busy then .next s
  else if s.inputReady then .next s.startCall
  else .refused .inputNotReady

/-! ## One band -/

/-- R269 and R270. -/
def bandStart (s : State) : Rule State := do
  raiseIf s (decide (s.band.toNat = s.cfg.bandMax)) .param s.cur.toNat
  return { s with h := { s.h with blob0 := s.cur } }

/-- The identifier settles the container; a change after band 0 is `E_MAGIC` (R267). `CUR` does not move. -/
def setFormat (s : State) (f : Format) : Rule State := do
  raiseIf s (decide (s.band ≠ 0#32 ∧ f ≠ s.h.fmt)) .magic s.cur.toNat
  return { s with h := { s.h with fmt := f } }

/-- The bytes of the combined mask for some pixels (R274). -/
def andMask (s : State) : List Nat → Rule (List Byte)
  | [] => .ok []
  | k :: ks => do
    let v ← s.valid k
    let old ← if s.band = 0#32 then .ok 1#8 else written .cmask k (Memory.read s.cmask k)
    let rest ← andMask s ks
    return (old &&& (if v then 1#8 else 0#8)) :: rest

/-- `MASK.AND` (R274). -/
def maskAnd (s : State) : Rule State := do
  let xs ← andMask s (List.range s.np)
  return { s with cmask := Memory.writeRange s.cmask 0 xs }

/-- The first `n` bytes of the bitset. -/
def bitsetBytes (s : State) : List Nat → Rule (List Byte)
  | [] => .ok []
  | j :: js => do
    let x ← written .bitset j (Memory.read s.bitset j)
    let xs ← bitsetBytes s js
    return x :: xs

/-- The packed mask of band 0 (R278). -/
def encodedMask (s : State) : Rule State :=
  if s.optFlags.getLsbD 3 && s.m.present then do
    let xs ← bitsetBytes s (List.range s.maskBytes)
    return { s with encmask := Memory.writeRange s.encmask 0 xs, res := { s.res with encValid := true } }
  else .ok { s with res := { s.res with encValid := false } }

/-- The packed mask copy, which only band 0 makes (R272). -/
def firstBandMask (s : State) : Rule State := if s.band = 0#32 then encodedMask s else .ok s

/-- The file info of the band: every register of the `H` group as the band left it (R280, R22). -/
def fileInfo (s : State) : Rule State :=
  if s.optFlags.getLsbD 4 then do
    let st ← written .bstat s.band.toNat (Memory.read s.bstat s.band.toNat)
    return s.putStat { st with fileInfo := some { h := s.h, dimMin := s.dimMin, dimMax := s.dimMax } }
  else .ok s

/-- After a band, after `MASK.AND` (R272). -/
def bandTail (s : State) : Rule State := do
  let s1 ← firstBandMask s
  let s2 ← fileInfo s1
  let b := s2.band + 1#32
  return { s2 with band := b, res := { s2.res with nBands := b, eof := s2.cur } }

/-- A further band is due (R273). -/
def State.moreBands (s : State) : Bool := decide (s.cur.toNat + 10 < s.inLen.toNat)

/-! ## After the last band -/

/-- `CMASK[k]` for some pixels. -/
def cmaskBytes (s : State) : List Nat → Rule (List Byte)
  | [] => .ok []
  | k :: ks => do
    let x ← written .cmask k (Memory.read s.cmask k)
    let xs ← cmaskBytes s ks
    return x :: xs

/-- The pixels the combined mask excludes (R275). -/
def State.excluded (s : State) : Rule (List Nat) := do
  let xs ← cmaskBytes s (List.range s.np)
  return (xs.zipIdx.filter fun c => c.1 == 0#8).map Prod.snd

/-- The sweep of some bands (R275). -/
def sweepBands (ks : List Nat) : List Nat → State → Rule State
  | [], s => .ok s
  | b :: bs, s => do
    let st ← written .bstat b (Memory.read s.bstat b)
    let spots := ks.flatMap fun k => (List.range st.nDim.toNat).map fun d => d * s.np + k
    sweepBands ks bs (s.putPix (spots.map fun i => s.pixCell st.etype b i s.res.noData))

/-- The no-data sweep (R275). -/
def noDataSweep (s : State) : Rule State := do
  let ks ← s.excluded
  sweepBands ks (List.range s.res.nBands.toNat) s

/-- The elements of a band at some indices. -/
def readPixAll (s : State) (b : Nat) : List Nat → Rule (List Elem)
  | [] => .ok []
  | i :: is => do
    let e ← s.readPix b i
    let es ← readPixAll s b is
    return e :: es

/-- The transpose of some bands (R276): element `k*n + d` of the result is element `d*NP + k`. -/
def reshapeBands : List Nat → State → Rule State
  | [], s => .ok s
  | b :: bs, s => do
    let st ← written .bstat b (Memory.read s.bstat b)
    let n := st.nDim.toNat
    if 1 < n then
      let es ← readPixAll s b ((List.range s.np).flatMap fun k => (List.range n).map fun d => d * s.np + k)
      reshapeBands bs { s with pix := Memory.writeRange s.pix (pixKey b 0) es }
    else reshapeBands bs s

/-- `RESHAPE` (R276): only when `PIXEL_INTERLEAVED` is set. -/
def reshape (s : State) : Rule State :=
  if s.optFlags.getLsbD 5 then reshapeBands (List.range s.res.nBands.toNat) s else .ok s

/-- Returned mask and completion (R277, R281). -/
def finishCall (s : State) : Rule State := do
  let ks ← s.excluded
  let valid := s.optFlags.getLsbD 2 && (s.m.count != 0#32 || !ks.isEmpty)
  return { s with res := { s.res with maskValid := valid } }.flagsDone

/-! ## Meanings -/

def execIdCntz (_leading : Bool) (_space : Byte) (s : State) : Host.Outcome State Fault Refusal :=
  (setFormat s .cntz).outcome

def execIdLerc2 (_sixth : Byte) (s : State) : Host.Outcome State Fault Refusal := (setFormat s .lerc2).outcome

def execMaskAnd (s : State) : Host.Outcome State Fault Refusal := (maskAnd s).outcome

def execReshape (s : State) : Host.Outcome State Fault Refusal := (reshape s).outcome

end Sys2Proof.Machine
end

