-- ==== Sys2Proof/Machine/Dispatch.lean ====
section
/-!
DEFINITION. One arm for each instruction: the call of its meaning.
-/

namespace Sys2Proof.Machine

def exec (i : Instr) (s : State) : Host.Outcome State Fault Refusal :=
  match i with
  -- the host's command and the dispatcher's records
  | .cmdGo ignored => Sys2Proof.Machine.execCmdGo ignored s
  | .idCntz leading space => Sys2Proof.Machine.execIdCntz leading space s
  | .idLerc2 sixth => Sys2Proof.Machine.execIdLerc2 sixth s
  -- CntZImage
  | .czHdr version imageType height width maxZError => Sys2Proof.Machine.execCzHdr version imageType height width maxZError s
  | .czMsec numBlocksY numBlocksX numBytes maxValue => Sys2Proof.Machine.execCzMsec numBlocksY numBlocksX numBytes maxValue s
  | .czPsec numBlocksY numBlocksX numBytes maxValue => Sys2Proof.Machine.execCzPsec numBlocksY numBlocksX numBytes maxValue s
  | .czRaw off => Sys2Proof.Machine.execCzRaw off s
  | .czBs off bitsPerPixel count => Sys2Proof.Machine.execCzBs off bitsPerPixel count s
  | .czConst off => Sys2Proof.Machine.execCzConst off s
  | .czRsvd header => Sys2Proof.Machine.execCzRsvd header s
  -- mask runs
  | .rleLit run => Sys2Proof.Machine.execRleLit run s
  | .rleRep run => Sys2Proof.Machine.execRleRep run s
  | .rleEnd => Sys2Proof.Machine.execRleEnd s
  | .rleZero => Sys2Proof.Machine.execRleZero s
  -- Lerc2
  | .l2Hdr header => Sys2Proof.Machine.execL2Hdr header s
  | .l2Mask numBytes => Sys2Proof.Machine.execL2Mask numBytes s
  | .l2Ranges => Sys2Proof.Machine.execL2Ranges s
  | .l2Sweep flag => Sys2Proof.Machine.execL2Sweep flag s
  | .l2Body => Sys2Proof.Machine.execL2Body s
  | .l2HfTiles => Sys2Proof.Machine.execL2HfTiles s
  | .l2HfDelta => Sys2Proof.Machine.execL2HfDelta s
  | .l2HfPlain => Sys2Proof.Machine.execL2HfPlain s
  | .l2TileRaw otype tag => Sys2Proof.Machine.execL2TileRaw otype tag s
  | .l2TileBs otype tag => Sys2Proof.Machine.execL2TileBs otype tag s
  | .l2TileXb otype tag => Sys2Proof.Machine.execL2TileXb otype tag s
  | .l2TileConst otype tag => Sys2Proof.Machine.execL2TileConst otype tag s
  -- nested records
  | .bs2Aff numBits count => Sys2Proof.Machine.execBs2Aff numBits count s
  | .bs2Lut numBits count => Sys2Proof.Machine.execBs2Lut numBits count s
  | .hufTable hversion size i0 i1 => Sys2Proof.Machine.execHufTable hversion size i0 i1 s
  -- internal operations
  | .unpkL a n k => Sys2Proof.Machine.execUnpkL a n k s
  | .unpkM a n k => Sys2Proof.Machine.execUnpkM a n k s
  | .remapAff c off step vmax clamp => Sys2Proof.Machine.execRemapAff c off step vmax clamp s
  | .remapLut c => Sys2Proof.Machine.execRemapLut c s
  | .maskExpand => Sys2Proof.Machine.execMaskExpand s
  | .f32Sum a len => Sys2Proof.Machine.execF32Sum a len s
  | .hufBuild => Sys2Proof.Machine.execHufBuild s
  | .hufSym => Sys2Proof.Machine.execHufSym s
  | .hufPlane mode => Sys2Proof.Machine.execHufPlane mode s
  | .constSurf source => Sys2Proof.Machine.execConstSurf source s
  | .maskAnd => Sys2Proof.Machine.execMaskAnd s
  | .reshape => Sys2Proof.Machine.execReshape s

end Sys2Proof.Machine
end

