-- ==== Sys2Proof/Machine/HostPort.lean ====
section
/-!
DEFINITION. The host's port (`spec/10_state.md` R14; `spec/20_memory.md` R40; `spec/70_reset_and_hazards.md` R315 to
R325): register reads and writes, the input memory, the outputs, and the reset input.
-/

namespace Sys2Proof.Machine

/-- An unspecified value a host read returns (R323, U3, U5, U7). -/
def State.freeRead (s : State) (i : Nat) : BitVec 64 := Config.freeBits s.fresh .hostRead i

/-- `RES.FLAGS` (R14). -/
def State.resFlagsWord (s : State) : Word :=
  (s.res.etype.code ++ BitVec.ofBool s.res.ndValid ++ BitVec.ofBool s.res.encValid
    ++ BitVec.ofBool s.res.maskValid).setWidth 32

/-- The `RES` registers are unspecified while a call runs (R323) and after a fault (R291). -/
def State.resDefined (s : State) : Bool := !s.busy && !s.err

/-- The value of a control register; `word` is its offset divided by 4 (R14). -/
def State.regValue (s : State) (word : Nat) : Word :=
  let res (v : Word) : Word := if s.resDefined then v else (s.freeRead word).setWidth 32
  match word with
  | 1 => s.statusWord
  | 2 => s.errCode.setWidth 32
  | 3 => s.errInfo
  | 4 => s.inLen
  | 5 => s.optOffset
  | 6 => s.optFlags.setWidth 32
  | 7 => s.optPixelType.setWidth 32
  | 8 => s.optNoData.extractLsb' 0 32
  | 9 => s.optNoData.extractLsb' 32 32
  | 10 => res s.res.width
  | 11 => res s.res.height
  | 12 => res s.res.nBands
  | 13 => res s.resFlagsWord
  | 14 => res s.res.eof
  | 16 => res (s.res.noData.extractLsb' 0 32)
  | 17 => res (s.res.noData.extractLsb' 32 32)
  | _ => 0#32

/-- A register the host may write (R14, access RW). -/
def isWritableReg (word : Nat) : Bool := decide (4 ≤ word) && decide (word ≤ 9)

/-- The effect of a host write on the RW registers; every other write is ignored (R14). Reserved bits are not stored
(log 10). -/
def State.putReg (s : State) (word : Nat) (v : Word) : State :=
  match word with
  | 4 => { s with inLen := v }
  | 5 => { s with optOffset := v }
  | 6 => { s with optFlags := v.setWidth 6 }
  | 7 => { s with optPixelType := v.setWidth 3 }
  | 8 => { s with optNoData := s.optNoData.extractLsb' 32 32 ++ v }
  | 9 => { s with optNoData := v ++ s.optNoData.extractLsb' 0 32 }
  | _ => s

/-- A host register write other than `CMD.GO`. A write to an RW register while `BUSY` breaks R322. -/
def hostWriteReg (s : State) (word : Nat) (v : Word) : Host.Outcome State Fault Refusal :=
  if isWritableReg word && s.busy then .refused .writeWhileBusy else .next (s.putReg word v)

/-- A host write to `IN`: only while not `BUSY` (R40, R322), only below `IN_MAX`. -/
def hostWriteIn (s : State) (addr : Nat) (v : Byte) : Host.Outcome State Fault Refusal :=
  if s.busy then .refused .writeWhileBusy
  else if addr < s.cfg.inMax then .next { s with inMem := Memory.write s.inMem addr v }
  else .fault (.inputAddress addr)

/-- The per-dimension registers of a header echo hold a value in a band of version 4 and above (R16); below that they may
be any value (U7). -/
def FileInfo.dimReg (f : FileInfo) (mem : Memory F64) (d : Nat) : Option (BitVec 64) :=
  if f.h.fmt = .lerc2 ∧ 4 ≤ f.h.version.toInt then Memory.read mem d else none

/-- A register of a header echo (R280), zero-extended, if the spec gives it a value. -/
def FileInfo.value (f : FileInfo) : HReg → Option (BitVec 64)
  | .fmt => some (match f.h.fmt with | .none => 0#64 | .cntz => 1#64 | .lerc2 => 2#64)
  | .blob0 => some (f.h.blob0.setWidth 64)
  | .version => some (f.h.version.setWidth 64)
  | .checksum => some (f.h.checksum.setWidth 64)
  | .height => some (f.h.height.setWidth 64)
  | .width => some (f.h.width.setWidth 64)
  | .nDim => some (f.h.nDim.setWidth 64)
  | .nValid => some (f.h.nValid.setWidth 64)
  | .mbs => some (f.h.mbs.setWidth 64)
  | .blobSize => some (f.h.blobSize.setWidth 64)
  | .imgType => some (f.h.imgType.setWidth 64)
  | .maxZErr => some f.h.maxZErr
  | .zMin => some f.h.zMin
  | .zMax => some f.h.zMax
  | .mNby => some (f.h.mNby.setWidth 64)
  | .mNbx => some (f.h.mNbx.setWidth 64)
  | .mBytes => some (f.h.mBytes.setWidth 64)
  | .mMaxVal => some (f.h.mMaxVal.setWidth 64)
  | .maskBytes => some (f.h.maskBytes.setWidth 64)
  | .nby => some (f.h.nby.setWidth 64)
  | .nbx => some (f.h.nbx.setWidth 64)
  | .pixBytes => some (f.h.pixBytes.setWidth 64)
  | .maxVal => some (f.h.maxVal.setWidth 64)
  | .etype => some (f.h.etype.code.setWidth 64)
  | .conv => some (match f.h.conv with | .legacy => 0#64 | .msbf => 1#64)
  | .dimMin d => f.dimReg f.dimMin d
  | .dimMax d => f.dimReg f.dimMax d

/-- A field of a statistics record, if the spec gives it a value (R22, R251, R280). -/
def BandStat.value (st : BandStat) : StatField → Option (BitVec 64)
  | .min => some st.min
  | .max => some st.max
  | .etype => some (st.etype.code.setWidth 64)
  | .nDim => some (st.nDim.setWidth 64)
  | .dimMin d => st.dimMin[d]?
  | .dimMax d => st.dimMax[d]?
  | .fileInfo r => st.fileInfo.bind fun f => f.value r

/-- A host read of an output: its value after `DONE` if a rule of the call wrote it, else unspecified (R51, R291,
R323, U7). -/
def State.outputValue (s : State) (v : Option (BitVec 64)) (i : Nat) : BitVec 64 :=
  if s.done then v.getD (s.freeRead i) else s.freeRead i

/-- `PIX[b][i]`, for a host read: no element has an index at or above 2^32 (R5, R22), so such a read is of an element no
rule writes and returns any value (U7, log 26). -/
def State.pixelOutput (s : State) (b i : Nat) : Option (BitVec 64) :=
  if i < 4294967296 then (Memory.read s.pix (pixKey b i)).map Elem.bits else none

/-- The value of a host read of `IN` (R40): the byte, below `IN_LEN`. DESIGN CHOICE (log 20): at or above `IN_LEN`, where
R40 has no address, any value; also of a byte nothing has written (U2). -/
def State.inputRead (s : State) (addr : Nat) : BitVec 64 :=
  if addr < s.inLen.toNat then ((Memory.read s.inMem addr).map fun x => x.setWidth 64).getD (s.freeRead addr)
  else s.freeRead addr

/-- Reset (R315, R316, R318): registers at their reset values, memories unspecified. A reset during a call leaves `IN`
as it is (R318); otherwise its content is unspecified too (R316, log 15). -/
def State.resetInput (s : State) : State :=
  { State.resetWith s.cfg with
    inMem := if s.busy then s.inMem else [], port := s.port, fresh := s.fresh }

/-- A host access other than `CMD.GO` and `turn`. -/
def hostAccess (s : State) : HostEvent → Host.Outcome State Fault Refusal
  | .turn => .next s
  | .reset => .next s.resetInput
  | .writeReg word v => hostWriteReg s word v
  | .readReg word => .next { s with rdata := (s.regValue word).setWidth 64 }
  | .writeIn addr v => hostWriteIn s addr v
  | .readIn addr => .next { s with rdata := s.inputRead addr }
  | .readPix b i => .next { s with rdata := s.outputValue (s.pixelOutput b i) (pixKey b i) }
  | .readMaskx k => .next { s with rdata := s.outputValue ((Memory.read s.maskx k).map fun x => x.setWidth 64) k }
  | .readCmask k => .next { s with rdata := s.outputValue ((Memory.read s.cmask k).map fun x => x.setWidth 64) k }
  | .readEncmask j => .next { s with rdata := s.outputValue ((Memory.read s.encmask j).map fun x => x.setWidth 64) j }
  | .readStat b f =>
    .next { s with rdata := s.outputValue ((Memory.read s.bstat b).bind fun st => st.value f) b }

end Sys2Proof.Machine
end

