-- ==== Sys2Proof/Machine/Load.lean ====
section
/-!
DEFINITION. Placing one word of the opcode table where the next step fetches it (log 2, log 13).
-/

namespace Sys2Proof.Machine

/-- The phase that fetches a position, and the bytes between `CUR` and the record's first byte. -/
def posPhase : StreamPos → Phase × Nat
  | .command => (.idle, 0)
  | .ident => (.ident, 0)
  | .czHdr => (.czHdr, 10)
  | .czMsec => (.czMsec, 0)
  | .czPsec => (.czPsec, 0)
  | .czBlock => (.czBlock 0 0, 0)
  | .rle => (.rle, 0)
  | .l2Hdr => (.l2Hdr, 6)
  | .l2Mask => (.l2Mask, 0)
  | .l2Ranges => (.l2Ranges, 0)
  | .l2Flag => (.l2Flag, 0)
  | .l2Hf => (.l2Hf, 0)
  | .l2Tile => (.l2Tile 0 0 0, 0)
  | .bs2 => (.bs2 0 0 0, 0)
  | .hufTable => (.hufTable, 0)

/-- A call in progress, at `CUR`, with the bytes there, `IN_LEN` past them, and the position due. Inside a mask payload
the run loop stands at `CUR`. -/
def State.loadRecord (s : State) (pos : StreamPos) (bytes : List Byte) : State :=
  let a := s.cur.toNat + (posPhase pos).2
  { s with busy := true, seq := (posPhase pos).1, port := [],
           inMem := Memory.writeRange s.inMem a bytes,
           inLen := BitVec.ofNat 32 (max s.inLen.toNat (a + bytes.length)),
           rlBase := if pos = .rle then s.cur else s.rlBase,
           rlBytes := if pos = .rle then BitVec.ofNat 32 bytes.length else s.rlBytes,
           rlIp := if pos = .rle then 0#32 else s.rlIp }

/-- A table word loaded: a command word is written by the host, a record is placed in the stream. -/
def State.loadTableWord (s : State) (nbits w : Nat) : State :=
  match tablePos nbits w with
  | some .command => { s with port := [.writeReg 0 (BitVec.ofNat 32 w)] }
  | some pos => s.loadRecord pos (tableBytes nbits w)
  | none => s

end Sys2Proof.Machine
end

