-- ==== Sys2Proof/Machine/Fetch.lean ====
section
/-!
DEFINITION. Fetching a record: the bytes at an address, decoded at a position; a record cut off by the end of the buffer
is `E_TRUNC` at its first field that is cut (`spec/20_memory.md` R44).
-/

namespace Sys2Proof.Machine

/-- Up to `n` bytes of `IN` from `a`, ending at `IN_LEN` (or at a byte nothing has written). -/
def window (s : State) : Nat → Nat → List Byte
  | 0, _ => []
  | n + 1, a =>
    if a < s.inLen.toNat then
      match Memory.read s.inMem a with
      | some x => x :: window s n (a + 1)
      | none => []
    else []

/-- The record at address `a`. Faults: `E_TRUNC` at the field cut off (R44), `E_MAGIC` for no identifier (R267),
`E_BLOCK_MODE` for an illegal second flag byte (R234). A byte of the record below `IN_LEN` that nothing has written, which no
call that keeps R322 meets, is the model's stop for such a read (10_state.md, opening; U4; log 4). -/
def fetch (s : State) (pos : StreamPos) (a : Nat) : Rule Instr :=
  match decodeAt pos (window s maxRecordBytes a) with
  | .ok i => .ok i
  | .error (.short off width) =>
    if a + off + width ≤ s.inLen.toNat then .error (.stuck (.unwritten .input (a + (window s maxRecordBytes a).length)))
    else raise s .trunc (a + off)
  | .error .badHuffmanFlag => raise s .blockMode a
  | .error .noIdentifier => raise s .magic s.cur.toNat
  | .error .notACommand => raise s .magic s.cur.toNat

end Sys2Proof.Machine
end

