-- ==== Sys2Proof/Machine/Sequence.lean ====
section
/-!
DEFINITION. The sequence rules (`spec/44_cntzimage.md` R185, R193; `spec/45_lerc2.md` R215, R236, R237;
`spec/43_huffman.md` R155; `spec/46_dispatcher.md` R265, R272, R273): which record, operation or rule is due, and what is
due after it.
-/

namespace Sys2Proof.Machine

def State.goto (s : State) (p : Phase) : State := { s with seq := p }

/-! ## The order of tiles, blocks and bodies -/

/-- After the mask (R215, R225, R226, R227). -/
def State.afterMask (s : State) : Phase :=
  if s.h.nValid = 0#32 then .l2Stats
  else if feq s.h.zMin s.h.zMax then .constSurf .globalMin
  else if 4 ≤ s.h.version.toInt then .l2Ranges
  else .l2Flag

/-- The block after `(by, bx)`, row-major (R193). -/
def nextBlock (s : State) (by_ bx : Nat) : State :=
  if bx + 1 < s.czCols then czEnter s by_ (bx + 1)
  else if by_ + 1 < s.czRows then czEnter s (by_ + 1) 0
  else s.goto .czStats

/-- The tile after `(ty, tx, d)`: dimensions innermost, then columns, then rows (R237). -/
def nextTile (s : State) (ty tx d : Nat) : State :=
  if d + 1 < s.h.nDim.toNat then l2Enter s ty tx (d + 1)
  else if tx + 1 < s.l2Cols then l2Enter s ty (tx + 1) 0
  else if ty + 1 < s.l2Rows then l2Enter s (ty + 1) 0 0
  else s.goto .l2Stats

/-! ## What is due -/

/-- The instruction due, or none when a rule without a row of the table is. -/
def due (s : State) : Rule (Option Instr) :=
  match s.seq with
  | .ident => some <$> fetch s .ident s.cur.toNat
  | .czHdr => some <$> fetch s .czHdr (s.cur.toNat + 10)
  | .czMsec => some <$> fetch s .czMsec s.cur.toNat
  | .rle =>
    if s.rlBytes.toNat < s.rlIp.toNat + 2 then raise s .rle s.rlAddr else some <$> fetch s .rle s.rlAddr
  | .maskExpand => .ok (some .maskExpand)
  | .czPsec => some <$> fetch s .czPsec s.cur.toNat
  | .czBlock _ _ => some <$> fetch s .czBlock s.cur.toNat
  | .l2Hdr => some <$> fetch s .l2Hdr (s.cur.toNat + 6)
  | .checksum =>
    if s.h.blobSize.toInt < 14 then raise s .param s.h.blob0.toNat
    else .ok (some (.f32Sum (s.h.blob0 + 14#32) (s.h.blobSize - 14#32)))
  | .l2Mask => some <$> fetch s .l2Mask s.cur.toNat
  | .constSurf source => .ok (some (.constSurf source))
  | .l2Ranges => some <$> fetch s .l2Ranges s.cur.toNat
  | .l2Flag => some <$> fetch s .l2Flag s.cur.toNat
  | .l2Hf => some <$> fetch s .l2Hf s.cur.toNat
  | .hufTable => some <$> fetch s .hufTable s.cur.toNat
  | .bs2 _ _ _ => some <$> fetch s .bs2 s.cur.toNat
  | .hufBuild => .ok (some .hufBuild)
  | .hufPlane => .ok (some (.hufPlane s.planeMode))
  | .l2Tile _ _ _ => some <$> fetch s .l2Tile s.cur.toNat
  | .maskAnd => .ok (some .maskAnd)
  | .reshape => .ok (some .reshape)
  | .idle | .bandStart | .czSetup | .maskEnd | .czPrefill | .czStats | .checksumTest | .l2Setup | .l2Prefill
  | .rangesTest | .hufCodes | .hufAlign | .hufEnd | .tileDeliver _ _ _ | .l2Stats | .bandEnd | .bandTail | .sweep
  | .finish => .ok none

/-- What is due after an instruction that did not fault. Instructions that no phase asks for change nothing. -/
def sequence (i : Instr) (s : State) : State :=
  if !s.busy then s
  else match s.seq with
  | .ident => s.goto (if s.h.fmt = .lerc2 then .l2Hdr else .czHdr)
  | .czHdr => s.goto .czSetup
  | .czMsec => s.goto (if s.h.mBytes = 0#32 then .czPsec else .rle)
  | .rle => s.goto (if i = .rleEnd then .maskExpand else .rle)
  | .maskExpand => s.goto .maskEnd
  | .czPsec => s.goto .czPrefill
  | .czBlock by_ bx => nextBlock s by_ bx
  | .l2Hdr => s.goto (if 3 ≤ s.h.version.toInt then .checksum else .l2Setup)
  | .checksum => s.goto .checksumTest
  | .l2Mask => s.goto (if s.h.maskBytes = 0#32 then s.afterMask else .rle)
  | .constSurf _ => s.goto .l2Stats
  | .l2Ranges => s.goto .rangesTest
  | .l2Flag =>
    if i = .l2Body then (if s.huffmanCondition then s.goto .l2Hf else l2Enter s 0 0 0) else s.goto .l2Stats
  | .l2Hf => if i = .l2HfTiles then l2Enter s 0 0 0 else s.goto .hufTable
  | .hufTable => s.goto (.bs2 0 0 0)
  | .bs2 ty tx d => s.goto (if s.bare then .hufCodes else .tileDeliver ty tx d)
  | .hufBuild => s.goto .hufAlign
  | .hufPlane => s.goto .hufEnd
  | .l2Tile ty tx d => if s.t.mode = 1#2 then s.goto (.bs2 ty tx d) else nextTile s ty tx d
  | .maskAnd => s.goto .bandTail
  | .reshape => s.goto .finish
  | .idle | .bandStart | .czSetup | .maskEnd | .czPrefill | .czStats | .checksumTest | .l2Setup | .l2Prefill
  | .rangesTest | .hufCodes | .hufAlign | .hufEnd | .tileDeliver _ _ _ | .l2Stats | .bandEnd | .bandTail | .sweep
  | .finish => s

/-- The rule due, and what is due after it. In a phase with an instruction due there is no rule. -/
def runRule (s : State) : Rule State :=
  match s.seq with
  | .bandStart => return (← bandStart s).goto .ident
  | .czSetup => return (czSetup s).goto (if s.band = 0#32 then .czMsec else .czPsec)
  | .maskEnd => do
    let s1 ← maskEnd s
    return s1.goto (if s1.h.fmt = .lerc2 then s1.afterMask else .czPsec)
  | .czPrefill => return czEnter (czPrefill s) 0 0
  | .czStats => return (czStats s).goto .bandEnd
  | .checksumTest => return (← checksumTest s).goto .l2Setup
  | .l2Setup => return (l2Setup s).goto .l2Prefill
  | .l2Prefill => return (l2Prefill s).goto .l2Mask
  | .rangesTest => do
    let const ← constDims s (List.range s.h.nDim.toNat)
    return s.goto (if const then .constSurf .dimMin else .l2Flag)
  | .hufCodes => return (← hufCodes s).goto .hufBuild
  | .hufAlign => return (← hufAlign s).goto .hufPlane
  | .hufEnd => return (← hufEnd s).goto .l2Stats
  | .tileDeliver ty tx d => return nextTile (← tileDeliver s) ty tx d
  | .l2Stats => return (← l2Stats s).goto .bandEnd
  | .bandEnd => return (← bandEnd s).goto .maskAnd
  | .bandTail => do
    let s1 ← bandTail s
    return s1.goto (if s1.moreBands then .bandStart else .sweep)
  | .sweep => return (← noDataSweep s).goto .reshape
  | .finish => return (← finishCall s).goto .idle
  | .idle | .ident | .czHdr | .czMsec | .rle | .maskExpand | .czPsec | .czBlock _ _ | .l2Hdr | .checksum | .l2Mask
  | .constSurf _ | .l2Ranges | .l2Flag | .l2Hf | .hufTable | .bs2 _ _ _ | .hufBuild | .hufPlane | .l2Tile _ _ _
  | .maskAnd | .reshape => .ok s

end Sys2Proof.Machine
end

