-- ==== Sys2Proof/Machine/Step.lean ====
section
/-!
DEFINITION. One step of the machine. A pending host access comes first; else the busy engine runs the record, operation
or rule that is due (`spec/70_reset_and_hazards.md` R327, R330); an idle engine does nothing (R334).
-/

namespace Sys2Proof.Machine

/-- Every step uses its own free values (log 5). -/
def nextFree (o : Host.Outcome State Fault Refusal) : Host.Outcome State Fault Refusal :=
  match o with
  | .next s => .next { s with fresh := s.fresh + 1 }
  | .fault f => .fault f
  | .refused r => .refused r

/-- An instruction, and what is due after it. -/
def execThen (i : Instr) (s : State) : Host.Outcome State Fault Refusal :=
  match exec i s with
  | .next t => .next (sequence i t)
  | .fault f => .fault f
  | .refused r => .refused r

/-- One step of the engine. -/
def engineStep (s : State) : Host.Outcome State Fault Refusal :=
  if s.busy then
    match due s with
    | .ok (some i) => execThen i s
    | .ok none => (runRule s).outcome
    | .error stop => Rule.outcome (.error stop)
  else .next s

/-- One pending host event. A word written to `CMD` is decoded; with bit 0 set it is `CMD.GO` (R61). -/
def hostStep (ev : HostEvent) (s : State) : Host.Outcome State Fault Refusal :=
  match ev with
  | .turn => engineStep s
  | .writeReg 0 v =>
    match decodeAt .command (le32 v) with
    | .ok i => exec i s
    | .error _ => .next s
  | _ => hostAccess s ev

/-- One step. -/
def step (s : State) : Host.Outcome State Fault Refusal :=
  nextFree (match s.port with
    | [] => engineStep s
    | ev :: rest => hostStep ev { s with port := rest })

/-- The state in which the next step fetches and runs the instruction of a table word (Machine/Load.lean). -/
def State.withFetchWord (s : State) (nbits w : Nat) : State := s.loadTableWord nbits w

end Sys2Proof.Machine
end

