-- ==== Sys2Proof/Safety.lean ====
section
/-!
DEFINITION. The terms the statements use: what a stream and a mask must hold for a record to run, what a well-formed
state is, and where a record is fetched.
-/

namespace Sys2Proof.Machine

/-! ## Outcomes -/

/-- The outcome is a next state. -/
def completes (o : Host.Outcome State Fault Refusal) : Bool :=
  match o with
  | .next _ => true
  | .fault _ => false
  | .refused _ => false

/-- The outcome is the state a fault leaves: `ERR`, the code and the value, the engine stopped. These three registers are
all that is defined then (R290, R291). -/
def faultedWith (o : Host.Outcome State Fault Refusal) (code : ErrCode) (info : Nat) : Prop :=
  ∃ t, o = .next t ∧ t.busy = false ∧ t.err = true ∧ t.errCode = code.number ∧ t.errInfo = BitVec.ofNat 32 info

/-! ## Values, whatever the free values are -/

/-- `e` is a `store_T(v)`: with some sign and payload where it is a NaN (R112). -/
def storesAs (ty : EType) (v : F64) (e : Elem) : Prop := ∃ nan, e = storeElem nan ty v

/-- `v` is the value of a binary32 field: exact, or some NaN (R255). -/
def widensTo (x : F32) (v : F64) : Prop := ∃ nan, f64IsNaN nan = true ∧ v = widenF32 nan x

/-- `v` is the value of an element: exact, or some NaN (R74, R112). -/
def readsAs (e : Elem) (v : F64) : Prop := ∃ nan, f64IsNaN nan = true ∧ v = e.real nan

/-- `v` is a result of `REMAP.AFF` (R108), with some NaNs where its operations deliver NaNs (R109). -/
def remapsTo (c : Nat) (off step vmax : F64) (clamp : Bool) (v : F64) : Prop :=
  ∃ m a, f64IsNaN m = true ∧ f64IsNaN a = true ∧ v = remapAff m a c off step vmax clamp

/-- `v` is the value of a block's base-offset field (R74, R195). -/
def offsetReads (off : CzOffset) (v : F64) : Prop :=
  match off with
  | .float32 x => widensTo x v
  | .int16 n => v = realOfInt n.toInt
  | .int8 n => v = realOfInt n.toInt
  | .invalid => False

/-- Element `z` of a run of values of one type (R8 `elem_T`). -/
def elemAt (ty : EType) (bytes : List Byte) (z : Nat) : Elem :=
  { ty := ty, bits := BitVec.ofNat 64 (leNat ((bytes.drop (z * esize ty)).take (esize ty))) }

/-- Stream bit `t` of the MSBF convention: bit `31 - (t mod 32)` of word `t / 32` (R104, closed form). -/
def msbfBit (bytes : List Byte) (t : Nat) : Nat := ((wordsM bytes).getD (t / 32) 0 >>> (31 - t % 32)) % 2

/-- `v` is `xsum(k, delta)` (R248), `e` being the element of the reference dimension at `k` and `zm` the bound. -/
def crossSum (e : Elem) (zm delta v : F64) : Prop :=
  ∃ r n, readsAs e r ∧ f64IsNaN n = true ∧ v = if flt zm (fadd n r delta) then zm else fadd n r delta

/-- Code `o` of a packed stream, in the closed forms of R105 (LEGACY) and R104 (MSBF). -/
def packedCode (conv : Conv) (bytes : List Byte) (k o : Nat) : Nat :=
  match conv with
  | .legacy => leNat bytes / 2 ^ (o * k) % 2 ^ k
  | .msbf => (List.range k).foldl (fun acc b => 2 * acc + msbfBit bytes (o * k + b)) 0

/-- Between `s` and `t`, `PIX` of dimension `d` of the current band has received the values `vs`, by `store_T`, at the
pixels `ks`, and nothing else of `PIX` has changed (R200). -/
def delivered (s t : State) (d : Nat) (ks : List Nat) (vs : List F64) : Prop :=
  (∀ (z k : Nat) (v : F64), ks[z]? = some k → vs[z]? = some v →
    ∃ e, Memory.read t.pix (pixKey s.band.toNat (d * s.np + k)) = some e ∧ storesAs s.h.etype v e)
  ∧ ∀ key, (∀ k ∈ ks, key ≠ pixKey s.band.toNat (d * s.np + k)) → Memory.read t.pix key = Memory.read s.pix key

/-! ## What a record needs -/

/-- The buffer holds these bytes from address `a`, all of them below `IN_LEN` (R44). -/
abbrev State.holds (s : State) (a : Nat) (bytes : List Byte) : Prop :=
  a + bytes.length ≤ s.inLen.toNat ∧ ∀ j < bytes.length, Memory.read s.inMem (a + j) = bytes[j]?

/-- The mask of the band can be read at these pixels: some rule of the call has written it there, or the band has none. -/
abbrev State.maskReady (s : State) (ks : List Nat) : Prop :=
  s.m.present = true → ∀ k ∈ ks, (Memory.read s.maskx k).isSome = true

/-- `valid(k)` (R21) of a pixel whose mask can be read. -/
def State.isValid (s : State) (k : Nat) : Bool :=
  if s.m.present then Memory.read s.maskx k == some 1#8 else !s.m.allVoid

/-- All pixels of the band in scan order (R8). -/
def State.pixels (s : State) : List Nat := List.range s.np

/-- The valid ones among some pixels, in order (R200). -/
def State.validAmong (s : State) (ks : List Nat) : List Nat := ks.filter s.isValid

/-- The tile lies inside the image's columns, so its pixels are distinct. -/
abbrev State.tileInside (s : State) : Prop := s.t.x0.toNat + s.t.width.toNat ≤ s.h.width.toNat

/-- `zmax(d)` can be read (R241). -/
abbrev State.zmaxReady (s : State) (d : Nat) : Prop :=
  4 ≤ s.h.version.toInt → (Memory.read s.dimMax d).isSome = true

/-- The value of `zmax(d)` (R241). -/
def State.zmaxOf (s : State) (d : Nat) : F64 :=
  if 4 ≤ s.h.version.toInt then (Memory.read s.dimMax d).getD 0#64 else s.h.zMax

/-- The reference dimension of the current tile can be read at these pixels (R248). -/
abbrev State.referenceReady (s : State) (ks : List Nat) : Prop :=
  ∀ k ∈ ks, (Memory.read s.pix (pixKey s.band.toNat ((s.t.dim.toNat - 1) * s.np + k))).isSome = true

/-- The positional tag is the expected one: bits 6:3 of the first column, all four of them up to version 4, the upper
three in version 5 (R238, R239). -/
abbrev State.tagFits (s : State) (tag : BitVec 4) : Prop :=
  if s.h.version.toInt ≤ 4 then tag.toNat = s.t.x0.toNat / 8 % 16 else tag.toNat / 2 = s.t.x0.toNat / 8 % 16 / 2

/-- The cross-band flag of a tile header: the tag's low bit in version 5, else 0 (R238, R240). -/
def State.flagOf (s : State) (tag : BitVec 4) : Bool := decide (4 < s.h.version.toInt) && tag.getLsbD 0

/-- The count of a `BS2` record is the one due: the tile's valid pixels, or, bare, no more than the table's capacity
(R116). -/
abbrev State.countFits (s : State) (n : Nat) : Prop :=
  if s.bare then n ≤ s.cfg.hufSymMax else s.maskReady s.tilePixels ∧ n = (s.validAmong s.tilePixels).length

/-- The operands a `BS2` record is remapped with: the tile's (R245), or those of bare mode (R115). -/
def State.remapOperands (s : State) : RemapArgs :=
  if s.bare then { off := 0#64, step := f64One, vmax := 0#64, clamp := false }
  else { off := s.t.offset, step := s.qstep, vmax := s.zmaxOf s.t.dim.toNat, clamp := !s.t.xband }

/-! ## The Huffman table -/

/-- `HLEN[s]`, 0 where nothing is written. -/
def State.lenAt (s : State) (sym : Nat) : Nat := ((Memory.read s.hlen sym).getD 0#6).toNat

/-- `HCODE[s]`, 0 where nothing is written. -/
def State.codeAt (s : State) (sym : Nat) : Nat := ((Memory.read s.hcode sym).getD 0#32).toNat

/-- A table that has passed R158 to R164: every length read, every code an `HLEN`-bit number, no code equal to or a prefix
of another, and the two scalars of R164. -/
structure State.TableReady (s : State) : Prop where
  size : s.huf.size.toNat ≤ 65536
  lengths : ∀ x < s.huf.size.toNat, (Memory.read s.hlen x).isSome = true ∧ s.lenAt x ≤ 32
  codes : ∀ x < s.huf.size.toNat, 0 < s.lenAt x →
    (Memory.read s.hcode x).isSome = true ∧ s.codeAt x < 2 ^ s.lenAt x
  prefixFree : ∀ x < s.huf.size.toNat, ∀ y < s.huf.size.toNat, x ≠ y → 0 < s.lenAt x → s.lenAt x ≤ s.lenAt y →
    s.codeAt y >>> (s.lenAt y - s.lenAt x) ≠ s.codeAt x
  longest : (∀ x < s.huf.size.toNat, s.lenAt x ≤ s.huf.maxLen.toNat) ∧
    ∃ x < s.huf.size.toNat, 0 < s.lenAt x ∧ s.lenAt x = s.huf.maxLen.toNat
  quickBits : s.huf.qBits.toNat = min s.huf.maxLen.toNat Config.quickBitsMax

/-- From position `pos` to position `stop` the bit stream spells these symbols: each is what `HUF.SYM` answers there, and
the next starts where its code ends. -/
def State.spells (s : State) (stop : Nat) : Nat → List Nat → Prop
  | pos, [] => pos = stop
  | pos, x :: xs =>
    ∃ len, hufSym (s.setHbPos pos) = .ok (x, s.setHbPos (pos + len)) ∧ State.spells s stop (pos + len) xs

/-- Every byte from `HB.BASE` to the end of the buffer has been written, so looking ahead is defined (R159, R160). -/
abbrev State.bitsReady (s : State) : Prop :=
  ∀ a < s.inLen.toNat, s.hb.base.toNat ≤ a → (Memory.read s.inMem a).isSome = true

/-! ## Where a record is fetched -/

/-- The position and the address of the record due, if a record is (R257). -/
def State.recordAt (s : State) : Option (StreamPos × Nat) :=
  match s.seq with
  | .ident => some (.ident, s.cur.toNat)
  | .czHdr => some (.czHdr, s.cur.toNat + 10)
  | .czMsec => some (.czMsec, s.cur.toNat)
  | .rle => some (.rle, s.rlAddr)
  | .czPsec => some (.czPsec, s.cur.toNat)
  | .czBlock _ _ => some (.czBlock, s.cur.toNat)
  | .l2Hdr => some (.l2Hdr, s.cur.toNat + 6)
  | .l2Mask => some (.l2Mask, s.cur.toNat)
  | .l2Ranges => some (.l2Ranges, s.cur.toNat)
  | .l2Flag => some (.l2Flag, s.cur.toNat)
  | .l2Hf => some (.l2Hf, s.cur.toNat)
  | .hufTable => some (.hufTable, s.cur.toNat)
  | .bs2 _ _ _ => some (.bs2, s.cur.toNat)
  | .l2Tile _ _ _ => some (.l2Tile, s.cur.toNat)
  | .idle | .bandStart | .czSetup | .maskExpand | .maskEnd | .czPrefill | .czStats | .checksum | .checksumTest | .l2Setup
  | .l2Prefill | .constSurf _ | .rangesTest | .hufCodes | .hufBuild | .hufAlign | .hufPlane | .hufEnd
  | .tileDeliver _ _ _ | .l2Stats | .bandEnd | .maskAnd | .bandTail | .sweep | .reshape | .finish => none

/-- The internal operation due, if one is (R79). -/
def State.operationDue (s : State) : Option Instr :=
  match s.seq with
  | .maskExpand => some .maskExpand
  | .checksum => some (.f32Sum (s.h.blob0 + 14#32) (s.h.blobSize - 14#32))
  | .constSurf source => some (.constSurf source)
  | .hufBuild => some .hufBuild
  | .hufPlane => some (.hufPlane s.planeMode)
  | .maskAnd => some .maskAnd
  | .reshape => some .reshape
  | .idle | .bandStart | .ident | .czHdr | .czSetup | .czMsec | .rle | .maskEnd | .czPsec | .czPrefill | .czBlock _ _
  | .czStats | .l2Hdr | .checksumTest | .l2Setup | .l2Prefill | .l2Mask | .l2Ranges | .rangesTest | .l2Flag | .l2Hf
  | .hufTable | .bs2 _ _ _ | .hufCodes | .hufAlign | .hufEnd | .l2Tile _ _ _ | .tileDeliver _ _ _ | .l2Stats | .bandEnd
  | .bandTail | .sweep | .finish => none

/-! ## Well-formed states -/

/-- Every memory is in its canonical form. -/
structure State.MemoriesWf (s : State) : Prop where
  inMem : Memory.wf s.inMem
  dimMin : Memory.wf s.dimMin
  dimMax : Memory.wf s.dimMax
  lut : Memory.wf s.lut
  codes : Memory.wf s.codes
  hlen : Memory.wf s.hlen
  hcode : Memory.wf s.hcode
  qt : Memory.wf s.qt
  trie : Memory.wf s.trie
  bitset : Memory.wf s.bitset
  maskx : Memory.wf s.maskx
  cmask : Memory.wf s.cmask
  encmask : Memory.wf s.encmask
  pix : Memory.wf s.pix
  bstat : Memory.wf s.bstat

/-- The expanded and the combined mask hold 0 or 1 (R21). -/
abbrev State.masksBinary (s : State) : Prop :=
  (∀ c ∈ s.maskx, c.2 = 0#8 ∨ c.2 = 1#8) ∧ (∀ c ∈ s.cmask, c.2 = 0#8 ∨ c.2 = 1#8)

/-- The bit counts of the two cursors (R13, R159). -/
abbrev State.cursorsOk (s : State) : Prop := s.bs.bit.toNat ≤ 32 ∧ s.hb.bit.toNat < 32

/-- One of the four states of R15 holds, and something is due exactly while `BUSY`. -/
abbrev State.statusOk (s : State) : Prop := s.flagsOk ∧ (s.busy = true ↔ s.seq ≠ .idle)

/-- The current tile is the one of a grid whose full tiles have the given size, with its corner at `(x, y)`, clipped at
the image's edges (R193, R236). -/
abbrev State.tileIs (s : State) (x y width height : Nat) : Prop :=
  s.t.x0.toNat = x ∧ s.t.y0.toNat = y ∧ x ≤ s.h.width.toNat ∧ y ≤ s.h.height.toNat
    ∧ s.t.width.toNat = min width (s.h.width.toNat - x) ∧ s.t.height.toNat = min height (s.h.height.toNat - y)

/-- The current tile is tile `(ty, tx)` of the Lerc2 grid, of dimension `d` (R236, R237). -/
abbrev State.l2TileIs (s : State) (ty tx d : Nat) : Prop :=
  s.t.dim.toNat = d ∧ s.tileIs (tx * s.h.mbs.toNat) (ty * s.h.mbs.toNat) s.h.mbs.toNat s.h.mbs.toNat

/-- While a block or a tile is due, the `T` group holds its place in the grid and, of a Lerc2 tile, its dimension (R193,
R236, R237). -/
def State.tileOk (s : State) : Prop :=
  match s.seq with
  | .czBlock by_ bx => s.tileIs (bx * s.czTileW) (by_ * s.czTileH) s.czTileW s.czTileH
  | .l2Tile ty tx d => s.l2TileIs ty tx d
  | .bs2 ty tx d => s.bare = true ∨ s.l2TileIs ty tx d
  | .tileDeliver ty tx d => s.l2TileIs ty tx d
  | _ => True

end Sys2Proof.Machine
end

