-- ==== Sys2Proof/Certificates/Slice0/Obligations.lean ====
section
/-!
DEFINITION. The statements for the provers. `OBLIGATIONS.json` lists them with the rules each formalises.
-/

open Sys2Proof Sys2Proof.Machine

/-! ## Encoding -/

/-- Bytes written out from R61, R62, R65, R66, R70, R71 and R72 decode to the records they stand for. -/
def Obligations.EncodingSamples : Prop :=
  decodeAt .ident [0x43, 0x6E, 0x74, 0x5A, 0x49, 0x6D, 0x61, 0x67, 0x65, 0x20] = .ok (.idCntz false 0x20)
  ∧ decodeAt .rle [0xFD, 0xFF] = .ok (.rleRep 0xFFFD)
  ∧ decodeAt .rle [0x00, 0x80] = .ok .rleEnd
  ∧ decodeAt .czBlock [0x02, 0x00, 0x00, 0x60, 0x40] = .ok (.czConst (.float32 0x40600000))
  ∧ decodeAt .czBlock [0x41, 0x0A, 0x00, 0x84, 0x03] = .ok (.czBs (.int16 10) 4 (.uint8 3))
  ∧ decodeAt .l2Tile [0x0D] = .ok (.l2TileBs 0 3)
  ∧ decodeAt .bs2 [0xA4, 0x40] = .ok (.bs2Lut 4 (.uint8 64))
  ∧ decodeAt .l2Hf [0x02] = .ok .l2HfPlain
  ∧ decodeAt .command [0x01, 0x00, 0x00, 0x80] = .ok (.cmdGo 0x40000000)

/-- Decoding the bytes of a well-formed record, whatever follows them, gives it back: no bit of an encoding is dropped.
The identifier test reads ten bytes (R62), so ten must be there. -/
def Obligations.DecodeEncode : Prop :=
  ∀ (i : Instr) (pos : StreamPos) (rest : List Byte), i.wf = true → i.streamPos = some pos →
    (pos = .ident → 10 ≤ (encode i ++ rest).length) → decodeAt pos (encode i ++ rest) = .ok i

/-- What the decoder answers is a well-formed record of that position whose encoding the bytes begin with: no two records
share their bytes at one position. -/
def Obligations.EncodeDecode : Prop :=
  ∀ (pos : StreamPos) (bytes : List Byte) (i : Instr), decodeAt pos bytes = .ok i →
    i.wf = true ∧ i.streamPos = some pos ∧ encode i <+: bytes

/-! ## Steps -/

/-- A record whose bytes stand where the sequence rules fetch it, and an internal operation that is due, run by their
meaning; the step adds what is due next and counts the free values on. An instruction that ended the call adds nothing. What
is due after each of the others, but for those whose successor another statement writes out: a block or a tile record and
the delivery of a tile (`TileStaysInGrid`), the flag bytes (`L2FlagResults`), `L2.MASK` without a payload
(`L2MaskResult`). -/
def Obligations.StepRunsInstruction : Prop :=
  ∀ (s : State) (i : Instr), s.port = [] → s.busy = true →
    (∃ pos a, s.recordAt = some (pos, a) ∧ (pos = .rle → s.rlIp.toNat + 2 ≤ s.rlBytes.toNat)
      ∧ decodeAt pos (window s maxRecordBytes a) = .ok i)
    ∨ (s.operationDue = some i ∧ (s.seq = .checksum → 14 ≤ s.h.blobSize.toInt)) →
    step s = (match exec i s with
      | .next t => .next { sequence i t with fresh := (sequence i t).fresh + 1 }
      | .fault f => .fault f
      | .refused r => .refused r)
    ∧ ∀ t, exec i s = .next t →
      (t.busy = false → step s = .next { t with fresh := t.fresh + 1 })
      ∧ (t.busy = true →
        let goesOn (p : Phase) : Prop := step s = .next { t with seq := p, fresh := t.fresh + 1 }
        (∀ leading space, i = .idCntz leading space → goesOn .czHdr)
        ∧ (∀ sixth, i = .idLerc2 sixth → goesOn .l2Hdr)
        ∧ (s.seq = .czHdr → goesOn .czSetup)
        ∧ (∀ nby nbx n maxValue, i = .czMsec nby nbx n maxValue → goesOn (if n = 0 then .czPsec else .rle))
        ∧ (s.seq = .rle → goesOn (if i = .rleEnd then .maskExpand else .rle))
        ∧ (s.seq = .maskExpand → goesOn .maskEnd)
        ∧ (s.seq = .czPsec → goesOn .czPrefill)
        ∧ (s.seq = .l2Hdr → goesOn (if 3 ≤ t.h.version.toInt then .checksum else .l2Setup))
        ∧ (s.seq = .checksum → goesOn .checksumTest)
        ∧ (∀ n, i = .l2Mask n → n ≠ 0 → goesOn .rle)
        ∧ (∀ source, s.seq = .constSurf source → goesOn .l2Stats)
        ∧ (s.seq = .l2Ranges → goesOn .rangesTest)
        ∧ (∀ flag, i = .l2Sweep flag → goesOn .l2Stats)
        ∧ (s.seq = .hufTable → goesOn (.bs2 0 0 0))
        ∧ (∀ r c d, s.seq = .bs2 r c d → goesOn (if s.bare then .hufCodes else .tileDeliver r c d))
        ∧ (s.seq = .hufBuild → goesOn .hufAlign)
        ∧ (s.seq = .hufPlane → goesOn .hufEnd)
        ∧ (∀ otype tag r c d, i = .l2TileBs otype tag → s.seq = .l2Tile r c d → goesOn (.bs2 r c d))
        ∧ (s.seq = .maskAnd → goesOn .bandTail)
        ∧ (s.seq = .reshape → goesOn .finish))

/-- A word the host writes to `CMD` with bit 0 set is `CMD.GO`, bits 31:1 being ignored; any other word does nothing. -/
def Obligations.CommandWord : Prop :=
  ∀ (s : State) (v : Word) (rest : List HostEvent), s.port = .writeReg 0 v :: rest →
    (v.getLsbD 0 = true → step s = (match exec (.cmdGo (v.extractLsb' 1 31)) { s with port := rest } with
      | .next t => .next { t with fresh := t.fresh + 1 }
      | .fault f => .fault f
      | .refused r => .refused r))
    ∧ (v.getLsbD 0 = false → step s = .next { s with port := rest, fresh := s.fresh + 1 })
    ∧ ∀ x y, exec (.cmdGo x) s = exec (.cmdGo y) s

/-- A record cut off by the end of the buffer is `E_TRUNC` at the field that is cut; bytes that are no identifier are
`E_MAGIC`; an illegal second flag byte is `E_BLOCK_MODE` at that byte. A run header of which the declared bytes do not hold
both bytes is not fetched: `E_RLE` at its place. -/
def Obligations.FetchFaults : Prop :=
  ∀ (s : State), s.port = [] → s.busy = true →
    (∀ (pos : StreamPos) (a : Nat), s.recordAt = some (pos, a) →
      (pos = .rle → s.rlIp.toNat + 2 ≤ s.rlBytes.toNat) →
      (∀ off width, decodeAt pos (window s maxRecordBytes a) = .error (.short off width) →
        s.inLen.toNat < a + off + width → faultedWith (step s) .trunc (a + off))
      ∧ (decodeAt pos (window s maxRecordBytes a) = .error .noIdentifier → faultedWith (step s) .magic s.cur.toNat)
      ∧ (decodeAt pos (window s maxRecordBytes a) = .error .badHuffmanFlag → faultedWith (step s) .blockMode a))
    ∧ (s.seq = .rle → s.rlBytes.toNat < s.rlIp.toNat + 2 →
      faultedWith (step s) .rle (s.rlBase.toNat + s.rlIp.toNat))

/-! ## Start of a call -/

/-- An accepted `GO`: the flags, every register of the call at its reset value, the results 0, `CUR` at `OPT.OFFSET`, band
0; the host's registers and `IN` as they were. `GO` while `BUSY` changes nothing. -/
def Obligations.GoStartsCall : Prop :=
  ∀ (s : State) (x : BitVec 31),
    (s.busy = false → s.inputReady = true → ∃ t, exec (.cmdGo x) s = .next t
      ∧ t.busy = true ∧ t.done = false ∧ t.err = false ∧ t.errCode = 0 ∧ t.errInfo = 0
      ∧ t.bs = BitCursor.reset ∧ t.hb = BitCursor.reset ∧ t.h = HGroup.reset ∧ t.t = TGroup.reset
      ∧ t.huf = HufGroup.reset ∧ t.fSum1 = 0 ∧ t.fSum2 = 0 ∧ t.rlIp = 0 ∧ t.rlOp = 0 ∧ t.rlRun = 0 ∧ t.hpPrev = 0
      ∧ t.m = MaskGroup.reset ∧ t.res = ResGroup.reset ∧ t.band = 0 ∧ t.cur = s.optOffset
      ∧ t.inMem = s.inMem ∧ t.inLen = s.inLen ∧ t.optOffset = s.optOffset ∧ t.optFlags = s.optFlags
      ∧ t.optPixelType = s.optPixelType ∧ t.optNoData = s.optNoData ∧ t.cfg = s.cfg ∧ t.seq = .bandStart)
    ∧ (s.busy = true → exec (.cmdGo x) s = .next s)

/-- The start of a band: the band one beyond the limit is `E_PARAM`; else the cursor becomes the start of the blob. The
identifier settles the container; after band 0 it may not change. -/
def Obligations.IdentifierSettlesContainer : Prop :=
  ∀ (s : State) (leading : Bool) (space sixth : Byte),
    (s.band = 0 ∨ s.h.fmt = .cntz →
      exec (.idCntz leading space) s = .next { s with h := { s.h with fmt := .cntz } })
    ∧ (s.band = 0 ∨ s.h.fmt = .lerc2 → exec (.idLerc2 sixth) s = .next { s with h := { s.h with fmt := .lerc2 } })
    ∧ (s.band ≠ 0 → s.h.fmt ≠ .cntz → faultedWith (exec (.idCntz leading space) s) .magic s.cur.toNat)
    ∧ (s.band ≠ 0 → s.h.fmt ≠ .lerc2 → faultedWith (exec (.idLerc2 sixth) s) .magic s.cur.toNat)
    ∧ (s.port = [] → s.busy = true → s.seq = .bandStart →
      if s.band.toNat = s.cfg.bandMax then faultedWith (step s) .param s.cur.toNat
      else step s = .next { s with h := { s.h with blob0 := s.cur }, seq := .ident, fresh := s.fresh + 1 })

/-! ## CntZImage -/

/-- `CZ.HDR`: the fields and an advance of 34, or `E_PARAM` for a size that is zero, too large, or not band 0's. Then the
step that sets the element type, the convention and the quantisation step, and in band 0 the results of the call. -/
def Obligations.CzHdrResult : Prop :=
  ∀ (s : State) (version imageType height width : Word) (maxZError : F64),
    (if width ≠ 0 ∧ height ≠ 0 ∧ width.toNat * height.toNat ≤ s.cfg.pixMax
        ∧ (s.band = 0 ∨ (width = s.res.width ∧ height = s.res.height)) then
      exec (.czHdr version imageType height width maxZError) s = .next { s with
        h := { s.h with version := version, imgType := imageType, height := height, width := width,
                        maxZErr := maxZError, nDim := 1 },
        cur := s.cur + 34 }
    else faultedWith (exec (.czHdr version imageType height width maxZError) s) .param s.cur.toNat)
    ∧ (s.port = [] → s.busy = true → s.seq = .czSetup →
      let ty := if s.optFlags.getLsbD 0 then EType.ofCode s.optPixelType else .f32
      ∃ n, f64IsNaN n = true ∧ step s = .next { s with
        h := { s.h with etype := ty, conv := .legacy },
        qstep := fmul n f64Two s.h.maxZErr,
        res := if s.band = 0 then { s.res with width := s.h.width, height := s.h.height, etype := ty } else s.res,
        seq := if s.band = 0 then .czMsec else .czPsec, fresh := s.fresh + 1 })

/-- `CZ.MSEC`: no mask bytes mean that every pixel is valid; else the run loop starts behind the 16 bytes, if the whole
payload is there. `CZ.PSEC`: the fields, an advance of 16 and `PSTART`, or `E_PARAM` for a grid that is empty or finer
than the image. The end of the mask payload: `CUR` past it, the mask present and held, one more mask counted. -/
def Obligations.CzSectionResults : Prop :=
  ∀ (s : State) (nby nbx numBytes : Word) (maxValue : F32),
    let h := { s.h with mNby := nby, mNbx := nbx, mBytes := numBytes, mMaxVal := maxValue }
    (if numBytes = 0 then
      exec (.czMsec nby nbx numBytes maxValue) s = .next { s with
        h := h, cur := s.cur + 16, m := { s.m with present := false, allVoid := false } }
    else if (s.cur + 16).toNat + numBytes.toNat ≤ s.inLen.toNat then
      exec (.czMsec nby nbx numBytes maxValue) s = .next { s with
        h := h, cur := s.cur + 16, rlBase := s.cur + 16, rlBytes := numBytes, rlIp := 0, rlOp := 0 }
    else faultedWith (exec (.czMsec nby nbx numBytes maxValue) s) .trunc (s.cur + 16).toNat)
    ∧ (if nbx = 0 ∨ nby = 0 ∨ s.h.width.toNat < nbx.toNat ∨ s.h.height.toNat < nby.toNat then
        faultedWith (exec (.czPsec nby nbx numBytes maxValue) s) .param s.cur.toNat
      else exec (.czPsec nby nbx numBytes maxValue) s = .next { s with
        h := { s.h with nby := nby, nbx := nbx, pixBytes := numBytes, maxVal := maxValue },
        cur := s.cur + 16, pstart := s.cur + 16 })
    ∧ (s.port = [] → s.busy = true → s.seq = .maskEnd → s.h.fmt ≠ .lerc2 →
      step s = .next { s with
        cur := s.cur + s.h.mBytes, m := { present := true, allVoid := false, count := s.m.count + 1, held := true },
        seq := .czPsec, fresh := s.fresh + 1 })

/-- `CZ.RAW`: one float for each valid pixel of the tile, in row-major order; the offset field is read and not used; all
else but `CUR`, the `T` group and the running minimum (of equal zeros the first: the model's choice, log 14) stays. -/
def Obligations.CzRawResult : Prop :=
  ∀ (s : State) (off : CzOffset) (bytes : List Byte),
    let ks := s.validAmong s.tilePixels
    let a := s.cur + BitVec.ofNat 32 (1 + off.len)
    off ≠ .invalid → s.tileInside → s.maskReady s.tilePixels → bytes.length = 4 * ks.length →
    s.holds a.toNat bytes →
    ∃ t vs offset, exec (.czRaw off) s = .next t ∧ offsetReads off offset
      ∧ t = { s with
          cur := a + BitVec.ofNat 32 (4 * ks.length),
          t := { s.t with mode := 0, otype := off.otype, offset := offset, cnt := BitVec.ofNat 32 ks.length },
          czMin := runMin s.czMin vs, pix := t.pix }
      ∧ vs.length = ks.length ∧ (∀ z v, vs[z]? = some v → readsAs (elemAt .f32 bytes z) v)
      ∧ delivered s t 0 ks vs

/-- `CZ.BS`: the codes of the valid pixels, unpacked least significant bit first, as `offset + code * step` clamped at
`maxValue`. The running minimum as in `CzRawResult` (log 14). -/
def Obligations.CzBsResult : Prop :=
  ∀ (s : State) (off : CzOffset) (bits : BitVec 6) (count : CountField) (bytes : List Byte),
    let ks := s.validAmong s.tilePixels
    let a := s.cur + BitVec.ofNat 32 (1 + off.len) + BitVec.ofNat 32 (1 + count.len)
    off ≠ .invalid → count ≠ .invalid → bits.toNat ≤ 32 → CountField.value count = ks.length → s.tileInside →
    s.maskReady s.tilePixels → bytes.length = packedBytes ks.length bits.toNat → s.holds a.toNat bytes →
    ∃ t vs offset vmax, exec (.czBs off bits count) s = .next t ∧ offsetReads off offset ∧ widensTo s.h.maxVal vmax
      ∧ t = { s with
          cur := a + BitVec.ofNat 32 bytes.length,
          t := { s.t with mode := 1, otype := off.otype, offset := offset, bits := bits,
                          nVal := BitVec.ofNat 32 ks.length, cnt := BitVec.ofNat 32 ks.length },
          czMin := runMin s.czMin vs, codes := t.codes, bs := t.bs, pix := t.pix }
      ∧ vs.length = ks.length
      ∧ (∀ z v, vs[z]? = some v → remapsTo (packedCode .legacy bytes bits.toNat z) offset s.qstep vmax true v)
      ∧ delivered s t 0 ks vs

/-- `CZ.CONST`: the offset at every valid pixel of the tile, not clamped; no further bytes. The running
minimum as in `CzRawResult` (log 14). -/
def Obligations.CzConstResult : Prop :=
  ∀ (s : State) (off : CzOffset),
    let ks := s.validAmong s.tilePixels
    off ≠ .invalid → s.maskReady s.tilePixels →
    ∃ t offset, exec (.czConst off) s = .next t ∧ offsetReads off offset
      ∧ t = { s with
          cur := s.cur + BitVec.ofNat 32 (1 + off.len),
          t := { s.t with mode := 2, otype := off.otype, offset := offset, cnt := BitVec.ofNat 32 ks.length },
          czMin := runMin s.czMin (List.replicate ks.length offset), pix := t.pix }
      ∧ delivered s t 0 ks (List.replicate ks.length offset)

/-- The faults of the block records, in the order of the rules: a reserved header byte, which is the whole effect of
`CZ.RSVD`, the offset selector, the count selector, the code width, the count; last a payload that passes the end of the
buffer, which is `E_TRUNC` at its first byte. -/
def Obligations.CzBlockFaults : Prop :=
  ∀ (s : State) (off : CzOffset) (bits : BitVec 6) (count : CountField) (header : Byte),
    let a1 := s.cur + BitVec.ofNat 32 (1 + off.len)
    let a2 := a1 + BitVec.ofNat 32 (1 + count.len)
    let n := (s.validAmong s.tilePixels).length
    faultedWith (exec (.czRsvd header) s) .blockMode s.cur.toNat
    ∧ (off = .invalid → faultedWith (exec (.czRaw off) s) .typeTag s.cur.toNat
      ∧ faultedWith (exec (.czBs off bits count) s) .typeTag s.cur.toNat
      ∧ faultedWith (exec (.czConst off) s) .typeTag s.cur.toNat)
    ∧ (off ≠ .invalid → count = .invalid → faultedWith (exec (.czBs off bits count) s) .typeTag a1.toNat)
    ∧ (off ≠ .invalid → count ≠ .invalid → 32 < bits.toNat → faultedWith (exec (.czBs off bits count) s) .param a2.toNat)
    ∧ (off ≠ .invalid → count ≠ .invalid → bits.toNat ≤ 32 → s.maskReady s.tilePixels →
      CountField.value count ≠ n → faultedWith (exec (.czBs off bits count) s) .count a2.toNat)
    ∧ (off ≠ .invalid → s.maskReady s.tilePixels → s.inLen.toNat < a1.toNat + 4 * n →
      faultedWith (exec (.czRaw off) s) .trunc a1.toNat)
    ∧ (off ≠ .invalid → count ≠ .invalid → 1 ≤ bits.toNat → bits.toNat ≤ 32 → s.maskReady s.tilePixels →
      CountField.value count = n → s.inLen.toNat < a2.toNat + packedBytes n bits.toNat →
      faultedWith (exec (.czBs off bits count) s) .trunc a2.toNat)

/-! ## Mask runs -/

/-- `RLE.LIT`: the two length tests, then `n` bytes copied. -/
def Obligations.RleLitResult : Prop :=
  ∀ (s : State) (run : BitVec 16) (bytes : List Byte),
    let ip := s.rlIp + 2
    let a := s.rlBase.toNat + ip.toNat
    if s.rlBytes.toNat < ip.toNat + run.toNat ∨ s.maskBytes < s.rlOp.toNat + run.toNat then
      faultedWith (exec (.rleLit run) s) .rle a
    else bytes.length = run.toNat → s.holds a bytes →
      ∃ t, exec (.rleLit run) s = .next t
        ∧ t = { s with rlRun := run, rlIp := ip + BitVec.ofNat 32 run.toNat,
                       rlOp := s.rlOp + BitVec.ofNat 32 run.toNat, bitset := t.bitset }
        ∧ (∀ j < run.toNat, Memory.read t.bitset (s.rlOp.toNat + j) = bytes[j]?)
        ∧ ∀ j, j < s.rlOp.toNat ∨ s.rlOp.toNat + run.toNat ≤ j → Memory.read t.bitset j = Memory.read s.bitset j

/-- `RLE.REP`: the two length tests, then one byte written `n` times, `n` being minus the run header. -/
def Obligations.RleRepResult : Prop :=
  ∀ (s : State) (run : BitVec 16) (v : Byte) (n : Nat),
    let ip := s.rlIp + 2
    let a := s.rlBase.toNat + ip.toNat
    1 ≤ n → n ≤ 32767 → run = BitVec.ofInt 16 (-n) →
    if s.rlBytes.toNat < ip.toNat + 1 ∨ s.maskBytes < s.rlOp.toNat + n then faultedWith (exec (.rleRep run) s) .rle a
    else s.holds a [v] →
      ∃ t, exec (.rleRep run) s = .next t
        ∧ t = { s with rlRun := run, rlIp := ip + 1, rlOp := s.rlOp + BitVec.ofNat 32 n, bitset := t.bitset }
        ∧ (∀ j < n, Memory.read t.bitset (s.rlOp.toNat + j) = some v)
        ∧ ∀ j, j < s.rlOp.toNat ∨ s.rlOp.toNat + n ≤ j → Memory.read t.bitset j = Memory.read s.bitset j

/-- `RLE.END`: the bitset must be exactly full and the stream exactly used up. `RLE.ZERO`: `E_RLE` at the run header, which
is its whole effect. -/
def Obligations.RleEndResult : Prop :=
  ∀ (s : State),
    (if s.rlOp.toNat = s.maskBytes ∧ s.rlIp + 2 = s.rlBytes then
      exec .rleEnd s = .next { s with rlRun := 0x8000, rlIp := s.rlIp + 2 }
    else faultedWith (exec .rleEnd s) .rle (s.rlBase.toNat + (s.rlIp + 2).toNat))
    ∧ faultedWith (exec .rleZero s) .rle (s.rlBase.toNat + s.rlIp.toNat)

/-- `MASK.EXPAND`: `MASKX[k]` is bit `7 - k mod 8` of byte `k / 8` of the bitset, for every pixel; nothing else changes. -/
def Obligations.MaskExpandResult : Prop :=
  ∀ (s : State), (∀ k < s.np, (Memory.read s.bitset (k / 8)).isSome = true) →
    ∃ t, exec .maskExpand s = .next t ∧ t = { s with maskx := t.maskx }
      ∧ (∀ k x, k < s.np → Memory.read s.bitset (k / 8) = some x →
        Memory.read t.maskx k = some (BitVec.ofNat 8 ((x.toNat >>> (7 - k % 8)) % 2)))
      ∧ ∀ k, s.np ≤ k → Memory.read t.maskx k = Memory.read s.maskx k

/-! ## Bit-stream unpacker -/

/-- `UNPK.L`: code `o` is bits `o*k .. o*k + k - 1` of the stream bytes taken as one little-endian number; `CUR` does not
move and the cursor ends behind the last code. -/
def Obligations.UnpkLegacyCodes : Prop :=
  ∀ (s : State) (a n : Word) (k : BitVec 6) (bytes : List Byte), 1 ≤ k.toNat → k.toNat ≤ 32 →
    bytes.length = packedBytes n.toNat k.toNat → s.holds a.toNat bytes →
    ∃ t, exec (.unpkL a n k) s = .next t
      ∧ t = { s with
          codes := t.codes,
          bs := { base := a, widx := BitVec.ofNat 32 (n.toNat * k.toNat / 32),
                  bit := BitVec.ofNat 6 (n.toNat * k.toNat % 32) } }
      ∧ (∀ o < n.toNat, Memory.read t.codes o = some (BitVec.ofNat 32 (leNat bytes / 2 ^ (o * k.toNat) % 2 ^ k.toNat)))
      ∧ ∀ o, n.toNat ≤ o → Memory.read t.codes o = Memory.read s.codes o

/-- `UNPK.M`: code `o` is stream bits `o*k .. o*k + k - 1`, the first most significant, stream bit `t` being bit
`31 - t mod 32` of word `t / 32`. -/
def Obligations.UnpkMsbfCodes : Prop :=
  ∀ (s : State) (a n : Word) (k : BitVec 6) (bytes : List Byte), 1 ≤ k.toNat → k.toNat ≤ 32 →
    bytes.length = packedBytes n.toNat k.toNat → s.holds a.toNat bytes →
    ∃ t, exec (.unpkM a n k) s = .next t
      ∧ t = { s with
          codes := t.codes,
          bs := { base := a, widx := BitVec.ofNat 32 (n.toNat * k.toNat / 32),
                  bit := BitVec.ofNat 6 (n.toNat * k.toNat % 32) } }
      ∧ (∀ o < n.toNat, ∃ c : Word, Memory.read t.codes o = some c ∧ c.toNat < 2 ^ k.toNat
        ∧ ∀ b < k.toNat, c.getLsbD (k.toNat - 1 - b) = decide (msbfBit bytes (o * k.toNat + b) = 1))
      ∧ ∀ o, n.toNat ≤ o → Memory.read t.codes o = Memory.read s.codes o

/-- The edges of the two extractions: width 0 reads no byte and gives zeros, a width above 32 is `E_PARAM(CUR)`, a stream
that passes the end of the buffer is `E_TRUNC` at its start. -/
def Obligations.UnpkEdges : Prop :=
  ∀ (s : State) (a n : Word) (k : BitVec 6) (i : Instr), i = .unpkL a n k ∨ i = .unpkM a n k →
    (k = 0 → ∃ t, exec i s = .next t ∧ t = { s with codes := t.codes, bs := { base := a, widx := 0, bit := 0 } }
      ∧ (∀ o < n.toNat, Memory.read t.codes o = some 0)
      ∧ ∀ o, n.toNat ≤ o → Memory.read t.codes o = Memory.read s.codes o)
    ∧ (32 < k.toNat → faultedWith (exec i s) .param s.cur.toNat)
    ∧ (1 ≤ k.toNat → k.toNat ≤ 32 → s.inLen.toNat < a.toNat + packedBytes n.toNat k.toNat →
      faultedWith (exec i s) .trunc a.toNat)

/-- `REMAP.AFF`: offset plus code times step, in binary64, replaced by the bound when the clamp is on and it is greater;
only the result register changes (the register is the model's, log 19). -/
def Obligations.RemapAffResult : Prop :=
  ∀ (s : State) (c : Word) (off step vmax : F64) (clamp : Bool), ∃ m n v,
    f64IsNaN m = true ∧ f64IsNaN n = true ∧ v = fadd n off (fmul m (realOfNat c.toNat) step)
      ∧ exec (.remapAff c off step vmax clamp) s =
        .next { s with opResult := if clamp = true ∧ flt vmax v = true then vmax else v }

/-- `REMAP.LUT`: the entry of the table, or `E_LUT_INDEX` at or above its size. The result register is the model's
(log 19). -/
def Obligations.RemapLutResult : Prop :=
  ∀ (s : State) (c : Word),
    (∀ v, c.toNat < s.t.nLut.toNat → Memory.read s.lut c.toNat = some v →
      exec (.remapLut c) s = .next { s with opResult := v })
    ∧ (s.t.nLut.toNat ≤ c.toNat → faultedWith (exec (.remapLut c) s) .lutIndex s.cur.toNat)

/-- `BS2.AFF`: the codes are unpacked under the band's convention. In a tile each is remapped with the tile's origin, the
band's step and the dimension's bound; for a Huffman table the codes are the result, kept as exact numbers (the model's
choice of form, log 17). -/
def Obligations.Bs2AffResult : Prop :=
  ∀ (s : State) (numBits : BitVec 5) (count : CountField) (bytes : List Byte),
    let n := CountField.value count
    let a := s.cur + BitVec.ofNat 32 (1 + count.len)
    let args := s.remapOperands
    count ≠ .invalid → s.countFits n → (s.bare = false → s.zmaxReady s.t.dim.toNat) →
    bytes.length = packedBytes n numBits.toNat → s.holds a.toNat bytes →
    ∃ t, exec (.bs2Aff numBits count) s = .next t
      ∧ t = { s with
          cur := a + BitVec.ofNat 32 bytes.length,
          t := { s.t with bits := numBits.setWidth 6, lutf := false, nVal := BitVec.ofNat 32 n },
          codes := t.codes, bs := t.bs, val := t.val }
      ∧ t.val.length = n
      ∧ ∀ z v, t.val[z]? = some v →
        if s.bare then v = realOfNat (packedCode s.h.conv bytes numBits.toNat z)
        else remapsTo (packedCode s.h.conv bytes numBits.toNat z) args.off args.step args.vmax args.clamp v

/-- `BS2.LUT`: entry 0 of the table is the origin, the others are stored codes remapped; each index names an entry,
and an index at or above the number of entries is `E_LUT_INDEX` behind the record. A table for Huffman lengths takes the
origin 0, the step 1 and no clamp. -/
def Obligations.Bs2LutResult : Prop :=
  ∀ (s : State) (numBits : BitVec 5) (count : CountField) (nLut : Byte) (entries indices : List Byte) (kIdx : Nat),
    let n := CountField.value count
    let a := s.cur + BitVec.ofNat 32 (1 + count.len)
    let args := s.remapOperands
    count ≠ .invalid → s.countFits n → (s.bare = false → s.zmaxReady s.t.dim.toNat) → nLut ≠ 0 →
    (nLut.toNat - 1) >>> kIdx = 0 → (∀ j < kIdx, (nLut.toNat - 1) >>> j ≠ 0) →
    entries.length = packedBytes (nLut.toNat - 1) numBits.toNat → indices.length = packedBytes n kIdx →
    s.holds a.toNat (nLut :: entries ++ indices) →
    if ∀ z < n, packedCode s.h.conv indices kIdx z < nLut.toNat then
      ∃ t, exec (.bs2Lut numBits count) s = .next t
        ∧ t = { s with
            cur := a + BitVec.ofNat 32 (1 + entries.length + indices.length),
            t := { s.t with bits := numBits.setWidth 6, lutf := true, nVal := BitVec.ofNat 32 n, nLut := nLut },
            codes := t.codes, bs := t.bs, lut := t.lut, val := t.val }
        ∧ Memory.read t.lut 0 = some args.off
        ∧ (∀ i, 1 ≤ i → i < nLut.toNat → ∃ v, Memory.read t.lut i = some v
          ∧ remapsTo (packedCode s.h.conv entries numBits.toNat (i - 1)) args.off args.step args.vmax args.clamp v)
        ∧ (∀ i, nLut.toNat ≤ i → Memory.read t.lut i = Memory.read s.lut i)
        ∧ t.val.length = n
        ∧ ∀ z < n, t.val[z]? = Memory.read t.lut (packedCode s.h.conv indices kIdx z)
    else faultedWith (exec (.bs2Lut numBits count) s) .lutIndex
      (a + BitVec.ofNat 32 (1 + entries.length + indices.length)).toNat

/-- With a lookup table present every decoded sample is one of its entries. -/
def Obligations.LutMembership : Prop :=
  ∀ (s t : State) (numBits : BitVec 5) (count : CountField), s.err = false → exec (.bs2Lut numBits count) s = .next t →
    t.err = false → ∀ v ∈ t.val, ∃ i < t.t.nLut.toNat, Memory.read t.lut i = some v

/-! ## Fletcher-32 -/

/-- `F32.SUM`: one bounds check, then both sums and the result, in the model's result register (log 19); nothing
else changes. The check of a version 3 band: a blob shorter than the 14 bytes before the range is `E_PARAM` at its first
byte, without a sum; a sum that is not the header's is `E_CHECKSUM`, with the sum as its value; an equal one lets the band
go on. -/
def Obligations.F32SumResult : Prop :=
  ∀ (s : State) (a len : Word) (bytes : List Byte),
    (bytes.length = len.toNat → s.holds a.toNat bytes →
      exec (.f32Sum a len) s = .next { s with
        fSum1 := BitVec.ofNat 32 (fletcher bytes).1, fSum2 := BitVec.ofNat 32 (fletcher bytes).2,
        opResult := (BitVec.ofNat 32 ((fletcher bytes).2 * 65536 + (fletcher bytes).1)).setWidth 64 })
    ∧ (s.inLen.toNat < a.toNat + len.toNat → faultedWith (exec (.f32Sum a len) s) .trunc a.toNat)
    ∧ (s.port = [] → s.busy = true → s.seq = .checksumTest →
      if s.opResult.setWidth 32 = s.h.checksum then step s = .next { s with seq := .l2Setup, fresh := s.fresh + 1 }
      else faultedWith (step s) .checksum (s.opResult.setWidth 32).toNat)
    ∧ (s.port = [] → s.busy = true → s.seq = .checksum → s.h.blobSize.toInt < 14 →
      faultedWith (step s) .param s.h.blob0.toNat)

/-- Each half of the sum is congruent modulo 65535 to the sum without blocks: the pairs, the first byte high, an odd last
byte padded with 0, both sums starting at 65535. -/
def Obligations.FletcherCongruence : Prop :=
  ∀ (bytes : List Byte) (words : List Nat),
    (∀ i, words[i]? = if 2 * i < bytes.length then
        some ((bytes.getD (2 * i) 0).toNat * 256 + (bytes.getD (2 * i + 1) 0).toNat) else none) →
    (fletcher bytes).1 % 65535 = (words.foldl (fun r w => (r.1 + w, r.2 + (r.1 + w))) (65535, 65535)).1 % 65535
    ∧ (fletcher bytes).2 % 65535 = (words.foldl (fun r w => (r.1 + w, r.2 + (r.1 + w))) (65535, 65535)).2 % 65535

/-- A one-byte change always changes the checksum. So a band whose header holds the checksum of its range, and in whose
range one byte has been changed since, fails its comparison with `E_CHECKSUM`, no output having been written. -/
def Obligations.OneByteChangeDetected : Prop :=
  ∀ (bytes : List Byte) (i : Nat) (x : Byte), i < bytes.length → bytes[i]? ≠ some x →
    fletcherWord (bytes.set i x) ≠ fletcherWord bytes
    ∧ ∀ s : State, s.port = [] → s.busy = true → s.seq = .checksum → 14 ≤ s.h.blobSize.toInt →
      bytes.length = (s.h.blobSize - 14).toNat → s.h.checksum = fletcherWord bytes →
      s.holds (s.h.blob0 + 14).toNat (bytes.set i x) →
      ∃ t, step s = .next t ∧ t.pix = s.pix ∧ t.bitset = s.bitset ∧ t.maskx = s.maskx ∧ t.cmask = s.cmask
        ∧ faultedWith (step t) .checksum (fletcherWord (bytes.set i x)).toNat

/-! ## Huffman -/

/-- `HUF.TABLE`: the version test, then the range tests, then the fields and an advance of 16. -/
def Obligations.HufTableResult : Prop :=
  ∀ (s : State) (hversion size i0 i1 : Word),
    if hversion.toInt < 2 then faultedWith (exec (.hufTable hversion size i0 i1) s) .hufVersion s.cur.toNat
    else if 1 ≤ size.toInt ∧ size.toInt ≤ s.cfg.hufSymMax ∧ 0 ≤ i0.toInt ∧ i0.toInt < i1.toInt
        ∧ i1.toInt - i0.toInt ≤ size.toInt ∧ i1.toInt ≤ 2 * size.toInt then
      exec (.hufTable hversion size i0 i1) s = .next { s with
        huf := { s.huf with size := size, i0 := i0, i1 := i1 }, bare := true, cur := s.cur + 16 }
    else faultedWith (exec (.hufTable hversion size i0 i1) s) .hufTable s.cur.toNat

/-- What the rule after the length record leaves, if it does not fault: a table that `HUF.BUILD` can take. The lengths are
those of the record, in the order of the serialized indices, and 0 for every other symbol; the codes are read in the same
order, one behind the other, from `CUR` on, most significant bit first; `CUR` does not move. -/
def Obligations.StoredCodesMakeTable : Prop :=
  ∀ (s t : State), s.port = [] → s.busy = true → s.seq = .hufCodes → s.huf.size.toNat ≤ 65536 →
    step s = .next t → t.err = s.err → s.err = false → t.TableReady
    ∧ t = { s with hlen := t.hlen, hcode := t.hcode, hb := t.hb,
                   huf := { s.huf with maxLen := t.huf.maxLen, qBits := t.huf.qBits },
                   seq := .hufBuild, fresh := s.fresh + 1 }
    ∧ ∀ lens : List Nat, s.val = lens.map realOfNat → (∀ l ∈ lens, l < 4294967296) →
      lens.length = s.t.nVal.toNat → s.huf.i0.toNat < s.huf.i1.toNat →
      s.huf.i1.toNat ≤ s.huf.i0.toNat + s.huf.size.toNat → s.huf.i1.toNat ≤ 2 * s.huf.size.toNat →
      let sym (j : Nat) : Nat :=
        if s.huf.i0.toNat + j < s.huf.size.toNat then s.huf.i0.toNat + j else s.huf.i0.toNat + j - s.huf.size.toNat
      let stream : State := { s with hb := { base := s.cur, widx := 0, bit := 0 } }
      s.huf.i0.toNat + lens.length = s.huf.i1.toNat ∧ t.hb.base = s.cur ∧ t.hbPos = lens.sum
      ∧ (∀ j l, lens[j]? = some l → t.lenAt (sym j) = l
        ∧ (0 < l → peek (stream.setHbPos (lens.take j).sum) l = .ok (t.codeAt (sym j))))
      ∧ ∀ x < s.huf.size.toNat, (∀ j < lens.length, x ≠ sym j) → t.lenAt x = 0

/-- `HUF.BUILD` on a table that passed the checks: every index of the quick table whose top bits are a code names its
symbol, every other index is a miss. -/
def Obligations.HufBuildResult : Prop :=
  ∀ (s : State), s.TableReady → ∃ t, exec .hufBuild s = .next t
    ∧ t = { s with qt := t.qt, trie := t.trie, huf := { s.huf with nNodes := t.huf.nNodes } }
    ∧ (∀ x q, x < s.huf.size.toNat → 0 < s.lenAt x → s.lenAt x ≤ s.huf.qBits.toNat →
      q >>> (s.huf.qBits.toNat - s.lenAt x) = s.codeAt x →
      Memory.read t.qt q = some { len := BitVec.ofNat 6 (s.lenAt x), sym := BitVec.ofNat 16 x })
    ∧ (∀ q < 2 ^ s.huf.qBits.toNat,
      (∀ x < s.huf.size.toNat, 0 < s.lenAt x → s.lenAt x ≤ s.huf.qBits.toNat →
        q >>> (s.huf.qBits.toNat - s.lenAt x) ≠ s.codeAt x) →
      Memory.read t.qt q = some { len := 0, sym := 0 })
    ∧ ∀ q, 2 ^ s.huf.qBits.toNat ≤ q → Memory.read t.qt q = Memory.read s.qt q

/-- `HUF.SYM` on a hit of the quick table: the entry's symbol, in the model's result register (log 19), and an advance by
its length. After `HUF.BUILD`, whatever the lengths: the symbol whose code the next bits are; `E_TRUNC` when those bits may
not be consumed (R159 and R160 together, log 25); `E_HUFF_CODE` when the bits match no code. After the table the cursor
goes to the next word, if a word has been begun. After the data `CUR` goes past the word begun and one word of padding, or,
where that passes the end of the buffer, `E_TRUNC` at the current word. -/
def Obligations.HufSymDecodes : Prop :=
  ∀ (s : State),
    (∀ q e, peek s s.huf.qBits.toNat = .ok q → Memory.read s.qt q = some e → e.len ≠ 0 →
      s.consumable e.len.toNat →
      exec .hufSym s = .next { s.setHbPos (s.hbPos + e.len.toNat) with opResult := BitVec.ofNat 64 e.sym.toNat })
    ∧ (∀ u : State, u.TableReady → exec .hufBuild u = .next s → s.bitsReady →
      (∀ x < s.huf.size.toNat, 0 < s.lenAt x → peek s (s.lenAt x) = .ok (s.codeAt x) →
        if s.consumable (s.lenAt x) then
          exec .hufSym s = .next { s.setHbPos (s.hbPos + s.lenAt x) with opResult := BitVec.ofNat 64 x }
        else faultedWith (exec .hufSym s) .trunc s.hbAddr)
      ∧ ((∀ x < s.huf.size.toNat, 0 < s.lenAt x → peek s (s.lenAt x) ≠ .ok (s.codeAt x)) →
        faultedWith (exec .hufSym s) .hufCode s.hbAddr))
    ∧ (s.port = [] → s.busy = true → s.seq = .hufAlign →
      step s = .next { s with
        hb := if 0 < s.hb.bit.toNat then { s.hb with widx := s.hb.widx + 1, bit := 0 } else s.hb,
        seq := .hufPlane, fresh := s.fresh + 1 })
    ∧ (s.port = [] → s.busy = true → s.seq = .hufEnd →
      let used := s.hb.widx.toNat + (if 0 < s.hb.bit.toNat then 1 else 0) + 1
      let stop := s.hb.base.toNat + 4 * used
      if s.inLen.toNat < stop then faultedWith (step s) .trunc (s.hb.base.toNat + 4 * s.hb.widx.toNat)
      else step s = .next { s with cur := BitVec.ofNat 32 stop, seq := .l2Stats, fresh := s.fresh + 1 })

/-- `HUF.PLANE` without accumulation: the symbols of one pixel are adjacent, each gives `symbol - bias` at its place;
nothing else of `PIX` changes. -/
def Obligations.HufPlanePlainResult : Prop :=
  ∀ (s : State) (syms : List Nat) (stop : Nat),
    let ks := s.validAmong s.pixels
    let n := s.h.nDim.toNat
    s.maskReady s.pixels → s.hb.bit.toNat < 32 → syms.length = ks.length * n → s.spells stop s.hbPos syms →
    ∃ t, exec (.hufPlane .plain) s = .next t
      ∧ t = { s with pix := t.pix, hb := (s.setHbPos stop).hb }
      ∧ (∀ z k d x, ks[z]? = some k → d < n → syms[z * n + d]? = some x →
        ∃ e, Memory.read t.pix (pixKey s.band.toNat (d * s.np + k)) = some e
          ∧ storesAs s.h.etype (realOfInt ((x : Int) - s.bias)) e)
      ∧ ∀ key, (∀ k ∈ ks, ∀ d < n, key ≠ pixKey s.band.toNat (d * s.np + k)) →
        Memory.read t.pix key = Memory.read s.pix key

/-- `HUF.PLANE` with accumulation: the dimension is outermost; the value of a pixel is the residual plus a predictor,
modulo 256: the left neighbour when it is valid, else the sample above when that is valid, else the last value of the
dimension (0 at its first). -/
def Obligations.HufPlaneDeltaResult : Prop :=
  ∀ (s : State) (syms : List Nat) (stop : Nat),
    let ks := s.validAmong s.pixels
    let n := s.h.nDim.toNat
    let w := s.h.width.toNat
    s.maskReady s.pixels → s.hb.bit.toNat < 32 → syms.length = n * ks.length → s.spells stop s.hbPos syms →
    ∃ t, ∃ vs : List Byte, exec (.hufPlane .delta) s = .next t
      ∧ t = { s with pix := t.pix, hb := (s.setHbPos stop).hb, hpPrev := t.hpPrev }
      ∧ vs.length = n * ks.length
      ∧ (∀ z k d, ks[z]? = some k → d < n →
        ∃ pred : Byte,
          let last := if z = 0 then 0 else vs.getD (d * ks.length + z - 1) 0
          let left := k % w ≠ 0 ∧ s.isValid (k - 1) = true
          let above := w ≤ k ∧ s.isValid (k - w) = true
          vs[d * ks.length + z]? =
            some (BitVec.ofInt 8 ((syms.getD (d * ks.length + z) 0 : Int) - s.bias + pred.toNat))
          ∧ (left → pred = last)
          ∧ (¬ left → above → ∀ z', ks[z']? = some (k - w) → pred = vs.getD (d * ks.length + z') 0)
          ∧ (¬ left → ¬ above → pred = last))
      ∧ (∀ z k d v, ks[z]? = some k → d < n → vs[d * ks.length + z]? = some v →
        ∃ e, Memory.read t.pix (pixKey s.band.toNat (d * s.np + k)) = some e
          ∧ storesAs s.h.etype (s.planeValue v) e)
      ∧ ∀ key, (∀ k ∈ ks, ∀ d < n, key ≠ pixKey s.band.toNat (d * s.np + k)) →
        Memory.read t.pix key = Memory.read s.pix key

/-! ## Lerc2 -/

/-- `L2.HDR`: a version outside 1 to 5 is `E_VERSION`; a header that fails a check is `E_PARAM`; else the fields, and an
advance of 58, 62 or 66 bytes by the version. The step that sets the element type, the convention and the quantisation
step, and in band 0 the results of the call. -/
def Obligations.L2HdrResult : Prop :=
  ∀ (s : State) (version checksum height width numDims numValid mbs blobSize imageType : Word)
    (maxZError zMin zMax : F64),
    let i : Instr := .l2Hdr (.fields version checksum height width numDims numValid mbs blobSize imageType maxZError
      zMin zMax)
    let len : Nat := if version.toInt < 3 then 58 else if version.toInt = 3 then 62 else 66
    (if width ≠ 0 ∧ height ≠ 0 ∧ numDims ≠ 0 ∧ numDims.toNat ≤ s.cfg.dimMax
        ∧ width.toNat * height.toNat * numDims.toNat ≤ s.cfg.pixMax ∧ 0 ≤ imageType.toInt ∧ imageType.toInt ≤ 7
        ∧ 0 < mbs.toInt ∧ len ≤ blobSize.toInt ∧ numValid.toNat ≤ width.toNat * height.toNat
        ∧ (s.band = 0 ∨ (width = s.res.width ∧ height = s.res.height)) then
      exec i s = .next { s with
        h := { s.h with version := version, checksum := checksum, height := height, width := width, nDim := numDims,
                        nValid := numValid, mbs := mbs, blobSize := blobSize, imgType := imageType,
                        maxZErr := maxZError, zMin := zMin, zMax := zMax },
        cur := s.cur + BitVec.ofNat 32 len }
    else faultedWith (exec i s) .param s.h.blob0.toNat)
    ∧ faultedWith (exec (.l2Hdr (.unsupported version)) s) .version s.h.blob0.toNat
    ∧ (s.port = [] → s.busy = true → s.seq = .l2Setup →
      let ty := if s.optFlags.getLsbD 0 then EType.ofCode s.optPixelType else s.imgEType
      ∃ n, f64IsNaN n = true ∧ step s = .next { s with
        h := { s.h with etype := ty, conv := if 3 ≤ s.h.version.toInt then .msbf else .legacy },
        qstep := fmul n f64Two s.h.maxZErr,
        res := if s.band = 0 then { s.res with width := s.h.width, height := s.h.height, etype := ty } else s.res,
        seq := .l2Prefill, fresh := s.fresh + 1 })

/-- `L2.MASK`: no mask array when no pixel or every pixel is valid; a payload; or the reuse of an earlier mask, whose
count of valid pixels must be the declared one. The end of a payload: `CUR` past it, the mask present and held, one more
mask counted, the same test of the count. What is due after a mask, whether there was a payload, an earlier mask is used
again, or there is no mask array: nothing more of a void band, a constant surface, the ranges from version 4 on, or the flag
byte. -/
def Obligations.L2MaskResult : Prop :=
  ∀ (s : State) (numBytes : Word),
    let h := { s.h with maskBytes := numBytes }
    let a := s.cur + 4
    let marked := ((List.range s.np).filter fun k => Memory.read s.maskx k == some 1#8).length
    let successor : Phase :=
      if s.h.nValid = 0 then .l2Stats
      else if feq s.h.zMin s.h.zMax = true then .constSurf .globalMin
      else if 4 ≤ s.h.version.toInt then .l2Ranges
      else .l2Flag
    (s.h.nValid = 0 ∨ s.h.nValid.toNat = s.np →
      if numBytes = 0 then
        exec (.l2Mask numBytes) s = .next { s with
          h := h, cur := a, m := { s.m with present := false, allVoid := decide (s.h.nValid = 0) } }
      else faultedWith (exec (.l2Mask numBytes) s) .mask a.toNat)
    ∧ (¬ (s.h.nValid = 0 ∨ s.h.nValid.toNat = s.np) → numBytes ≠ 0 →
      if a.toNat + numBytes.toNat ≤ s.inLen.toNat then
        exec (.l2Mask numBytes) s = .next { s with
          h := h, cur := a, rlBase := a, rlBytes := numBytes, rlIp := 0, rlOp := 0 }
      else faultedWith (exec (.l2Mask numBytes) s) .trunc a.toNat)
    ∧ (¬ (s.h.nValid = 0 ∨ s.h.nValid.toNat = s.np) → numBytes = 0 → s.m.held = false →
      faultedWith (exec (.l2Mask numBytes) s) .mask a.toNat)
    ∧ (¬ (s.h.nValid = 0 ∨ s.h.nValid.toNat = s.np) → numBytes = 0 → s.m.held = true →
      (∀ k < s.np, (Memory.read s.maskx k).isSome = true) →
      if marked = s.h.nValid.toNat then
        exec (.l2Mask numBytes) s = .next { s with
          h := h, cur := a, m := { s.m with present := true, allVoid := false } }
      else faultedWith (exec (.l2Mask numBytes) s) .count a.toNat)
    ∧ (s.port = [] → s.busy = true → s.seq = .maskEnd → s.h.fmt = .lerc2 →
      (∀ k < s.np, (Memory.read s.maskx k).isSome = true) →
      let stop := s.cur + s.h.maskBytes
      if marked = s.h.nValid.toNat then
        step s = .next { s with
          cur := stop, m := { present := true, allVoid := false, count := s.m.count + 1, held := true },
          seq := successor, fresh := s.fresh + 1 }
      else faultedWith (step s) .count stop.toNat)
    ∧ (s.port = [] → s.busy = true → s.seq = .l2Mask → s.holds s.cur.toNat [0, 0, 0, 0] →
      let next (m : MaskGroup) : State :=
        { s with h := { s.h with maskBytes := 0 }, cur := a, m := m, seq := successor, fresh := s.fresh + 1 }
      (s.h.nValid = 0 ∨ s.h.nValid.toNat = s.np →
        step s = .next (next { s.m with present := false, allVoid := decide (s.h.nValid = 0) }))
      ∧ (¬ (s.h.nValid = 0 ∨ s.h.nValid.toNat = s.np) → s.m.held = true →
        (∀ k < s.np, (Memory.read s.maskx k).isSome = true) → marked = s.h.nValid.toNat →
        step s = .next (next { s.m with present := true, allVoid := false })))

/-- `L2.RANGES`: the minima, then the maxima, in the band's native type; nothing else changes but `CUR`. A value that passes
the end of the buffer is `E_TRUNC` at that value. Then the test of the ranges: when every dimension's minimum equals its maximum the constant surface of the minima is due, else the flag
byte. -/
def Obligations.L2RangesResult : Prop :=
  ∀ (s : State) (bytes : List Byte),
    let n := s.h.nDim.toNat
    (bytes.length = 2 * n * s.imgSize → s.holds s.cur.toNat bytes →
      ∃ t, exec .l2Ranges s = .next t
        ∧ t = { s with cur := s.cur + BitVec.ofNat 32 bytes.length, dimMin := t.dimMin, dimMax := t.dimMax }
        ∧ (∀ d < n, ∃ lo hi, Memory.read t.dimMin d = some lo ∧ Memory.read t.dimMax d = some hi
          ∧ readsAs (elemAt s.imgEType bytes d) lo ∧ readsAs (elemAt s.imgEType bytes (n + d)) hi)
        ∧ ∀ d, n ≤ d → Memory.read t.dimMin d = Memory.read s.dimMin d ∧ Memory.read t.dimMax d = Memory.read s.dimMax d)
    ∧ (∀ z < 2 * n, bytes.length = z * s.imgSize → s.holds s.cur.toNat bytes →
      s.inLen.toNat < s.cur.toNat + (z + 1) * s.imgSize →
      faultedWith (exec .l2Ranges s) .trunc (s.cur.toNat + z * s.imgSize))
    ∧ (s.port = [] → s.busy = true → s.seq = .rangesTest →
      ∀ lo hi : Nat → F64,
      (∀ d < n, Memory.read s.dimMin d = some (lo d) ∧ Memory.read s.dimMax d = some (hi d)) →
      ((∀ d < n, feq (lo d) (hi d) = true) →
        step s = .next { s with seq := .constSurf .dimMin, fresh := s.fresh + 1 })
      ∧ ((∃ d < n, feq (lo d) (hi d) = false) → step s = .next { s with seq := .l2Flag, fresh := s.fresh + 1 }))

/-- `L2.SWEEP`: the declared number of valid pixels, in scan order, the values of one pixel adjacent. A payload that passes
the end of the buffer is `E_TRUNC` at its first byte. -/
def Obligations.L2SweepResult : Prop :=
  ∀ (s : State) (flag : Byte) (bytes : List Byte),
    let ks := s.validAmong s.pixels
    let n := s.h.nDim.toNat
    let a := s.cur + 1
    (s.maskReady s.pixels → ks.length = s.h.nValid.toNat → bytes.length = ks.length * n * s.imgSize →
      s.holds a.toNat bytes →
      ∃ t, exec (.l2Sweep flag) s = .next t
        ∧ t = { s with cur := a + BitVec.ofNat 32 bytes.length, pix := t.pix }
        ∧ (∀ z k d, ks[z]? = some k → d < n →
          ∃ v e, readsAs (elemAt s.imgEType bytes (z * n + d)) v
            ∧ Memory.read t.pix (pixKey s.band.toNat (d * s.np + k)) = some e ∧ storesAs s.h.etype v e)
        ∧ ∀ key, (∀ k ∈ ks, ∀ d < n, key ≠ pixKey s.band.toNat (d * s.np + k)) →
          Memory.read t.pix key = Memory.read s.pix key)
    ∧ (s.inLen.toNat < a.toNat + s.h.nValid.toNat * n * s.imgSize →
      faultedWith (exec (.l2Sweep flag) s) .trunc a.toNat)

/-- The flag bytes move `CUR` by one; the encode-mode flag of a Huffman body is kept; `L2.HF.PLAIN` below version 4 is
`E_BLOCK_MODE` at the flag byte. What is due after them: after `L2.BODY` the second flag byte exactly when the version is
above 1, the image type at most 1, and `maxZError` less than 0.00001 from 0.5, else the first tile; after the second flag
byte the first tile or the Huffman table. -/
def Obligations.L2FlagResults : Prop :=
  ∀ (s : State),
    exec .l2Body s = .next { s with cur := s.cur + 1 }
    ∧ exec .l2HfTiles s = .next { s with cur := s.cur + 1 }
    ∧ exec .l2HfDelta s = .next { s with cur := s.cur + 1, planeMode := .delta }
    ∧ (4 ≤ s.h.version.toInt → exec .l2HfPlain s = .next { s with cur := s.cur + 1, planeMode := .plain })
    ∧ (s.h.version.toInt < 4 → faultedWith (exec .l2HfPlain s) .blockMode s.cur.toNat)
    ∧ (s.port = [] → s.busy = true →
      let next (mode : PlaneMode) (p : Phase) : State :=
        { s with cur := s.cur + 1, planeMode := mode, seq := p, fresh := s.fresh + 1 }
      let toFirstTile : Prop := ∃ t, step s = .next t
        ∧ t = { next s.planeMode (.l2Tile 0 0 0) with
            t := { s.t with x0 := 0, y0 := 0, dim := 0, width := t.t.width, height := t.t.height } }
        ∧ t.tileIs 0 0 s.h.mbs.toNat s.h.mbs.toNat
      (s.seq = .l2Flag → s.holds s.cur.toNat [0] → ∃ n, f64IsNaN n = true
        -- the constants are -0.5 and the binary64 nearest 0.00001
        ∧ if 1 < s.h.version.toInt ∧ s.h.imgType.toInt ≤ 1
            ∧ flt (fabs (fadd n s.h.maxZErr 0xBFE0000000000000#64)) 0x3EE4F8B588E368F1#64 = true then
          step s = .next (next s.planeMode .l2Hf)
        else toFirstTile)
      ∧ (s.seq = .l2Hf → s.holds s.cur.toNat [0] → toFirstTile)
      ∧ (s.seq = .l2Hf → s.holds s.cur.toNat [1] → step s = .next (next .delta .hufTable))
      ∧ (s.seq = .l2Hf → s.holds s.cur.toNat [2] → 4 ≤ s.h.version.toInt →
        step s = .next (next .plain .hufTable)))

/-- `L2.TILE.RAW`: one native value for each valid pixel of the tile, in row-major order. -/
def Obligations.L2TileRawResult : Prop :=
  ∀ (s : State) (otype : BitVec 2) (tag : BitVec 4) (bytes : List Byte),
    let ks := s.validAmong s.tilePixels
    let a := s.cur + 1
    s.tagFits tag → s.flagOf tag = false → s.tileInside → s.maskReady s.tilePixels →
    bytes.length = ks.length * s.imgSize → s.holds a.toNat bytes →
    ∃ t vs, exec (.l2TileRaw otype tag) s = .next t
      ∧ t = { s with
          cur := a + BitVec.ofNat 32 bytes.length,
          t := { s.t with xband := false, mode := 0, otype := otype, cnt := BitVec.ofNat 32 ks.length }, pix := t.pix }
      ∧ vs.length = ks.length ∧ (∀ z v, vs[z]? = some v → readsAs (elemAt s.imgEType bytes z) v)
      ∧ delivered s t s.t.dim.toNat ks vs

/-- `L2.TILE.BS`: the header and the origin field, then (after its `BS2` record) the delivery of the values to the valid
pixels of the tile, as they are or added to the reference dimension and clamped. -/
def Obligations.L2TileBsResult : Prop :=
  ∀ (s : State) (otype : BitVec 2) (tag : BitVec 4) (ot : EType) (bytes : List Byte),
    let ks := s.validAmong s.tilePixels
    let d := s.t.dim.toNat
    let a := s.cur + 1
    (s.tagFits tag → (s.flagOf tag = true → s.t.dim ≠ 0) → s.originType otype = some ot → bytes.length = esize ot →
      s.holds a.toNat bytes → ∃ offset, readsAs (elemAt ot bytes 0) offset
        ∧ exec (.l2TileBs otype tag) s = .next { s with
          cur := a + BitVec.ofNat 32 (esize ot), bare := false,
          t := { s.t with xband := s.flagOf tag, mode := 1, otype := otype, offset := offset, cnt := 0 } })
    ∧ ∀ ty tx d0, s.port = [] → s.busy = true → s.seq = .tileDeliver ty tx d0 → s.tileInside →
      s.maskReady s.tilePixels → s.val.length = ks.length →
      (s.t.xband = true → s.zmaxReady d ∧ s.referenceReady ks) →
      ∃ t vs, step s = .next { nextTile t ty tx d0 with fresh := s.fresh + 1 } ∧ vs.length = ks.length
        ∧ t = { s with t := { s.t with cnt := s.t.cnt + BitVec.ofNat 32 ks.length }, pix := t.pix }
        ∧ (∀ (z k : Nat) (v delta : F64), ks[z]? = some k → s.val[z]? = some delta → vs[z]? = some v →
          if s.t.xband then ∃ e, Memory.read s.pix (pixKey s.band.toNat ((d - 1) * s.np + k)) = some e
            ∧ crossSum e (s.zmaxOf d) delta v
          else v = delta)
        ∧ delivered s t d ks vs

/-- `L2.TILE.XB`: the element of the reference dimension, unchanged, at every valid pixel; without the cross-band flag the
constant 0. -/
def Obligations.L2TileXbResult : Prop :=
  ∀ (s : State) (otype : BitVec 2) (tag : BitVec 4),
    let ks := s.validAmong s.tilePixels
    let d := s.t.dim.toNat
    s.tagFits tag → (s.flagOf tag = true → s.t.dim ≠ 0 ∧ s.referenceReady ks) → s.maskReady s.tilePixels →
    ∃ t, exec (.l2TileXb otype tag) s = .next t
      ∧ t = { s with
          cur := s.cur + 1,
          t := { s.t with xband := s.flagOf tag, mode := 2, otype := otype, cnt := BitVec.ofNat 32 ks.length },
          pix := t.pix }
      ∧ (∀ k ∈ ks, if s.flagOf tag then
          Memory.read t.pix (pixKey s.band.toNat (d * s.np + k))
            = Memory.read s.pix (pixKey s.band.toNat ((d - 1) * s.np + k))
        else Memory.read t.pix (pixKey s.band.toNat (d * s.np + k)) = some (storeElem 0 s.h.etype 0))
      ∧ ∀ key, (∀ k ∈ ks, key ≠ pixKey s.band.toNat (d * s.np + k)) → Memory.read t.pix key = Memory.read s.pix key

/-- `L2.TILE.CONST`: the origin at every valid pixel, not clamped; with the cross-band flag the clamped cross-band sum. -/
def Obligations.L2TileConstResult : Prop :=
  ∀ (s : State) (otype : BitVec 2) (tag : BitVec 4) (ot : EType) (bytes : List Byte),
    let ks := s.validAmong s.tilePixels
    let d := s.t.dim.toNat
    let a := s.cur + 1
    s.tagFits tag → (s.flagOf tag = true → s.t.dim ≠ 0 ∧ s.zmaxReady d ∧ s.referenceReady ks) →
    s.originType otype = some ot → bytes.length = esize ot → s.holds a.toNat bytes → s.tileInside →
    s.maskReady s.tilePixels →
    ∃ t vs offset, exec (.l2TileConst otype tag) s = .next t ∧ readsAs (elemAt ot bytes 0) offset
      ∧ t = { s with
          cur := a + BitVec.ofNat 32 (esize ot),
          t := { s.t with xband := s.flagOf tag, mode := 3, otype := otype, offset := offset,
                          cnt := BitVec.ofNat 32 ks.length },
          pix := t.pix }
      ∧ vs.length = ks.length
      ∧ (∀ (z k : Nat) (v : F64), ks[z]? = some k → vs[z]? = some v →
        if s.flagOf tag then ∃ e, Memory.read s.pix (pixKey s.band.toNat ((d - 1) * s.np + k)) = some e
          ∧ crossSum e (s.zmaxOf d) offset v
        else v = offset)
      ∧ delivered s t d ks vs

/-- The faults of a tile record and of the `BS2` record inside it, made before any value is delivered: the positional tag
and the cross-band flag at the header byte, an origin selector without a type at the header byte, a count selector
without a width at the `BS2` byte, a count that is not the one due behind the count field, a lookup table of no entry
behind its size. What passes the end of the buffer is `E_TRUNC` at its first byte: the values of a raw tile, the origin
field, the codes of `BS2.AFF`, the table size, the entries and the indices of `BS2.LUT`. -/
def Obligations.TileRecordFaults : Prop :=
  ∀ (s : State) (otype : BitVec 2) (tag : BitVec 4) (numBits : BitVec 5) (count : CountField) (i : Instr),
    let a := s.cur + BitVec.ofNat 32 (1 + count.len)
    (i = .l2TileRaw otype tag ∨ i = .l2TileBs otype tag ∨ i = .l2TileXb otype tag ∨ i = .l2TileConst otype tag →
      ¬ s.tagFits tag ∨ (s.flagOf tag = true ∧ (s.t.dim = 0 ∨ i = .l2TileRaw otype tag)) →
      faultedWith (exec i s) .integrity s.cur.toNat)
    ∧ (i = .l2TileBs otype tag ∨ i = .l2TileConst otype tag → s.tagFits tag → (s.flagOf tag = true → s.t.dim ≠ 0) →
      s.originType otype = none → faultedWith (exec i s) .typeTag s.cur.toNat)
    ∧ (i = .bs2Aff numBits count ∨ i = .bs2Lut numBits count →
      (count = .invalid → faultedWith (exec i s) .typeTag s.cur.toNat)
      ∧ (count ≠ .invalid → s.bare = false → s.maskReady s.tilePixels →
        CountField.value count ≠ (s.validAmong s.tilePixels).length → faultedWith (exec i s) .count a.toNat)
      ∧ (count ≠ .invalid → s.bare = true → s.cfg.hufSymMax < CountField.value count →
        faultedWith (exec i s) .param a.toNat))
    ∧ (count ≠ .invalid → s.countFits (CountField.value count) → s.holds a.toNat [0] →
      faultedWith (exec (.bs2Lut numBits count) s) .param (a + 1).toNat)
    ∧ (s.tagFits tag → s.flagOf tag = false → s.maskReady s.tilePixels →
      s.inLen.toNat < (s.cur + 1).toNat + (s.validAmong s.tilePixels).length * s.imgSize →
      faultedWith (exec (.l2TileRaw otype tag) s) .trunc (s.cur + 1).toNat)
    ∧ (∀ ot, i = .l2TileBs otype tag ∨ i = .l2TileConst otype tag → s.tagFits tag → (s.flagOf tag = true → s.t.dim ≠ 0) →
      s.originType otype = some ot → s.inLen.toNat < (s.cur + 1).toNat + esize ot →
      faultedWith (exec i s) .trunc (s.cur + 1).toNat)
    ∧ (count ≠ .invalid → s.countFits (CountField.value count) → (s.bare = false → s.zmaxReady s.t.dim.toNat) →
      (1 ≤ numBits.toNat → s.inLen.toNat < a.toNat + packedBytes (CountField.value count) numBits.toNat →
        faultedWith (exec (.bs2Aff numBits count) s) .trunc a.toNat)
      ∧ (s.inLen.toNat < a.toNat + 1 → faultedWith (exec (.bs2Lut numBits count) s) .trunc a.toNat)
      ∧ ∀ (nLut : Byte) (entries : List Byte) (kIdx : Nat), nLut ≠ 0 →
        (1 ≤ numBits.toNat → s.holds a.toNat [nLut] →
          s.inLen.toNat < (a + 1).toNat + packedBytes (nLut.toNat - 1) numBits.toNat →
          faultedWith (exec (.bs2Lut numBits count) s) .trunc (a + 1).toNat)
        ∧ ((nLut.toNat - 1) >>> kIdx = 0 → (∀ j < kIdx, (nLut.toNat - 1) >>> j ≠ 0) → 1 ≤ kIdx →
          entries.length = packedBytes (nLut.toNat - 1) numBits.toNat → s.holds a.toNat (nLut :: entries) →
          let b := a + BitVec.ofNat 32 (1 + entries.length)
          s.inLen.toNat < b.toNat + packedBytes (CountField.value count) kIdx →
          faultedWith (exec (.bs2Lut numBits count) s) .trunc b.toNat))

/-- `CONST.SURF`: at every valid pixel of every dimension the value of the dimension: the global minimum, or its own. It
reads no stream byte. -/
def Obligations.ConstSurfResult : Prop :=
  ∀ (s : State) (source : SurfSource),
    let ks := s.validAmong s.pixels
    let n := s.h.nDim.toNat
    s.maskReady s.pixels → (source = .dimMin → ∀ d < n, (Memory.read s.dimMin d).isSome = true) →
    ∃ t, exec (.constSurf source) s = .next t ∧ t = { s with pix := t.pix }
      ∧ (∀ k ∈ ks, ∀ d < n, ∃ c e, (match source with
          | .globalMin => c = s.h.zMin
          | .dimMin => Memory.read s.dimMin d = some c)
        ∧ Memory.read t.pix (pixKey s.band.toNat (d * s.np + k)) = some e ∧ storesAs s.h.etype c e)
      ∧ ∀ key, (∀ k ∈ ks, ∀ d < n, key ≠ pixKey s.band.toNat (d * s.np + k)) →
        Memory.read t.pix key = Memory.read s.pix key

/-! ## Dispatcher -/

/-- `MASK.AND`: a pixel stays valid only if it is valid in this band too; band 0 starts the combined mask. -/
def Obligations.MaskAndResult : Prop :=
  ∀ (s : State), s.maskReady s.pixels →
    (s.band ≠ 0 → ∀ k < s.np, (Memory.read s.cmask k).isSome = true) →
    ∃ t, exec .maskAnd s = .next t ∧ t = { s with cmask := t.cmask }
      ∧ (∀ k < s.np, ∀ old, (if s.band = 0 then old = 1#8 else Memory.read s.cmask k = some old) →
        Memory.read t.cmask k = some (if s.isValid k then old &&& 1#8 else 0#8))
      ∧ ∀ k, s.np ≤ k → Memory.read t.cmask k = Memory.read s.cmask k

/-- `RESHAPE`: with `PIXEL_INTERLEAVED` set, element `k*n + d` of a band with `n > 1` dimensions is what element
`d*NP + k` was, and nothing else changes; without it nothing changes. -/
def Obligations.ReshapeResult : Prop :=
  ∀ (s : State), (∀ b < s.res.nBands.toNat, ∃ st, Memory.read s.bstat b = some st
      ∧ s.np * st.nDim.toNat ≤ 4294967296
      ∧ (1 < st.nDim.toNat → ∀ i < s.np * st.nDim.toNat, (Memory.read s.pix (pixKey b i)).isSome = true)) →
    ∃ t, exec .reshape s = .next t ∧ t = { s with pix := t.pix }
      ∧ (s.optFlags.getLsbD 5 = false → t = s)
      ∧ (s.optFlags.getLsbD 5 = true → ∀ b < s.res.nBands.toNat, ∀ st, Memory.read s.bstat b = some st →
        1 < st.nDim.toNat → ∀ k < s.np, ∀ d < st.nDim.toNat,
        Memory.read t.pix (pixKey b (k * st.nDim.toNat + d)) = Memory.read s.pix (pixKey b (d * s.np + k)))
      ∧ ∀ key, (∀ b < s.res.nBands.toNat, ∀ st, Memory.read s.bstat b = some st → 1 < st.nDim.toNat →
        ∀ i < s.np * st.nDim.toNat, key ≠ pixKey b i) → Memory.read t.pix key = Memory.read s.pix key

/-- The end of a band: `CUR` within one byte of the declared end is moved onto it, else `E_CURSOR`; a declared end past the
buffer is `E_TRUNC`. -/
def Obligations.BandEndSnap : Prop :=
  ∀ (s : State), s.port = [] → s.busy = true → s.seq = .bandEnd →
    let stop := if s.h.fmt = .lerc2 then s.h.blob0.toNat + s.h.blobSize.toNat else s.pstart.toNat + s.h.pixBytes.toNat
    if stop + 1 < s.cur.toNat ∨ s.cur.toNat + 1 < stop then faultedWith (step s) .cursor s.cur.toNat
    else if s.inLen.toNat < stop then faultedWith (step s) .trunc stop
    else step s = .next { s with cur := BitVec.ofNat 32 stop, seq := .maskAnd, fresh := s.fresh + 1 }

/-- The no-data sweep: every pixel the combined mask excludes holds the no-data value in every dimension of every band;
nothing else of `PIX` changes. The pre-fills of a band: every element of the band holds the no-data value, which is the
option's, or the default of the container; it goes to `RES.NODATA`. -/
def Obligations.NoDataSweep : Prop :=
  ∀ (s : State), s.port = [] → s.busy = true →
    (s.seq = .sweep → (∀ k < s.np, (Memory.read s.cmask k).isSome = true) →
      (∀ b < s.res.nBands.toNat, ∃ st, Memory.read s.bstat b = some st ∧ s.np * st.nDim.toNat ≤ 4294967296) →
      ∃ t, step s = .next t ∧ t = { s with pix := t.pix, seq := .reshape, fresh := s.fresh + 1 }
        ∧ (∀ b < s.res.nBands.toNat, ∀ st, Memory.read s.bstat b = some st → ∀ k < s.np, ∀ d < st.nDim.toNat,
          Memory.read s.cmask k = some 0#8 → ∃ e, Memory.read t.pix (pixKey b (d * s.np + k)) = some e
            ∧ storesAs st.etype s.res.noData e)
        ∧ ∀ key, (∀ b < s.res.nBands.toNat, ∀ st, Memory.read s.bstat b = some st → ∀ k < s.np, ∀ d < st.nDim.toNat,
          Memory.read s.cmask k = some 0#8 → key ≠ pixKey b (d * s.np + k)) →
          Memory.read t.pix key = Memory.read s.pix key)
    ∧ (s.seq = .czPrefill →
      let nd := if s.optFlags.getLsbD 1 then s.optNoData else f64LegacyNoData
      ∃ t, step s = .next t
        ∧ t = { s with
            pix := t.pix, res := { s.res with noData := nd, ndValid := true }, czMin := none,
            t := { s.t with x0 := 0, y0 := 0, width := t.t.width, height := t.t.height },
            seq := .czBlock 0 0, fresh := s.fresh + 1 }
        ∧ t.tileIs 0 0 s.czTileW s.czTileH
        ∧ (∀ k < s.np, ∃ e, Memory.read t.pix (pixKey s.band.toNat k) = some e ∧ storesAs s.h.etype nd e)
        ∧ ∀ key, (∀ k < s.np, key ≠ pixKey s.band.toNat k) → Memory.read t.pix key = Memory.read s.pix key)
    ∧ (s.seq = .l2Prefill →
      let nd := if s.optFlags.getLsbD 1 then s.optNoData else 0
      let n := s.np * s.h.nDim.toNat
      ∃ t, step s = .next t
        ∧ t = { s with
            pix := t.pix, res := { s.res with noData := nd, ndValid := s.optFlags.getLsbD 1 },
            seq := .l2Mask, fresh := s.fresh + 1 }
        ∧ (∀ i < n, ∃ e, Memory.read t.pix (pixKey s.band.toNat i) = some e ∧ storesAs s.h.etype nd e)
        ∧ ∀ key, (∀ i < n, key ≠ pixKey s.band.toNat i) → Memory.read t.pix key = Memory.read s.pix key)

/-- What the end of a band and of the call write. The statistics of a band; then, after `MASK.AND`, in band 0 the packed
mask when it is asked for and the band has one, the echo of the whole `H` group when it is asked for, the number of bands,
the cursor, and the choice of a further band. Completion: `BUSY` falls and `DONE` rises in one write; `MASK_VALID` is set
when the mask is asked for and some band carried one or some pixel is excluded. -/
def Obligations.CompletionWrite : Prop :=
  ∀ (s : State), s.port = [] → s.busy = true →
    let b := s.band.toNat
    let n := s.h.nDim.toNat
    (s.seq = .czStats →
      ∃ t st, step s = .next t ∧ t = { s with bstat := t.bstat, seq := .bandEnd, fresh := s.fresh + 1 }
        ∧ Memory.read t.bstat b = some st ∧ st.min = s.czMin.getD f64Largest ∧ widensTo s.h.maxVal st.max
        ∧ st.etype = s.h.etype ∧ st.nDim = 1
        ∧ ∀ other, other ≠ b → Memory.read t.bstat other = Memory.read s.bstat other)
    ∧ (s.seq = .l2Stats →
      let ranges := 4 ≤ s.h.version.toInt ∧ s.h.nValid ≠ 0 ∧ feq s.h.zMin s.h.zMax = false
      (ranges → ∀ d < n, (Memory.read s.dimMin d).isSome = true ∧ (Memory.read s.dimMax d).isSome = true) →
      ∃ t st, step s = .next t ∧ t = { s with bstat := t.bstat, seq := .bandEnd, fresh := s.fresh + 1 }
        ∧ Memory.read t.bstat b = some st ∧ st.min = s.h.zMin ∧ st.max = s.h.zMax ∧ st.etype = s.h.etype
        ∧ st.nDim = s.h.nDim
        ∧ (4 ≤ s.h.version.toInt → ∀ d < n,
          if ranges then st.dimMin[d]? = Memory.read s.dimMin d ∧ st.dimMax[d]? = Memory.read s.dimMax d
          else st.dimMin[d]? = some s.h.zMin ∧ st.dimMax[d]? = some s.h.zMax)
        ∧ ∀ other, other ≠ b → Memory.read t.bstat other = Memory.read s.bstat other)
    ∧ (s.seq = .bandTail →
      let packed := s.optFlags.getLsbD 3 = true ∧ s.m.present = true
      (s.band = 0 → packed → ∀ j < s.maskBytes, (Memory.read s.bitset j).isSome = true) →
      (s.optFlags.getLsbD 4 = true → (Memory.read s.bstat b).isSome = true) →
      ∃ t, step s = .next t
        ∧ t = { s with
            encmask := t.encmask, bstat := t.bstat, band := s.band + 1,
            res := { s.res with
              nBands := s.band + 1, eof := s.cur,
              encValid := if s.band = 0 then decide packed else s.res.encValid },
            seq := if 10 < s.inLen.toNat - s.cur.toNat then .bandStart else .sweep, fresh := s.fresh + 1 }
        ∧ (∀ j, Memory.read t.encmask j =
          if s.band = 0 ∧ packed ∧ j < s.maskBytes then Memory.read s.bitset j else Memory.read s.encmask j)
        ∧ (∀ st, Memory.read s.bstat b = some st → Memory.read t.bstat b = some
          (if s.optFlags.getLsbD 4 then
            { st with fileInfo := some { h := s.h, dimMin := s.dimMin, dimMax := s.dimMax } }
          else st))
        ∧ ∀ other, other ≠ b → Memory.read t.bstat other = Memory.read s.bstat other)
    ∧ (s.seq = .finish → (∀ k < s.np, (Memory.read s.cmask k).isSome = true) →
      step s = .next { s with
        res := { s.res with maskValid := s.optFlags.getLsbD 2
          && (decide (s.m.count ≠ 0) || (List.range s.np).any fun k => Memory.read s.cmask k == some 0#8) },
        busy := false, done := true, seq := .idle, fresh := s.fresh + 1 })

/-! ## Faults, the host's registers, reset -/

/-- The sixteen codes have the numbers 1 to 9 and 16 to 22. Fault entry: the code, the value, `BUSY` and `ERR`, `DONE` as it
was, the engine stopped; the host's registers and `IN` are not touched. That `CUR` and the `H` group keep their values,
which R291 leaves open, is the model's choice (log 7). -/
def Obligations.FaultEntry : Prop :=
  (ErrCode.magic.number = 1 ∧ ErrCode.version.number = 2 ∧ ErrCode.checksum.number = 3 ∧ ErrCode.rle.number = 4
    ∧ ErrCode.blockMode.number = 5 ∧ ErrCode.integrity.number = 6 ∧ ErrCode.typeTag.number = 7 ∧ ErrCode.count.number = 8
    ∧ ErrCode.hufVersion.number = 9 ∧ ErrCode.trunc.number = 16 ∧ ErrCode.param.number = 17 ∧ ErrCode.cursor.number = 18
    ∧ ErrCode.hufCode.number = 19 ∧ ErrCode.lutIndex.number = 20 ∧ ErrCode.hufTable.number = 21
    ∧ ErrCode.mask.number = 22)
  ∧ ∀ (s : State) (code : ErrCode) (info : Nat),
    let t := s.takeFault code info
    t.errCode = code.number ∧ t.errInfo = BitVec.ofNat 32 info ∧ t.busy = false ∧ t.err = true ∧ t.done = s.done
    ∧ t.seq = .idle ∧ t.cur = s.cur ∧ t.inMem = s.inMem ∧ t.inLen = s.inLen ∧ t.optOffset = s.optOffset
    ∧ t.optFlags = s.optFlags ∧ t.optPixelType = s.optPixelType ∧ t.optNoData = s.optNoData ∧ t.h = s.h
    ∧ (s.port = [] → step t = .next { t with fresh := t.fresh + 1 })

/-- The host's accesses. A write to a register other than `CMD` (which is `CommandWord`'s): the six writable registers take
it, bits without a meaning being lost (so that they read 0, as R14 says of `OPT.PIXELTYPE`; of `OPT.FLAGS` it is the
model's choice, log 10), and read it back; every other register keeps its value and ignores its own write; a writable
register while `BUSY` is refused (R322, log 9). A read of a register: `CMD` 0, the status and the error record, the writable
registers, the results when neither `BUSY` nor `ERR`, and 0 where there is no register. A read of an output after `DONE`:
the element, or the byte; before it, some value that nothing fixes. `IN`: a byte written below `IN_MAX` while not `BUSY` is
read back below `IN_LEN`, the others being as they were. A read puts its value into the model's field `rdata` (log 8) and
changes nothing else. -/
def Obligations.RegisterReadback : Prop :=
  ∀ (s : State) (rest : List HostEvent),
    let u : State := { s with port := rest, fresh := s.fresh + 1 }
    (∀ (word : Nat) (v : Word), s.port = .writeReg word v :: rest → word ≠ 0 →
      if 4 ≤ word ∧ word ≤ 9 ∧ s.busy = true then step s = .refused .writeWhileBusy
      else ∃ t, step s = .next t
        ∧ t = { u with
            inLen := if word = 4 then v else s.inLen,
            optOffset := if word = 5 then v else s.optOffset,
            optFlags := if word = 6 then v.setWidth 6 else s.optFlags,
            optPixelType := if word = 7 then v.setWidth 3 else s.optPixelType,
            optNoData := (if word = 9 then v else s.optNoData.extractLsb' 32 32)
              ++ (if word = 8 then v else s.optNoData.extractLsb' 0 32) }
        ∧ (4 ≤ word → word ≤ 9 →
          t.regValue word = if word = 6 then v &&& 0x3F else if word = 7 then v &&& 0x7 else v)
        ∧ (∀ other, other ≠ word ∨ word < 4 ∨ 9 < word → other < 10 ∨ (s.busy = false ∧ s.err = false) →
          t.regValue other = s.regValue other))
    ∧ (∀ word : Nat, s.port = .readReg word :: rest →
      ∃ v : Word, step s = .next { u with rdata := v.setWidth 64 }
        ∧ (word = 0 ∨ word = 15 ∨ 17 < word → v = 0)
        ∧ (word = 1 → v = BitVec.ofNat 32 (s.busy.toNat + 2 * s.done.toNat + 4 * s.err.toNat))
        ∧ (word = 2 → v = s.errCode.setWidth 32) ∧ (word = 3 → v = s.errInfo) ∧ (word = 4 → v = s.inLen)
        ∧ (word = 5 → v = s.optOffset) ∧ (word = 6 → v = s.optFlags.setWidth 32)
        ∧ (word = 7 → v = s.optPixelType.setWidth 32)
        ∧ (word = 8 → v = s.optNoData.extractLsb' 0 32) ∧ (word = 9 → v = s.optNoData.extractLsb' 32 32)
        ∧ (s.busy = false → s.err = false →
          (word = 10 → v = s.res.width) ∧ (word = 11 → v = s.res.height) ∧ (word = 12 → v = s.res.nBands)
          ∧ (word = 13 → v = BitVec.ofNat 32 (s.res.maskValid.toNat + 2 * s.res.encValid.toNat
            + 4 * s.res.ndValid.toNat + 8 * s.res.etype.code.toNat))
          ∧ (word = 14 → v = s.res.eof) ∧ (word = 16 → v = s.res.noData.extractLsb' 0 32)
          ∧ (word = 17 → v = s.res.noData.extractLsb' 32 32)))
    ∧ (∀ ev : HostEvent, s.port = ev :: rest →
      (∃ b i, ev = .readPix b i) ∨ (∃ k, ev = .readMaskx k ∨ ev = .readCmask k ∨ ev = .readEncmask k)
        ∨ (∃ b field, ev = .readStat b field) →
      ∃ v, step s = .next { u with rdata := v }
        ∧ (s.done = false → ∃ i, v = s.freeRead i)
        ∧ (s.done = true →
          (∀ b i e, ev = .readPix b i → i < 4294967296 → Memory.read s.pix (b * 4294967296 + i) = some e → v = e.bits)
          ∧ (∀ k x, ev = .readMaskx k → Memory.read s.maskx k = some x → v = x.setWidth 64)
          ∧ (∀ k x, ev = .readCmask k → Memory.read s.cmask k = some x → v = x.setWidth 64)
          ∧ (∀ k x, ev = .readEncmask k → Memory.read s.encmask k = some x → v = x.setWidth 64)
          ∧ ∀ b st, Memory.read s.bstat b = some st →
            (ev = .readStat b .min → v = st.min) ∧ (ev = .readStat b .max → v = st.max)
            ∧ (ev = .readStat b .etype → v = st.etype.code.setWidth 64)
            ∧ (ev = .readStat b .nDim → v = st.nDim.setWidth 64)
            ∧ (∀ d x, ev = .readStat b (.dimMin d) → st.dimMin[d]? = some x → v = x)
            ∧ (∀ d x, ev = .readStat b (.dimMax d) → st.dimMax[d]? = some x → v = x)
            ∧ ∀ f r x, ev = .readStat b (.fileInfo r) → st.fileInfo = some f → f.value r = some x → v = x))
    ∧ (∀ (a : Nat) (x : Byte), s.port = .writeIn a x :: rest → s.busy = false → a < s.cfg.inMax →
      ∃ t, step s = .next t ∧ t = { u with inMem := t.inMem } ∧ Memory.read t.inMem a = some x
        ∧ ∀ other, other ≠ a → Memory.read t.inMem other = Memory.read s.inMem other)
    ∧ (∀ a : Nat, s.port = .readIn a :: rest →
      ∃ v, step s = .next { u with rdata := v }
        ∧ ∀ x, a < s.inLen.toNat → Memory.read s.inMem a = some x → v = x.setWidth 64)

/-- What reset leaves: the control registers, the cursors, the groups and the work registers 0, nothing in any memory (the
model's form of an unspecified content, log 4), no call; and such a state meets every invariant below. The reset input
leads to that state from any other, keeping the parameters, and `IN` when it comes during a call (else `IN` holds nothing,
log 15). The values that state gives `band`, `pstart`, `qstep`, `val`, `bare`, `planeMode`, `rlBase`, `rlBytes` and `czMin`
are the model's choice (log 18), and so is the phase `idle` (log 1). -/
def Obligations.ResetValues : Prop :=
  (∀ (cfg : Config), let s := State.resetWith cfg
    (∀ word, s.regValue word = 0) ∧ s.cur = 0 ∧ s.bs = BitCursor.reset ∧ s.hb = BitCursor.reset
    ∧ s.h = HGroup.reset ∧ s.t = TGroup.reset ∧ s.huf = HufGroup.reset ∧ s.fSum1 = 0 ∧ s.fSum2 = 0 ∧ s.rlIp = 0
    ∧ s.rlOp = 0 ∧ s.rlRun = 0 ∧ s.hpPrev = 0 ∧ s.m = MaskGroup.reset ∧ s.cfg = cfg
    ∧ s.seq = .idle ∧ s.inMem = [] ∧ s.dimMin = [] ∧ s.dimMax = [] ∧ s.lut = [] ∧ s.codes = [] ∧ s.hlen = []
    ∧ s.hcode = [] ∧ s.qt = [] ∧ s.trie = [] ∧ s.bitset = [] ∧ s.maskx = [] ∧ s.cmask = [] ∧ s.encmask = []
    ∧ s.pix = [] ∧ s.bstat = []
    ∧ s.MemoriesWf ∧ s.statusOk ∧ s.masksBinary ∧ s.cursorsOk ∧ s.tileOk)
  ∧ ∀ (s : State) (rest : List HostEvent), s.port = .reset :: rest →
    ∃ t, step s = .next t ∧ t = { State.resetWith s.cfg with
      inMem := if s.busy then s.inMem else [], port := rest, rdata := t.rdata, opResult := t.opResult,
      fresh := s.fresh + 1 }

/-! ## Invariants -/

/-- Every step, of the engine or of the host, keeps every memory in its canonical form. -/
def Obligations.MemoriesStayCanonical : Prop :=
  ∀ (s t : State), s.MemoriesWf → step s = .next t → t.MemoriesWf

/-- Every step keeps the status legal: one of the four states of the flags, `ERRCODE` and `ERRINFO` 0 unless `ERR`, and
something due exactly while `BUSY`. -/
def Obligations.StatusStaysLegal : Prop :=
  ∀ (s t : State), s.statusOk → step s = .next t → t.statusOk

/-- Every step keeps the two expanded masks binary and the bit counts of both cursors inside a word. -/
def Obligations.MasksAndCursorsStayLegal : Prop :=
  ∀ (s t : State), s.masksBinary → s.cursorsOk → step s = .next t → t.masksBinary ∧ t.cursorsOk

/-- Every step keeps the current tile at its place in the grid, inside the image, and `T.DIM` the dimension whose turn it
is. A step of the engine that ends a block or
a tile and does not fault goes on to the next one: blocks row by row; tiles row by row, at each place one dimension after
another; after the last the statistics are due. -/
def Obligations.TileStaysInGrid : Prop :=
  (∀ (s t : State), s.tileOk → step s = .next t → t.tileOk)
  ∧ ∀ (s t : State), s.port = [] → s.busy = true → step s = .next t → t.busy = true →
    (∀ r c, s.seq = .czBlock r c → t.seq =
      if c + 1 < ceilDiv s.h.width.toNat (ceilDiv s.h.width.toNat s.h.nbx.toNat) then .czBlock r (c + 1)
      else if r + 1 < ceilDiv s.h.height.toNat (ceilDiv s.h.height.toNat s.h.nby.toNat) then .czBlock (r + 1) 0
      else .czStats)
    ∧ ∀ r c d, (s.seq = .l2Tile r c d ∧ t.seq ≠ .bs2 r c d) ∨ s.seq = .tileDeliver r c d → t.seq =
      if d + 1 < s.h.nDim.toNat then .l2Tile r c (d + 1)
      else if c + 1 < ceilDiv s.h.width.toNat s.h.mbs.toNat then .l2Tile r (c + 1) 0
      else if r + 1 < ceilDiv s.h.height.toNat s.h.mbs.toNat then .l2Tile (r + 1) 0 0
      else .l2Stats

/-- No step of the engine writes `IN`, `IN_LEN`, an OPT register or the configuration. -/
def Obligations.EngineKeepsInputs : Prop :=
  ∀ (s t : State), s.port = [] ∨ (∃ rest, s.port = .turn :: rest) → step s = .next t →
    t.inMem = s.inMem ∧ t.inLen = s.inLen ∧ t.optOffset = s.optOffset ∧ t.optFlags = s.optFlags
    ∧ t.optPixelType = s.optPixelType ∧ t.optNoData = s.optNoData ∧ t.cfg = s.cfg

/-- From the start of a band to the end of the checksum comparison no step of a band that goes on writes an output memory,
and a version 3 band passes the comparison before anything else is due. -/
def Obligations.NoOutputBeforeChecksum : Prop :=
  ∀ (s t : State), s.port = [] → s.busy = true → s.err = false →
    s.seq = .bandStart ∨ s.seq = .ident ∨ s.seq = .l2Hdr ∨ s.seq = .checksum ∨ s.seq = .checksumTest →
    step s = .next t → t.err = false →
    t.pix = s.pix ∧ t.bitset = s.bitset ∧ t.maskx = s.maskx ∧ t.cmask = s.cmask
    ∧ (s.seq = .l2Hdr → 3 ≤ t.h.version.toInt → t.seq = .checksum)
    ∧ (s.seq = .checksum → t.seq = .checksumTest)
    ∧ (s.seq = .checksumTest → t.seq = .l2Setup ∧ s.opResult.setWidth 32 = s.h.checksum)
end

