-- ==== Sys2Proof/Laws/Memory.lean ====
section
/-!
SUPPORT. Laws of the memories: read after write, and every operation keeps the canonical form.
-/

namespace Sys2Proof.Machine

variable {α : Type}

@[simp] theorem Memory.read_nil (a : Nat) : Memory.read ([] : Memory α) a = none := rfl

@[simp] theorem Memory.wf_nil : Memory.wf ([] : Memory α) := List.Pairwise.nil

theorem Memory.read_write_same (m : Memory α) (a : Nat) (v : α) : Memory.read (Memory.write m a v) a = some v := by
  induction m with
  | nil => simp [Memory.write, Memory.read]
  | cons c rest ih =>
    obtain ⟨x, w⟩ := c
    unfold Memory.write
    split_ifs with h1 h2
    · simp [Memory.read]
    · simp [Memory.read]
    · simp [Memory.read, Ne.symm h2, ih]

theorem Memory.read_write_other (m : Memory α) {a b : Nat} (v : α) (h : b ≠ a) :
    Memory.read (Memory.write m a v) b = Memory.read m b := by
  induction m with
  | nil => simp [Memory.write, Memory.read, Ne.symm h]
  | cons c rest ih =>
    obtain ⟨x, w⟩ := c
    unfold Memory.write
    split_ifs with h1 h2
    · simp [Memory.read, Ne.symm h]
    · subst h2; simp [Memory.read, Ne.symm h]
    · simp [Memory.read, ih]

/-- Read after write, both cases. -/
theorem Memory.read_write (m : Memory α) (a b : Nat) (v : α) :
    Memory.read (Memory.write m a v) b = if b = a then some v else Memory.read m b := by
  split_ifs with h
  · subst h; exact Memory.read_write_same m _ v
  · exact Memory.read_write_other m v h

theorem Memory.read_append (m n : Memory α) (a : Nat) :
    Memory.read (m ++ n) a = (Memory.read m a).or (Memory.read n a) := by
  induction m with
  | nil => simp
  | cons c rest ih =>
    obtain ⟨x, w⟩ := c
    simp only [List.cons_append, Memory.read]
    split_ifs <;> simp [ih]

theorem Memory.read_filter (m : Memory α) (p : Nat → Bool) (a : Nat) :
    Memory.read (m.filter fun c => p c.1) a = if p a then Memory.read m a else none := by
  induction m with
  | nil => simp
  | cons c rest ih =>
    obtain ⟨x, w⟩ := c
    by_cases hx : x = a
    · subst hx
      by_cases hp : p x = true <;> simp_all [Memory.read]
    · by_cases hp : p x = true <;> simp_all [Memory.read]

theorem Memory.read_cellsFrom (base : Nat) (vs : List α) (a : Nat) :
    Memory.read (Memory.cellsFrom base vs) a = if base ≤ a then vs[a - base]? else none := by
  induction vs generalizing base with
  | nil => simp [Memory.cellsFrom]
  | cons v vs ih =>
    simp only [Memory.cellsFrom, Memory.read, ih]
    rcases Nat.lt_trichotomy a base with h | h | h
    · simp [show base ≠ a by omega, show ¬ base ≤ a by omega, show ¬ base + 1 ≤ a by omega]
    · subst h; simp
    · obtain ⟨d, rfl⟩ : ∃ d, a = base + 1 + d := ⟨a - (base + 1), by omega⟩
      simp [show base + 1 + d - base = d + 1 by omega, show base ≤ base + 1 + d by omega]
      omega

/-- A range write: the values inside the range, the old content outside. -/
theorem Memory.read_writeRange (m : Memory α) (base : Nat) (vs : List α) (a : Nat) :
    Memory.read (Memory.writeRange m base vs) a =
      if base ≤ a ∧ a < base + vs.length then vs[a - base]? else Memory.read m a := by
  have h1 := Memory.read_filter m (fun x => decide (x < base)) a
  have h2 := Memory.read_filter m (fun x => decide (base + vs.length ≤ x)) a
  simp only [decide_eq_true_eq] at h1 h2
  simp only [Memory.writeRange, Memory.read_append, Memory.read_cellsFrom, h1, h2]
  by_cases hl : a < base
  · simp [hl, show ¬ base ≤ a by omega, show ¬ base + vs.length ≤ a by omega]
  · by_cases hr : a < base + vs.length
    · simp [hl, hr, show base ≤ a by omega, show ¬ base + vs.length ≤ a by omega]
    · simp [hl, hr, show base ≤ a by omega, show base + vs.length ≤ a by omega,
        List.getElem?_eq_none (show vs.length ≤ a - base by omega)]

theorem Memory.read_writeRange_inside (m : Memory α) (base : Nat) (vs : List α) {j : Nat} (h : j < vs.length) :
    Memory.read (Memory.writeRange m base vs) (base + j) = vs[j]? := by
  rw [Memory.read_writeRange, if_pos ⟨by omega, by omega⟩, Nat.add_sub_cancel_left]

theorem Memory.read_writeRange_outside (m : Memory α) (base : Nat) (vs : List α) {a : Nat}
    (h : a < base ∨ base + vs.length ≤ a) : Memory.read (Memory.writeRange m base vs) a = Memory.read m a := by
  rw [Memory.read_writeRange, if_neg (by omega)]

@[simp] theorem Memory.writeAll_nil (m : Memory α) : Memory.writeAll m [] = m := rfl

@[simp] theorem Memory.writeAll_cons (m : Memory α) (c : Nat × α) (cs : List (Nat × α)) :
    Memory.writeAll m (c :: cs) = Memory.writeAll (Memory.write m c.1 c.2) cs := rfl

theorem Memory.writeAll_append (m : Memory α) (xs ys : List (Nat × α)) :
    Memory.writeAll m (xs ++ ys) = Memory.writeAll (Memory.writeAll m xs) ys := by
  simp [Memory.writeAll, List.foldl_append]

/-- An address none of the cells has keeps its content. -/
theorem Memory.read_writeAll_other (cells : List (Nat × α)) (m : Memory α) {a : Nat}
    (h : ∀ c ∈ cells, c.1 ≠ a) : Memory.read (Memory.writeAll m cells) a = Memory.read m a := by
  induction cells generalizing m with
  | nil => rfl
  | cons c cs ih =>
    rw [Memory.writeAll_cons, ih _ fun d hd => h d (by simp [hd]),
      Memory.read_write_other m c.2 (Ne.symm (h c (by simp)))]

/-- With distinct addresses every cell is found. -/
theorem Memory.read_writeAll_mem (cells : List (Nat × α)) (m : Memory α) {a : Nat} {v : α}
    (hd : (cells.map Prod.fst).Nodup) (h : (a, v) ∈ cells) : Memory.read (Memory.writeAll m cells) a = some v := by
  induction cells generalizing m with
  | nil => cases h
  | cons c cs ih =>
    obtain ⟨hc, hcs⟩ := List.nodup_cons.1 (show (c.1 :: cs.map Prod.fst).Nodup from hd)
    rw [Memory.writeAll_cons]
    rcases List.mem_cons.1 h with rfl | h
    · rw [Memory.read_writeAll_other cs _ fun d hd e => hc (List.mem_map.2 ⟨d, hd, e⟩),
        Memory.read_write_same]
    · exact ih _ hcs h

/-- If every cell with an address carries the same value, that value is found there. -/
theorem Memory.read_writeAll_const (cells : List (Nat × α)) (m : Memory α) {a : Nat} {v : α}
    (hv : ∀ c ∈ cells, c.1 = a → c.2 = v) (h : ∃ c ∈ cells, c.1 = a) :
    Memory.read (Memory.writeAll m cells) a = some v := by
  induction cells generalizing m with
  | nil => obtain ⟨c, hc, _⟩ := h; cases hc
  | cons c cs ih =>
    rw [Memory.writeAll_cons]
    by_cases hcs : ∃ d ∈ cs, d.1 = a
    · exact ih _ (fun d hd => hv d (by simp [hd])) hcs
    · rw [Memory.read_writeAll_other cs _ fun d hd e => hcs ⟨d, hd, e⟩]
      obtain ⟨d, hd, e⟩ := h
      rcases List.mem_cons.1 hd with rfl | hd
      · rw [← e, Memory.read_write_same, hv d (by simp) e]
      · exact absurd ⟨d, hd, e⟩ hcs

/-! ## The canonical form -/

theorem Memory.mem_write {m : Memory α} {a : Nat} {v : α} {c : Nat × α} (h : c ∈ Memory.write m a v) :
    c = (a, v) ∨ c ∈ m := by
  induction m with
  | nil => simpa [Memory.write] using h
  | cons d rest ih =>
    obtain ⟨x, w⟩ := d
    unfold Memory.write at h
    split_ifs at h <;> simp only [List.mem_cons] at h ⊢
    · tauto
    · tauto
    · rcases h with h | h
      · tauto
      · have := ih h; tauto

theorem Memory.write_wf {m : Memory α} (h : Memory.wf m) (a : Nat) (v : α) : Memory.wf (Memory.write m a v) := by
  induction m with
  | nil => simp [Memory.write, Memory.wf]
  | cons d rest ih =>
    obtain ⟨x, w⟩ := d
    obtain ⟨hx, hrest⟩ := List.pairwise_cons.1 (show List.Pairwise (· < ·) (x :: rest.map Prod.fst) from h)
    unfold Memory.write
    split_ifs with h1 h2
    · refine List.pairwise_cons.2 ⟨fun b hb => ?_, h⟩
      rcases List.mem_cons.1 (show b ∈ x :: rest.map Prod.fst from hb) with rfl | hb
      · exact h1
      · exact h1.trans (hx b hb)
    · subst h2; exact List.pairwise_cons.2 ⟨hx, hrest⟩
    · refine List.pairwise_cons.2 ⟨fun b hb => ?_, ih hrest⟩
      obtain ⟨c, hc, rfl⟩ := List.mem_map.1 hb
      rcases Memory.mem_write hc with rfl | hc
      · omega
      · exact hx _ (List.mem_map_of_mem hc)

theorem Memory.writeAll_wf (cells : List (Nat × α)) {m : Memory α} (h : Memory.wf m) :
    Memory.wf (Memory.writeAll m cells) := by
  induction cells generalizing m with
  | nil => exact h
  | cons c cs ih => exact ih (Memory.write_wf h c.1 c.2)

theorem Memory.mem_writeAll {cells : List (Nat × α)} {m : Memory α} {c : Nat × α}
    (h : c ∈ Memory.writeAll m cells) : c ∈ cells ∨ c ∈ m := by
  induction cells generalizing m with
  | nil => exact .inr h
  | cons d ds ih =>
    rcases ih h with h | h
    · simp [h]
    · rcases Memory.mem_write h with rfl | h
      · simp
      · exact .inr h

theorem Memory.mem_cellsFrom {base : Nat} {vs : List α} {c : Nat × α} (h : c ∈ Memory.cellsFrom base vs) :
    base ≤ c.1 ∧ c.1 < base + vs.length ∧ c.2 ∈ vs := by
  induction vs generalizing base with
  | nil => cases h
  | cons v vs ih =>
    rcases List.mem_cons.1 h with rfl | h
    · simp
    · obtain ⟨h1, h2, h3⟩ := ih h
      simp only [List.length_cons, List.mem_cons]
      exact ⟨by omega, by omega, .inr h3⟩

theorem Memory.cellsFrom_wf (base : Nat) (vs : List α) : Memory.wf (Memory.cellsFrom base vs) := by
  induction vs generalizing base with
  | nil => exact List.Pairwise.nil
  | cons v vs ih =>
    refine List.pairwise_cons.2 ⟨fun b hb => ?_, ih _⟩
    obtain ⟨c, hc, rfl⟩ := List.mem_map.1 hb
    have := (Memory.mem_cellsFrom hc).1
    omega

theorem Memory.mem_writeRange {m : Memory α} {base : Nat} {vs : List α} {c : Nat × α}
    (h : c ∈ Memory.writeRange m base vs) : c.2 ∈ vs ∨ c ∈ m := by
  simp only [Memory.writeRange, List.mem_append, List.mem_filter] at h
  rcases h with h | h | h
  · exact .inr h.1
  · exact .inl (Memory.mem_cellsFrom h).2.2
  · exact .inr h.1

theorem Memory.writeRange_wf {m : Memory α} (h : Memory.wf m) (base : Nat) (vs : List α) :
    Memory.wf (Memory.writeRange m base vs) := by
  have key (p : Nat × α → Bool) : Memory.wf (m.filter p) := h.sublist (List.filter_sublist.map _)
  unfold Memory.wf Memory.writeRange
  rw [List.map_append, List.map_append, List.pairwise_append, List.pairwise_append]
  refine ⟨key _, ⟨Memory.cellsFrom_wf base vs, key _, ?_⟩, ?_⟩
  · intro x hx y hy
    obtain ⟨c, hc, rfl⟩ := List.mem_map.1 hx
    obtain ⟨d, hd, rfl⟩ := List.mem_map.1 hy
    have h1 := (Memory.mem_cellsFrom hc).2.1
    have h2 : base + vs.length ≤ d.1 := by simpa using (List.mem_filter.1 hd).2
    omega
  · intro x hx y hy
    obtain ⟨c, hc, rfl⟩ := List.mem_map.1 hx
    have h1 : c.1 < base := by simpa using (List.mem_filter.1 hc).2
    rcases List.mem_append.1 hy with hy | hy
    · obtain ⟨d, hd, rfl⟩ := List.mem_map.1 hy
      have := (Memory.mem_cellsFrom hd).1
      omega
    · obtain ⟨d, hd, rfl⟩ := List.mem_map.1 hy
      have h2 : base + vs.length ≤ d.1 := by simpa using (List.mem_filter.1 hd).2
      omega

end Sys2Proof.Machine
end

