-- ==== Sys2Proof/Laws/PerInstr.lean ====
section
/-!
SUPPORT. What is true of every instruction as syntax, one lemma for each constructor: the encoding fits the window a fetch
reads, and only a record of the stream, or the command, has one (R79).
-/

namespace Sys2Proof

@[simp] theorem leBytes_length (n v : Nat) : (leBytes n v).length = n := by
  induction n generalizing v with
  | zero => rfl
  | succ n ih => simp [leBytes, ih]

@[simp] theorem le32_length (w : Word) : (le32 w).length = 4 := leBytes_length 4 _

@[simp] theorem le64_length (w : BitVec 64) : (le64 w).length = 8 := leBytes_length 8 _

theorem CzOffset.bytes_length (off : CzOffset) : off.bytes.length = off.len := by
  cases off <;> simp [CzOffset.bytes, CzOffset.len]

theorem CountField.bytes_length (count : CountField) : count.bytes.length = count.len := by
  cases count <;> simp [CountField.bytes, CountField.len]

theorem CzOffset.len_le (off : CzOffset) : off.len ≤ 4 := by cases off <;> simp [CzOffset.len]

theorem CountField.len_le (count : CountField) : count.len ≤ 4 := by cases count <;> simp [CountField.len]

theorem encodeL2Header_length_le (header : L2Header) : (encodeL2Header header).length ≤ maxRecordBytes := by
  cases header with
  | unsupported v => simp [encodeL2Header, maxRecordBytes]
  | fields v => simp only [encodeL2Header, maxRecordBytes]; split <;> split <;> simp

namespace Laws.EncodingFits

/-- The bytes of the instruction fit the window a fetch reads, and what has no place in the stream has none. -/
def Statement (i : Instr) : Prop :=
  (encode i).length ≤ maxRecordBytes ∧ (i.streamPos = none → encode i = [])

theorem cmdGo (ignored : BitVec 31) : Statement (.cmdGo ignored) := by
  simp [Statement, encode, maxRecordBytes, Instr.streamPos]

theorem idCntz (leading : Bool) (space : Byte) : Statement (.idCntz leading space) := by
  cases leading <;> simp [Statement, encode, cntzMagic, maxRecordBytes, Instr.streamPos]

theorem idLerc2 (sixth : Byte) : Statement (.idLerc2 sixth) := by
  simp [Statement, encode, lercMagic, maxRecordBytes, Instr.streamPos]

theorem czHdr (version imageType height width : Word) (maxZError : F64) : Statement (.czHdr version imageType height width maxZError) := by
  simp [Statement, encode, maxRecordBytes, Instr.streamPos]

theorem czMsec (numBlocksY numBlocksX numBytes : Word) (maxValue : F32) : Statement (.czMsec numBlocksY numBlocksX numBytes maxValue) := by
  simp [Statement, encode, maxRecordBytes, Instr.streamPos]

theorem czPsec (numBlocksY numBlocksX numBytes : Word) (maxValue : F32) : Statement (.czPsec numBlocksY numBlocksX numBytes maxValue) := by
  simp [Statement, encode, maxRecordBytes, Instr.streamPos]

theorem czRaw (off : CzOffset) : Statement (.czRaw off) := by
  have := off.len_le
  simp [Statement, encode, CzOffset.bytes_length, maxRecordBytes, Instr.streamPos]; omega

theorem czBs (off : CzOffset) (bitsPerPixel : BitVec 6) (count : CountField) :
    Statement (.czBs off bitsPerPixel count) := by
  have := count.len_le
  cases off <;>
    simp [Statement, encode, CzOffset.bytes, CountField.bytes_length, maxRecordBytes, Instr.streamPos] <;> omega

theorem czConst (off : CzOffset) : Statement (.czConst off) := by
  have := off.len_le
  simp [Statement, encode, CzOffset.bytes_length, maxRecordBytes, Instr.streamPos]; omega

theorem czRsvd (header : Byte) : Statement (.czRsvd header) := by
  simp [Statement, encode, maxRecordBytes, Instr.streamPos]

theorem rleLit (run : BitVec 16) : Statement (.rleLit run) := by
  simp [Statement, encode, maxRecordBytes, Instr.streamPos]

theorem rleRep (run : BitVec 16) : Statement (.rleRep run) := by
  simp [Statement, encode, maxRecordBytes, Instr.streamPos]

theorem rleEnd : Statement (.rleEnd) := by
  simp [Statement, encode, maxRecordBytes, Instr.streamPos]

theorem rleZero : Statement (.rleZero) := by
  simp [Statement, encode, maxRecordBytes, Instr.streamPos]

theorem l2Hdr (header : L2Header) : Statement (.l2Hdr header) := ⟨encodeL2Header_length_le header, nofun⟩

theorem l2Mask (numBytes : Word) : Statement (.l2Mask numBytes) := by
  simp [Statement, encode, maxRecordBytes, Instr.streamPos]

theorem l2Ranges : Statement (.l2Ranges) := by
  simp [Statement, encode, maxRecordBytes, Instr.streamPos]

theorem l2Sweep (flag : Byte) : Statement (.l2Sweep flag) := by
  simp [Statement, encode, maxRecordBytes, Instr.streamPos]

theorem l2Body : Statement (.l2Body) := by
  simp [Statement, encode, maxRecordBytes, Instr.streamPos]

theorem l2HfTiles : Statement (.l2HfTiles) := by
  simp [Statement, encode, maxRecordBytes, Instr.streamPos]

theorem l2HfDelta : Statement (.l2HfDelta) := by
  simp [Statement, encode, maxRecordBytes, Instr.streamPos]

theorem l2HfPlain : Statement (.l2HfPlain) := by
  simp [Statement, encode, maxRecordBytes, Instr.streamPos]

theorem l2TileRaw (otype : BitVec 2) (tag : BitVec 4) : Statement (.l2TileRaw otype tag) := by
  simp [Statement, encode, maxRecordBytes, Instr.streamPos]

theorem l2TileBs (otype : BitVec 2) (tag : BitVec 4) : Statement (.l2TileBs otype tag) := by
  simp [Statement, encode, maxRecordBytes, Instr.streamPos]

theorem l2TileXb (otype : BitVec 2) (tag : BitVec 4) : Statement (.l2TileXb otype tag) := by
  simp [Statement, encode, maxRecordBytes, Instr.streamPos]

theorem l2TileConst (otype : BitVec 2) (tag : BitVec 4) : Statement (.l2TileConst otype tag) := by
  simp [Statement, encode, maxRecordBytes, Instr.streamPos]

theorem bs2Aff (numBits : BitVec 5) (count : CountField) : Statement (.bs2Aff numBits count) := by
  have := count.len_le
  simp [Statement, encode, CountField.bytes_length, maxRecordBytes, Instr.streamPos]; omega

theorem bs2Lut (numBits : BitVec 5) (count : CountField) : Statement (.bs2Lut numBits count) := by
  have := count.len_le
  simp [Statement, encode, CountField.bytes_length, maxRecordBytes, Instr.streamPos]; omega

theorem hufTable (hversion size i0 i1 : Word) : Statement (.hufTable hversion size i0 i1) := by
  simp [Statement, encode, maxRecordBytes, Instr.streamPos]

theorem unpkL (a n : Word) (k : BitVec 6) : Statement (.unpkL a n k) := by
  simp [Statement, encode, maxRecordBytes, Instr.streamPos]

theorem unpkM (a n : Word) (k : BitVec 6) : Statement (.unpkM a n k) := by
  simp [Statement, encode, maxRecordBytes, Instr.streamPos]

theorem remapAff (c : Word) (off step vmax : F64) (clamp : Bool) : Statement (.remapAff c off step vmax clamp) := by
  simp [Statement, encode, maxRecordBytes, Instr.streamPos]

theorem remapLut (c : Word) : Statement (.remapLut c) := by
  simp [Statement, encode, maxRecordBytes, Instr.streamPos]

theorem maskExpand : Statement (.maskExpand) := by
  simp [Statement, encode, maxRecordBytes, Instr.streamPos]

theorem f32Sum (a len : Word) : Statement (.f32Sum a len) := by
  simp [Statement, encode, maxRecordBytes, Instr.streamPos]

theorem hufBuild : Statement (.hufBuild) := by
  simp [Statement, encode, maxRecordBytes, Instr.streamPos]

theorem hufSym : Statement (.hufSym) := by
  simp [Statement, encode, maxRecordBytes, Instr.streamPos]

theorem hufPlane (mode : PlaneMode) : Statement (.hufPlane mode) := by
  simp [Statement, encode, maxRecordBytes, Instr.streamPos]

theorem constSurf (source : SurfSource) : Statement (.constSurf source) := by
  simp [Statement, encode, maxRecordBytes, Instr.streamPos]

theorem maskAnd : Statement (.maskAnd) := by
  simp [Statement, encode, maxRecordBytes, Instr.streamPos]

theorem reshape : Statement (.reshape) := by
  simp [Statement, encode, maxRecordBytes, Instr.streamPos]

end Laws.EncodingFits

end Sys2Proof
end

