-- ==== Sys2Proof/Laws/State.lean ====
section
/-!
SUPPORT. The fields of the state after each named update, one lemma a field, so that no proof unfolds a record update.
-/

namespace Sys2Proof.Machine

/-! ### `advance` -/

@[simp] theorem State.advance_cfg (s : State) (n : Nat) : (s.advance n).cfg = s.cfg := rfl
@[simp] theorem State.advance_inMem (s : State) (n : Nat) : (s.advance n).inMem = s.inMem := rfl
@[simp] theorem State.advance_busy (s : State) (n : Nat) : (s.advance n).busy = s.busy := rfl
@[simp] theorem State.advance_done (s : State) (n : Nat) : (s.advance n).done = s.done := rfl
@[simp] theorem State.advance_err (s : State) (n : Nat) : (s.advance n).err = s.err := rfl
@[simp] theorem State.advance_errCode (s : State) (n : Nat) : (s.advance n).errCode = s.errCode := rfl
@[simp] theorem State.advance_errInfo (s : State) (n : Nat) : (s.advance n).errInfo = s.errInfo := rfl
@[simp] theorem State.advance_inLen (s : State) (n : Nat) : (s.advance n).inLen = s.inLen := rfl
@[simp] theorem State.advance_optOffset (s : State) (n : Nat) : (s.advance n).optOffset = s.optOffset := rfl
@[simp] theorem State.advance_optFlags (s : State) (n : Nat) : (s.advance n).optFlags = s.optFlags := rfl
@[simp] theorem State.advance_optPixelType (s : State) (n : Nat) : (s.advance n).optPixelType = s.optPixelType := rfl
@[simp] theorem State.advance_optNoData (s : State) (n : Nat) : (s.advance n).optNoData = s.optNoData := rfl
@[simp] theorem State.advance_res (s : State) (n : Nat) : (s.advance n).res = s.res := rfl
@[simp] theorem State.advance_cur (s : State) (n : Nat) : (s.advance n).cur = s.cur + BitVec.ofNat 32 n := rfl
@[simp] theorem State.advance_bs (s : State) (n : Nat) : (s.advance n).bs = s.bs := rfl
@[simp] theorem State.advance_hb (s : State) (n : Nat) : (s.advance n).hb = s.hb := rfl
@[simp] theorem State.advance_h (s : State) (n : Nat) : (s.advance n).h = s.h := rfl
@[simp] theorem State.advance_dimMin (s : State) (n : Nat) : (s.advance n).dimMin = s.dimMin := rfl
@[simp] theorem State.advance_dimMax (s : State) (n : Nat) : (s.advance n).dimMax = s.dimMax := rfl
@[simp] theorem State.advance_t (s : State) (n : Nat) : (s.advance n).t = s.t := rfl
@[simp] theorem State.advance_lut (s : State) (n : Nat) : (s.advance n).lut = s.lut := rfl
@[simp] theorem State.advance_codes (s : State) (n : Nat) : (s.advance n).codes = s.codes := rfl
@[simp] theorem State.advance_huf (s : State) (n : Nat) : (s.advance n).huf = s.huf := rfl
@[simp] theorem State.advance_hlen (s : State) (n : Nat) : (s.advance n).hlen = s.hlen := rfl
@[simp] theorem State.advance_hcode (s : State) (n : Nat) : (s.advance n).hcode = s.hcode := rfl
@[simp] theorem State.advance_qt (s : State) (n : Nat) : (s.advance n).qt = s.qt := rfl
@[simp] theorem State.advance_trie (s : State) (n : Nat) : (s.advance n).trie = s.trie := rfl
@[simp] theorem State.advance_fSum1 (s : State) (n : Nat) : (s.advance n).fSum1 = s.fSum1 := rfl
@[simp] theorem State.advance_fSum2 (s : State) (n : Nat) : (s.advance n).fSum2 = s.fSum2 := rfl
@[simp] theorem State.advance_rlIp (s : State) (n : Nat) : (s.advance n).rlIp = s.rlIp := rfl
@[simp] theorem State.advance_rlOp (s : State) (n : Nat) : (s.advance n).rlOp = s.rlOp := rfl
@[simp] theorem State.advance_rlRun (s : State) (n : Nat) : (s.advance n).rlRun = s.rlRun := rfl
@[simp] theorem State.advance_hpPrev (s : State) (n : Nat) : (s.advance n).hpPrev = s.hpPrev := rfl
@[simp] theorem State.advance_m (s : State) (n : Nat) : (s.advance n).m = s.m := rfl
@[simp] theorem State.advance_bitset (s : State) (n : Nat) : (s.advance n).bitset = s.bitset := rfl
@[simp] theorem State.advance_maskx (s : State) (n : Nat) : (s.advance n).maskx = s.maskx := rfl
@[simp] theorem State.advance_cmask (s : State) (n : Nat) : (s.advance n).cmask = s.cmask := rfl
@[simp] theorem State.advance_encmask (s : State) (n : Nat) : (s.advance n).encmask = s.encmask := rfl
@[simp] theorem State.advance_pix (s : State) (n : Nat) : (s.advance n).pix = s.pix := rfl
@[simp] theorem State.advance_bstat (s : State) (n : Nat) : (s.advance n).bstat = s.bstat := rfl
@[simp] theorem State.advance_band (s : State) (n : Nat) : (s.advance n).band = s.band := rfl
@[simp] theorem State.advance_pstart (s : State) (n : Nat) : (s.advance n).pstart = s.pstart := rfl
@[simp] theorem State.advance_qstep (s : State) (n : Nat) : (s.advance n).qstep = s.qstep := rfl
@[simp] theorem State.advance_val (s : State) (n : Nat) : (s.advance n).val = s.val := rfl
@[simp] theorem State.advance_bare (s : State) (n : Nat) : (s.advance n).bare = s.bare := rfl
@[simp] theorem State.advance_planeMode (s : State) (n : Nat) : (s.advance n).planeMode = s.planeMode := rfl
@[simp] theorem State.advance_rlBase (s : State) (n : Nat) : (s.advance n).rlBase = s.rlBase := rfl
@[simp] theorem State.advance_rlBytes (s : State) (n : Nat) : (s.advance n).rlBytes = s.rlBytes := rfl
@[simp] theorem State.advance_czMin (s : State) (n : Nat) : (s.advance n).czMin = s.czMin := rfl
@[simp] theorem State.advance_seq (s : State) (n : Nat) : (s.advance n).seq = s.seq := rfl
@[simp] theorem State.advance_port (s : State) (n : Nat) : (s.advance n).port = s.port := rfl
@[simp] theorem State.advance_rdata (s : State) (n : Nat) : (s.advance n).rdata = s.rdata := rfl
@[simp] theorem State.advance_opResult (s : State) (n : Nat) : (s.advance n).opResult = s.opResult := rfl
@[simp] theorem State.advance_fresh (s : State) (n : Nat) : (s.advance n).fresh = s.fresh := rfl

/-! ### `goto` -/

@[simp] theorem State.goto_cfg (s : State) (p : Phase) : (s.goto p).cfg = s.cfg := rfl
@[simp] theorem State.goto_inMem (s : State) (p : Phase) : (s.goto p).inMem = s.inMem := rfl
@[simp] theorem State.goto_busy (s : State) (p : Phase) : (s.goto p).busy = s.busy := rfl
@[simp] theorem State.goto_done (s : State) (p : Phase) : (s.goto p).done = s.done := rfl
@[simp] theorem State.goto_err (s : State) (p : Phase) : (s.goto p).err = s.err := rfl
@[simp] theorem State.goto_errCode (s : State) (p : Phase) : (s.goto p).errCode = s.errCode := rfl
@[simp] theorem State.goto_errInfo (s : State) (p : Phase) : (s.goto p).errInfo = s.errInfo := rfl
@[simp] theorem State.goto_inLen (s : State) (p : Phase) : (s.goto p).inLen = s.inLen := rfl
@[simp] theorem State.goto_optOffset (s : State) (p : Phase) : (s.goto p).optOffset = s.optOffset := rfl
@[simp] theorem State.goto_optFlags (s : State) (p : Phase) : (s.goto p).optFlags = s.optFlags := rfl
@[simp] theorem State.goto_optPixelType (s : State) (p : Phase) : (s.goto p).optPixelType = s.optPixelType := rfl
@[simp] theorem State.goto_optNoData (s : State) (p : Phase) : (s.goto p).optNoData = s.optNoData := rfl
@[simp] theorem State.goto_res (s : State) (p : Phase) : (s.goto p).res = s.res := rfl
@[simp] theorem State.goto_cur (s : State) (p : Phase) : (s.goto p).cur = s.cur := rfl
@[simp] theorem State.goto_bs (s : State) (p : Phase) : (s.goto p).bs = s.bs := rfl
@[simp] theorem State.goto_hb (s : State) (p : Phase) : (s.goto p).hb = s.hb := rfl
@[simp] theorem State.goto_h (s : State) (p : Phase) : (s.goto p).h = s.h := rfl
@[simp] theorem State.goto_dimMin (s : State) (p : Phase) : (s.goto p).dimMin = s.dimMin := rfl
@[simp] theorem State.goto_dimMax (s : State) (p : Phase) : (s.goto p).dimMax = s.dimMax := rfl
@[simp] theorem State.goto_t (s : State) (p : Phase) : (s.goto p).t = s.t := rfl
@[simp] theorem State.goto_lut (s : State) (p : Phase) : (s.goto p).lut = s.lut := rfl
@[simp] theorem State.goto_codes (s : State) (p : Phase) : (s.goto p).codes = s.codes := rfl
@[simp] theorem State.goto_huf (s : State) (p : Phase) : (s.goto p).huf = s.huf := rfl
@[simp] theorem State.goto_hlen (s : State) (p : Phase) : (s.goto p).hlen = s.hlen := rfl
@[simp] theorem State.goto_hcode (s : State) (p : Phase) : (s.goto p).hcode = s.hcode := rfl
@[simp] theorem State.goto_qt (s : State) (p : Phase) : (s.goto p).qt = s.qt := rfl
@[simp] theorem State.goto_trie (s : State) (p : Phase) : (s.goto p).trie = s.trie := rfl
@[simp] theorem State.goto_fSum1 (s : State) (p : Phase) : (s.goto p).fSum1 = s.fSum1 := rfl
@[simp] theorem State.goto_fSum2 (s : State) (p : Phase) : (s.goto p).fSum2 = s.fSum2 := rfl
@[simp] theorem State.goto_rlIp (s : State) (p : Phase) : (s.goto p).rlIp = s.rlIp := rfl
@[simp] theorem State.goto_rlOp (s : State) (p : Phase) : (s.goto p).rlOp = s.rlOp := rfl
@[simp] theorem State.goto_rlRun (s : State) (p : Phase) : (s.goto p).rlRun = s.rlRun := rfl
@[simp] theorem State.goto_hpPrev (s : State) (p : Phase) : (s.goto p).hpPrev = s.hpPrev := rfl
@[simp] theorem State.goto_m (s : State) (p : Phase) : (s.goto p).m = s.m := rfl
@[simp] theorem State.goto_bitset (s : State) (p : Phase) : (s.goto p).bitset = s.bitset := rfl
@[simp] theorem State.goto_maskx (s : State) (p : Phase) : (s.goto p).maskx = s.maskx := rfl
@[simp] theorem State.goto_cmask (s : State) (p : Phase) : (s.goto p).cmask = s.cmask := rfl
@[simp] theorem State.goto_encmask (s : State) (p : Phase) : (s.goto p).encmask = s.encmask := rfl
@[simp] theorem State.goto_pix (s : State) (p : Phase) : (s.goto p).pix = s.pix := rfl
@[simp] theorem State.goto_bstat (s : State) (p : Phase) : (s.goto p).bstat = s.bstat := rfl
@[simp] theorem State.goto_band (s : State) (p : Phase) : (s.goto p).band = s.band := rfl
@[simp] theorem State.goto_pstart (s : State) (p : Phase) : (s.goto p).pstart = s.pstart := rfl
@[simp] theorem State.goto_qstep (s : State) (p : Phase) : (s.goto p).qstep = s.qstep := rfl
@[simp] theorem State.goto_val (s : State) (p : Phase) : (s.goto p).val = s.val := rfl
@[simp] theorem State.goto_bare (s : State) (p : Phase) : (s.goto p).bare = s.bare := rfl
@[simp] theorem State.goto_planeMode (s : State) (p : Phase) : (s.goto p).planeMode = s.planeMode := rfl
@[simp] theorem State.goto_rlBase (s : State) (p : Phase) : (s.goto p).rlBase = s.rlBase := rfl
@[simp] theorem State.goto_rlBytes (s : State) (p : Phase) : (s.goto p).rlBytes = s.rlBytes := rfl
@[simp] theorem State.goto_czMin (s : State) (p : Phase) : (s.goto p).czMin = s.czMin := rfl
@[simp] theorem State.goto_seq (s : State) (p : Phase) : (s.goto p).seq = p := rfl
@[simp] theorem State.goto_port (s : State) (p : Phase) : (s.goto p).port = s.port := rfl
@[simp] theorem State.goto_rdata (s : State) (p : Phase) : (s.goto p).rdata = s.rdata := rfl
@[simp] theorem State.goto_opResult (s : State) (p : Phase) : (s.goto p).opResult = s.opResult := rfl
@[simp] theorem State.goto_fresh (s : State) (p : Phase) : (s.goto p).fresh = s.fresh := rfl

/-! ### `putPix` -/

@[simp] theorem State.putPix_cfg (s : State) (cells : List (Nat × Elem)) : (s.putPix cells).cfg = s.cfg := rfl
@[simp] theorem State.putPix_inMem (s : State) (cells : List (Nat × Elem)) : (s.putPix cells).inMem = s.inMem := rfl
@[simp] theorem State.putPix_busy (s : State) (cells : List (Nat × Elem)) : (s.putPix cells).busy = s.busy := rfl
@[simp] theorem State.putPix_done (s : State) (cells : List (Nat × Elem)) : (s.putPix cells).done = s.done := rfl
@[simp] theorem State.putPix_err (s : State) (cells : List (Nat × Elem)) : (s.putPix cells).err = s.err := rfl
@[simp] theorem State.putPix_errCode (s : State) (cells : List (Nat × Elem)) :
    (s.putPix cells).errCode = s.errCode := rfl
@[simp] theorem State.putPix_errInfo (s : State) (cells : List (Nat × Elem)) :
    (s.putPix cells).errInfo = s.errInfo := rfl
@[simp] theorem State.putPix_inLen (s : State) (cells : List (Nat × Elem)) : (s.putPix cells).inLen = s.inLen := rfl
@[simp] theorem State.putPix_optOffset (s : State) (cells : List (Nat × Elem)) :
    (s.putPix cells).optOffset = s.optOffset := rfl
@[simp] theorem State.putPix_optFlags (s : State) (cells : List (Nat × Elem)) :
    (s.putPix cells).optFlags = s.optFlags := rfl
@[simp] theorem State.putPix_optPixelType (s : State) (cells : List (Nat × Elem)) :
    (s.putPix cells).optPixelType = s.optPixelType := rfl
@[simp] theorem State.putPix_optNoData (s : State) (cells : List (Nat × Elem)) :
    (s.putPix cells).optNoData = s.optNoData := rfl
@[simp] theorem State.putPix_res (s : State) (cells : List (Nat × Elem)) : (s.putPix cells).res = s.res := rfl
@[simp] theorem State.putPix_cur (s : State) (cells : List (Nat × Elem)) : (s.putPix cells).cur = s.cur := rfl
@[simp] theorem State.putPix_bs (s : State) (cells : List (Nat × Elem)) : (s.putPix cells).bs = s.bs := rfl
@[simp] theorem State.putPix_hb (s : State) (cells : List (Nat × Elem)) : (s.putPix cells).hb = s.hb := rfl
@[simp] theorem State.putPix_h (s : State) (cells : List (Nat × Elem)) : (s.putPix cells).h = s.h := rfl
@[simp] theorem State.putPix_dimMin (s : State) (cells : List (Nat × Elem)) : (s.putPix cells).dimMin = s.dimMin := rfl
@[simp] theorem State.putPix_dimMax (s : State) (cells : List (Nat × Elem)) : (s.putPix cells).dimMax = s.dimMax := rfl
@[simp] theorem State.putPix_t (s : State) (cells : List (Nat × Elem)) : (s.putPix cells).t = s.t := rfl
@[simp] theorem State.putPix_lut (s : State) (cells : List (Nat × Elem)) : (s.putPix cells).lut = s.lut := rfl
@[simp] theorem State.putPix_codes (s : State) (cells : List (Nat × Elem)) : (s.putPix cells).codes = s.codes := rfl
@[simp] theorem State.putPix_huf (s : State) (cells : List (Nat × Elem)) : (s.putPix cells).huf = s.huf := rfl
@[simp] theorem State.putPix_hlen (s : State) (cells : List (Nat × Elem)) : (s.putPix cells).hlen = s.hlen := rfl
@[simp] theorem State.putPix_hcode (s : State) (cells : List (Nat × Elem)) : (s.putPix cells).hcode = s.hcode := rfl
@[simp] theorem State.putPix_qt (s : State) (cells : List (Nat × Elem)) : (s.putPix cells).qt = s.qt := rfl
@[simp] theorem State.putPix_trie (s : State) (cells : List (Nat × Elem)) : (s.putPix cells).trie = s.trie := rfl
@[simp] theorem State.putPix_fSum1 (s : State) (cells : List (Nat × Elem)) : (s.putPix cells).fSum1 = s.fSum1 := rfl
@[simp] theorem State.putPix_fSum2 (s : State) (cells : List (Nat × Elem)) : (s.putPix cells).fSum2 = s.fSum2 := rfl
@[simp] theorem State.putPix_rlIp (s : State) (cells : List (Nat × Elem)) : (s.putPix cells).rlIp = s.rlIp := rfl
@[simp] theorem State.putPix_rlOp (s : State) (cells : List (Nat × Elem)) : (s.putPix cells).rlOp = s.rlOp := rfl
@[simp] theorem State.putPix_rlRun (s : State) (cells : List (Nat × Elem)) : (s.putPix cells).rlRun = s.rlRun := rfl
@[simp] theorem State.putPix_hpPrev (s : State) (cells : List (Nat × Elem)) : (s.putPix cells).hpPrev = s.hpPrev := rfl
@[simp] theorem State.putPix_m (s : State) (cells : List (Nat × Elem)) : (s.putPix cells).m = s.m := rfl
@[simp] theorem State.putPix_bitset (s : State) (cells : List (Nat × Elem)) : (s.putPix cells).bitset = s.bitset := rfl
@[simp] theorem State.putPix_maskx (s : State) (cells : List (Nat × Elem)) : (s.putPix cells).maskx = s.maskx := rfl
@[simp] theorem State.putPix_cmask (s : State) (cells : List (Nat × Elem)) : (s.putPix cells).cmask = s.cmask := rfl
@[simp] theorem State.putPix_encmask (s : State) (cells : List (Nat × Elem)) :
    (s.putPix cells).encmask = s.encmask := rfl
@[simp] theorem State.putPix_pix (s : State) (cells : List (Nat × Elem)) :
    (s.putPix cells).pix = Memory.writeAll s.pix cells := rfl
@[simp] theorem State.putPix_bstat (s : State) (cells : List (Nat × Elem)) : (s.putPix cells).bstat = s.bstat := rfl
@[simp] theorem State.putPix_band (s : State) (cells : List (Nat × Elem)) : (s.putPix cells).band = s.band := rfl
@[simp] theorem State.putPix_pstart (s : State) (cells : List (Nat × Elem)) : (s.putPix cells).pstart = s.pstart := rfl
@[simp] theorem State.putPix_qstep (s : State) (cells : List (Nat × Elem)) : (s.putPix cells).qstep = s.qstep := rfl
@[simp] theorem State.putPix_val (s : State) (cells : List (Nat × Elem)) : (s.putPix cells).val = s.val := rfl
@[simp] theorem State.putPix_bare (s : State) (cells : List (Nat × Elem)) : (s.putPix cells).bare = s.bare := rfl
@[simp] theorem State.putPix_planeMode (s : State) (cells : List (Nat × Elem)) :
    (s.putPix cells).planeMode = s.planeMode := rfl
@[simp] theorem State.putPix_rlBase (s : State) (cells : List (Nat × Elem)) : (s.putPix cells).rlBase = s.rlBase := rfl
@[simp] theorem State.putPix_rlBytes (s : State) (cells : List (Nat × Elem)) :
    (s.putPix cells).rlBytes = s.rlBytes := rfl
@[simp] theorem State.putPix_czMin (s : State) (cells : List (Nat × Elem)) : (s.putPix cells).czMin = s.czMin := rfl
@[simp] theorem State.putPix_seq (s : State) (cells : List (Nat × Elem)) : (s.putPix cells).seq = s.seq := rfl
@[simp] theorem State.putPix_port (s : State) (cells : List (Nat × Elem)) : (s.putPix cells).port = s.port := rfl
@[simp] theorem State.putPix_rdata (s : State) (cells : List (Nat × Elem)) : (s.putPix cells).rdata = s.rdata := rfl
@[simp] theorem State.putPix_opResult (s : State) (cells : List (Nat × Elem)) :
    (s.putPix cells).opResult = s.opResult := rfl
@[simp] theorem State.putPix_fresh (s : State) (cells : List (Nat × Elem)) : (s.putPix cells).fresh = s.fresh := rfl

/-! ### `putStat` -/

@[simp] theorem State.putStat_cfg (s : State) (st : BandStat) : (s.putStat st).cfg = s.cfg := rfl
@[simp] theorem State.putStat_inMem (s : State) (st : BandStat) : (s.putStat st).inMem = s.inMem := rfl
@[simp] theorem State.putStat_busy (s : State) (st : BandStat) : (s.putStat st).busy = s.busy := rfl
@[simp] theorem State.putStat_done (s : State) (st : BandStat) : (s.putStat st).done = s.done := rfl
@[simp] theorem State.putStat_err (s : State) (st : BandStat) : (s.putStat st).err = s.err := rfl
@[simp] theorem State.putStat_errCode (s : State) (st : BandStat) : (s.putStat st).errCode = s.errCode := rfl
@[simp] theorem State.putStat_errInfo (s : State) (st : BandStat) : (s.putStat st).errInfo = s.errInfo := rfl
@[simp] theorem State.putStat_inLen (s : State) (st : BandStat) : (s.putStat st).inLen = s.inLen := rfl
@[simp] theorem State.putStat_optOffset (s : State) (st : BandStat) : (s.putStat st).optOffset = s.optOffset := rfl
@[simp] theorem State.putStat_optFlags (s : State) (st : BandStat) : (s.putStat st).optFlags = s.optFlags := rfl
@[simp] theorem State.putStat_optPixelType (s : State) (st : BandStat) :
    (s.putStat st).optPixelType = s.optPixelType := rfl
@[simp] theorem State.putStat_optNoData (s : State) (st : BandStat) : (s.putStat st).optNoData = s.optNoData := rfl
@[simp] theorem State.putStat_res (s : State) (st : BandStat) : (s.putStat st).res = s.res := rfl
@[simp] theorem State.putStat_cur (s : State) (st : BandStat) : (s.putStat st).cur = s.cur := rfl
@[simp] theorem State.putStat_bs (s : State) (st : BandStat) : (s.putStat st).bs = s.bs := rfl
@[simp] theorem State.putStat_hb (s : State) (st : BandStat) : (s.putStat st).hb = s.hb := rfl
@[simp] theorem State.putStat_h (s : State) (st : BandStat) : (s.putStat st).h = s.h := rfl
@[simp] theorem State.putStat_dimMin (s : State) (st : BandStat) : (s.putStat st).dimMin = s.dimMin := rfl
@[simp] theorem State.putStat_dimMax (s : State) (st : BandStat) : (s.putStat st).dimMax = s.dimMax := rfl
@[simp] theorem State.putStat_t (s : State) (st : BandStat) : (s.putStat st).t = s.t := rfl
@[simp] theorem State.putStat_lut (s : State) (st : BandStat) : (s.putStat st).lut = s.lut := rfl
@[simp] theorem State.putStat_codes (s : State) (st : BandStat) : (s.putStat st).codes = s.codes := rfl
@[simp] theorem State.putStat_huf (s : State) (st : BandStat) : (s.putStat st).huf = s.huf := rfl
@[simp] theorem State.putStat_hlen (s : State) (st : BandStat) : (s.putStat st).hlen = s.hlen := rfl
@[simp] theorem State.putStat_hcode (s : State) (st : BandStat) : (s.putStat st).hcode = s.hcode := rfl
@[simp] theorem State.putStat_qt (s : State) (st : BandStat) : (s.putStat st).qt = s.qt := rfl
@[simp] theorem State.putStat_trie (s : State) (st : BandStat) : (s.putStat st).trie = s.trie := rfl
@[simp] theorem State.putStat_fSum1 (s : State) (st : BandStat) : (s.putStat st).fSum1 = s.fSum1 := rfl
@[simp] theorem State.putStat_fSum2 (s : State) (st : BandStat) : (s.putStat st).fSum2 = s.fSum2 := rfl
@[simp] theorem State.putStat_rlIp (s : State) (st : BandStat) : (s.putStat st).rlIp = s.rlIp := rfl
@[simp] theorem State.putStat_rlOp (s : State) (st : BandStat) : (s.putStat st).rlOp = s.rlOp := rfl
@[simp] theorem State.putStat_rlRun (s : State) (st : BandStat) : (s.putStat st).rlRun = s.rlRun := rfl
@[simp] theorem State.putStat_hpPrev (s : State) (st : BandStat) : (s.putStat st).hpPrev = s.hpPrev := rfl
@[simp] theorem State.putStat_m (s : State) (st : BandStat) : (s.putStat st).m = s.m := rfl
@[simp] theorem State.putStat_bitset (s : State) (st : BandStat) : (s.putStat st).bitset = s.bitset := rfl
@[simp] theorem State.putStat_maskx (s : State) (st : BandStat) : (s.putStat st).maskx = s.maskx := rfl
@[simp] theorem State.putStat_cmask (s : State) (st : BandStat) : (s.putStat st).cmask = s.cmask := rfl
@[simp] theorem State.putStat_encmask (s : State) (st : BandStat) : (s.putStat st).encmask = s.encmask := rfl
@[simp] theorem State.putStat_pix (s : State) (st : BandStat) : (s.putStat st).pix = s.pix := rfl
@[simp] theorem State.putStat_bstat (s : State) (st : BandStat) :
    (s.putStat st).bstat = Memory.write s.bstat s.band.toNat st := rfl
@[simp] theorem State.putStat_band (s : State) (st : BandStat) : (s.putStat st).band = s.band := rfl
@[simp] theorem State.putStat_pstart (s : State) (st : BandStat) : (s.putStat st).pstart = s.pstart := rfl
@[simp] theorem State.putStat_qstep (s : State) (st : BandStat) : (s.putStat st).qstep = s.qstep := rfl
@[simp] theorem State.putStat_val (s : State) (st : BandStat) : (s.putStat st).val = s.val := rfl
@[simp] theorem State.putStat_bare (s : State) (st : BandStat) : (s.putStat st).bare = s.bare := rfl
@[simp] theorem State.putStat_planeMode (s : State) (st : BandStat) : (s.putStat st).planeMode = s.planeMode := rfl
@[simp] theorem State.putStat_rlBase (s : State) (st : BandStat) : (s.putStat st).rlBase = s.rlBase := rfl
@[simp] theorem State.putStat_rlBytes (s : State) (st : BandStat) : (s.putStat st).rlBytes = s.rlBytes := rfl
@[simp] theorem State.putStat_czMin (s : State) (st : BandStat) : (s.putStat st).czMin = s.czMin := rfl
@[simp] theorem State.putStat_seq (s : State) (st : BandStat) : (s.putStat st).seq = s.seq := rfl
@[simp] theorem State.putStat_port (s : State) (st : BandStat) : (s.putStat st).port = s.port := rfl
@[simp] theorem State.putStat_rdata (s : State) (st : BandStat) : (s.putStat st).rdata = s.rdata := rfl
@[simp] theorem State.putStat_opResult (s : State) (st : BandStat) : (s.putStat st).opResult = s.opResult := rfl
@[simp] theorem State.putStat_fresh (s : State) (st : BandStat) : (s.putStat st).fresh = s.fresh := rfl

/-! ### `withCodes` -/

@[simp] theorem State.withCodes_cfg (s : State) (a : Nat) (r : List Nat × Nat × Nat) :
    (s.withCodes a r).cfg = s.cfg := rfl
@[simp] theorem State.withCodes_inMem (s : State) (a : Nat) (r : List Nat × Nat × Nat) :
    (s.withCodes a r).inMem = s.inMem := rfl
@[simp] theorem State.withCodes_busy (s : State) (a : Nat) (r : List Nat × Nat × Nat) :
    (s.withCodes a r).busy = s.busy := rfl
@[simp] theorem State.withCodes_done (s : State) (a : Nat) (r : List Nat × Nat × Nat) :
    (s.withCodes a r).done = s.done := rfl
@[simp] theorem State.withCodes_err (s : State) (a : Nat) (r : List Nat × Nat × Nat) :
    (s.withCodes a r).err = s.err := rfl
@[simp] theorem State.withCodes_errCode (s : State) (a : Nat) (r : List Nat × Nat × Nat) :
    (s.withCodes a r).errCode = s.errCode := rfl
@[simp] theorem State.withCodes_errInfo (s : State) (a : Nat) (r : List Nat × Nat × Nat) :
    (s.withCodes a r).errInfo = s.errInfo := rfl
@[simp] theorem State.withCodes_inLen (s : State) (a : Nat) (r : List Nat × Nat × Nat) :
    (s.withCodes a r).inLen = s.inLen := rfl
@[simp] theorem State.withCodes_optOffset (s : State) (a : Nat) (r : List Nat × Nat × Nat) :
    (s.withCodes a r).optOffset = s.optOffset := rfl
@[simp] theorem State.withCodes_optFlags (s : State) (a : Nat) (r : List Nat × Nat × Nat) :
    (s.withCodes a r).optFlags = s.optFlags := rfl
@[simp] theorem State.withCodes_optPixelType (s : State) (a : Nat) (r : List Nat × Nat × Nat) :
    (s.withCodes a r).optPixelType = s.optPixelType := rfl
@[simp] theorem State.withCodes_optNoData (s : State) (a : Nat) (r : List Nat × Nat × Nat) :
    (s.withCodes a r).optNoData = s.optNoData := rfl
@[simp] theorem State.withCodes_res (s : State) (a : Nat) (r : List Nat × Nat × Nat) :
    (s.withCodes a r).res = s.res := rfl
@[simp] theorem State.withCodes_cur (s : State) (a : Nat) (r : List Nat × Nat × Nat) :
    (s.withCodes a r).cur = s.cur := rfl
@[simp] theorem State.withCodes_bs (s : State) (a : Nat) (r : List Nat × Nat × Nat) :
    (s.withCodes a r).bs = { base := BitVec.ofNat 32 a, widx := BitVec.ofNat 32 r.2.1, bit := BitVec.ofNat 6 r.2.2 } := rfl
@[simp] theorem State.withCodes_hb (s : State) (a : Nat) (r : List Nat × Nat × Nat) : (s.withCodes a r).hb = s.hb := rfl
@[simp] theorem State.withCodes_h (s : State) (a : Nat) (r : List Nat × Nat × Nat) : (s.withCodes a r).h = s.h := rfl
@[simp] theorem State.withCodes_dimMin (s : State) (a : Nat) (r : List Nat × Nat × Nat) :
    (s.withCodes a r).dimMin = s.dimMin := rfl
@[simp] theorem State.withCodes_dimMax (s : State) (a : Nat) (r : List Nat × Nat × Nat) :
    (s.withCodes a r).dimMax = s.dimMax := rfl
@[simp] theorem State.withCodes_t (s : State) (a : Nat) (r : List Nat × Nat × Nat) : (s.withCodes a r).t = s.t := rfl
@[simp] theorem State.withCodes_lut (s : State) (a : Nat) (r : List Nat × Nat × Nat) :
    (s.withCodes a r).lut = s.lut := rfl
@[simp] theorem State.withCodes_codes (s : State) (a : Nat) (r : List Nat × Nat × Nat) :
    (s.withCodes a r).codes = Memory.writeRange s.codes 0 (r.1.map (BitVec.ofNat 32)) := rfl
@[simp] theorem State.withCodes_huf (s : State) (a : Nat) (r : List Nat × Nat × Nat) :
    (s.withCodes a r).huf = s.huf := rfl
@[simp] theorem State.withCodes_hlen (s : State) (a : Nat) (r : List Nat × Nat × Nat) :
    (s.withCodes a r).hlen = s.hlen := rfl
@[simp] theorem State.withCodes_hcode (s : State) (a : Nat) (r : List Nat × Nat × Nat) :
    (s.withCodes a r).hcode = s.hcode := rfl
@[simp] theorem State.withCodes_qt (s : State) (a : Nat) (r : List Nat × Nat × Nat) : (s.withCodes a r).qt = s.qt := rfl
@[simp] theorem State.withCodes_trie (s : State) (a : Nat) (r : List Nat × Nat × Nat) :
    (s.withCodes a r).trie = s.trie := rfl
@[simp] theorem State.withCodes_fSum1 (s : State) (a : Nat) (r : List Nat × Nat × Nat) :
    (s.withCodes a r).fSum1 = s.fSum1 := rfl
@[simp] theorem State.withCodes_fSum2 (s : State) (a : Nat) (r : List Nat × Nat × Nat) :
    (s.withCodes a r).fSum2 = s.fSum2 := rfl
@[simp] theorem State.withCodes_rlIp (s : State) (a : Nat) (r : List Nat × Nat × Nat) :
    (s.withCodes a r).rlIp = s.rlIp := rfl
@[simp] theorem State.withCodes_rlOp (s : State) (a : Nat) (r : List Nat × Nat × Nat) :
    (s.withCodes a r).rlOp = s.rlOp := rfl
@[simp] theorem State.withCodes_rlRun (s : State) (a : Nat) (r : List Nat × Nat × Nat) :
    (s.withCodes a r).rlRun = s.rlRun := rfl
@[simp] theorem State.withCodes_hpPrev (s : State) (a : Nat) (r : List Nat × Nat × Nat) :
    (s.withCodes a r).hpPrev = s.hpPrev := rfl
@[simp] theorem State.withCodes_m (s : State) (a : Nat) (r : List Nat × Nat × Nat) : (s.withCodes a r).m = s.m := rfl
@[simp] theorem State.withCodes_bitset (s : State) (a : Nat) (r : List Nat × Nat × Nat) :
    (s.withCodes a r).bitset = s.bitset := rfl
@[simp] theorem State.withCodes_maskx (s : State) (a : Nat) (r : List Nat × Nat × Nat) :
    (s.withCodes a r).maskx = s.maskx := rfl
@[simp] theorem State.withCodes_cmask (s : State) (a : Nat) (r : List Nat × Nat × Nat) :
    (s.withCodes a r).cmask = s.cmask := rfl
@[simp] theorem State.withCodes_encmask (s : State) (a : Nat) (r : List Nat × Nat × Nat) :
    (s.withCodes a r).encmask = s.encmask := rfl
@[simp] theorem State.withCodes_pix (s : State) (a : Nat) (r : List Nat × Nat × Nat) :
    (s.withCodes a r).pix = s.pix := rfl
@[simp] theorem State.withCodes_bstat (s : State) (a : Nat) (r : List Nat × Nat × Nat) :
    (s.withCodes a r).bstat = s.bstat := rfl
@[simp] theorem State.withCodes_band (s : State) (a : Nat) (r : List Nat × Nat × Nat) :
    (s.withCodes a r).band = s.band := rfl
@[simp] theorem State.withCodes_pstart (s : State) (a : Nat) (r : List Nat × Nat × Nat) :
    (s.withCodes a r).pstart = s.pstart := rfl
@[simp] theorem State.withCodes_qstep (s : State) (a : Nat) (r : List Nat × Nat × Nat) :
    (s.withCodes a r).qstep = s.qstep := rfl
@[simp] theorem State.withCodes_val (s : State) (a : Nat) (r : List Nat × Nat × Nat) :
    (s.withCodes a r).val = s.val := rfl
@[simp] theorem State.withCodes_bare (s : State) (a : Nat) (r : List Nat × Nat × Nat) :
    (s.withCodes a r).bare = s.bare := rfl
@[simp] theorem State.withCodes_planeMode (s : State) (a : Nat) (r : List Nat × Nat × Nat) :
    (s.withCodes a r).planeMode = s.planeMode := rfl
@[simp] theorem State.withCodes_rlBase (s : State) (a : Nat) (r : List Nat × Nat × Nat) :
    (s.withCodes a r).rlBase = s.rlBase := rfl
@[simp] theorem State.withCodes_rlBytes (s : State) (a : Nat) (r : List Nat × Nat × Nat) :
    (s.withCodes a r).rlBytes = s.rlBytes := rfl
@[simp] theorem State.withCodes_czMin (s : State) (a : Nat) (r : List Nat × Nat × Nat) :
    (s.withCodes a r).czMin = s.czMin := rfl
@[simp] theorem State.withCodes_seq (s : State) (a : Nat) (r : List Nat × Nat × Nat) :
    (s.withCodes a r).seq = s.seq := rfl
@[simp] theorem State.withCodes_port (s : State) (a : Nat) (r : List Nat × Nat × Nat) :
    (s.withCodes a r).port = s.port := rfl
@[simp] theorem State.withCodes_rdata (s : State) (a : Nat) (r : List Nat × Nat × Nat) :
    (s.withCodes a r).rdata = s.rdata := rfl
@[simp] theorem State.withCodes_opResult (s : State) (a : Nat) (r : List Nat × Nat × Nat) :
    (s.withCodes a r).opResult = s.opResult := rfl
@[simp] theorem State.withCodes_fresh (s : State) (a : Nat) (r : List Nat × Nat × Nat) :
    (s.withCodes a r).fresh = s.fresh := rfl

/-! ### `setHbPos` -/

@[simp] theorem State.setHbPos_cfg (s : State) (pos : Nat) : (s.setHbPos pos).cfg = s.cfg := rfl
@[simp] theorem State.setHbPos_inMem (s : State) (pos : Nat) : (s.setHbPos pos).inMem = s.inMem := rfl
@[simp] theorem State.setHbPos_busy (s : State) (pos : Nat) : (s.setHbPos pos).busy = s.busy := rfl
@[simp] theorem State.setHbPos_done (s : State) (pos : Nat) : (s.setHbPos pos).done = s.done := rfl
@[simp] theorem State.setHbPos_err (s : State) (pos : Nat) : (s.setHbPos pos).err = s.err := rfl
@[simp] theorem State.setHbPos_errCode (s : State) (pos : Nat) : (s.setHbPos pos).errCode = s.errCode := rfl
@[simp] theorem State.setHbPos_errInfo (s : State) (pos : Nat) : (s.setHbPos pos).errInfo = s.errInfo := rfl
@[simp] theorem State.setHbPos_inLen (s : State) (pos : Nat) : (s.setHbPos pos).inLen = s.inLen := rfl
@[simp] theorem State.setHbPos_optOffset (s : State) (pos : Nat) : (s.setHbPos pos).optOffset = s.optOffset := rfl
@[simp] theorem State.setHbPos_optFlags (s : State) (pos : Nat) : (s.setHbPos pos).optFlags = s.optFlags := rfl
@[simp] theorem State.setHbPos_optPixelType (s : State) (pos : Nat) :
    (s.setHbPos pos).optPixelType = s.optPixelType := rfl
@[simp] theorem State.setHbPos_optNoData (s : State) (pos : Nat) : (s.setHbPos pos).optNoData = s.optNoData := rfl
@[simp] theorem State.setHbPos_res (s : State) (pos : Nat) : (s.setHbPos pos).res = s.res := rfl
@[simp] theorem State.setHbPos_cur (s : State) (pos : Nat) : (s.setHbPos pos).cur = s.cur := rfl
@[simp] theorem State.setHbPos_bs (s : State) (pos : Nat) : (s.setHbPos pos).bs = s.bs := rfl
@[simp] theorem State.setHbPos_hb (s : State) (pos : Nat) :
    (s.setHbPos pos).hb = { s.hb with widx := BitVec.ofNat 32 (pos / 32), bit := BitVec.ofNat 6 (pos % 32) } := rfl
@[simp] theorem State.setHbPos_h (s : State) (pos : Nat) : (s.setHbPos pos).h = s.h := rfl
@[simp] theorem State.setHbPos_dimMin (s : State) (pos : Nat) : (s.setHbPos pos).dimMin = s.dimMin := rfl
@[simp] theorem State.setHbPos_dimMax (s : State) (pos : Nat) : (s.setHbPos pos).dimMax = s.dimMax := rfl
@[simp] theorem State.setHbPos_t (s : State) (pos : Nat) : (s.setHbPos pos).t = s.t := rfl
@[simp] theorem State.setHbPos_lut (s : State) (pos : Nat) : (s.setHbPos pos).lut = s.lut := rfl
@[simp] theorem State.setHbPos_codes (s : State) (pos : Nat) : (s.setHbPos pos).codes = s.codes := rfl
@[simp] theorem State.setHbPos_huf (s : State) (pos : Nat) : (s.setHbPos pos).huf = s.huf := rfl
@[simp] theorem State.setHbPos_hlen (s : State) (pos : Nat) : (s.setHbPos pos).hlen = s.hlen := rfl
@[simp] theorem State.setHbPos_hcode (s : State) (pos : Nat) : (s.setHbPos pos).hcode = s.hcode := rfl
@[simp] theorem State.setHbPos_qt (s : State) (pos : Nat) : (s.setHbPos pos).qt = s.qt := rfl
@[simp] theorem State.setHbPos_trie (s : State) (pos : Nat) : (s.setHbPos pos).trie = s.trie := rfl
@[simp] theorem State.setHbPos_fSum1 (s : State) (pos : Nat) : (s.setHbPos pos).fSum1 = s.fSum1 := rfl
@[simp] theorem State.setHbPos_fSum2 (s : State) (pos : Nat) : (s.setHbPos pos).fSum2 = s.fSum2 := rfl
@[simp] theorem State.setHbPos_rlIp (s : State) (pos : Nat) : (s.setHbPos pos).rlIp = s.rlIp := rfl
@[simp] theorem State.setHbPos_rlOp (s : State) (pos : Nat) : (s.setHbPos pos).rlOp = s.rlOp := rfl
@[simp] theorem State.setHbPos_rlRun (s : State) (pos : Nat) : (s.setHbPos pos).rlRun = s.rlRun := rfl
@[simp] theorem State.setHbPos_hpPrev (s : State) (pos : Nat) : (s.setHbPos pos).hpPrev = s.hpPrev := rfl
@[simp] theorem State.setHbPos_m (s : State) (pos : Nat) : (s.setHbPos pos).m = s.m := rfl
@[simp] theorem State.setHbPos_bitset (s : State) (pos : Nat) : (s.setHbPos pos).bitset = s.bitset := rfl
@[simp] theorem State.setHbPos_maskx (s : State) (pos : Nat) : (s.setHbPos pos).maskx = s.maskx := rfl
@[simp] theorem State.setHbPos_cmask (s : State) (pos : Nat) : (s.setHbPos pos).cmask = s.cmask := rfl
@[simp] theorem State.setHbPos_encmask (s : State) (pos : Nat) : (s.setHbPos pos).encmask = s.encmask := rfl
@[simp] theorem State.setHbPos_pix (s : State) (pos : Nat) : (s.setHbPos pos).pix = s.pix := rfl
@[simp] theorem State.setHbPos_bstat (s : State) (pos : Nat) : (s.setHbPos pos).bstat = s.bstat := rfl
@[simp] theorem State.setHbPos_band (s : State) (pos : Nat) : (s.setHbPos pos).band = s.band := rfl
@[simp] theorem State.setHbPos_pstart (s : State) (pos : Nat) : (s.setHbPos pos).pstart = s.pstart := rfl
@[simp] theorem State.setHbPos_qstep (s : State) (pos : Nat) : (s.setHbPos pos).qstep = s.qstep := rfl
@[simp] theorem State.setHbPos_val (s : State) (pos : Nat) : (s.setHbPos pos).val = s.val := rfl
@[simp] theorem State.setHbPos_bare (s : State) (pos : Nat) : (s.setHbPos pos).bare = s.bare := rfl
@[simp] theorem State.setHbPos_planeMode (s : State) (pos : Nat) : (s.setHbPos pos).planeMode = s.planeMode := rfl
@[simp] theorem State.setHbPos_rlBase (s : State) (pos : Nat) : (s.setHbPos pos).rlBase = s.rlBase := rfl
@[simp] theorem State.setHbPos_rlBytes (s : State) (pos : Nat) : (s.setHbPos pos).rlBytes = s.rlBytes := rfl
@[simp] theorem State.setHbPos_czMin (s : State) (pos : Nat) : (s.setHbPos pos).czMin = s.czMin := rfl
@[simp] theorem State.setHbPos_seq (s : State) (pos : Nat) : (s.setHbPos pos).seq = s.seq := rfl
@[simp] theorem State.setHbPos_port (s : State) (pos : Nat) : (s.setHbPos pos).port = s.port := rfl
@[simp] theorem State.setHbPos_rdata (s : State) (pos : Nat) : (s.setHbPos pos).rdata = s.rdata := rfl
@[simp] theorem State.setHbPos_opResult (s : State) (pos : Nat) : (s.setHbPos pos).opResult = s.opResult := rfl
@[simp] theorem State.setHbPos_fresh (s : State) (pos : Nat) : (s.setHbPos pos).fresh = s.fresh := rfl

/-! ### `rlHead` -/

@[simp] theorem State.rlHead_cfg (s : State) (run : BitVec 16) : (s.rlHead run).cfg = s.cfg := rfl
@[simp] theorem State.rlHead_inMem (s : State) (run : BitVec 16) : (s.rlHead run).inMem = s.inMem := rfl
@[simp] theorem State.rlHead_busy (s : State) (run : BitVec 16) : (s.rlHead run).busy = s.busy := rfl
@[simp] theorem State.rlHead_done (s : State) (run : BitVec 16) : (s.rlHead run).done = s.done := rfl
@[simp] theorem State.rlHead_err (s : State) (run : BitVec 16) : (s.rlHead run).err = s.err := rfl
@[simp] theorem State.rlHead_errCode (s : State) (run : BitVec 16) : (s.rlHead run).errCode = s.errCode := rfl
@[simp] theorem State.rlHead_errInfo (s : State) (run : BitVec 16) : (s.rlHead run).errInfo = s.errInfo := rfl
@[simp] theorem State.rlHead_inLen (s : State) (run : BitVec 16) : (s.rlHead run).inLen = s.inLen := rfl
@[simp] theorem State.rlHead_optOffset (s : State) (run : BitVec 16) : (s.rlHead run).optOffset = s.optOffset := rfl
@[simp] theorem State.rlHead_optFlags (s : State) (run : BitVec 16) : (s.rlHead run).optFlags = s.optFlags := rfl
@[simp] theorem State.rlHead_optPixelType (s : State) (run : BitVec 16) :
    (s.rlHead run).optPixelType = s.optPixelType := rfl
@[simp] theorem State.rlHead_optNoData (s : State) (run : BitVec 16) : (s.rlHead run).optNoData = s.optNoData := rfl
@[simp] theorem State.rlHead_res (s : State) (run : BitVec 16) : (s.rlHead run).res = s.res := rfl
@[simp] theorem State.rlHead_cur (s : State) (run : BitVec 16) : (s.rlHead run).cur = s.cur := rfl
@[simp] theorem State.rlHead_bs (s : State) (run : BitVec 16) : (s.rlHead run).bs = s.bs := rfl
@[simp] theorem State.rlHead_hb (s : State) (run : BitVec 16) : (s.rlHead run).hb = s.hb := rfl
@[simp] theorem State.rlHead_h (s : State) (run : BitVec 16) : (s.rlHead run).h = s.h := rfl
@[simp] theorem State.rlHead_dimMin (s : State) (run : BitVec 16) : (s.rlHead run).dimMin = s.dimMin := rfl
@[simp] theorem State.rlHead_dimMax (s : State) (run : BitVec 16) : (s.rlHead run).dimMax = s.dimMax := rfl
@[simp] theorem State.rlHead_t (s : State) (run : BitVec 16) : (s.rlHead run).t = s.t := rfl
@[simp] theorem State.rlHead_lut (s : State) (run : BitVec 16) : (s.rlHead run).lut = s.lut := rfl
@[simp] theorem State.rlHead_codes (s : State) (run : BitVec 16) : (s.rlHead run).codes = s.codes := rfl
@[simp] theorem State.rlHead_huf (s : State) (run : BitVec 16) : (s.rlHead run).huf = s.huf := rfl
@[simp] theorem State.rlHead_hlen (s : State) (run : BitVec 16) : (s.rlHead run).hlen = s.hlen := rfl
@[simp] theorem State.rlHead_hcode (s : State) (run : BitVec 16) : (s.rlHead run).hcode = s.hcode := rfl
@[simp] theorem State.rlHead_qt (s : State) (run : BitVec 16) : (s.rlHead run).qt = s.qt := rfl
@[simp] theorem State.rlHead_trie (s : State) (run : BitVec 16) : (s.rlHead run).trie = s.trie := rfl
@[simp] theorem State.rlHead_fSum1 (s : State) (run : BitVec 16) : (s.rlHead run).fSum1 = s.fSum1 := rfl
@[simp] theorem State.rlHead_fSum2 (s : State) (run : BitVec 16) : (s.rlHead run).fSum2 = s.fSum2 := rfl
@[simp] theorem State.rlHead_rlIp (s : State) (run : BitVec 16) : (s.rlHead run).rlIp = s.rlIp + 2#32 := rfl
@[simp] theorem State.rlHead_rlOp (s : State) (run : BitVec 16) : (s.rlHead run).rlOp = s.rlOp := rfl
@[simp] theorem State.rlHead_rlRun (s : State) (run : BitVec 16) : (s.rlHead run).rlRun = run := rfl
@[simp] theorem State.rlHead_hpPrev (s : State) (run : BitVec 16) : (s.rlHead run).hpPrev = s.hpPrev := rfl
@[simp] theorem State.rlHead_m (s : State) (run : BitVec 16) : (s.rlHead run).m = s.m := rfl
@[simp] theorem State.rlHead_bitset (s : State) (run : BitVec 16) : (s.rlHead run).bitset = s.bitset := rfl
@[simp] theorem State.rlHead_maskx (s : State) (run : BitVec 16) : (s.rlHead run).maskx = s.maskx := rfl
@[simp] theorem State.rlHead_cmask (s : State) (run : BitVec 16) : (s.rlHead run).cmask = s.cmask := rfl
@[simp] theorem State.rlHead_encmask (s : State) (run : BitVec 16) : (s.rlHead run).encmask = s.encmask := rfl
@[simp] theorem State.rlHead_pix (s : State) (run : BitVec 16) : (s.rlHead run).pix = s.pix := rfl
@[simp] theorem State.rlHead_bstat (s : State) (run : BitVec 16) : (s.rlHead run).bstat = s.bstat := rfl
@[simp] theorem State.rlHead_band (s : State) (run : BitVec 16) : (s.rlHead run).band = s.band := rfl
@[simp] theorem State.rlHead_pstart (s : State) (run : BitVec 16) : (s.rlHead run).pstart = s.pstart := rfl
@[simp] theorem State.rlHead_qstep (s : State) (run : BitVec 16) : (s.rlHead run).qstep = s.qstep := rfl
@[simp] theorem State.rlHead_val (s : State) (run : BitVec 16) : (s.rlHead run).val = s.val := rfl
@[simp] theorem State.rlHead_bare (s : State) (run : BitVec 16) : (s.rlHead run).bare = s.bare := rfl
@[simp] theorem State.rlHead_planeMode (s : State) (run : BitVec 16) : (s.rlHead run).planeMode = s.planeMode := rfl
@[simp] theorem State.rlHead_rlBase (s : State) (run : BitVec 16) : (s.rlHead run).rlBase = s.rlBase := rfl
@[simp] theorem State.rlHead_rlBytes (s : State) (run : BitVec 16) : (s.rlHead run).rlBytes = s.rlBytes := rfl
@[simp] theorem State.rlHead_czMin (s : State) (run : BitVec 16) : (s.rlHead run).czMin = s.czMin := rfl
@[simp] theorem State.rlHead_seq (s : State) (run : BitVec 16) : (s.rlHead run).seq = s.seq := rfl
@[simp] theorem State.rlHead_port (s : State) (run : BitVec 16) : (s.rlHead run).port = s.port := rfl
@[simp] theorem State.rlHead_rdata (s : State) (run : BitVec 16) : (s.rlHead run).rdata = s.rdata := rfl
@[simp] theorem State.rlHead_opResult (s : State) (run : BitVec 16) : (s.rlHead run).opResult = s.opResult := rfl
@[simp] theorem State.rlHead_fresh (s : State) (run : BitVec 16) : (s.rlHead run).fresh = s.fresh := rfl

/-! ### `rlPut` -/

@[simp] theorem State.rlPut_cfg (s : State) (n : Nat) (bytes : List Byte) : (s.rlPut n bytes).cfg = s.cfg := rfl
@[simp] theorem State.rlPut_inMem (s : State) (n : Nat) (bytes : List Byte) : (s.rlPut n bytes).inMem = s.inMem := rfl
@[simp] theorem State.rlPut_busy (s : State) (n : Nat) (bytes : List Byte) : (s.rlPut n bytes).busy = s.busy := rfl
@[simp] theorem State.rlPut_done (s : State) (n : Nat) (bytes : List Byte) : (s.rlPut n bytes).done = s.done := rfl
@[simp] theorem State.rlPut_err (s : State) (n : Nat) (bytes : List Byte) : (s.rlPut n bytes).err = s.err := rfl
@[simp] theorem State.rlPut_errCode (s : State) (n : Nat) (bytes : List Byte) :
    (s.rlPut n bytes).errCode = s.errCode := rfl
@[simp] theorem State.rlPut_errInfo (s : State) (n : Nat) (bytes : List Byte) :
    (s.rlPut n bytes).errInfo = s.errInfo := rfl
@[simp] theorem State.rlPut_inLen (s : State) (n : Nat) (bytes : List Byte) : (s.rlPut n bytes).inLen = s.inLen := rfl
@[simp] theorem State.rlPut_optOffset (s : State) (n : Nat) (bytes : List Byte) :
    (s.rlPut n bytes).optOffset = s.optOffset := rfl
@[simp] theorem State.rlPut_optFlags (s : State) (n : Nat) (bytes : List Byte) :
    (s.rlPut n bytes).optFlags = s.optFlags := rfl
@[simp] theorem State.rlPut_optPixelType (s : State) (n : Nat) (bytes : List Byte) :
    (s.rlPut n bytes).optPixelType = s.optPixelType := rfl
@[simp] theorem State.rlPut_optNoData (s : State) (n : Nat) (bytes : List Byte) :
    (s.rlPut n bytes).optNoData = s.optNoData := rfl
@[simp] theorem State.rlPut_res (s : State) (n : Nat) (bytes : List Byte) : (s.rlPut n bytes).res = s.res := rfl
@[simp] theorem State.rlPut_cur (s : State) (n : Nat) (bytes : List Byte) : (s.rlPut n bytes).cur = s.cur := rfl
@[simp] theorem State.rlPut_bs (s : State) (n : Nat) (bytes : List Byte) : (s.rlPut n bytes).bs = s.bs := rfl
@[simp] theorem State.rlPut_hb (s : State) (n : Nat) (bytes : List Byte) : (s.rlPut n bytes).hb = s.hb := rfl
@[simp] theorem State.rlPut_h (s : State) (n : Nat) (bytes : List Byte) : (s.rlPut n bytes).h = s.h := rfl
@[simp] theorem State.rlPut_dimMin (s : State) (n : Nat) (bytes : List Byte) :
    (s.rlPut n bytes).dimMin = s.dimMin := rfl
@[simp] theorem State.rlPut_dimMax (s : State) (n : Nat) (bytes : List Byte) :
    (s.rlPut n bytes).dimMax = s.dimMax := rfl
@[simp] theorem State.rlPut_t (s : State) (n : Nat) (bytes : List Byte) : (s.rlPut n bytes).t = s.t := rfl
@[simp] theorem State.rlPut_lut (s : State) (n : Nat) (bytes : List Byte) : (s.rlPut n bytes).lut = s.lut := rfl
@[simp] theorem State.rlPut_codes (s : State) (n : Nat) (bytes : List Byte) : (s.rlPut n bytes).codes = s.codes := rfl
@[simp] theorem State.rlPut_huf (s : State) (n : Nat) (bytes : List Byte) : (s.rlPut n bytes).huf = s.huf := rfl
@[simp] theorem State.rlPut_hlen (s : State) (n : Nat) (bytes : List Byte) : (s.rlPut n bytes).hlen = s.hlen := rfl
@[simp] theorem State.rlPut_hcode (s : State) (n : Nat) (bytes : List Byte) : (s.rlPut n bytes).hcode = s.hcode := rfl
@[simp] theorem State.rlPut_qt (s : State) (n : Nat) (bytes : List Byte) : (s.rlPut n bytes).qt = s.qt := rfl
@[simp] theorem State.rlPut_trie (s : State) (n : Nat) (bytes : List Byte) : (s.rlPut n bytes).trie = s.trie := rfl
@[simp] theorem State.rlPut_fSum1 (s : State) (n : Nat) (bytes : List Byte) : (s.rlPut n bytes).fSum1 = s.fSum1 := rfl
@[simp] theorem State.rlPut_fSum2 (s : State) (n : Nat) (bytes : List Byte) : (s.rlPut n bytes).fSum2 = s.fSum2 := rfl
@[simp] theorem State.rlPut_rlIp (s : State) (n : Nat) (bytes : List Byte) :
    (s.rlPut n bytes).rlIp = s.rlIp + BitVec.ofNat 32 n := rfl
@[simp] theorem State.rlPut_rlOp (s : State) (n : Nat) (bytes : List Byte) :
    (s.rlPut n bytes).rlOp = s.rlOp + BitVec.ofNat 32 bytes.length := rfl
@[simp] theorem State.rlPut_rlRun (s : State) (n : Nat) (bytes : List Byte) : (s.rlPut n bytes).rlRun = s.rlRun := rfl
@[simp] theorem State.rlPut_hpPrev (s : State) (n : Nat) (bytes : List Byte) :
    (s.rlPut n bytes).hpPrev = s.hpPrev := rfl
@[simp] theorem State.rlPut_m (s : State) (n : Nat) (bytes : List Byte) : (s.rlPut n bytes).m = s.m := rfl
@[simp] theorem State.rlPut_bitset (s : State) (n : Nat) (bytes : List Byte) :
    (s.rlPut n bytes).bitset = Memory.writeRange s.bitset s.rlOp.toNat bytes := rfl
@[simp] theorem State.rlPut_maskx (s : State) (n : Nat) (bytes : List Byte) : (s.rlPut n bytes).maskx = s.maskx := rfl
@[simp] theorem State.rlPut_cmask (s : State) (n : Nat) (bytes : List Byte) : (s.rlPut n bytes).cmask = s.cmask := rfl
@[simp] theorem State.rlPut_encmask (s : State) (n : Nat) (bytes : List Byte) :
    (s.rlPut n bytes).encmask = s.encmask := rfl
@[simp] theorem State.rlPut_pix (s : State) (n : Nat) (bytes : List Byte) : (s.rlPut n bytes).pix = s.pix := rfl
@[simp] theorem State.rlPut_bstat (s : State) (n : Nat) (bytes : List Byte) : (s.rlPut n bytes).bstat = s.bstat := rfl
@[simp] theorem State.rlPut_band (s : State) (n : Nat) (bytes : List Byte) : (s.rlPut n bytes).band = s.band := rfl
@[simp] theorem State.rlPut_pstart (s : State) (n : Nat) (bytes : List Byte) :
    (s.rlPut n bytes).pstart = s.pstart := rfl
@[simp] theorem State.rlPut_qstep (s : State) (n : Nat) (bytes : List Byte) : (s.rlPut n bytes).qstep = s.qstep := rfl
@[simp] theorem State.rlPut_val (s : State) (n : Nat) (bytes : List Byte) : (s.rlPut n bytes).val = s.val := rfl
@[simp] theorem State.rlPut_bare (s : State) (n : Nat) (bytes : List Byte) : (s.rlPut n bytes).bare = s.bare := rfl
@[simp] theorem State.rlPut_planeMode (s : State) (n : Nat) (bytes : List Byte) :
    (s.rlPut n bytes).planeMode = s.planeMode := rfl
@[simp] theorem State.rlPut_rlBase (s : State) (n : Nat) (bytes : List Byte) :
    (s.rlPut n bytes).rlBase = s.rlBase := rfl
@[simp] theorem State.rlPut_rlBytes (s : State) (n : Nat) (bytes : List Byte) :
    (s.rlPut n bytes).rlBytes = s.rlBytes := rfl
@[simp] theorem State.rlPut_czMin (s : State) (n : Nat) (bytes : List Byte) : (s.rlPut n bytes).czMin = s.czMin := rfl
@[simp] theorem State.rlPut_seq (s : State) (n : Nat) (bytes : List Byte) : (s.rlPut n bytes).seq = s.seq := rfl
@[simp] theorem State.rlPut_port (s : State) (n : Nat) (bytes : List Byte) : (s.rlPut n bytes).port = s.port := rfl
@[simp] theorem State.rlPut_rdata (s : State) (n : Nat) (bytes : List Byte) : (s.rlPut n bytes).rdata = s.rdata := rfl
@[simp] theorem State.rlPut_opResult (s : State) (n : Nat) (bytes : List Byte) :
    (s.rlPut n bytes).opResult = s.opResult := rfl
@[simp] theorem State.rlPut_fresh (s : State) (n : Nat) (bytes : List Byte) : (s.rlPut n bytes).fresh = s.fresh := rfl

/-! ### `deliver` -/

@[simp] theorem State.deliver_cfg (s : State) (d : Nat) (ks : List Nat) (vs : List F64) :
    (s.deliver d ks vs).cfg = s.cfg := rfl
@[simp] theorem State.deliver_inMem (s : State) (d : Nat) (ks : List Nat) (vs : List F64) :
    (s.deliver d ks vs).inMem = s.inMem := rfl
@[simp] theorem State.deliver_busy (s : State) (d : Nat) (ks : List Nat) (vs : List F64) :
    (s.deliver d ks vs).busy = s.busy := rfl
@[simp] theorem State.deliver_done (s : State) (d : Nat) (ks : List Nat) (vs : List F64) :
    (s.deliver d ks vs).done = s.done := rfl
@[simp] theorem State.deliver_err (s : State) (d : Nat) (ks : List Nat) (vs : List F64) :
    (s.deliver d ks vs).err = s.err := rfl
@[simp] theorem State.deliver_errCode (s : State) (d : Nat) (ks : List Nat) (vs : List F64) :
    (s.deliver d ks vs).errCode = s.errCode := rfl
@[simp] theorem State.deliver_errInfo (s : State) (d : Nat) (ks : List Nat) (vs : List F64) :
    (s.deliver d ks vs).errInfo = s.errInfo := rfl
@[simp] theorem State.deliver_inLen (s : State) (d : Nat) (ks : List Nat) (vs : List F64) :
    (s.deliver d ks vs).inLen = s.inLen := rfl
@[simp] theorem State.deliver_optOffset (s : State) (d : Nat) (ks : List Nat) (vs : List F64) :
    (s.deliver d ks vs).optOffset = s.optOffset := rfl
@[simp] theorem State.deliver_optFlags (s : State) (d : Nat) (ks : List Nat) (vs : List F64) :
    (s.deliver d ks vs).optFlags = s.optFlags := rfl
@[simp] theorem State.deliver_optPixelType (s : State) (d : Nat) (ks : List Nat) (vs : List F64) :
    (s.deliver d ks vs).optPixelType = s.optPixelType := rfl
@[simp] theorem State.deliver_optNoData (s : State) (d : Nat) (ks : List Nat) (vs : List F64) :
    (s.deliver d ks vs).optNoData = s.optNoData := rfl
@[simp] theorem State.deliver_res (s : State) (d : Nat) (ks : List Nat) (vs : List F64) :
    (s.deliver d ks vs).res = s.res := rfl
@[simp] theorem State.deliver_cur (s : State) (d : Nat) (ks : List Nat) (vs : List F64) :
    (s.deliver d ks vs).cur = s.cur := rfl
@[simp] theorem State.deliver_bs (s : State) (d : Nat) (ks : List Nat) (vs : List F64) :
    (s.deliver d ks vs).bs = s.bs := rfl
@[simp] theorem State.deliver_hb (s : State) (d : Nat) (ks : List Nat) (vs : List F64) :
    (s.deliver d ks vs).hb = s.hb := rfl
@[simp] theorem State.deliver_h (s : State) (d : Nat) (ks : List Nat) (vs : List F64) :
    (s.deliver d ks vs).h = s.h := rfl
@[simp] theorem State.deliver_dimMin (s : State) (d : Nat) (ks : List Nat) (vs : List F64) :
    (s.deliver d ks vs).dimMin = s.dimMin := rfl
@[simp] theorem State.deliver_dimMax (s : State) (d : Nat) (ks : List Nat) (vs : List F64) :
    (s.deliver d ks vs).dimMax = s.dimMax := rfl
@[simp] theorem State.deliver_t (s : State) (d : Nat) (ks : List Nat) (vs : List F64) :
    (s.deliver d ks vs).t = { s.t with cnt := s.t.cnt + BitVec.ofNat 32 (min ks.length vs.length) } := rfl
@[simp] theorem State.deliver_lut (s : State) (d : Nat) (ks : List Nat) (vs : List F64) :
    (s.deliver d ks vs).lut = s.lut := rfl
@[simp] theorem State.deliver_codes (s : State) (d : Nat) (ks : List Nat) (vs : List F64) :
    (s.deliver d ks vs).codes = s.codes := rfl
@[simp] theorem State.deliver_huf (s : State) (d : Nat) (ks : List Nat) (vs : List F64) :
    (s.deliver d ks vs).huf = s.huf := rfl
@[simp] theorem State.deliver_hlen (s : State) (d : Nat) (ks : List Nat) (vs : List F64) :
    (s.deliver d ks vs).hlen = s.hlen := rfl
@[simp] theorem State.deliver_hcode (s : State) (d : Nat) (ks : List Nat) (vs : List F64) :
    (s.deliver d ks vs).hcode = s.hcode := rfl
@[simp] theorem State.deliver_qt (s : State) (d : Nat) (ks : List Nat) (vs : List F64) :
    (s.deliver d ks vs).qt = s.qt := rfl
@[simp] theorem State.deliver_trie (s : State) (d : Nat) (ks : List Nat) (vs : List F64) :
    (s.deliver d ks vs).trie = s.trie := rfl
@[simp] theorem State.deliver_fSum1 (s : State) (d : Nat) (ks : List Nat) (vs : List F64) :
    (s.deliver d ks vs).fSum1 = s.fSum1 := rfl
@[simp] theorem State.deliver_fSum2 (s : State) (d : Nat) (ks : List Nat) (vs : List F64) :
    (s.deliver d ks vs).fSum2 = s.fSum2 := rfl
@[simp] theorem State.deliver_rlIp (s : State) (d : Nat) (ks : List Nat) (vs : List F64) :
    (s.deliver d ks vs).rlIp = s.rlIp := rfl
@[simp] theorem State.deliver_rlOp (s : State) (d : Nat) (ks : List Nat) (vs : List F64) :
    (s.deliver d ks vs).rlOp = s.rlOp := rfl
@[simp] theorem State.deliver_rlRun (s : State) (d : Nat) (ks : List Nat) (vs : List F64) :
    (s.deliver d ks vs).rlRun = s.rlRun := rfl
@[simp] theorem State.deliver_hpPrev (s : State) (d : Nat) (ks : List Nat) (vs : List F64) :
    (s.deliver d ks vs).hpPrev = s.hpPrev := rfl
@[simp] theorem State.deliver_m (s : State) (d : Nat) (ks : List Nat) (vs : List F64) :
    (s.deliver d ks vs).m = s.m := rfl
@[simp] theorem State.deliver_bitset (s : State) (d : Nat) (ks : List Nat) (vs : List F64) :
    (s.deliver d ks vs).bitset = s.bitset := rfl
@[simp] theorem State.deliver_maskx (s : State) (d : Nat) (ks : List Nat) (vs : List F64) :
    (s.deliver d ks vs).maskx = s.maskx := rfl
@[simp] theorem State.deliver_cmask (s : State) (d : Nat) (ks : List Nat) (vs : List F64) :
    (s.deliver d ks vs).cmask = s.cmask := rfl
@[simp] theorem State.deliver_encmask (s : State) (d : Nat) (ks : List Nat) (vs : List F64) :
    (s.deliver d ks vs).encmask = s.encmask := rfl
@[simp] theorem State.deliver_bstat (s : State) (d : Nat) (ks : List Nat) (vs : List F64) :
    (s.deliver d ks vs).bstat = s.bstat := rfl
@[simp] theorem State.deliver_band (s : State) (d : Nat) (ks : List Nat) (vs : List F64) :
    (s.deliver d ks vs).band = s.band := rfl
@[simp] theorem State.deliver_pstart (s : State) (d : Nat) (ks : List Nat) (vs : List F64) :
    (s.deliver d ks vs).pstart = s.pstart := rfl
@[simp] theorem State.deliver_qstep (s : State) (d : Nat) (ks : List Nat) (vs : List F64) :
    (s.deliver d ks vs).qstep = s.qstep := rfl
@[simp] theorem State.deliver_val (s : State) (d : Nat) (ks : List Nat) (vs : List F64) :
    (s.deliver d ks vs).val = s.val := rfl
@[simp] theorem State.deliver_bare (s : State) (d : Nat) (ks : List Nat) (vs : List F64) :
    (s.deliver d ks vs).bare = s.bare := rfl
@[simp] theorem State.deliver_planeMode (s : State) (d : Nat) (ks : List Nat) (vs : List F64) :
    (s.deliver d ks vs).planeMode = s.planeMode := rfl
@[simp] theorem State.deliver_rlBase (s : State) (d : Nat) (ks : List Nat) (vs : List F64) :
    (s.deliver d ks vs).rlBase = s.rlBase := rfl
@[simp] theorem State.deliver_rlBytes (s : State) (d : Nat) (ks : List Nat) (vs : List F64) :
    (s.deliver d ks vs).rlBytes = s.rlBytes := rfl
@[simp] theorem State.deliver_czMin (s : State) (d : Nat) (ks : List Nat) (vs : List F64) :
    (s.deliver d ks vs).czMin = s.czMin := rfl
@[simp] theorem State.deliver_seq (s : State) (d : Nat) (ks : List Nat) (vs : List F64) :
    (s.deliver d ks vs).seq = s.seq := rfl
@[simp] theorem State.deliver_port (s : State) (d : Nat) (ks : List Nat) (vs : List F64) :
    (s.deliver d ks vs).port = s.port := rfl
@[simp] theorem State.deliver_rdata (s : State) (d : Nat) (ks : List Nat) (vs : List F64) :
    (s.deliver d ks vs).rdata = s.rdata := rfl
@[simp] theorem State.deliver_opResult (s : State) (d : Nat) (ks : List Nat) (vs : List F64) :
    (s.deliver d ks vs).opResult = s.opResult := rfl
@[simp] theorem State.deliver_fresh (s : State) (d : Nat) (ks : List Nat) (vs : List F64) :
    (s.deliver d ks vs).fresh = s.fresh := rfl

/-! ### `fillBand` -/

@[simp] theorem State.fillBand_cfg (s : State) (n : Nat) (nd : F64) : (s.fillBand n nd).cfg = s.cfg := rfl
@[simp] theorem State.fillBand_inMem (s : State) (n : Nat) (nd : F64) : (s.fillBand n nd).inMem = s.inMem := rfl
@[simp] theorem State.fillBand_busy (s : State) (n : Nat) (nd : F64) : (s.fillBand n nd).busy = s.busy := rfl
@[simp] theorem State.fillBand_done (s : State) (n : Nat) (nd : F64) : (s.fillBand n nd).done = s.done := rfl
@[simp] theorem State.fillBand_err (s : State) (n : Nat) (nd : F64) : (s.fillBand n nd).err = s.err := rfl
@[simp] theorem State.fillBand_errCode (s : State) (n : Nat) (nd : F64) : (s.fillBand n nd).errCode = s.errCode := rfl
@[simp] theorem State.fillBand_errInfo (s : State) (n : Nat) (nd : F64) : (s.fillBand n nd).errInfo = s.errInfo := rfl
@[simp] theorem State.fillBand_inLen (s : State) (n : Nat) (nd : F64) : (s.fillBand n nd).inLen = s.inLen := rfl
@[simp] theorem State.fillBand_optOffset (s : State) (n : Nat) (nd : F64) :
    (s.fillBand n nd).optOffset = s.optOffset := rfl
@[simp] theorem State.fillBand_optFlags (s : State) (n : Nat) (nd : F64) :
    (s.fillBand n nd).optFlags = s.optFlags := rfl
@[simp] theorem State.fillBand_optPixelType (s : State) (n : Nat) (nd : F64) :
    (s.fillBand n nd).optPixelType = s.optPixelType := rfl
@[simp] theorem State.fillBand_optNoData (s : State) (n : Nat) (nd : F64) :
    (s.fillBand n nd).optNoData = s.optNoData := rfl
@[simp] theorem State.fillBand_res (s : State) (n : Nat) (nd : F64) : (s.fillBand n nd).res = s.res := rfl
@[simp] theorem State.fillBand_cur (s : State) (n : Nat) (nd : F64) : (s.fillBand n nd).cur = s.cur := rfl
@[simp] theorem State.fillBand_bs (s : State) (n : Nat) (nd : F64) : (s.fillBand n nd).bs = s.bs := rfl
@[simp] theorem State.fillBand_hb (s : State) (n : Nat) (nd : F64) : (s.fillBand n nd).hb = s.hb := rfl
@[simp] theorem State.fillBand_h (s : State) (n : Nat) (nd : F64) : (s.fillBand n nd).h = s.h := rfl
@[simp] theorem State.fillBand_dimMin (s : State) (n : Nat) (nd : F64) : (s.fillBand n nd).dimMin = s.dimMin := rfl
@[simp] theorem State.fillBand_dimMax (s : State) (n : Nat) (nd : F64) : (s.fillBand n nd).dimMax = s.dimMax := rfl
@[simp] theorem State.fillBand_t (s : State) (n : Nat) (nd : F64) : (s.fillBand n nd).t = s.t := rfl
@[simp] theorem State.fillBand_lut (s : State) (n : Nat) (nd : F64) : (s.fillBand n nd).lut = s.lut := rfl
@[simp] theorem State.fillBand_codes (s : State) (n : Nat) (nd : F64) : (s.fillBand n nd).codes = s.codes := rfl
@[simp] theorem State.fillBand_huf (s : State) (n : Nat) (nd : F64) : (s.fillBand n nd).huf = s.huf := rfl
@[simp] theorem State.fillBand_hlen (s : State) (n : Nat) (nd : F64) : (s.fillBand n nd).hlen = s.hlen := rfl
@[simp] theorem State.fillBand_hcode (s : State) (n : Nat) (nd : F64) : (s.fillBand n nd).hcode = s.hcode := rfl
@[simp] theorem State.fillBand_qt (s : State) (n : Nat) (nd : F64) : (s.fillBand n nd).qt = s.qt := rfl
@[simp] theorem State.fillBand_trie (s : State) (n : Nat) (nd : F64) : (s.fillBand n nd).trie = s.trie := rfl
@[simp] theorem State.fillBand_fSum1 (s : State) (n : Nat) (nd : F64) : (s.fillBand n nd).fSum1 = s.fSum1 := rfl
@[simp] theorem State.fillBand_fSum2 (s : State) (n : Nat) (nd : F64) : (s.fillBand n nd).fSum2 = s.fSum2 := rfl
@[simp] theorem State.fillBand_rlIp (s : State) (n : Nat) (nd : F64) : (s.fillBand n nd).rlIp = s.rlIp := rfl
@[simp] theorem State.fillBand_rlOp (s : State) (n : Nat) (nd : F64) : (s.fillBand n nd).rlOp = s.rlOp := rfl
@[simp] theorem State.fillBand_rlRun (s : State) (n : Nat) (nd : F64) : (s.fillBand n nd).rlRun = s.rlRun := rfl
@[simp] theorem State.fillBand_hpPrev (s : State) (n : Nat) (nd : F64) : (s.fillBand n nd).hpPrev = s.hpPrev := rfl
@[simp] theorem State.fillBand_m (s : State) (n : Nat) (nd : F64) : (s.fillBand n nd).m = s.m := rfl
@[simp] theorem State.fillBand_bitset (s : State) (n : Nat) (nd : F64) : (s.fillBand n nd).bitset = s.bitset := rfl
@[simp] theorem State.fillBand_maskx (s : State) (n : Nat) (nd : F64) : (s.fillBand n nd).maskx = s.maskx := rfl
@[simp] theorem State.fillBand_cmask (s : State) (n : Nat) (nd : F64) : (s.fillBand n nd).cmask = s.cmask := rfl
@[simp] theorem State.fillBand_encmask (s : State) (n : Nat) (nd : F64) : (s.fillBand n nd).encmask = s.encmask := rfl
@[simp] theorem State.fillBand_bstat (s : State) (n : Nat) (nd : F64) : (s.fillBand n nd).bstat = s.bstat := rfl
@[simp] theorem State.fillBand_band (s : State) (n : Nat) (nd : F64) : (s.fillBand n nd).band = s.band := rfl
@[simp] theorem State.fillBand_pstart (s : State) (n : Nat) (nd : F64) : (s.fillBand n nd).pstart = s.pstart := rfl
@[simp] theorem State.fillBand_qstep (s : State) (n : Nat) (nd : F64) : (s.fillBand n nd).qstep = s.qstep := rfl
@[simp] theorem State.fillBand_val (s : State) (n : Nat) (nd : F64) : (s.fillBand n nd).val = s.val := rfl
@[simp] theorem State.fillBand_bare (s : State) (n : Nat) (nd : F64) : (s.fillBand n nd).bare = s.bare := rfl
@[simp] theorem State.fillBand_planeMode (s : State) (n : Nat) (nd : F64) :
    (s.fillBand n nd).planeMode = s.planeMode := rfl
@[simp] theorem State.fillBand_rlBase (s : State) (n : Nat) (nd : F64) : (s.fillBand n nd).rlBase = s.rlBase := rfl
@[simp] theorem State.fillBand_rlBytes (s : State) (n : Nat) (nd : F64) : (s.fillBand n nd).rlBytes = s.rlBytes := rfl
@[simp] theorem State.fillBand_czMin (s : State) (n : Nat) (nd : F64) : (s.fillBand n nd).czMin = s.czMin := rfl
@[simp] theorem State.fillBand_seq (s : State) (n : Nat) (nd : F64) : (s.fillBand n nd).seq = s.seq := rfl
@[simp] theorem State.fillBand_port (s : State) (n : Nat) (nd : F64) : (s.fillBand n nd).port = s.port := rfl
@[simp] theorem State.fillBand_rdata (s : State) (n : Nat) (nd : F64) : (s.fillBand n nd).rdata = s.rdata := rfl
@[simp] theorem State.fillBand_opResult (s : State) (n : Nat) (nd : F64) :
    (s.fillBand n nd).opResult = s.opResult := rfl
@[simp] theorem State.fillBand_fresh (s : State) (n : Nat) (nd : F64) : (s.fillBand n nd).fresh = s.fresh := rfl

/-! ### `takeFault` -/

@[simp] theorem State.takeFault_cfg (s : State) (code : ErrCode) (info : Nat) :
    (s.takeFault code info).cfg = s.cfg := rfl
@[simp] theorem State.takeFault_inMem (s : State) (code : ErrCode) (info : Nat) :
    (s.takeFault code info).inMem = s.inMem := rfl
@[simp] theorem State.takeFault_busy (s : State) (code : ErrCode) (info : Nat) :
    (s.takeFault code info).busy = false := rfl
@[simp] theorem State.takeFault_done (s : State) (code : ErrCode) (info : Nat) :
    (s.takeFault code info).done = s.done := rfl
@[simp] theorem State.takeFault_err (s : State) (code : ErrCode) (info : Nat) :
    (s.takeFault code info).err = true := rfl
@[simp] theorem State.takeFault_errCode (s : State) (code : ErrCode) (info : Nat) :
    (s.takeFault code info).errCode = code.number := rfl
@[simp] theorem State.takeFault_errInfo (s : State) (code : ErrCode) (info : Nat) :
    (s.takeFault code info).errInfo = BitVec.ofNat 32 info := rfl
@[simp] theorem State.takeFault_inLen (s : State) (code : ErrCode) (info : Nat) :
    (s.takeFault code info).inLen = s.inLen := rfl
@[simp] theorem State.takeFault_optOffset (s : State) (code : ErrCode) (info : Nat) :
    (s.takeFault code info).optOffset = s.optOffset := rfl
@[simp] theorem State.takeFault_optFlags (s : State) (code : ErrCode) (info : Nat) :
    (s.takeFault code info).optFlags = s.optFlags := rfl
@[simp] theorem State.takeFault_optPixelType (s : State) (code : ErrCode) (info : Nat) :
    (s.takeFault code info).optPixelType = s.optPixelType := rfl
@[simp] theorem State.takeFault_optNoData (s : State) (code : ErrCode) (info : Nat) :
    (s.takeFault code info).optNoData = s.optNoData := rfl
@[simp] theorem State.takeFault_res (s : State) (code : ErrCode) (info : Nat) :
    (s.takeFault code info).res = freeResults s.fresh := rfl
@[simp] theorem State.takeFault_cur (s : State) (code : ErrCode) (info : Nat) :
    (s.takeFault code info).cur = s.cur := rfl
@[simp] theorem State.takeFault_bs (s : State) (code : ErrCode) (info : Nat) : (s.takeFault code info).bs = s.bs := rfl
@[simp] theorem State.takeFault_hb (s : State) (code : ErrCode) (info : Nat) : (s.takeFault code info).hb = s.hb := rfl
@[simp] theorem State.takeFault_h (s : State) (code : ErrCode) (info : Nat) : (s.takeFault code info).h = s.h := rfl
@[simp] theorem State.takeFault_dimMin (s : State) (code : ErrCode) (info : Nat) :
    (s.takeFault code info).dimMin = s.dimMin := rfl
@[simp] theorem State.takeFault_dimMax (s : State) (code : ErrCode) (info : Nat) :
    (s.takeFault code info).dimMax = s.dimMax := rfl
@[simp] theorem State.takeFault_t (s : State) (code : ErrCode) (info : Nat) : (s.takeFault code info).t = s.t := rfl
@[simp] theorem State.takeFault_lut (s : State) (code : ErrCode) (info : Nat) :
    (s.takeFault code info).lut = s.lut := rfl
@[simp] theorem State.takeFault_codes (s : State) (code : ErrCode) (info : Nat) :
    (s.takeFault code info).codes = s.codes := rfl
@[simp] theorem State.takeFault_huf (s : State) (code : ErrCode) (info : Nat) :
    (s.takeFault code info).huf = s.huf := rfl
@[simp] theorem State.takeFault_hlen (s : State) (code : ErrCode) (info : Nat) :
    (s.takeFault code info).hlen = s.hlen := rfl
@[simp] theorem State.takeFault_hcode (s : State) (code : ErrCode) (info : Nat) :
    (s.takeFault code info).hcode = s.hcode := rfl
@[simp] theorem State.takeFault_qt (s : State) (code : ErrCode) (info : Nat) : (s.takeFault code info).qt = s.qt := rfl
@[simp] theorem State.takeFault_trie (s : State) (code : ErrCode) (info : Nat) :
    (s.takeFault code info).trie = s.trie := rfl
@[simp] theorem State.takeFault_fSum1 (s : State) (code : ErrCode) (info : Nat) :
    (s.takeFault code info).fSum1 = s.fSum1 := rfl
@[simp] theorem State.takeFault_fSum2 (s : State) (code : ErrCode) (info : Nat) :
    (s.takeFault code info).fSum2 = s.fSum2 := rfl
@[simp] theorem State.takeFault_rlIp (s : State) (code : ErrCode) (info : Nat) :
    (s.takeFault code info).rlIp = s.rlIp := rfl
@[simp] theorem State.takeFault_rlOp (s : State) (code : ErrCode) (info : Nat) :
    (s.takeFault code info).rlOp = s.rlOp := rfl
@[simp] theorem State.takeFault_rlRun (s : State) (code : ErrCode) (info : Nat) :
    (s.takeFault code info).rlRun = s.rlRun := rfl
@[simp] theorem State.takeFault_hpPrev (s : State) (code : ErrCode) (info : Nat) :
    (s.takeFault code info).hpPrev = s.hpPrev := rfl
@[simp] theorem State.takeFault_m (s : State) (code : ErrCode) (info : Nat) : (s.takeFault code info).m = s.m := rfl
@[simp] theorem State.takeFault_bitset (s : State) (code : ErrCode) (info : Nat) :
    (s.takeFault code info).bitset = [] := rfl
@[simp] theorem State.takeFault_maskx (s : State) (code : ErrCode) (info : Nat) :
    (s.takeFault code info).maskx = [] := rfl
@[simp] theorem State.takeFault_cmask (s : State) (code : ErrCode) (info : Nat) :
    (s.takeFault code info).cmask = [] := rfl
@[simp] theorem State.takeFault_encmask (s : State) (code : ErrCode) (info : Nat) :
    (s.takeFault code info).encmask = [] := rfl
@[simp] theorem State.takeFault_pix (s : State) (code : ErrCode) (info : Nat) : (s.takeFault code info).pix = [] := rfl
@[simp] theorem State.takeFault_bstat (s : State) (code : ErrCode) (info : Nat) :
    (s.takeFault code info).bstat = [] := rfl
@[simp] theorem State.takeFault_band (s : State) (code : ErrCode) (info : Nat) :
    (s.takeFault code info).band = s.band := rfl
@[simp] theorem State.takeFault_pstart (s : State) (code : ErrCode) (info : Nat) :
    (s.takeFault code info).pstart = s.pstart := rfl
@[simp] theorem State.takeFault_qstep (s : State) (code : ErrCode) (info : Nat) :
    (s.takeFault code info).qstep = s.qstep := rfl
@[simp] theorem State.takeFault_val (s : State) (code : ErrCode) (info : Nat) :
    (s.takeFault code info).val = s.val := rfl
@[simp] theorem State.takeFault_bare (s : State) (code : ErrCode) (info : Nat) :
    (s.takeFault code info).bare = s.bare := rfl
@[simp] theorem State.takeFault_planeMode (s : State) (code : ErrCode) (info : Nat) :
    (s.takeFault code info).planeMode = s.planeMode := rfl
@[simp] theorem State.takeFault_rlBase (s : State) (code : ErrCode) (info : Nat) :
    (s.takeFault code info).rlBase = s.rlBase := rfl
@[simp] theorem State.takeFault_rlBytes (s : State) (code : ErrCode) (info : Nat) :
    (s.takeFault code info).rlBytes = s.rlBytes := rfl
@[simp] theorem State.takeFault_czMin (s : State) (code : ErrCode) (info : Nat) :
    (s.takeFault code info).czMin = s.czMin := rfl
@[simp] theorem State.takeFault_seq (s : State) (code : ErrCode) (info : Nat) :
    (s.takeFault code info).seq = .idle := rfl
@[simp] theorem State.takeFault_port (s : State) (code : ErrCode) (info : Nat) :
    (s.takeFault code info).port = s.port := rfl
@[simp] theorem State.takeFault_rdata (s : State) (code : ErrCode) (info : Nat) :
    (s.takeFault code info).rdata = s.rdata := rfl
@[simp] theorem State.takeFault_opResult (s : State) (code : ErrCode) (info : Nat) :
    (s.takeFault code info).opResult = s.opResult := rfl
@[simp] theorem State.takeFault_fresh (s : State) (code : ErrCode) (info : Nat) :
    (s.takeFault code info).fresh = s.fresh := rfl

/-! ### What does not depend on the updated fields -/

@[simp] theorem State.advance_np (s : State) (n : Nat) : (s.advance n).np = s.np := rfl
@[simp] theorem State.advance_tilePixels (s : State) (n : Nat) : (s.advance n).tilePixels = s.tilePixels := rfl
@[simp] theorem State.goto_np (s : State) (p : Phase) : (s.goto p).np = s.np := rfl
@[simp] theorem State.goto_tilePixels (s : State) (p : Phase) : (s.goto p).tilePixels = s.tilePixels := rfl
@[simp] theorem State.putPix_np (s : State) (cells : List (Nat × Elem)) : (s.putPix cells).np = s.np := rfl
@[simp] theorem State.putPix_tilePixels (s : State) (cells : List (Nat × Elem)) : (s.putPix cells).tilePixels = s.tilePixels := rfl
@[simp] theorem State.putStat_np (s : State) (st : BandStat) : (s.putStat st).np = s.np := rfl
@[simp] theorem State.putStat_tilePixels (s : State) (st : BandStat) : (s.putStat st).tilePixels = s.tilePixels := rfl
@[simp] theorem State.withCodes_np (s : State) (a : Nat) (r : List Nat × Nat × Nat) : (s.withCodes a r).np = s.np := rfl
@[simp] theorem State.withCodes_tilePixels (s : State) (a : Nat) (r : List Nat × Nat × Nat) : (s.withCodes a r).tilePixels = s.tilePixels := rfl
@[simp] theorem State.setHbPos_np (s : State) (pos : Nat) : (s.setHbPos pos).np = s.np := rfl
@[simp] theorem State.setHbPos_tilePixels (s : State) (pos : Nat) : (s.setHbPos pos).tilePixels = s.tilePixels := rfl
@[simp] theorem State.rlHead_np (s : State) (run : BitVec 16) : (s.rlHead run).np = s.np := rfl
@[simp] theorem State.rlHead_tilePixels (s : State) (run : BitVec 16) : (s.rlHead run).tilePixels = s.tilePixels := rfl
@[simp] theorem State.rlPut_np (s : State) (n : Nat) (bytes : List Byte) : (s.rlPut n bytes).np = s.np := rfl
@[simp] theorem State.rlPut_tilePixels (s : State) (n : Nat) (bytes : List Byte) : (s.rlPut n bytes).tilePixels = s.tilePixels := rfl
@[simp] theorem State.deliver_np (s : State) (d : Nat) (ks : List Nat) (vs : List F64) : (s.deliver d ks vs).np = s.np := rfl
@[simp] theorem State.deliver_tilePixels (s : State) (d : Nat) (ks : List Nat) (vs : List F64) : (s.deliver d ks vs).tilePixels = s.tilePixels := rfl
@[simp] theorem State.fillBand_np (s : State) (n : Nat) (nd : F64) : (s.fillBand n nd).np = s.np := rfl
@[simp] theorem State.fillBand_tilePixels (s : State) (n : Nat) (nd : F64) : (s.fillBand n nd).tilePixels = s.tilePixels := rfl
@[simp] theorem State.takeFault_np (s : State) (code : ErrCode) (info : Nat) : (s.takeFault code info).np = s.np := rfl
@[simp] theorem State.takeFault_tilePixels (s : State) (code : ErrCode) (info : Nat) : (s.takeFault code info).tilePixels = s.tilePixels := rfl

end Sys2Proof.Machine
end

