-- ==== Sys2Proof/Laws/Ops.lean ====
section
/-!
SUPPORT. What each shared operation of Machine/Ops.lean can do: when it completes and with what, when it takes a fault and
with which code and value, and that nothing else happens. `.error (.halt t)` is a taken fault, `.error (.stuck f)` a stop of
the model.
-/

namespace Sys2Proof.Machine

variable {α β : Type}

/-! ## Rules -/

/-- A rule of two parts completes exactly when both parts do. -/
theorem Rule.bind_ok {x : Rule α} {f : α → Rule β} {b : β} :
    (x >>= f) = .ok b ↔ ∃ a, x = .ok a ∧ f a = .ok b := by
  cases x <;> simp [bind, Except.bind]

/-- A rule of two parts ends early when its first part does, or its second does after the first completed. -/
theorem Rule.bind_error {x : Rule α} {f : α → Rule β} {e : Stop} :
    (x >>= f) = .error e ↔ x = .error e ∨ ∃ a, x = .ok a ∧ f a = .error e := by
  cases x <;> simp [bind, Except.bind]

@[simp] theorem Rule.ok_bind (a : α) (f : α → Rule β) : ((Except.ok a : Rule α) >>= f) = f a := rfl

@[simp] theorem Rule.error_bind (e : Stop) (f : α → Rule β) : ((Except.error e : Rule α) >>= f) = .error e := rfl

@[simp] theorem Rule.pure_eq_ok (a : α) : (pure a : Rule α) = .ok a := rfl

@[simp] theorem Rule.outcome_ok (s : State) : Rule.outcome (.ok s) = .next s := rfl

@[simp] theorem Rule.outcome_halt (s : State) : Rule.outcome (.error (.halt s)) = .next s := rfl

@[simp] theorem Rule.outcome_stuck (f : Fault) : Rule.outcome (.error (.stuck f)) = .fault f := rfl

/-- A next state is that of a rule that completed, or the one a fault left. -/
theorem Rule.outcome_eq_next {r : Rule State} {t : State} :
    r.outcome = .next t ↔ r = .ok t ∨ r = .error (.halt t) := by
  rcases r with (_ | _) | _ <;> simp [Rule.outcome]

/-- A rule is never refused. -/
theorem Rule.outcome_ne_refused (r : Rule State) (f : Refusal) : r.outcome ≠ .refused f := by
  rcases r with (_ | _) | _ <;> simp [Rule.outcome]

/-! ## Faults -/

/-- `raise` takes the fault and nothing else. -/
theorem raise_eq (s : State) (code : ErrCode) (info : Nat) :
    (raise s code info : Rule α) = .error (.halt (s.takeFault code info)) := rfl

/-- The outcome of a raised fault. -/
theorem faultedWith_raise (s : State) (code : ErrCode) (info : Nat) :
    faultedWith (Rule.outcome (raise s code info)) code info :=
  ⟨s.takeFault code info, rfl, rfl, rfl, rfl, rfl⟩

/-- A fault taken anywhere in a rule is the fault of its outcome. -/
theorem faultedWith_of_halt {r : Rule State} {u : State} {code : ErrCode} {info : Nat}
    (h : r = .error (.halt (u.takeFault code info))) : faultedWith r.outcome code info := by
  subst h; exact ⟨_, rfl, rfl, rfl, rfl, rfl⟩

@[simp] theorem raiseIf_false (s : State) (code : ErrCode) (info : Nat) : raiseIf s false code info = .ok () := rfl

@[simp] theorem raiseIf_true (s : State) (code : ErrCode) (info : Nat) :
    raiseIf s true code info = .error (.halt (s.takeFault code info)) := rfl

/-- A test passes exactly when it is false. -/
theorem raiseIf_eq_ok {s : State} {test : Bool} {code : ErrCode} {info : Nat} {u : Unit} :
    raiseIf s test code info = .ok u ↔ test = false := by
  cases test <;> simp

/-- A test ends the rule exactly when it is true, and by its fault. -/
theorem raiseIf_eq_error {s : State} {test : Bool} {code : ErrCode} {info : Nat} {e : Stop} :
    raiseIf s test code info = .error e ↔ test = true ∧ e = .halt (s.takeFault code info) := by
  cases test <;> simp [eq_comm]

@[simp] theorem written_some (mem : MemName) (index : Nat) (v : α) : written mem index (some v) = .ok v := rfl

@[simp] theorem written_none (mem : MemName) (index : Nat) :
    (written mem index none : Rule α) = .error (.stuck (.unwritten mem index)) := rfl

/-- An element is read exactly when it has been written. -/
theorem written_eq_ok {mem : MemName} {index : Nat} {o : Option α} {v : α} :
    written mem index o = .ok v ↔ o = some v := by
  cases o <;> simp

/-- Reading an element takes no fault. -/
theorem written_ne_halt {mem : MemName} {index : Nat} {o : Option α} {t : State} :
    written mem index o ≠ .error (.halt t) := by
  cases o <;> simp

/-! ## Reads of `IN` -/

/-- Bytes that are held are held in every part. -/
theorem State.holds_part {s : State} {a : Nat} {xs ys zs : List Byte} (h : s.holds a (xs ++ ys ++ zs)) :
    s.holds (a + xs.length) ys := by
  obtain ⟨hl, hb⟩ := h
  simp only [List.length_append] at hl hb
  refine ⟨by omega, fun j hj => ?_⟩
  have := hb (xs.length + j) (by omega)
  rw [List.append_assoc, List.getElem?_append_right (by omega), show xs.length + j - xs.length = j by omega,
    List.getElem?_append_left hj] at this
  rw [← this, Nat.add_assoc]

/-- `MemRead`'s bounds check passes exactly when the range ends at or below `IN_LEN`. -/
theorem memCheck_eq_ok {s : State} {a n : Nat} {u : Unit} : memCheck s a n = .ok u ↔ a + n ≤ s.inLen.toNat := by
  unfold memCheck; split <;> simp_all [raise]

/-- It fails by `E_TRUNC` at the range's first byte. -/
theorem memCheck_eq_error {s : State} {a n : Nat} {e : Stop} :
    memCheck s a n = .error e ↔ s.inLen.toNat < a + n ∧ e = .halt (s.takeFault .trunc a) := by
  unfold memCheck; split <;> simp_all [raise, eq_comm]

theorem inByte_eq_ok {s : State} {a : Nat} {x : Byte} : inByte s a = .ok x ↔ Memory.read s.inMem a = some x :=
  written_eq_ok

theorem inBytes_eq_ok {s : State} {a n : Nat} {bytes : List Byte} :
    inBytes s a n = .ok bytes ↔ bytes.length = n ∧ ∀ j < bytes.length, Memory.read s.inMem (a + j) = bytes[j]? := by
  induction n generalizing a bytes with
  | zero =>
    constructor
    · intro h; cases h; simp
    · rintro ⟨h, -⟩; rw [List.length_eq_zero_iff.1 h]; rfl
  | succ n ih =>
    simp only [inBytes, Rule.bind_ok, inByte_eq_ok, ih, Rule.pure_eq_ok, Except.ok.injEq]
    constructor
    · rintro ⟨x, hx, xs, ⟨rfl, hxs⟩, rfl⟩
      refine ⟨rfl, fun j hj => ?_⟩
      cases j with
      | zero => simpa using hx
      | succ j =>
        have := hxs j (by simpa using hj)
        rw [List.getElem?_cons_succ, ← this]; congr 1; omega
    · rintro ⟨hl, hb⟩
      cases bytes with
      | nil => simp at hl
      | cons x xs =>
        refine ⟨x, by simpa using hb 0 (by simp), xs, ⟨by simpa using hl, fun j hj => ?_⟩, rfl⟩
        have := hb (j + 1) (by simpa using hj)
        rw [List.getElem?_cons_succ] at this
        rw [← this]; congr 1; omega

theorem inBytes_ne_halt {s : State} {a n : Nat} {t : State} : inBytes s a n ≠ .error (.halt t) := by
  induction n generalizing a with
  | zero => simp [inBytes]
  | succ n ih => simp [inBytes, inByte, Rule.bind_error, written_ne_halt, ih]

/-- `MemRead` gives the bytes the buffer holds there. -/
theorem memRead_eq_ok {s : State} {a n : Nat} {bytes : List Byte} :
    memRead s a n = .ok bytes ↔ bytes.length = n ∧ s.holds a bytes := by
  simp only [memRead, Rule.bind_ok, memCheck_eq_ok, inBytes_eq_ok]
  constructor
  · rintro ⟨-, h, rfl, hb⟩; exact ⟨rfl, h, hb⟩
  · rintro ⟨rfl, h, hb⟩; exact ⟨(), h, rfl, hb⟩

/-- Its only fault is `E_TRUNC` at the range's first byte (R44). -/
theorem memRead_eq_halt {s t : State} {a n : Nat} :
    memRead s a n = .error (.halt t) ↔ s.inLen.toNat < a + n ∧ t = s.takeFault .trunc a := by
  simp [memRead, Rule.bind_error, memCheck_eq_error, inBytes_ne_halt]

/-- Bytes the buffer holds are read. -/
theorem memRead_of_holds {s : State} {a : Nat} {bytes : List Byte} (h : s.holds a bytes) :
    memRead s a bytes.length = .ok bytes :=
  memRead_eq_ok.2 ⟨rfl, h⟩

theorem readLe_eq_ok {s : State} {a n v : Nat} :
    readLe s a n = .ok v ↔ ∃ bytes : List Byte, bytes.length = n ∧ s.holds a bytes ∧ v = leNat bytes := by
  simp only [readLe, Rule.bind_ok, memRead_eq_ok, Rule.pure_eq_ok, Except.ok.injEq]
  constructor
  · rintro ⟨bytes, ⟨hl, hh⟩, rfl⟩; exact ⟨bytes, hl, hh, rfl⟩
  · rintro ⟨bytes, hl, hh, rfl⟩; exact ⟨bytes, ⟨hl, hh⟩, rfl⟩

theorem readLe_eq_halt {s t : State} {a n : Nat} :
    readLe s a n = .error (.halt t) ↔ s.inLen.toNat < a + n ∧ t = s.takeFault .trunc a := by
  simp [readLe, Rule.bind_error, memRead_eq_halt]

/-- Element 0 of a run of one element. -/
theorem elemAt_zero (ty : EType) (bytes : List Byte) (h : bytes.length = esize ty) :
    elemAt ty bytes 0 = { ty := ty, bits := BitVec.ofNat 64 (leNat bytes) } := by
  simp [elemAt, ← h]

/-- `elem_T(a)` is the element the bytes there hold. -/
theorem readElem_eq_ok {s : State} {ty : EType} {a : Nat} {e : Elem} :
    readElem s ty a = .ok e ↔ ∃ bytes : List Byte, bytes.length = esize ty ∧ s.holds a bytes ∧ e = elemAt ty bytes 0 := by
  simp only [readElem, Rule.bind_ok, readLe_eq_ok, Rule.pure_eq_ok, Except.ok.injEq]
  constructor
  · rintro ⟨v, ⟨bytes, hl, hh, rfl⟩, rfl⟩; exact ⟨bytes, hl, hh, (elemAt_zero ty bytes hl).symm⟩
  · rintro ⟨bytes, hl, hh, rfl⟩; exact ⟨_, ⟨bytes, hl, hh, rfl⟩, (elemAt_zero ty bytes hl).symm⟩

theorem readElem_eq_halt {s t : State} {ty : EType} {a : Nat} :
    readElem s ty a = .error (.halt t) ↔ s.inLen.toNat < a + esize ty ∧ t = s.takeFault .trunc a := by
  simp [readElem, Rule.bind_error, readLe_eq_halt]

/-- Dropping the first element of a run shifts the numbering. -/
theorem elemAt_append (ty : EType) (xs ys : List Byte) (h : xs.length = esize ty) (z : Nat) :
    elemAt ty (xs ++ ys) (z + 1) = elemAt ty ys z := by
  simp only [elemAt, Nat.add_one_mul]
  rw [Nat.add_comm (z * esize ty), ← h, List.drop_length_add_append]

theorem elemAt_append_zero (ty : EType) (xs ys : List Byte) (h : xs.length = esize ty) :
    elemAt ty (xs ++ ys) 0 = elemAt ty xs 0 := by
  simp [elemAt, ← h]

/-- `n` consecutive elements are those the bytes there hold. -/
theorem readElems_eq_ok {s : State} {ty : EType} {a n : Nat} {es : List Elem} (hn : n = 0 → a ≤ s.inLen.toNat) :
    readElems s ty a n = .ok es ↔
      ∃ bytes : List Byte, bytes.length = n * esize ty ∧ s.holds a bytes ∧ es = (List.range n).map (elemAt ty bytes) := by
  induction n generalizing a es with
  | zero =>
    have := hn rfl
    constructor
    · intro h; cases h; exact ⟨[], by simp, ⟨by simpa using this, by simp⟩, rfl⟩
    · rintro ⟨_, -, -, rfl⟩; rfl
  | succ n ih =>
    simp only [readElems, Rule.bind_ok, readElem_eq_ok, Rule.pure_eq_ok, Except.ok.injEq]
    constructor
    · rintro ⟨e, ⟨xs, hx, hxs, rfl⟩, es, hes, rfl⟩
      rw [ih (fun _ => by rw [← hx]; exact hxs.1)] at hes
      obtain ⟨ys, hy, hys, rfl⟩ := hes
      refine ⟨xs ++ ys, by simp [hx, hy, Nat.add_one_mul, Nat.add_comm], ⟨?_, fun j hj => ?_⟩, ?_⟩
      · have := hys.1; simp only [List.length_append]; omega
      · rw [List.length_append] at hj
        rcases Nat.lt_or_ge j xs.length with h | h
        · rw [List.getElem?_append_left h]; exact hxs.2 j h
        · rw [List.getElem?_append_right h, ← hys.2 (j - xs.length) (by omega)]; congr 1; omega
      · simp [List.range_succ_eq_map, elemAt_append_zero ty xs ys hx, elemAt_append ty xs ys hx]
    · rintro ⟨bytes, hl, hh, rfl⟩
      rw [Nat.add_one_mul] at hl
      have hsplit : bytes.take (esize ty) ++ bytes.drop (esize ty) = bytes := List.take_append_drop _ _
      have ht : (bytes.take (esize ty)).length = esize ty := by rw [List.length_take]; omega
      have hd : (bytes.drop (esize ty)).length = n * esize ty := by rw [List.length_drop]; omega
      have hh1 : s.holds a (bytes.take (esize ty)) := by
        have := State.holds_part (s := s) (a := a) (xs := []) (ys := bytes.take (esize ty)) (zs := bytes.drop (esize ty))
          (by simpa using hh)
        simpa using this
      have hh2 : s.holds (a + esize ty) (bytes.drop (esize ty)) := by
        have := State.holds_part (s := s) (a := a) (xs := bytes.take (esize ty)) (ys := bytes.drop (esize ty)) (zs := [])
          (by simpa using hh)
        rwa [ht] at this
      refine ⟨_, ⟨bytes.take (esize ty), ht, hh1, rfl⟩, _, (ih (fun _ => by have := hh2.1; omega)).2 ⟨_, hd, hh2, rfl⟩, ?_⟩
      rw [List.range_succ_eq_map, List.map_cons, List.map_map]
      congr 1
      · rw [← elemAt_append_zero ty _ (bytes.drop (esize ty)) ht, hsplit]
      · apply List.map_congr_left
        intro z _
        rw [Function.comp, ← elemAt_append ty _ (bytes.drop (esize ty)) ht, hsplit]

/-- Its only faults are `E_TRUNC`. -/
theorem readElems_eq_halt {s t : State} {ty : EType} {a n : Nat} (h : readElems s ty a n = .error (.halt t)) :
    ∃ b, s.inLen.toNat < b + esize ty ∧ b < a + n * esize ty + 1 ∧ t = s.takeFault .trunc b := by
  induction n generalizing a with
  | zero => simp [readElems] at h
  | succ n ih =>
    simp only [readElems, Rule.bind_error, readElem_eq_halt, Rule.pure_eq_ok, reduceCtorEq, and_false, exists_false,
      or_false] at h
    rcases h with ⟨h, rfl⟩ | ⟨e, -, h⟩
    · exact ⟨a, h, by omega, rfl⟩
    · obtain ⟨b, hb, hb', rfl⟩ := ih h
      exact ⟨b, hb, by rw [Nat.add_one_mul]; omega, rfl⟩

/-- A run whose value `z` is the first to pass the end of the buffer is `E_TRUNC` at that value. -/
theorem readElems_cut {s : State} {ty : EType} {n z a : Nat} {bytes : List Byte} (hz : z < n)
    (hl : bytes.length = z * esize ty) (hh : s.holds a bytes) (hlt : s.inLen.toNat < a + (z + 1) * esize ty) :
    readElems s ty a n = .error (.halt (s.takeFault .trunc (a + z * esize ty))) := by
  induction n generalizing z a bytes with
  | zero => omega
  | succ n ih =>
    rw [readElems, Rule.bind_error]
    cases z with
    | zero => exact .inl (readElem_eq_halt.2 ⟨by omega, by simp⟩)
    | succ z =>
      rw [Nat.add_one_mul] at hl hlt
      have hs : bytes = bytes.take (esize ty) ++ bytes.drop (esize ty) := by simp
      have hle : (bytes.take (esize ty)).length = esize ty := by rw [List.length_take]; omega
      rw [hs] at hh
      have h1 := State.holds_part (xs := []) (ys := bytes.take (esize ty)) (zs := bytes.drop (esize ty)) hh
      have h2 := State.holds_part (zs := []) (by rw [List.append_nil]; exact hh)
      rw [hle] at h2
      refine .inr ⟨_, readElem_eq_ok.2 ⟨_, hle, by simpa using h1, rfl⟩, Rule.bind_error.2 (.inl ?_)⟩
      rw [ih (z := z) (by omega) (by rw [List.length_drop]; omega) h2 (by omega), Nat.add_one_mul, Nat.add_assoc,
        Nat.add_comm (esize ty)]

/-! ## Validity -/

/-- `valid(k)` is read where the mask is ready, and is `isValid`. -/
theorem State.valid_eq_ok {s : State} {k : Nat} {v : Bool} :
    s.valid k = .ok v ↔ (s.m.present = true → (Memory.read s.maskx k).isSome = true) ∧ v = s.isValid k := by
  unfold State.valid State.isValid
  constructor
  · cases hp : s.m.present <;> cases hr : Memory.read s.maskx k <;> intro h <;> cases h <;> simp
  · rintro ⟨h, rfl⟩
    cases hp : s.m.present with
    | false => rfl
    | true =>
      obtain ⟨x, hx⟩ := Option.isSome_iff_exists.1 (h hp)
      simp [hx]

theorem State.valid_ne_halt {s t : State} {k : Nat} : s.valid k ≠ .error (.halt t) := by
  unfold State.valid
  split <;> simp [Rule.bind_error, written_ne_halt]

/-- The valid ones among some pixels are read where the mask is ready. -/
theorem State.validOf_eq_ok {s : State} {ks l : List Nat} :
    s.validOf ks = .ok l ↔ s.maskReady ks ∧ l = s.validAmong ks := by
  induction ks generalizing l with
  | nil =>
    constructor
    · intro h; cases h; exact ⟨fun _ _ hk => absurd hk List.not_mem_nil, rfl⟩
    · rintro ⟨-, rfl⟩; rfl
  | cons k ks ih =>
    simp only [State.validOf, Rule.bind_ok, State.valid_eq_ok, ih, Rule.pure_eq_ok, Except.ok.injEq]
    constructor
    · rintro ⟨v, ⟨hk, rfl⟩, rest, ⟨hks, rfl⟩, rfl⟩
      refine ⟨fun hp k' hk' => ?_, ?_⟩
      · rcases List.mem_cons.1 hk' with rfl | hk'
        · exact hk hp
        · exact hks hp k' hk'
      · simp only [State.validAmong, List.filter_cons]
    · rintro ⟨h, rfl⟩
      refine ⟨_, ⟨fun hp => h hp k (by simp), rfl⟩, _, ⟨fun hp k' hk' => h hp k' (by simp [hk']), rfl⟩, ?_⟩
      simp only [State.validAmong, List.filter_cons]

theorem State.validOf_ne_halt {s t : State} {ks : List Nat} : s.validOf ks ≠ .error (.halt t) := by
  induction ks with
  | nil => simp [State.validOf]
  | cons k ks ih => simp [State.validOf, Rule.bind_error, State.valid_ne_halt, ih]

theorem State.validOf_of_ready {s : State} {ks : List Nat} (h : s.maskReady ks) : s.validOf ks = .ok (s.validAmong ks) :=
  State.validOf_eq_ok.2 ⟨h, rfl⟩

/-- The valid pixels of the tile, where its mask is ready. -/
theorem State.tileValid_of_ready {s : State} (h : s.maskReady s.tilePixels) :
    s.tileValid = .ok (s.validAmong s.tilePixels) :=
  State.validOf_of_ready h

theorem State.nvalid_eq_ok {s : State} {n : Nat} :
    s.nvalid = .ok n ↔ s.maskReady s.pixels ∧ n = (s.validAmong s.pixels).length := by
  simp only [State.nvalid, Rule.bind_ok, State.validOf_eq_ok, Rule.pure_eq_ok, Except.ok.injEq, State.pixels]
  constructor
  · rintro ⟨_, ⟨h, rfl⟩, rfl⟩; exact ⟨h, rfl⟩
  · rintro ⟨h, rfl⟩; exact ⟨_, ⟨h, rfl⟩, rfl⟩

theorem State.nvalid_ne_halt {s t : State} : s.nvalid ≠ .error (.halt t) := by
  simp [State.nvalid, Rule.bind_error, State.validOf_ne_halt]

/-! ## The pixel memory -/

theorem State.readPix_eq_ok {s : State} {b i : Nat} {e : Elem} :
    s.readPix b i = .ok e ↔ Memory.read s.pix (pixKey b i) = some e := written_eq_ok

theorem State.readPix_ne_halt {s t : State} {b i : Nat} : s.readPix b i ≠ .error (.halt t) := written_ne_halt

/-- Keys of one band differ where the indices do. -/
theorem pixKey_inj {b i j : Nat} : pixKey b i = pixKey b j ↔ i = j := by simp [pixKey]

/-- Keys of different bands differ below 2^32. -/
theorem pixKey_inj_band {b c i j : Nat} (hi : i < 4294967296) (hj : j < 4294967296) :
    pixKey b i = pixKey c j ↔ b = c ∧ i = j := by
  unfold pixKey; omega

/-- A stored cell holds a `store_T` of its value. -/
theorem State.pixCell_storesAs (s : State) (ty : EType) (b i : Nat) (v : F64) :
    (s.pixCell ty b i v).1 = pixKey b i ∧ storesAs ty v (s.pixCell ty b i v).2 := ⟨rfl, _, rfl⟩

/-! ## Free values -/

/-- The free NaNs are NaNs. -/
theorem f64FreeNaN_isNaN (bits : BitVec 64) : f64IsNaN (f64FreeNaN bits) = true := by
  unfold f64FreeNaN f64WithSign f64IsNaN f64Exp f64Frac f64InfBits
  have hlt : bits.toNat % 4503599627370496 < 4503599627370496 := Nat.mod_lt _ (by decide)
  generalize bits.toNat % 4503599627370496 = frac at hlt
  obtain ⟨f, hf, hf0⟩ : ∃ f, (if frac = 0 then 1 else frac) = f ∧ 0 < f ∧ f < 4503599627370496 := by
    by_cases h : frac = 0
    · exact ⟨1, by simp [h], by decide, by decide⟩
    · exact ⟨frac, by simp [h], by omega, hlt⟩
  simp only [hf]
  cases bits.msb <;> simp <;> omega

theorem State.freeNaN_isNaN (s : State) (site : FreeSite) (i : Nat) : f64IsNaN (s.freeNaN site i) = true :=
  f64FreeNaN_isNaN _

/-- An element's value is read as the spec says. -/
theorem State.elemReal_readsAs (s : State) (i : Nat) (e : Elem) : readsAs e (s.elemReal i e) :=
  ⟨_, s.freeNaN_isNaN _ _, rfl⟩

@[simp] theorem State.elemReals_length (s : State) (base : Nat) (es : List Elem) :
    (s.elemReals base es).length = es.length := by simp [State.elemReals]

theorem State.elemReals_getElem (s : State) (base : Nat) (es : List Elem) (z : Nat) :
    (s.elemReals base es)[z]? = es[z]?.map fun e => s.elemReal (base + z) e := by
  simp only [State.elemReals, List.getElem?_map, List.getElem?_zipIdx, Option.map_map]
  cases es[z]? <;> simp

/-! ## Rounding up -/

theorem ceilDiv_mul_ge (a : Nat) {b : Nat} (hb : 0 < b) : a ≤ ceilDiv a b * b := by
  unfold ceilDiv
  have h1 := Nat.div_add_mod (a + b - 1) b
  have h2 := Nat.mod_lt (a + b - 1) hb
  rw [Nat.mul_comm] at h1
  omega

/-- An index below the number of tiles begins inside. -/
theorem lt_of_lt_ceilDiv {a b i : Nat} (hb : 0 < b) (h : i < ceilDiv a b) : i * b < a := by
  unfold ceilDiv at h
  have h1 := (Nat.le_div_iff_mul_le hb).1 h
  rw [Nat.add_one_mul] at h1
  omega

end Sys2Proof.Machine
end

