-- ==== Sys2Proof/Laws/Operands.lean ====
section
/-!
SUPPORT. What the shared operations of Machine/Operands.lean and the tile header can do: the clamp bound, the origin field,
the cross-band sum, the delivery of values to pixels.
-/

namespace Sys2Proof.Machine

/-! ## The pixels of a tile -/

/-- Where the tile lies inside the image's columns its pixels are distinct. -/
theorem State.tilePixels_nodup {s : State} (h : s.tileInside) : s.tilePixels.Nodup := by
  unfold State.tilePixels
  rw [List.nodup_flatMap]
  refine ⟨fun y _ => ?_, ?_⟩
  · refine List.Nodup.map (fun x x' e => ?_) List.nodup_range
    omega
  · refine (List.pairwise_iff_forall_sublist.2 fun {y y'} hs => ?_)
    have hne : y ≠ y' := fun e => by
      subst e
      have := (List.nodup_range (n := s.t.height.toNat)).sublist hs
      simp at this
    rw [Function.onFun, List.disjoint_left]
    simp only [List.mem_map, List.mem_range, not_exists, not_and, forall_exists_index, and_imp]
    intro k x hx e x' hx' e'
    apply hne
    have hw : s.t.x0.toNat + s.t.width.toNat ≤ s.h.width.toNat := h
    have h1 : (s.t.y0.toNat + y) * s.h.width.toNat + (s.t.x0.toNat + x)
        = (s.t.y0.toNat + y') * s.h.width.toNat + (s.t.x0.toNat + x') := by omega
    have h2 := congrArg (· / s.h.width.toNat) h1
    have hpos : 0 < s.h.width.toNat := by omega
    rw [Nat.mul_comm, Nat.mul_add_div hpos, Nat.mul_comm (s.t.y0.toNat + y'), Nat.mul_add_div hpos,
      Nat.div_eq_of_lt (show s.t.x0.toNat + x < s.h.width.toNat by omega),
      Nat.div_eq_of_lt (show s.t.x0.toNat + x' < s.h.width.toNat by omega)] at h2
    omega

/-- So are the valid ones among them. -/
theorem State.validAmong_nodup {s : State} {ks : List Nat} (h : ks.Nodup) : (s.validAmong ks).Nodup := h.filter _

theorem State.pixels_nodup (s : State) : s.pixels.Nodup := List.nodup_range

/-! ## The clamp bound (R241) -/

theorem State.zmax_eq_ok {s : State} {d : Nat} {v : F64} : s.zmax d = .ok v ↔ s.zmaxReady d ∧ v = s.zmaxOf d := by
  unfold State.zmax State.zmaxReady State.zmaxOf
  by_cases hv : 4 ≤ s.h.version.toInt
  · simp only [hv, if_true, forall_const, written_eq_ok]
    cases hr : Memory.read s.dimMax d with
    | none => simp
    | some x => simp only [Option.some.injEq, Option.isSome_some, Option.getD_some, true_and]; exact eq_comm
  · simp only [hv, if_false, false_imp_iff, true_and, Except.ok.injEq]; exact eq_comm

theorem State.zmax_ne_halt {s t : State} {d : Nat} : s.zmax d ≠ .error (.halt t) := by
  unfold State.zmax; split
  · exact written_ne_halt
  · simp

theorem State.zmax_of_ready {s : State} {d : Nat} (h : s.zmaxReady d) : s.zmax d = .ok (s.zmaxOf d) :=
  State.zmax_eq_ok.2 ⟨h, rfl⟩

/-! ## The tile header (R238 to R240) -/

/-- The positional tag's test is the one on numbers. -/
theorem State.tagMismatch_eq_false {s : State} {tag : BitVec 4} : s.tagMismatch tag = false ↔ s.tagFits tag := by
  have h4 : s.tag4.toNat = s.t.x0.toNat / 8 % 16 := by
    simp [State.tag4, BitVec.extractLsb'_toNat, Nat.shiftRight_eq_div_pow]
  unfold State.tagMismatch State.tagFits
  split
  · simp only [bne_eq_false_iff_eq, ← h4, BitVec.toNat_inj]
  · simp only [bne_eq_false_iff_eq, ← h4, ← BitVec.toNat_inj, BitVec.extractLsb'_toNat,
      Nat.shiftRight_eq_div_pow, Nat.pow_one]
    have := tag.isLt; have := s.tag4.isLt
    omega

theorem tileHead_eq_ok {s t : State} {mode otype : BitVec 2} {tag : BitVec 4} :
    tileHead s mode otype tag = .ok t ↔ s.tagFits tag ∧ (s.flagOf tag = true → s.t.dim ≠ 0 ∧ mode ≠ 0)
      ∧ t = { s with cur := s.cur + 1, t := { s.t with xband := s.flagOf tag, mode := mode, otype := otype, cnt := 0 } } := by
  simp only [tileHead, Rule.bind_ok, raiseIf_eq_ok, State.tagMismatch_eq_false, Rule.pure_eq_ok, Except.ok.injEq,
    exists_and_left, exists_const]
  refine and_congr_right fun _ => ?_
  rw [show (decide (4 < s.h.version.toInt) && tag.getLsbD 0) = s.flagOf tag from rfl]
  cases s.flagOf tag <;> simp [eq_comm (a := t), State.advance]

/-- Its only fault is `E_INTEGRITY` at the header byte. -/
theorem tileHead_eq_halt {s t : State} {mode otype : BitVec 2} {tag : BitVec 4}
    (h : tileHead s mode otype tag = .error (.halt t)) :
    ∃ u : State, u = { s with t := { s.t with xband := u.t.xband } } ∧ t = u.takeFault .integrity s.cur.toNat := by
  simp only [tileHead, Rule.bind_error, raiseIf_eq_error, Rule.pure_eq_ok, reduceCtorEq, and_false, exists_false,
    or_false, Stop.halt.injEq] at h
  rcases h with ⟨-, rfl⟩ | ⟨_, -, -, rfl⟩
  · exact ⟨s, rfl, rfl⟩
  · exact ⟨_, rfl, rfl⟩

/-! ## The origin field (R242) -/

theorem originField_eq_ok {s t : State} (h : originField s = .ok t) :
    ∃ ot bytes offset, s.originType s.t.otype = some ot ∧ bytes.length = esize ot ∧ s.holds s.cur.toNat bytes
      ∧ readsAs (elemAt ot bytes 0) offset
      ∧ t = { s with cur := s.cur + BitVec.ofNat 32 (esize ot), t := { s.t with offset := offset } } := by
  unfold originField at h
  split at h
  · cases h
  · next ot hot =>
    obtain ⟨e, he, ht⟩ := Rule.bind_ok.1 h
    obtain ⟨bytes, hl, hh, rfl⟩ := readElem_eq_ok.1 he
    cases ht
    exact ⟨ot, bytes, _, hot, hl, hh, ⟨_, s.freeNaN_isNaN _ _, rfl⟩, rfl⟩

theorem originField_of_holds {s : State} {ot : EType} {bytes : List Byte} (hot : s.originType s.t.otype = some ot)
    (hl : bytes.length = esize ot) (hh : s.holds s.cur.toNat bytes) :
    ∃ offset, readsAs (elemAt ot bytes 0) offset ∧ originField s
      = .ok { s with cur := s.cur + BitVec.ofNat 32 (esize ot), t := { s.t with offset := offset } } := by
  refine ⟨_, ⟨s.freeNaN .origin 0, s.freeNaN_isNaN _ _, rfl⟩, ?_⟩
  unfold originField
  rw [hot]
  simp only [readElem_eq_ok.2 ⟨bytes, hl, hh, rfl⟩, Rule.ok_bind]
  rfl

/-- Its faults: a selector without a type at the byte before `CUR`, and `E_TRUNC` at `CUR`. -/
theorem originField_eq_halt {s t : State} (h : originField s = .error (.halt t)) :
    (s.originType s.t.otype = none ∧ t = s.takeFault .typeTag (s.cur - 1).toNat) ∨ t = s.takeFault .trunc s.cur.toNat := by
  unfold originField at h
  split at h
  · next hn => cases h; exact .inl ⟨hn, rfl⟩
  · simp only [Rule.bind_error, readElem_eq_halt, Rule.pure_eq_ok, reduceCtorEq, and_false, exists_false, or_false] at h
    exact .inr h.2

/-! ## The cross-band sum (R248) -/

theorem xsum_eq_ok {s : State} {k : Nat} {delta v : F64} (h : xsum s k delta = .ok v) :
    s.zmaxReady s.t.dim.toNat ∧ ∃ e, Memory.read s.pix (pixKey s.band.toNat ((s.t.dim.toNat - 1) * s.np + k)) = some e
      ∧ crossSum e (s.zmaxOf s.t.dim.toNat) delta v := by
  simp only [xsum, Rule.bind_ok, State.zmax_eq_ok, State.readPix_eq_ok, Rule.pure_eq_ok, Except.ok.injEq] at h
  obtain ⟨_, ⟨hz, rfl⟩, e, he, rfl⟩ := h
  exact ⟨hz, e, he, _, _, s.elemReal_readsAs _ _, s.freeNaN_isNaN _ _, rfl⟩

theorem xsum_of_ready {s : State} {k : Nat} (delta : F64) (hz : s.zmaxReady s.t.dim.toNat)
    (hr : (Memory.read s.pix (pixKey s.band.toNat ((s.t.dim.toNat - 1) * s.np + k))).isSome = true) :
    ∃ v, xsum s k delta = .ok v := by
  obtain ⟨e, he⟩ := Option.isSome_iff_exists.1 hr
  simp only [xsum, State.zmax_of_ready hz, State.readPix, he, written_some, Rule.ok_bind, Rule.pure_eq_ok]
  exact ⟨_, rfl⟩

theorem xsum_ne_halt {s t : State} {k : Nat} {delta : F64} : xsum s k delta ≠ .error (.halt t) := by
  simp [xsum, Rule.bind_error, State.zmax_ne_halt, State.readPix_ne_halt]

theorem xsumAll_ne_halt {s t : State} {ks : List Nat} {vs : List F64} : xsumAll s ks vs ≠ .error (.halt t) := by
  induction ks generalizing vs with
  | nil => simp [xsumAll]
  | cons k ks ih => cases vs <;> simp [xsumAll, Rule.bind_error, xsum_ne_halt, ih]

/-- The sums of a list, one for each pixel that has a value. -/
theorem xsumAll_eq_ok {s : State} {ks : List Nat} {vs ws : List F64} (h : xsumAll s ks vs = .ok ws) :
    ws.length = min ks.length vs.length ∧ ∀ (z k : Nat) (v w : F64), ks[z]? = some k → vs[z]? = some v → ws[z]? = some w →
      xsum s k v = .ok w := by
  induction ks generalizing vs ws with
  | nil => cases vs <;> cases h <;> simp
  | cons k ks ih =>
    cases vs with
    | nil => cases h; simp
    | cons v vs =>
      simp only [xsumAll, Rule.bind_ok, Rule.pure_eq_ok, Except.ok.injEq] at h
      obtain ⟨x, hx, xs, hxs, rfl⟩ := h
      obtain ⟨hl, hp⟩ := ih hxs
      refine ⟨by simp [hl], fun z k' v' w' hk hv hw => ?_⟩
      cases z with
      | zero => simp only [List.getElem?_cons_zero, Option.some.injEq] at hk hv hw; subst hk hv hw; exact hx
      | succ z => simp only [List.getElem?_cons_succ] at hk hv hw; exact hp z _ _ _ hk hv hw

theorem xsumAll_of_ready {s : State} {ks : List Nat} (vs : List F64) (hz : s.zmaxReady s.t.dim.toNat)
    (hr : s.referenceReady ks) : ∃ ws, xsumAll s ks vs = .ok ws := by
  induction ks generalizing vs with
  | nil => exact ⟨[], by simp [xsumAll]⟩
  | cons k ks ih =>
    cases vs with
    | nil => exact ⟨[], rfl⟩
    | cons v vs =>
      obtain ⟨x, hx⟩ := xsum_of_ready v hz (hr k (by simp))
      obtain ⟨xs, hxs⟩ := ih vs fun k hk => hr k (by simp [hk])
      exact ⟨x :: xs, by simp [xsumAll, hx, hxs]⟩

/-- The values of a tile as they are stored: the sums with the reference dimension, or the values themselves. -/
theorem tileValues_of_ready {s : State} {ks : List Nat} {vs : List F64} (hl : vs.length = ks.length)
    (hx : s.t.xband = true → s.zmaxReady s.t.dim.toNat ∧ s.referenceReady ks) :
    ∃ ws, tileValues s ks vs = .ok ws ∧ ws.length = ks.length
      ∧ ∀ (z k : Nat) (v w : F64), ks[z]? = some k → vs[z]? = some v → ws[z]? = some w →
        if s.t.xband then ∃ e, Memory.read s.pix (pixKey s.band.toNat ((s.t.dim.toNat - 1) * s.np + k)) = some e
          ∧ crossSum e (s.zmaxOf s.t.dim.toNat) v w
        else w = v := by
  unfold tileValues
  split
  · next hb =>
    obtain ⟨ws, hws⟩ := xsumAll_of_ready vs (hx hb).1 (hx hb).2
    obtain ⟨hlen, hp⟩ := xsumAll_eq_ok hws
    refine ⟨ws, hws, by omega, fun z k v w hk hv hw => ?_⟩
    obtain ⟨-, e, he, hc⟩ := xsum_eq_ok (hp z k v w hk hv hw)
    exact ⟨e, he, hc⟩
  · next hb => exact ⟨vs, rfl, hl, fun z k v w _ hv hw => by rw [hv] at hw; exact (Option.some.inj hw).symm⟩

theorem tileValues_ne_halt {s t : State} {ks : List Nat} {vs : List F64} : tileValues s ks vs ≠ .error (.halt t) := by
  unfold tileValues; split
  · exact xsumAll_ne_halt
  · simp

/-! ## Delivery (R200, R244) -/

theorem fst_zip_sublist {α β : Type} (xs : List α) (ys : List β) : ((xs.zip ys).map Prod.fst).Sublist xs := by
  induction xs generalizing ys with
  | nil => simp
  | cons x xs ih =>
    cases ys with
    | nil => simp
    | cons y ys => simpa using (ih ys).cons_cons x

/-- A run of stores of `store_T` values at distinct pixels of one dimension delivers them. -/
theorem putPix_delivered (s : State) (d : Nat) {ks : List Nat} (vs : List F64) (hd : ks.Nodup) {t : State}
    (ht : t.pix = (s.putPix ((ks.zip vs).map fun c => s.pixCell s.h.etype s.band.toNat (d * s.np + c.1) c.2)).pix) :
    delivered s t d ks vs := by
  have hkeys : (((ks.zip vs).map fun c => s.pixCell s.h.etype s.band.toNat (d * s.np + c.1) c.2).map Prod.fst).Nodup := by
    rw [List.map_map]
    have : (Prod.fst ∘ fun c : Nat × F64 => s.pixCell s.h.etype s.band.toNat (d * s.np + c.1) c.2)
        = (fun k => pixKey s.band.toNat (d * s.np + k)) ∘ Prod.fst := rfl
    rw [this, ← List.map_map]
    refine List.Nodup.map (fun k k' e => by simpa [pixKey] using e) ?_
    exact hd.sublist (fst_zip_sublist ks vs)
  refine ⟨fun z k v hk hv => ?_, fun key hkey => ?_⟩
  · refine ⟨_, ?_, (s.pixCell_storesAs s.h.etype s.band.toNat (d * s.np + k) v).2⟩
    rw [ht]
    refine Memory.read_writeAll_mem _ _ hkeys (List.mem_map.2 ⟨(k, v), ?_, rfl⟩)
    exact List.mem_of_getElem? (i := z) (by rw [List.getElem?_zip_eq_some]; exact ⟨hk, hv⟩)
  · rw [ht]
    refine Memory.read_writeAll_other _ _ fun c hc => ?_
    obtain ⟨⟨k, v⟩, hkv, rfl⟩ := List.mem_map.1 hc
    exact Ne.symm (hkey k (List.of_mem_zip hkv).1)

/-- `deliver` puts the values at the pixels and counts them; nothing else changes. -/
theorem State.deliver_delivered (s : State) (d : Nat) {ks : List Nat} (vs : List F64) (hd : ks.Nodup) :
    delivered s (s.deliver d ks vs) d ks vs :=
  putPix_delivered s d vs hd rfl

theorem State.deliver_eq (s : State) (d : Nat) (ks : List Nat) (vs : List F64) :
    s.deliver d ks vs = { s with
      pix := (s.deliver d ks vs).pix,
      t := { s.t with cnt := s.t.cnt + BitVec.ofNat 32 (min ks.length vs.length) } } := rfl

end Sys2Proof.Machine
end

