-- ==== Sys2Proof/Laws/Masks.lean ====
section
/-!
SUPPORT. What the list readers of the mask, statistics and pixel memories can do, and the operations built from them: the
expansion of the bitset, the combined mask, the reference elements, the per-dimension lists.
-/

namespace Sys2Proof.Machine

/-! ## One shape for every list reader -/

/-- `ys` are the answers of `f` at the members of `xs`, in order. -/
def readsEach {α β : Type} (f : α → Option β) (xs : List α) (ys : List β) : Prop := xs.map f = ys.map some

theorem readsEach_nil {α β : Type} {f : α → Option β} {ys : List β} : readsEach f [] ys ↔ ys = [] := by
  cases ys <;> simp [readsEach]

theorem readsEach_cons {α β : Type} {f : α → Option β} {x : α} {xs : List α} {ys : List β} :
    readsEach f (x :: xs) ys ↔ ∃ y zs, f x = some y ∧ readsEach f xs zs ∧ ys = y :: zs := by
  unfold readsEach
  cases ys with
  | nil => simp
  | cons y ys =>
    simp only [List.map_cons, List.cons.injEq]
    constructor
    · rintro ⟨h1, h2⟩; exact ⟨y, ys, h1, h2, rfl, rfl⟩
    · rintro ⟨_, _, h1, h2, rfl, rfl⟩; exact ⟨h1, h2⟩

theorem readsEach.length {α β : Type} {f : α → Option β} {xs : List α} {ys : List β} (h : readsEach f xs ys) :
    ys.length = xs.length := by
  simpa using (congrArg List.length h).symm

/-- Every member's answer stands at its place. -/
theorem readsEach.get {α β : Type} {f : α → Option β} {xs : List α} {ys : List β} (h : readsEach f xs ys) {z : Nat} {x : α}
    (hx : xs[z]? = some x) : ys[z]? = f x := by
  have := congrArg (fun l => l[z]?) h
  simp only [List.getElem?_map, hx, Option.map_some] at this
  cases hy : ys[z]? with
  | none => simp [hy] at this
  | some y => simpa [hy] using this.symm

/-- If every member has an answer, there is a list of them. -/
theorem readsEach_of_isSome {α β : Type} {f : α → Option β} {xs : List α} (h : ∀ x ∈ xs, (f x).isSome = true) :
    ∃ ys, readsEach f xs ys := by
  induction xs with
  | nil => exact ⟨[], rfl⟩
  | cons x xs ih =>
    obtain ⟨y, hy⟩ := Option.isSome_iff_exists.1 (h x (by simp))
    obtain ⟨ys, hys⟩ := ih fun x hx => h x (by simp [hx])
    exact ⟨y :: ys, readsEach_cons.2 ⟨y, ys, hy, hys, rfl⟩⟩

/-! ## The bitset (R138, R139) -/

theorem expandBits_eq_ok {s : State} {ks : List Nat} {xs : List Byte} :
    expandBits s ks = .ok xs ↔ readsEach (fun k => (Memory.read s.bitset (k / 8)).map fun x => maskBit x k) ks xs := by
  induction ks generalizing xs with
  | nil => simp [expandBits, readsEach_nil, eq_comm]
  | cons k ks ih =>
    simp only [expandBits, Rule.bind_ok, written_eq_ok, ih, Rule.pure_eq_ok, Except.ok.injEq, readsEach_cons,
      Option.map_eq_some_iff]
    constructor
    · rintro ⟨x, hx, zs, hz, rfl⟩; exact ⟨_, zs, ⟨x, hx, rfl⟩, hz, rfl⟩
    · rintro ⟨_, zs, ⟨x, hx, rfl⟩, hz, rfl⟩; exact ⟨x, hx, zs, hz, rfl⟩

theorem expandBits_ne_halt {s t : State} {ks : List Nat} : expandBits s ks ≠ .error (.halt t) := by
  induction ks with
  | nil => simp [expandBits]
  | cons k ks ih => simp [expandBits, Rule.bind_error, written_ne_halt, ih]

/-- A pixel's byte in the expanded mask is 0 or 1. -/
theorem maskBit_binary (x : Byte) (k : Nat) : maskBit x k = 0#8 ∨ maskBit x k = 1#8 := by
  unfold maskBit; split <;> simp

/-- A pixel's bit, as a number. -/
theorem maskBit_eq (x : Byte) (k : Nat) : maskBit x k = BitVec.ofNat 8 ((x.toNat >>> (7 - k % 8)) % 2) := by
  unfold maskBit
  rw [BitVec.getLsbD, Nat.testBit_eq_decide_div_mod_eq, Nat.shiftRight_eq_div_pow]
  rcases Nat.mod_two_eq_zero_or_one (x.toNat / 2 ^ (7 - k % 8)) with h | h <;> simp [h]

theorem bitsetBytes_eq_ok {s : State} {js : List Nat} {xs : List Byte} :
    bitsetBytes s js = .ok xs ↔ readsEach (Memory.read s.bitset) js xs := by
  induction js generalizing xs with
  | nil => simp [bitsetBytes, readsEach_nil, eq_comm]
  | cons j js ih =>
    simp only [bitsetBytes, Rule.bind_ok, written_eq_ok, ih, Rule.pure_eq_ok, Except.ok.injEq, readsEach_cons]
    constructor
    · rintro ⟨x, hx, zs, hz, rfl⟩; exact ⟨x, zs, hx, hz, rfl⟩
    · rintro ⟨x, zs, hx, hz, rfl⟩; exact ⟨x, hx, zs, hz, rfl⟩

theorem bitsetBytes_ne_halt {s t : State} {js : List Nat} : bitsetBytes s js ≠ .error (.halt t) := by
  induction js with
  | nil => simp [bitsetBytes]
  | cons k ks ih => simp [bitsetBytes, Rule.bind_error, written_ne_halt, ih]

/-! ## The combined mask (R274, R275) -/

/-- What `MASK.AND` puts at a pixel. -/
def State.andByte (s : State) (k : Nat) : Option Byte :=
  if s.m.present = true ∧ (Memory.read s.maskx k).isSome = false then none
  else (if s.band = 0#32 then some 1#8 else Memory.read s.cmask k).map fun old =>
    old &&& (if s.isValid k then 1#8 else 0#8)

theorem andMask_eq_ok {s : State} {ks : List Nat} {xs : List Byte} :
    andMask s ks = .ok xs ↔ readsEach s.andByte ks xs := by
  induction ks generalizing xs with
  | nil => simp [andMask, readsEach_nil, eq_comm]
  | cons k ks ih =>
    have hand : s.andByte k = if s.m.present = true → (Memory.read s.maskx k).isSome = true then
        (if s.band = 0#32 then some 1#8 else Memory.read s.cmask k).map fun old =>
          old &&& (if s.isValid k then 1#8 else 0#8) else none := by
      unfold State.andByte
      cases s.m.present <;> cases (Memory.read s.maskx k).isSome <;> simp
    simp only [andMask, Rule.bind_ok, State.valid_eq_ok, readsEach_cons, hand]
    by_cases hb : s.band = 0#32
    · simp only [hb, if_true, Rule.ok_bind, Rule.bind_ok, ih, Rule.pure_eq_ok, Except.ok.injEq, Option.map_some]
      constructor
      · rintro ⟨_, ⟨hv, rfl⟩, zs, hz, rfl⟩; exact ⟨_, zs, if_pos hv, hz, rfl⟩
      · rintro ⟨y, zs, hy, hz, rfl⟩
        split at hy
        · next hv => cases hy; exact ⟨_, ⟨hv, rfl⟩, zs, hz, rfl⟩
        · cases hy
    · simp only [hb, if_false, Rule.bind_ok, written_eq_ok, ih, Rule.pure_eq_ok, Except.ok.injEq]
      constructor
      · rintro ⟨_, ⟨hv, rfl⟩, old, ho, zs, hz, rfl⟩
        exact ⟨_, zs, by rw [if_pos hv, ho]; rfl, hz, rfl⟩
      · rintro ⟨y, zs, hy, hz, rfl⟩
        split at hy
        · next hv =>
          obtain ⟨old, ho, rfl⟩ := Option.map_eq_some_iff.1 hy
          exact ⟨_, ⟨hv, rfl⟩, old, ho, zs, hz, rfl⟩
        · cases hy

theorem andMask_ne_halt {s t : State} {ks : List Nat} : andMask s ks ≠ .error (.halt t) := by
  induction ks with
  | nil => simp [andMask]
  | cons k ks ih =>
    rw [andMask, ne_eq, Rule.bind_error]
    rintro (h | ⟨v, -, h⟩)
    · exact State.valid_ne_halt h
    · by_cases hb : s.band = 0#32
      · rw [if_pos hb] at h; simp [Rule.bind_error, ih] at h
      · rw [if_neg hb] at h; simp [Rule.bind_error, written_ne_halt, ih] at h

theorem cmaskBytes_eq_ok {s : State} {ks : List Nat} {xs : List Byte} :
    cmaskBytes s ks = .ok xs ↔ readsEach (Memory.read s.cmask) ks xs := by
  induction ks generalizing xs with
  | nil => simp [cmaskBytes, readsEach_nil, eq_comm]
  | cons k ks ih =>
    simp only [cmaskBytes, Rule.bind_ok, written_eq_ok, ih, Rule.pure_eq_ok, Except.ok.injEq, readsEach_cons]
    constructor
    · rintro ⟨x, hx, zs, hz, rfl⟩; exact ⟨x, zs, hx, hz, rfl⟩
    · rintro ⟨x, zs, hx, hz, rfl⟩; exact ⟨x, hx, zs, hz, rfl⟩

theorem cmaskBytes_ne_halt {s t : State} {ks : List Nat} : cmaskBytes s ks ≠ .error (.halt t) := by
  induction ks with
  | nil => simp [cmaskBytes]
  | cons k ks ih => simp [cmaskBytes, Rule.bind_error, written_ne_halt, ih]

/-- The pixels the combined mask excludes are the ones it holds 0 at. -/
theorem State.excluded_eq_ok {s : State} {l : List Nat} (h : s.excluded = .ok l) :
    (∀ k < s.np, (Memory.read s.cmask k).isSome = true)
      ∧ ∀ k, k ∈ l ↔ k < s.np ∧ Memory.read s.cmask k = some 0#8 := by
  simp only [State.excluded, Rule.bind_ok, cmaskBytes_eq_ok, Rule.pure_eq_ok, Except.ok.injEq] at h
  obtain ⟨xs, hxs, rfl⟩ := h
  have hget : ∀ k < s.np, xs[k]? = Memory.read s.cmask k := fun k hk =>
    hxs.get (by rw [List.getElem?_range hk])
  have hlen : xs.length = s.np := by simpa using hxs.length
  refine ⟨fun k hk => by rw [← hget k hk]; simp [hlen, hk], fun k => ?_⟩
  simp only [List.mem_map, List.mem_filter, Prod.exists, List.mem_zipIdx_iff_getElem?, exists_eq_right, beq_iff_eq]
  constructor
  · intro hx
    have hk : k < s.np := by rw [← hlen]; exact (List.getElem?_eq_some_iff.1 hx).1
    exact ⟨hk, by rw [← hget k hk, hx]⟩
  · rintro ⟨hk, hr⟩
    rw [hget k hk, hr]

theorem State.excluded_of_isSome {s : State} (h : ∀ k < s.np, (Memory.read s.cmask k).isSome = true) :
    ∃ l, s.excluded = .ok l := by
  obtain ⟨ys, hys⟩ := readsEach_of_isSome (f := Memory.read s.cmask) (xs := List.range s.np)
    fun k hk => h k (List.mem_range.1 hk)
  exact ⟨_, by simp only [State.excluded, cmaskBytes_eq_ok.2 hys, Rule.ok_bind]; rfl⟩

theorem State.excluded_ne_halt {s t : State} : s.excluded ≠ .error (.halt t) := by
  simp [State.excluded, Rule.bind_error, cmaskBytes_ne_halt]

/-! ## Pixels and dimensions -/

theorem readPixAll_eq_ok {s : State} {b : Nat} {is : List Nat} {es : List Elem} :
    readPixAll s b is = .ok es ↔ readsEach (fun i => Memory.read s.pix (pixKey b i)) is es := by
  induction is generalizing es with
  | nil => simp [readPixAll, readsEach_nil, eq_comm]
  | cons k ks ih =>
    simp only [readPixAll, Rule.bind_ok, State.readPix_eq_ok, ih, Rule.pure_eq_ok, Except.ok.injEq, readsEach_cons]
    constructor
    · rintro ⟨x, hx, zs, hz, rfl⟩; exact ⟨x, zs, hx, hz, rfl⟩
    · rintro ⟨x, zs, hx, hz, rfl⟩; exact ⟨x, hx, zs, hz, rfl⟩

theorem readPixAll_ne_halt {s t : State} {b : Nat} {is : List Nat} : readPixAll s b is ≠ .error (.halt t) := by
  induction is with
  | nil => simp [readPixAll]
  | cons k ks ih => simp [readPixAll, Rule.bind_error, State.readPix_ne_halt, ih]

/-- The elements of the reference dimension at some pixels (R247). -/
theorem refElems_eq_ok {s : State} {ks : List Nat} {es : List Elem} :
    refElems s ks = .ok es ↔
      readsEach (fun k => Memory.read s.pix (pixKey s.band.toNat ((s.t.dim.toNat - 1) * s.np + k))) ks es := by
  induction ks generalizing es with
  | nil => simp [refElems, readsEach_nil, eq_comm]
  | cons k ks ih =>
    simp only [refElems, Rule.bind_ok, State.readPix_eq_ok, ih, Rule.pure_eq_ok, Except.ok.injEq, readsEach_cons]
    constructor
    · rintro ⟨x, hx, zs, hz, rfl⟩; exact ⟨x, zs, hx, hz, rfl⟩
    · rintro ⟨x, zs, hx, hz, rfl⟩; exact ⟨x, hx, zs, hz, rfl⟩

theorem refElems_ne_halt {s t : State} {ks : List Nat} : refElems s ks ≠ .error (.halt t) := by
  induction ks with
  | nil => simp [refElems]
  | cons k ks ih => simp [refElems, Rule.bind_error, State.readPix_ne_halt, ih]

theorem dimList_eq_ok {mem : MemName} {m : Memory F64} {ds : List Nat} {vs : List F64} :
    dimList mem m ds = .ok vs ↔ readsEach (Memory.read m) ds vs := by
  induction ds generalizing vs with
  | nil => simp [dimList, readsEach_nil, eq_comm]
  | cons k ks ih =>
    simp only [dimList, Rule.bind_ok, written_eq_ok, ih, Rule.pure_eq_ok, Except.ok.injEq, readsEach_cons]
    constructor
    · rintro ⟨x, hx, zs, hz, rfl⟩; exact ⟨x, zs, hx, hz, rfl⟩
    · rintro ⟨x, zs, hx, hz, rfl⟩; exact ⟨x, hx, zs, hz, rfl⟩

theorem dimList_ne_halt {mem : MemName} {m : Memory F64} {ds : List Nat} {t : State} :
    dimList mem m ds ≠ .error (.halt t) := by
  induction ds with
  | nil => simp [dimList]
  | cons k ks ih => simp [dimList, Rule.bind_error, written_ne_halt, ih]

theorem constDims_ne_halt {s t : State} {ds : List Nat} : constDims s ds ≠ .error (.halt t) := by
  induction ds with
  | nil => simp [constDims]
  | cons k ks ih => simp [constDims, Rule.bind_error, written_ne_halt, ih]

theorem surfValue_eq_ok {s : State} {source : SurfSource} {d : Nat} {c : F64} :
    surfValue s source d = .ok c ↔ match source with
      | .globalMin => c = s.h.zMin
      | .dimMin => Memory.read s.dimMin d = some c := by
  cases source
  · simp [surfValue, eq_comm]
  · exact written_eq_ok

theorem surfValue_ne_halt {s t : State} {source : SurfSource} {d : Nat} : surfValue s source d ≠ .error (.halt t) := by
  cases source <;> simp [surfValue, written_ne_halt]

end Sys2Proof.Machine
end

