-- ==== Sys2Proof/Laws/Bands.lean ====
section
/-!
SUPPORT. What the rules at the start and at the end of a band can do: the results of band 0, the pre-fill, the packed
mask, the header echo.
-/

namespace Sys2Proof.Machine

/-- Only the `RES` registers change, and only in band 0 (R271). -/
theorem State.firstBandResults_eq (s : State) :
    s.firstBandResults = { s with
      res := if s.band = 0#32 then { s.res with width := s.h.width, height := s.h.height, etype := s.h.etype } else s.res } := by
  unfold State.firstBandResults
  by_cases h : s.band = 0#32 <;> simp only [h, if_true, if_false]

/-! ## The pre-fill (R194, R220) -/

/-- The elements of a band have consecutive keys. -/
theorem pixKey_eq_add (b i : Nat) : pixKey b i = pixKey b 0 + i := by simp [pixKey]

/-- Only `PIX` changes. -/
theorem State.fillBand_eq (s : State) (n : Nat) (nd : F64) : s.fillBand n nd = { s with pix := (s.fillBand n nd).pix } := rfl

/-- Every element below the bound holds the value. -/
theorem State.fillBand_inside (s : State) (nd : F64) {n i : Nat} (h : i < n) :
    ∃ e, Memory.read (s.fillBand n nd).pix (pixKey s.band.toNat i) = some e ∧ storesAs s.h.etype nd e := by
  refine ⟨_, ?_, (s.pixCell_storesAs s.h.etype s.band.toNat i nd).2⟩
  have := Memory.read_writeRange_inside s.pix (pixKey s.band.toNat 0)
    ((List.range n).map fun i => (s.pixCell s.h.etype s.band.toNat i nd).2) (j := i) (by simpa using h)
  rw [List.getElem?_map, List.getElem?_range h, ← pixKey_eq_add] at this
  exact this

/-- Every other element is as it was. -/
theorem State.fillBand_outside (s : State) (nd : F64) {n key : Nat} (h : ∀ i < n, key ≠ pixKey s.band.toNat i) :
    Memory.read (s.fillBand n nd).pix key = Memory.read s.pix key := by
  simp only [State.fillBand, Memory.read_writeRange, List.length_map, List.length_range]
  refine if_neg fun hc => h (key - pixKey s.band.toNat 0) ?_ ?_
  · exact Nat.sub_lt_left_of_lt_add hc.1 hc.2
  · rw [pixKey_eq_add, Nat.add_sub_of_le hc.1]

/-! ## The ranges of a band (R228) -/

/-- The test of ranges that can be read: every minimum equals its maximum. -/
theorem constDims_eq {s : State} {lo hi : Nat → F64} {ds : List Nat}
    (h : ∀ d ∈ ds, Memory.read s.dimMin d = some (lo d) ∧ Memory.read s.dimMax d = some (hi d)) :
    constDims s ds = .ok (ds.all fun d => feq (lo d) (hi d)) := by
  induction ds with
  | nil => rfl
  | cons d ds ih =>
    simp only [List.mem_cons, forall_eq_or_imp] at h
    simp [constDims, h.1.1, h.1.2, ih h.2, pure, Except.pure]

/-! ## The end of a band (R278, R280) -/

/-- The packed mask of band 0: the bytes of the bitset when it is asked for and the band has a mask, else nothing. -/
theorem encodedMask_of_ready {s : State} (packed : Prop) [Decidable packed]
    (hp : packed ↔ s.optFlags.getLsbD 3 = true ∧ s.m.present = true)
    (h : packed → ∀ j < s.maskBytes, (Memory.read s.bitset j).isSome = true) :
    ∃ u, encodedMask s = .ok u ∧ u = { s with encmask := u.encmask, res := { s.res with encValid := decide packed } }
      ∧ ∀ j, Memory.read u.encmask j =
        if packed ∧ j < s.maskBytes then Memory.read s.bitset j else Memory.read s.encmask j := by
  by_cases hpk : packed
  · obtain ⟨xs, hxs⟩ := readsEach_of_isSome (f := Memory.read s.bitset) (xs := List.range s.maskBytes)
      fun j hj => h hpk j (List.mem_range.1 hj)
    have hlen : xs.length = s.maskBytes := by simpa using hxs.length
    have htest : (s.optFlags.getLsbD 3 && s.m.present) = true := by simp only [hp.1 hpk, Bool.and_self]
    refine ⟨_, by simp only [encodedMask, htest, if_true, bitsetBytes_eq_ok.2 hxs, Rule.ok_bind]; rfl,
      by simp only [hpk, decide_true], fun j => ?_⟩
    by_cases hj : j < s.maskBytes
    · rw [if_pos ⟨hpk, hj⟩, ← hxs.get (List.getElem?_range hj)]
      simpa using Memory.read_writeRange_inside s.encmask 0 xs (j := j) (by omega)
    · rw [if_neg fun hc => hj hc.2]
      exact Memory.read_writeRange_outside s.encmask 0 xs (by omega)
  · have htest : (s.optFlags.getLsbD 3 && s.m.present) = false :=
      Bool.eq_false_iff.2 fun hc => hpk (hp.2 (by simpa using hc))
    exact ⟨_, by simp only [encodedMask, htest]; rfl, by simp only [hpk, decide_false],
      fun j => by rw [if_neg fun hc => hpk hc.1]⟩

/-- The packed mask copy of a band. -/
theorem firstBandMask_of_ready {s : State} (packed : Prop) [Decidable packed]
    (hp : packed ↔ s.optFlags.getLsbD 3 = true ∧ s.m.present = true)
    (h : s.band = 0#32 → packed → ∀ j < s.maskBytes, (Memory.read s.bitset j).isSome = true) :
    ∃ u, firstBandMask s = .ok u
      ∧ u = { s with
          encmask := u.encmask,
          res := { s.res with encValid := if s.band = 0#32 then decide packed else s.res.encValid } }
      ∧ ∀ j, Memory.read u.encmask j =
        if s.band = 0#32 ∧ packed ∧ j < s.maskBytes then Memory.read s.bitset j else Memory.read s.encmask j := by
  unfold firstBandMask
  by_cases h0 : s.band = 0#32
  · obtain ⟨u, hu, hs, hr⟩ := encodedMask_of_ready packed hp (h h0)
    exact ⟨u, by rw [if_pos h0]; exact hu, by rw [if_pos h0]; exact hs, fun j => by
      rw [hr]; simp only [h0, true_and]⟩
  · exact ⟨s, by rw [if_neg h0], by rw [if_neg h0], fun j => by rw [if_neg fun hc => h0 hc.1]⟩

/-- The header echo: every register of the `H` group when it is asked for. -/
theorem fileInfo_of_ready {s : State}
    (h : s.optFlags.getLsbD 4 = true → (Memory.read s.bstat s.band.toNat).isSome = true) :
    ∃ u, fileInfo s = .ok u ∧ u = { s with bstat := u.bstat }
      ∧ (∀ st, Memory.read s.bstat s.band.toNat = some st → Memory.read u.bstat s.band.toNat = some
        (if s.optFlags.getLsbD 4 then
          { st with fileInfo := some { h := s.h, dimMin := s.dimMin, dimMax := s.dimMax } }
        else st))
      ∧ ∀ other, other ≠ s.band.toNat → Memory.read u.bstat other = Memory.read s.bstat other := by
  by_cases hf : s.optFlags.getLsbD 4 = true
  · obtain ⟨st, hst⟩ := Option.isSome_iff_exists.1 (h hf)
    refine ⟨_, by simp only [fileInfo, hf, if_true, hst, written, Rule.ok_bind]; rfl, rfl, fun st' h' => ?_,
      fun o ho => Memory.read_write_other _ _ ho⟩
    rw [hst] at h'; cases h'
    rw [if_pos hf]; exact Memory.read_write_same _ _ _
  · exact ⟨s, by simp only [fileInfo, hf]; rfl, rfl, fun st hst => by rw [if_neg hf]; exact hst, fun _ _ => rfl⟩

end Sys2Proof.Machine
end

