-- ==== Sys2Proof/Laws/Bsu.lean ====
section
/-!
SUPPORT. What the bit-stream unpacker's operations can do: the extraction, the remaps, the head and the operands of a `BS2`
record, the table load.
-/

namespace Sys2Proof.Machine

/-! ## Extraction -/

theorem takeCodesM_length (ws : List Nat) (k n w b : Nat) : (takeCodesM ws k n w b).1.length = n := by
  induction n generalizing w b with
  | zero => rfl
  | succ n ih => simp only [takeCodesM]; split <;> [split; skip] <;> simp [ih]

theorem takeCodesL_length (ws : List Nat) (k n w b : Nat) : (takeCodesL ws k n w b).1.length = n := by
  induction n generalizing w b with
  | zero => rfl
  | succ n ih => simp only [takeCodesL]; split <;> [split; skip] <;> simp [ih]

/-- Inside a word the bit count stays below 32. -/
theorem takeCodesM_bit_lt (ws : List Nat) {k : Nat} (hk : k ≤ 32) (n w : Nat) {b : Nat} (hb : b < 32) :
    (takeCodesM ws k n w b).2.2 < 32 := by
  induction n generalizing w b with
  | zero => exact hb
  | succ n ih => simp only [takeCodesM]; split <;> [split; skip] <;> exact ih _ (by omega)

theorem takeCodesL_bit_lt (ws : List Nat) {k : Nat} (hk : k ≤ 32) (n w : Nat) {b : Nat} (hb : b < 32) :
    (takeCodesL ws k n w b).2.2 < 32 := by
  induction n generalizing w b with
  | zero => exact hb
  | succ n ih => simp only [takeCodesL]; split <;> [split; skip] <;> exact ih _ (by omega)

/-- An extraction delivers as many codes as asked for. -/
@[simp] theorem extractCodes_length (conv : Conv) (bytes : List Byte) (n k : Nat) :
    (extractCodes conv bytes n k).1.length = n := by
  unfold extractCodes
  split
  · simp
  · cases conv <;> simp [takeCodesL_length, takeCodesM_length]

theorem extractCodes_bit_lt (conv : Conv) (bytes : List Byte) (n : Nat) {k : Nat} (hk : k ≤ 32) :
    (extractCodes conv bytes n k).2.2 < 32 := by
  unfold extractCodes
  split
  · exact Nat.zero_lt_succ 31
  · cases conv
    · exact takeCodesL_bit_lt _ hk _ _ (by decide)
    · exact takeCodesM_bit_lt _ hk _ _ (by decide)

@[simp] theorem extractCodes_zero (conv : Conv) (bytes : List Byte) (n : Nat) :
    extractCodes conv bytes n 0 = (List.replicate n 0, 0, 0) := rfl

@[simp] theorem packedBytes_zero (n : Nat) : packedBytes n 0 = 0 := by simp [packedBytes, ceilDiv]

/-- An extraction completes when the width is legal and the buffer holds the stream; it delivers the codes and writes
`CODES` and the cursor. -/
theorem unpk_eq_ok {s t : State} {conv : Conv} {a n k : Nat} {codes : List Nat} :
    unpk s conv a n k = .ok (codes, t) ↔ k ≤ 32 ∧ ∃ bytes, bytes.length = packedBytes n k ∧ (k ≠ 0 → s.holds a bytes)
      ∧ codes = (extractCodes conv bytes n k).1 ∧ t = s.withCodes a (extractCodes conv bytes n k) := by
  simp only [unpk, Rule.bind_ok, raiseIf_eq_ok, decide_eq_false_iff_not, Nat.not_lt, exists_and_left, exists_const]
  refine and_congr_right fun _ => ?_
  by_cases hk : k = 0
  · subst hk
    simp only [if_true, Rule.ok_bind, Rule.pure_eq_ok, Except.ok.injEq, Prod.mk.injEq, packedBytes_zero,
      List.length_eq_zero_iff, ne_eq, not_true_eq_false, false_imp_iff, true_and]
    constructor
    · rintro ⟨rfl, rfl⟩; exact ⟨[], rfl, rfl, rfl⟩
    · rintro ⟨_, rfl, rfl, rfl⟩; exact ⟨rfl, rfl⟩
  · rw [if_neg hk]
    simp only [Rule.bind_ok, memRead_eq_ok, Rule.pure_eq_ok, Except.ok.injEq, Prod.mk.injEq, ne_eq, hk,
      not_false_eq_true, forall_const]
    constructor
    · rintro ⟨bytes, ⟨h1, h2⟩, rfl, rfl⟩; exact ⟨bytes, h1, h2, rfl, rfl⟩
    · rintro ⟨bytes, h1, h2, rfl, rfl⟩; exact ⟨bytes, ⟨h1, h2⟩, rfl, rfl⟩

/-- Its faults: a width above 32 (R102), and a stream that passes the end of the buffer (R103). -/
theorem unpk_eq_halt {s t : State} {conv : Conv} {a n k : Nat} :
    unpk s conv a n k = .error (.halt t) ↔ (32 < k ∧ t = s.takeFault .param s.cur.toNat)
      ∨ (1 ≤ k ∧ k ≤ 32 ∧ s.inLen.toNat < a + packedBytes n k ∧ t = s.takeFault .trunc a) := by
  simp only [unpk, Rule.bind_error, raiseIf_eq_error, raiseIf_eq_ok, decide_eq_true_eq, decide_eq_false_iff_not,
    Nat.not_lt, Stop.halt.injEq, exists_and_left, exists_const]
  refine or_congr_right ?_
  by_cases hk : k = 0
  · subst hk; simp
  · rw [if_neg hk]
    simp only [Rule.bind_error, memRead_eq_halt, Rule.pure_eq_ok, reduceCtorEq, and_false, exists_false, or_false]
    exact ⟨fun ⟨h1, h2, h3⟩ => ⟨by omega, h1, h2, h3⟩, fun ⟨_, h1, h2, h3⟩ => ⟨h1, h2, h3⟩⟩

/-! ## Remapping -/

@[simp] theorem State.remapCodes_length (s : State) (off step vmax : F64) (clamp : Bool) (cs : List Nat) :
    (s.remapCodes off step vmax clamp cs).length = cs.length := by simp [State.remapCodes]

/-- Each code is remapped, with some NaNs where its operations deliver NaNs. -/
theorem State.remapCodes_remapsTo {s : State} {off step vmax : F64} {clamp : Bool} {cs : List Nat} {z c : Nat} {v : F64}
    (hc : cs[z]? = some c) (hv : (s.remapCodes off step vmax clamp cs)[z]? = some v) :
    remapsTo c off step vmax clamp v := by
  simp only [State.remapCodes, List.getElem?_map, List.getElem?_zipIdx, hc, Option.map_some, Option.some.injEq] at hv
  exact ⟨_, _, s.freeNaN_isNaN _ _, s.freeNaN_isNaN _ _, hv.symm⟩

@[simp] theorem State.remapEntries_length (s : State) (off step vmax : F64) (clamp : Bool) (cs : List Nat) :
    (s.remapEntries off step vmax clamp cs).length = cs.length := by simp [State.remapEntries]

theorem State.remapEntries_remapsTo {s : State} {off step vmax : F64} {clamp : Bool} {cs : List Nat} {z c : Nat}
    {v : F64} (hc : cs[z]? = some c) (hv : (s.remapEntries off step vmax clamp cs)[z]? = some v) :
    remapsTo c off step vmax clamp v := by
  simp only [State.remapEntries, List.getElem?_map, List.getElem?_zipIdx, hc, Option.map_some, Option.some.injEq] at hv
  exact ⟨_, _, s.freeNaN_isNaN _ _, s.freeNaN_isNaN _ _, hv.symm⟩

theorem remapLut_eq_ok {s : State} {c : Nat} {v : F64} :
    remapLut s c = .ok v ↔ c < s.t.nLut.toNat ∧ Memory.read s.lut c = some v := by
  simp [remapLut, Rule.bind_ok, raiseIf_eq_ok, written_eq_ok]

theorem remapLut_eq_halt {s t : State} {c : Nat} :
    remapLut s c = .error (.halt t) ↔ s.t.nLut.toNat ≤ c ∧ t = s.takeFault .lutIndex s.cur.toNat := by
  simp [remapLut, Rule.bind_error, raiseIf_eq_error, written_ne_halt]

/-- Every index names an entry, and its value is that entry. -/
theorem remapLutAll_eq_ok {s : State} {cs : List Nat} {vs : List F64} :
    remapLutAll s cs = .ok vs ↔ vs.length = cs.length ∧ ∀ (z c : Nat), cs[z]? = some c →
      c < s.t.nLut.toNat ∧ ∃ v, Memory.read s.lut c = some v ∧ vs[z]? = some v := by
  induction cs generalizing vs with
  | nil =>
    constructor
    · intro h; cases h; simp
    · rintro ⟨h, -⟩; rw [List.length_eq_zero_iff.1 h]; rfl
  | cons c cs ih =>
    simp only [remapLutAll, Rule.bind_ok, remapLut_eq_ok, ih, Rule.pure_eq_ok, Except.ok.injEq]
    constructor
    · rintro ⟨v, ⟨hc, hv⟩, ws, ⟨hl, hp⟩, rfl⟩
      refine ⟨by simp [hl], fun z c' hz => ?_⟩
      cases z with
      | zero => simp only [List.getElem?_cons_zero, Option.some.injEq] at hz; subst hz; exact ⟨hc, v, hv, by simp⟩
      | succ z => simp only [List.getElem?_cons_succ] at hz ⊢; exact hp z c' hz
    · rintro ⟨hl, hp⟩
      cases vs with
      | nil => simp at hl
      | cons v vs =>
        obtain ⟨hc, v', hv', e⟩ := hp 0 c (by simp)
        simp only [List.getElem?_cons_zero, Option.some.injEq] at e; subst e
        exact ⟨v, ⟨hc, hv'⟩, vs, ⟨by simpa using hl, fun z c' hz => by simpa using hp (z + 1) c' (by simpa using hz)⟩, rfl⟩

theorem remapLutAll_eq_halt {s t : State} {cs : List Nat} (h : remapLutAll s cs = .error (.halt t)) :
    t = s.takeFault .lutIndex s.cur.toNat := by
  induction cs with
  | nil => cases h
  | cons c cs ih =>
    simp only [remapLutAll, Rule.bind_error, remapLut_eq_halt, Rule.pure_eq_ok, reduceCtorEq, and_false, exists_false,
      or_false] at h
    rcases h with ⟨-, h⟩ | ⟨_, -, h⟩
    · exact h
    · exact ih h

/-! ## The head and the operands of a `BS2` record -/

/-- The head completes when the count selector has a width and the count is the one due. -/
theorem bs2Head_eq_ok {s t : State} {lutf : Bool} {numBits : BitVec 5} {count : CountField} :
    bs2Head s lutf numBits count = .ok t ↔ count ≠ .invalid ∧ s.countFits (CountField.value count)
      ∧ t = { s with
        cur := s.cur + BitVec.ofNat 32 (1 + count.len),
        t := { s.t with bits := numBits.setWidth 6, lutf := lutf, nVal := BitVec.ofNat 32 (CountField.value count) } } := by
  simp only [bs2Head, Rule.bind_ok, raiseIf_eq_ok, decide_eq_false_iff_not, exists_and_left, exists_const]
  refine and_congr_right fun _ => ?_
  unfold State.countFits
  simp only [State.advance]
  cases hb : s.bare
  · simp only [Bool.false_eq_true, if_false, Rule.bind_ok, State.tileValid, State.validOf_eq_ok, raiseIf_eq_ok,
      decide_eq_false_iff_not, Decidable.not_not, Rule.pure_eq_ok, Except.ok.injEq, exists_and_left, exists_const]
    constructor
    · rintro ⟨ks, ⟨hm, rfl⟩, hn, rfl⟩; exact ⟨⟨hm, hn⟩, rfl⟩
    · rintro ⟨⟨hm, hn⟩, rfl⟩; exact ⟨_, ⟨hm, rfl⟩, hn, rfl⟩
  · simp only [if_true, Rule.bind_ok, raiseIf_eq_ok, Rule.pure_eq_ok, Except.ok.injEq, exists_and_left, exists_const]
    constructor
    · rintro ⟨h, rfl⟩; exact ⟨Nat.not_lt.1 (of_decide_eq_false h), rfl⟩
    · rintro ⟨h, rfl⟩; exact ⟨decide_eq_false (Nat.not_lt.2 h), rfl⟩

/-- Its faults, by their codes and values (R113, R116, R246). -/
theorem bs2Head_eq_halt {s t : State} {lutf : Bool} {numBits : BitVec 5} {count : CountField}
    (h : bs2Head s lutf numBits count = .error (.halt t)) :
    ∃ u code info, t = State.takeFault u code info ∧ u = { s with cur := u.cur, t := u.t } := by
  simp only [bs2Head, Rule.bind_error, raiseIf_eq_error, Stop.halt.injEq] at h
  rcases h with ⟨-, rfl⟩ | ⟨_, -, h⟩
  · exact ⟨_, _, _, rfl, rfl⟩
  · split at h
    · simp only [Rule.bind_error, raiseIf_eq_error, Stop.halt.injEq, Rule.pure_eq_ok, reduceCtorEq, and_false,
        exists_false, or_false] at h
      exact ⟨_, _, _, h.2, rfl⟩
    · simp only [Rule.bind_error, State.tileValid, State.validOf_ne_halt, raiseIf_eq_error, Stop.halt.injEq,
        Rule.pure_eq_ok, reduceCtorEq, and_false, exists_false, or_false, false_or] at h
      obtain ⟨_, -, -, h⟩ := h
      exact ⟨_, _, _, h, rfl⟩

theorem bs2Args_eq_ok {s : State} {args : RemapArgs} :
    bs2Args s = .ok args ↔ (s.bare = false → s.zmaxReady s.t.dim.toNat) ∧ args = s.remapOperands := by
  unfold bs2Args State.remapOperands
  cases s.bare
  · simp only [Bool.false_eq_true, if_false, Rule.bind_ok, State.zmax_eq_ok, Rule.pure_eq_ok, Except.ok.injEq,
      forall_const]
    constructor
    · rintro ⟨_, ⟨hz, rfl⟩, rfl⟩; exact ⟨hz, rfl⟩
    · rintro ⟨hz, rfl⟩; exact ⟨_, ⟨hz, rfl⟩, rfl⟩
  · simp only [if_true, Except.ok.injEq, Bool.true_eq_false, false_imp_iff, true_and]; exact eq_comm

theorem bs2Args_ne_halt {s t : State} : bs2Args s ≠ .error (.halt t) := by
  unfold bs2Args; split <;> simp [Rule.bind_error, State.zmax_ne_halt]

/-! ## The index width (R117) -/

/-- `bitLength n` is the least `j` with `n >> j = 0`. -/
theorem bitLength_spec (n : Nat) : n >>> bitLength n = 0 ∧ ∀ j < bitLength n, n >>> j ≠ 0 := by
  unfold bitLength
  split
  · next h => subst h; simp
  · next h =>
    refine ⟨?_, fun j hj => ?_⟩
    · rw [Nat.shiftRight_eq_div_pow, Nat.div_eq_of_lt Nat.lt_log2_self]
    · rw [Nat.shiftRight_eq_div_pow]
      have h1 : 2 ^ j ≤ n := (Nat.pow_le_pow_right (by decide) (by omega)).trans (Nat.log2_self_le h)
      have := Nat.div_pos h1 (Nat.pos_of_ne_zero (by positivity))
      omega

/-- It is the only one. -/
theorem bitLength_unique {n k : Nat} (h0 : n >>> k = 0) (h1 : ∀ j < k, n >>> j ≠ 0) : bitLength n = k := by
  obtain ⟨a, b⟩ := bitLength_spec n
  rcases Nat.lt_trichotomy (bitLength n) k with h | h | h
  · exact absurd a (h1 _ h)
  · exact h
  · exact absurd h0 (b _ h)

/-! ## The table load (R118) -/

theorem lutLoad_eq_ok {s t : State} {args : RemapArgs} (h : lutLoad s args = .ok t) :
    ∃ bytes, bytes.length = packedBytes (s.t.nLut.toNat - 1) s.t.bits.toNat
      ∧ (s.t.bits.toNat ≠ 0 → s.holds s.cur.toNat bytes)
      ∧ t = { s with
          cur := s.cur + BitVec.ofNat 32 bytes.length, codes := t.codes, bs := t.bs,
          lut := Memory.writeRange s.lut 0 (args.off :: s.remapEntries args.off args.step args.vmax args.clamp
            (extractCodes s.h.conv bytes (s.t.nLut.toNat - 1) s.t.bits.toNat).1) }
      ∧ t.bs.bit.toNat < 32
      ∧ t.codes = Memory.writeRange s.codes 0
          ((extractCodes s.h.conv bytes (s.t.nLut.toNat - 1) s.t.bits.toNat).1.map (BitVec.ofNat 32)) := by
  simp only [lutLoad, Rule.bind_ok, Prod.exists, unpk_eq_ok, Rule.pure_eq_ok, Except.ok.injEq] at h
  obtain ⟨_, _, ⟨hk, bytes, hl, hh, rfl, rfl⟩, rfl⟩ := h
  refine ⟨bytes, hl, hh, ?_, ?_, rfl⟩
  · rw [hl]; rfl
  · have := extractCodes_bit_lt s.h.conv bytes (s.t.nLut.toNat - 1) hk
    simp only [State.advance, State.withCodes, BitVec.toNat_ofNat]
    omega

theorem lutLoad_eq_halt {s t : State} {args : RemapArgs} (h : lutLoad s args = .error (.halt t)) :
    ∃ code info, t = s.takeFault code info := by
  simp only [lutLoad, Rule.bind_error, unpk_eq_halt, Rule.pure_eq_ok, reduceCtorEq, and_false, exists_false,
    or_false] at h
  rcases h with ⟨-, h⟩ | ⟨-, -, -, h⟩ <;> exact ⟨_, _, h⟩

end Sys2Proof.Machine
end

