-- ==== Sys2Proof/Laws/Step.lean ====
section
/-!
SUPPORT. What a fetch and a step can do, case by case.
-/

namespace Sys2Proof.Machine

/-! ## Fetch -/

/-- The window's bytes are the buffer's, below `IN_LEN`. -/
theorem window_get {s : State} {n a j : Nat} (h : j < (window s n a).length) :
    a + j < s.inLen.toNat ∧ Memory.read s.inMem (a + j) = (window s n a)[j]? := by
  induction n generalizing a j with
  | zero => simp [window] at h
  | succ n ih =>
    by_cases hlt : a < s.inLen.toNat
    · cases hr : Memory.read s.inMem a with
      | none => simp [window, hlt, hr] at h
      | some x =>
        simp only [window, hlt, if_true, hr] at h ⊢
        cases j with
        | zero => simpa using ⟨hlt, hr⟩
        | succ j =>
          have := ih (a := a + 1) (j := j) (by simpa using h)
          rw [List.getElem?_cons_succ, show a + (j + 1) = a + 1 + j by omega]
          exact this
    · simp [window, hlt] at h

/-- The window begins with any bytes the buffer holds at its start. -/
theorem window_of_holds {s : State} {n a : Nat} {bytes : List Byte} (h : s.holds a bytes) (hn : bytes.length ≤ n) :
    bytes <+: window s n a := by
  induction bytes generalizing n a with
  | nil => exact List.nil_prefix
  | cons x xs ih =>
    cases n with
    | zero => simp at hn
    | succ n =>
      have hx := h.2 0 (by simp)
      simp only [Nat.add_zero, List.getElem?_cons_zero] at hx
      have hl := h.1
      simp only [List.length_cons] at hl hn
      have hxs : s.holds (a + 1) xs := by
        have := State.holds_part (s := s) (a := a) (xs := [x]) (ys := xs) (zs := []) (by simpa using h)
        simpa using this
      simp only [window, show a < s.inLen.toNat by omega, if_true, hx]
      exact List.cons_prefix_cons.2 ⟨rfl, ih hxs (by omega)⟩

/-- A fetch answers what the bytes decode to. -/
theorem fetch_eq_ok {s : State} {pos : StreamPos} {a : Nat} {i : Instr} :
    fetch s pos a = .ok i ↔ decodeAt pos (window s maxRecordBytes a) = .ok i := by
  unfold fetch
  split
  · next h => rw [h]; simp
  · next h => rw [h]; split <;> simp [raise]
  · next h => rw [h]; simp [raise]
  · next h => rw [h]; simp [raise]
  · next h => rw [h]; simp [raise]

/-- A record whose bytes the buffer holds is fetched, whatever follows them. -/
theorem fetch_of_holds {s : State} {pos : StreamPos} {a : Nat} {bytes : List Byte} {i : Instr} (h : s.holds a bytes)
    (hn : bytes.length ≤ maxRecordBytes) (hd : ∀ rest, decodeAt pos (bytes ++ rest) = .ok i) : fetch s pos a = .ok i := by
  obtain ⟨rest, hr⟩ := window_of_holds h hn
  rw [fetch_eq_ok, ← hr, hd]

/-- Its faults (R44, R234, R267). -/
theorem fetch_eq_halt {s t : State} {pos : StreamPos} {a : Nat} (h : fetch s pos a = .error (.halt t)) :
    (∃ off width, decodeAt pos (window s maxRecordBytes a) = .error (.short off width)
        ∧ s.inLen.toNat < a + off + width ∧ t = s.takeFault .trunc (a + off))
      ∨ t = s.takeFault .blockMode a ∨ t = s.takeFault .magic s.cur.toNat := by
  unfold fetch at h
  split at h
  · cases h
  · next off width hd =>
    split at h
    · cases h
    · next hlt => cases h; exact .inl ⟨off, width, hd, Nat.not_le.1 hlt, rfl⟩
  · cases h; exact .inr (.inl rfl)
  · cases h; exact .inr (.inr rfl)
  · cases h; exact .inr (.inr rfl)

/-! ## One step -/

/-- A next state counts the free values on. -/
theorem nextFree_eq_next {o : Host.Outcome State Fault Refusal} {t : State} :
    nextFree o = .next t ↔ ∃ u, o = .next u ∧ t = { u with fresh := u.fresh + 1 } := by
  cases o <;> simp [nextFree, eq_comm]

/-- With no host event pending the engine steps. -/
theorem step_of_empty {s : State} (h : s.port = []) : step s = nextFree (engineStep s) := by
  simp [step, h]

/-- With one pending it is taken first. -/
theorem step_of_event {s : State} {ev : HostEvent} {rest : List HostEvent} (h : s.port = ev :: rest) :
    step s = nextFree (hostStep ev { s with port := rest }) := by
  simp [step, h]

/-- An idle engine does nothing (R334). -/
theorem engineStep_of_idle {s : State} (h : s.busy = false) : engineStep s = .next s := by simp [engineStep, h]

/-- The three ways a busy engine reaches a next state: the instruction due and what is due after it, the rule due, or a
fault before either (R132, R147, or in the fetch). -/
theorem engineStep_eq_next {s t : State} (hb : s.busy = true) (h : engineStep s = .next t) :
    (∃ i u, due s = .ok (some i) ∧ exec i s = .next u ∧ t = sequence i u)
      ∨ (due s = .ok none ∧ (runRule s = .ok t ∨ runRule s = .error (.halt t))) ∨ due s = .error (.halt t) := by
  simp only [engineStep, hb, if_true] at h
  split at h
  · next i hd =>
    simp only [execThen] at h
    split at h
    · next u hu => cases h; exact .inl ⟨i, u, hd, hu, rfl⟩
    · cases h
    · cases h
  · next hd => exact .inr (.inl ⟨hd, Rule.outcome_eq_next.1 h⟩)
  · next e hd =>
    rcases Rule.outcome_eq_next.1 h with h | h
    · cases h
    · cases h; exact .inr (.inr hd)

/-- Where an instruction is due the engine runs it. -/
theorem engineStep_of_due {s : State} {i : Instr} (hb : s.busy = true) (hd : due s = .ok (some i)) :
    engineStep s = execThen i s := by
  simp [engineStep, hb, hd]

/-- Where a rule is due the engine runs it. -/
theorem engineStep_of_rule {s : State} (hb : s.busy = true) (hd : due s = .ok none) :
    engineStep s = (runRule s).outcome := by
  simp [engineStep, hb, hd]

/-- A step at which a rule is due, no host event pending: the rule, with the free values counted on. -/
theorem step_of_rule {s : State} (hp : s.port = []) (hb : s.busy = true) (hd : due s = .ok none) :
    step s = nextFree (runRule s).outcome := by
  rw [step_of_empty hp, engineStep_of_rule hb hd]

/-- A rule that completes is a next state. -/
theorem step_of_rule_ok {s t : State} (hp : s.port = []) (hb : s.busy = true) (hd : due s = .ok none)
    (h : runRule s = .ok t) : step s = .next { t with fresh := t.fresh + 1 } := by
  rw [step_of_rule hp hb hd, h]; rfl

end Sys2Proof.Machine
end

