-- ==== Sys2Proof/Laws/Host.lean ====
section
/-!
SUPPORT. What a host's register access can do.
-/

namespace Sys2Proof.Machine

/-- A register write other than to `CMD` is an access. -/
theorem hostStep_writeReg {word : Nat} (h : word ≠ 0) (v : Word) (s : State) :
    hostStep (.writeReg word v) s = hostWriteReg s word v := by
  cases word with
  | zero => exact absurd rfl h
  | succ n => rfl

/-- It is refused for a writable register while `BUSY` (R322), and else takes effect. -/
theorem hostWriteReg_eq (s : State) (word : Nat) (v : Word) :
    hostWriteReg s word v =
      if 4 ≤ word ∧ word ≤ 9 ∧ s.busy = true then .refused .writeWhileBusy else .next (s.putReg word v) := by
  unfold hostWriteReg isWritableReg
  by_cases h : 4 ≤ word ∧ word ≤ 9 ∧ s.busy = true
  · rw [if_pos h]; simp [h]
  · rw [if_neg h]; simp only [Bool.and_eq_true, decide_eq_true_eq, and_assoc, h, if_false]

/-- The two halves of `OPT.NODATA` make it up (R14). -/
theorem noData_halves (x : F64) : x.extractLsb' 32 32 ++ x.extractLsb' 0 32 = x := by
  apply BitVec.eq_of_getLsbD_eq
  intro i hi
  simp only [BitVec.getLsbD_append, BitVec.getLsbD_extractLsb']
  by_cases h : i < 32
  · simp [h]
  · simp [h, show i - 32 < 32 by omega, show 32 + (i - 32) = i by omega]

/-- Its effect, register by register. -/
theorem State.putReg_eq (s : State) (word : Nat) (v : Word) :
    s.putReg word v = { s with
      inLen := if word = 4 then v else s.inLen,
      optOffset := if word = 5 then v else s.optOffset,
      optFlags := if word = 6 then v.setWidth 6 else s.optFlags,
      optPixelType := if word = 7 then v.setWidth 3 else s.optPixelType,
      optNoData := (if word = 9 then v else s.optNoData.extractLsb' 32 32)
        ++ (if word = 8 then v else s.optNoData.extractLsb' 0 32) } := by
  unfold State.putReg
  split
  case h_7 => simp_all [noData_halves]
  all_goals simp [noData_halves]

end Sys2Proof.Machine
end

