-- ==== Sys2Proof/Laws/Huffman.lean ====
section
/-!
SUPPORT. What the Huffman bit reader and the table operations can do.
-/

namespace Sys2Proof.Machine

/-! ## The bit reader (R159, R160) -/

/-- A stream bit can be read when its byte is past the buffer or written; it is 0 past the buffer. -/
theorem hbit_eq_ok {s : State} {t : Nat} {b : Bool} :
    hbit s t = .ok b ↔ if s.inLen.toNat ≤ s.bitByte t then b = false
      else ∃ x, Memory.read s.inMem (s.bitByte t) = some x ∧ b = x.getLsbD ((31 - t % 32) % 8) := by
  simp only [hbit]
  split
  · simp [eq_comm]
  · simp only [Rule.bind_ok, inByte_eq_ok, Rule.pure_eq_ok, Except.ok.injEq]
    constructor <;> rintro ⟨x, hx, rfl⟩ <;> exact ⟨x, hx, rfl⟩

theorem hbit_ne_halt {s t : State} {i : Nat} : hbit s i ≠ .error (.halt t) := by
  simp only [hbit]
  split <;> simp [Rule.bind_error, inByte, written_ne_halt]

theorem peekFrom_ne_halt {s t : State} {m i acc : Nat} : peekFrom s m i acc ≠ .error (.halt t) := by
  induction m generalizing i acc with
  | zero => simp [peekFrom]
  | succ m ih => simp [peekFrom, Rule.bind_error, hbit_ne_halt, ih]

/-- Looking ahead takes no fault. -/
theorem peek_ne_halt {s t : State} {m : Nat} : peek s m ≠ .error (.halt t) := peekFrom_ne_halt

theorem peekFrom_lt {s : State} {m i acc v : Nat} (h : peekFrom s m i acc = .ok v) : v < (acc + 1) * 2 ^ m := by
  induction m generalizing i acc with
  | zero => cases h; simp
  | succ m ih =>
    obtain ⟨b, -, h⟩ := Rule.bind_ok.1 h
    have h1 := ih h
    have h2 : 2 * acc + b.toNat + 1 ≤ (acc + 1) * 2 := by have := Bool.toNat_le b; omega
    have h3 := Nat.mul_le_mul_right (2 ^ m) h2
    rw [pow_succ, Nat.mul_comm (2 ^ m) 2, ← Nat.mul_assoc]
    omega

/-- `peek(m)` is an `m`-bit number. -/
theorem peek_lt {s : State} {m v : Nat} (h : peek s m = .ok v) : v < 2 ^ m := by
  have := peekFrom_lt h; omega

/-- One more bit is the next bit of the stream, at the low end. -/
theorem peekFrom_succ {s : State} (m i acc : Nat) :
    peekFrom s (m + 1) i acc = do
      let v ← peekFrom s m i acc
      let b ← hbit s (i + m)
      return 2 * v + b.toNat := by
  induction m generalizing i acc with
  | zero => simp only [peekFrom, Rule.ok_bind, Nat.add_zero]; rfl
  | succ m ih =>
    rw [peekFrom]
    conv_rhs => rw [peekFrom]
    cases hb : hbit s i with
    | error e => rfl
    | ok b => simp only [Rule.ok_bind, ih]; rw [show i + 1 + m = i + (m + 1) by omega]

/-- Looking further ahead keeps the bits already seen. -/
theorem peek_shift {s : State} {m n v : Nat} (h : peek s (m + n) = .ok v) : peek s m = .ok (v / 2 ^ n) := by
  induction n generalizing v with
  | zero => simpa using h
  | succ n ih =>
    rw [peek, ← Nat.add_assoc, peekFrom_succ] at h
    simp only [Rule.bind_ok, Rule.pure_eq_ok, Except.ok.injEq] at h
    obtain ⟨w, hw, b, -, rfl⟩ := h
    rw [ih hw, pow_succ', ← Nat.div_div_eq_div_mul]
    congr 2
    have := Bool.toNat_le b
    omega

/-- Where the rest of the buffer has been written every look-ahead is defined. -/
theorem peek_of_ready {s : State} (h : s.bitsReady) (m : Nat) : ∃ v, peek s m = .ok v := by
  have hbits : ∀ t, ∃ b, hbit s t = .ok b := fun t => by
    simp only [hbit_eq_ok]
    by_cases hlt : s.inLen.toNat ≤ s.bitByte t
    · exact ⟨false, by rw [if_pos hlt]⟩
    · obtain ⟨x, hx⟩ := Option.isSome_iff_exists.1 (h _ (Nat.not_le.1 hlt) (by unfold State.bitByte; omega))
      exact ⟨_, by rw [if_neg hlt]; exact ⟨x, hx, rfl⟩⟩
  unfold peek
  generalize s.hbPos = i
  generalize 0 = acc
  induction m generalizing i acc with
  | zero => exact ⟨acc, rfl⟩
  | succ m ih =>
    obtain ⟨b, hb⟩ := hbits i
    obtain ⟨v, hv⟩ := ih (i + 1) (2 * acc + b.toNat)
    exact ⟨v, by rw [peekFrom, hb]; exact hv⟩

/-- Consuming bits moves the cursor, if they lie inside the buffer. -/
theorem consume_eq_ok {s t : State} {m : Nat} :
    consume s m = .ok t ↔ s.consumable m ∧ t = s.setHbPos (s.hbPos + m) := by
  by_cases h : s.consumable m
  · rw [consume, if_pos h]; exact ⟨fun e => ⟨h, (Except.ok.inj e).symm⟩, fun e => e.2 ▸ rfl⟩
  · rw [consume, if_neg h]; exact ⟨nofun, fun e => absurd e.1 h⟩

/-- Else it is `E_TRUNC` at the current word. -/
theorem consume_eq_halt {s t : State} {m : Nat} :
    consume s m = .error (.halt t) ↔ ¬ s.consumable m ∧ t = s.takeFault .trunc s.hbAddr := by
  by_cases h : s.consumable m
  · rw [consume, if_pos h]; exact ⟨nofun, fun e => absurd h e.1⟩
  · rw [consume, if_neg h, raise]; exact ⟨fun e => ⟨h, by cases e; rfl⟩, fun e => e.2 ▸ rfl⟩

theorem State.setHbPos_setHbPos (s : State) (p q : Nat) : (s.setHbPos p).setHbPos q = s.setHbPos q := rfl

/-- The cursor stands where it was put, below 2^37 bits. -/
theorem State.setHbPos_hbPos (s : State) {p : Nat} (h : p < 137438953472) : (s.setHbPos p).hbPos = p := by
  simp only [State.hbPos, State.setHbPos, BitVec.toNat_ofNat]
  omega

theorem State.setHbPos_bit_lt (s : State) (p : Nat) : (s.setHbPos p).hb.bit.toNat < 32 := by
  simp only [State.setHbPos, BitVec.toNat_ofNat]
  omega

/-! ## The table -/

theorem State.hlenOf_eq_ok {s : State} {x n : Nat} :
    s.hlenOf x = .ok n ↔ (Memory.read s.hlen x).isSome = true ∧ n = s.lenAt x := by
  simp only [State.hlenOf, Rule.bind_ok, written_eq_ok, Rule.pure_eq_ok, Except.ok.injEq, State.lenAt]
  cases hr : Memory.read s.hlen x with
  | none => simp
  | some v => simp [eq_comm]

theorem State.hlenOf_ne_halt {s t : State} {x : Nat} : s.hlenOf x ≠ .error (.halt t) := by
  simp [State.hlenOf, Rule.bind_error, written_ne_halt]

theorem State.hcodeOf_eq_ok {s : State} {x n : Nat} :
    s.hcodeOf x = .ok n ↔ (Memory.read s.hcode x).isSome = true ∧ n = s.codeAt x := by
  simp only [State.hcodeOf, Rule.bind_ok, written_eq_ok, Rule.pure_eq_ok, Except.ok.injEq, State.codeAt]
  cases hr : Memory.read s.hcode x with
  | none => simp
  | some v => simp [eq_comm]

theorem State.hcodeOf_ne_halt {s t : State} {x : Nat} : s.hcodeOf x ≠ .error (.halt t) := by
  simp [State.hcodeOf, Rule.bind_error, written_ne_halt]

/-- The entry of a symbol. -/
def State.entryAt (s : State) (x : Nat) : HufEntry := { sym := x, len := s.lenAt x, code := s.codeAt x }

/-- The entries are those of the symbols with a code, in order, each read. -/
theorem entriesOf_eq_ok {s : State} {xs : List Nat} {es : List HufEntry} :
    entriesOf s xs = .ok es ↔ (∀ x ∈ xs, (Memory.read s.hlen x).isSome = true
        ∧ (s.lenAt x ≠ 0 → (Memory.read s.hcode x).isSome = true))
      ∧ es = (xs.filter fun x => s.lenAt x ≠ 0).map s.entryAt := by
  induction xs generalizing es with
  | nil =>
    constructor
    · intro h; cases h; simp
    · rintro ⟨-, rfl⟩; rfl
  | cons x xs ih =>
    simp only [entriesOf, Rule.bind_ok, State.hlenOf_eq_ok]
    constructor
    · rintro ⟨l, ⟨hl, rfl⟩, h⟩
      by_cases hz : s.lenAt x = 0
      · rw [if_pos hz, ih] at h
        obtain ⟨hr, rfl⟩ := h
        refine ⟨fun y hy => ?_, by simp [hz]⟩
        rcases List.mem_cons.1 hy with rfl | hy
        · exact ⟨hl, fun h0 => absurd hz h0⟩
        · exact hr y hy
      · rw [if_neg hz] at h
        simp only [Rule.bind_ok, State.hcodeOf_eq_ok, ih, Rule.pure_eq_ok, Except.ok.injEq] at h
        obtain ⟨_, ⟨hc, rfl⟩, rest, ⟨hr, rfl⟩, rfl⟩ := h
        refine ⟨fun y hy => ?_, by simp [hz, State.entryAt]⟩
        rcases List.mem_cons.1 hy with rfl | hy
        · exact ⟨hl, fun _ => hc⟩
        · exact hr y hy
    · rintro ⟨h, rfl⟩
      refine ⟨_, ⟨(h x (by simp)).1, rfl⟩, ?_⟩
      have hr := fun y (hy : y ∈ xs) => h y (List.mem_cons_of_mem x hy)
      by_cases hz : s.lenAt x = 0
      · rw [if_pos hz, ih]; exact ⟨hr, by simp [hz]⟩
      · rw [if_neg hz]
        simp only [Rule.bind_ok, State.hcodeOf_eq_ok, ih, Rule.pure_eq_ok, Except.ok.injEq]
        exact ⟨_, ⟨(h x (by simp)).2 hz, rfl⟩, _, ⟨hr, rfl⟩, by simp [hz, State.entryAt]⟩

theorem entriesOf_ne_halt {s t : State} {xs : List Nat} : entriesOf s xs ≠ .error (.halt t) := by
  induction xs with
  | nil => simp [entriesOf]
  | cons x xs ih =>
    rw [entriesOf, ne_eq, Rule.bind_error]
    rintro (h | ⟨l, -, h⟩)
    · exact State.hlenOf_ne_halt h
    · by_cases hz : l = 0
      · rw [if_pos hz] at h; exact ih h
      · rw [if_neg hz] at h; simp [Rule.bind_error, State.hcodeOf_ne_halt, ih] at h

/-- No clash among the entries: of two different places neither entry's code is a prefix of the other's. -/
theorem anyClash_eq_false {es : List HufEntry} (h : anyClash es = false) : es.Pairwise fun x y => x.clash y = false := by
  induction es with
  | nil => exact .nil
  | cons x xs ih =>
    simp only [anyClash, Bool.or_eq_false_iff, List.any_eq_false] at h
    exact .cons (fun y hy => by simpa using h.1 y hy) (ih h.2)

/-- Inserting a code takes no fault, and changes the trie and the node count only. -/
theorem trieInsert_frame {sym : Nat} {bits : List Bool} {node : Nat} {s : State} :
    (∀ t, trieInsert sym bits node s ≠ .error (.halt t))
      ∧ ∀ t, trieInsert sym bits node s = .ok t →
        t = { s with trie := t.trie, huf := { s.huf with nNodes := t.huf.nNodes } } := by
  induction bits generalizing node s with
  | nil =>
    refine ⟨fun t => by simp [trieInsert, Rule.bind_error, written_ne_halt], fun t h => ?_⟩
    obtain ⟨n, -, h⟩ := Rule.bind_ok.1 h
    cases h; rfl
  | cons b bits ih =>
    refine ⟨fun t h => ?_, fun t h => ?_⟩
    · rcases Rule.bind_error.1 h with h | ⟨n, -, h⟩
      · exact written_ne_halt h
      · simp only at h; split at h <;> exact ih.1 t h
    · obtain ⟨n, -, h⟩ := Rule.bind_ok.1 h
      simp only at h; split at h
      · exact ih.2 t h
      · have := ih.2 t h; rw [this]

theorem trieInsertAll_frame {es : List HufEntry} {s : State} :
    (∀ t, trieInsertAll es s ≠ .error (.halt t))
      ∧ ∀ t, trieInsertAll es s = .ok t → t = { s with trie := t.trie, huf := { s.huf with nNodes := t.huf.nNodes } } := by
  induction es generalizing s with
  | nil => exact ⟨fun _ h => (by cases h), fun _ h => (by cases h; rfl)⟩
  | cons e es ih =>
    refine ⟨fun t h => ?_, fun t h => ?_⟩
    · rcases Rule.bind_error.1 h with h | ⟨s1, -, h⟩
      · exact trieInsert_frame.1 t h
      · exact ih.1 t h
    · obtain ⟨s1, h1, h⟩ := Rule.bind_ok.1 h
      have h2 := trieInsert_frame.2 s1 h1
      have h3 := ih.2 t h
      rw [h2] at h3; rw [h3]

/-- The descent ends in a symbol or by `E_HUFF_CODE` at the current word. -/
theorem trieDescend_eq_halt {s t : State} {left taken node : Nat} (h : trieDescend s left taken node = .error (.halt t)) :
    t = s.takeFault .hufCode s.hbAddr := by
  induction left generalizing taken node with
  | zero => cases h; rfl
  | succ left ih =>
    rcases Rule.bind_error.1 h with h | ⟨p, -, h⟩
    · exact absurd h peek_ne_halt
    rcases Rule.bind_error.1 h with h | ⟨n, -, h⟩
    · exact absurd h written_ne_halt
    split at h
    · cases h; rfl
    · rcases Rule.bind_error.1 h with h | ⟨m, -, h⟩
      · exact absurd h written_ne_halt
      · split at h
        · cases h
        · exact ih h

/-- A symbol moves the bit cursor and nothing else; its faults are `E_HUFF_CODE` and `E_TRUNC` at the current word. -/
theorem hufSym_eq_ok {s t : State} {x : Nat} (h : hufSym s = .ok (x, t)) : ∃ len, t = s.setHbPos (s.hbPos + len) := by
  simp only [hufSym, Rule.bind_ok] at h
  obtain ⟨q, -, e, -, h⟩ := h
  split at h
  · obtain ⟨s1, h1, h⟩ := Rule.bind_ok.1 h
    cases h; exact ⟨_, (consume_eq_ok.1 h1).2⟩
  · obtain ⟨r, -, h⟩ := Rule.bind_ok.1 h
    obtain ⟨s1, h1, h⟩ := Rule.bind_ok.1 h
    cases h; exact ⟨_, (consume_eq_ok.1 h1).2⟩

theorem hufSym_eq_halt {s t : State} (h : hufSym s = .error (.halt t)) :
    t = s.takeFault .hufCode s.hbAddr ∨ t = s.takeFault .trunc s.hbAddr := by
  rcases Rule.bind_error.1 h with h | ⟨q, -, h⟩
  · exact absurd h peek_ne_halt
  rcases Rule.bind_error.1 h with h | ⟨e, -, h⟩
  · exact absurd h written_ne_halt
  split at h
  · rcases Rule.bind_error.1 h with h | ⟨_, -, h⟩
    · exact .inr (consume_eq_halt.1 h).2
    · cases h
  · rcases Rule.bind_error.1 h with h | ⟨_, -, h⟩
    · exact .inl (trieDescend_eq_halt h)
    rcases Rule.bind_error.1 h with h | ⟨_, -, h⟩
    · exact .inr (consume_eq_halt.1 h).2
    · cases h

/-- The predictor reads and takes no fault. -/
theorem predictor_ne_halt {s t : State} {d k : Nat} : predictor s d k ≠ .error (.halt t) := by
  intro h
  simp only [predictor] at h
  have hrest : ∀ left : Bool, (if left = true then (pure s.hpPrev.toNat : Rule Nat) else do
      let above ← if k < s.h.width.toNat then .ok false else s.valid (k - s.h.width.toNat)
      if above then return (← s.readPix s.band.toNat (d * s.np + k - s.h.width.toNat)).byte
      else return s.hpPrev.toNat) ≠ .error (.halt t) := by
    intro left h
    cases left
    · rw [if_neg (by simp)] at h
      have hab : ∀ above : Bool, (if above = true then (do
          return (← s.readPix s.band.toNat (d * s.np + k - s.h.width.toNat)).byte : Rule Nat)
          else return s.hpPrev.toNat) ≠ .error (.halt t) := by
        intro above; cases above <;> simp [Rule.bind_error, State.readPix_ne_halt]
      by_cases hk : k < s.h.width.toNat
      · rw [if_pos hk] at h; exact hab false h
      · rw [if_neg hk] at h
        rcases Rule.bind_error.1 h with h | ⟨above, -, h⟩
        · exact State.valid_ne_halt h
        · exact hab above h
    · rw [if_pos rfl] at h; cases h
  by_cases hk : k % s.h.width.toNat = 0
  · rw [if_pos hk] at h; exact hrest false h
  · rw [if_neg hk] at h
    rcases Rule.bind_error.1 h with h | ⟨left, -, h⟩
    · exact State.valid_ne_halt h
    · exact hrest left h

end Sys2Proof.Machine
end

