-- ==== Sys2Proof/Laws/Keeps.lean ====
section
/-!
SUPPORT. Postconditions of rules, composed part by part; and with them what every instruction leaves due: the phase it was
run in, or, after a fault, nothing.
-/

namespace Sys2Proof.Machine

variable {α β : Type}

/-- The rule completes only with a value that meets `P`, and faults only into a state that meets `Q`. -/
def Rule.Meets (P : α → Prop) (Q : State → Prop) (r : Rule α) : Prop :=
  (∀ a, r = .ok a → P a) ∧ ∀ t, r = .error (.halt t) → Q t

namespace Rule.Meets

variable {P P' : α → Prop} {R : β → Prop} {Q : State → Prop}

theorem ok {a : α} (h : P a) : Rule.Meets P Q (.ok a) :=
  ⟨fun _ e => by cases e; exact h, fun _ e => by cases e⟩

theorem pure {a : α} (h : P a) : Rule.Meets P Q (Pure.pure a) := ok h

/-- Two parts: the second meets its postcondition after whatever the first completes with. -/
theorem bind {r : Rule α} {f : α → Rule β} (h : Rule.Meets P Q r) (hf : ∀ a, P a → Rule.Meets R Q (f a)) :
    Rule.Meets R Q (r >>= f) := by
  refine ⟨fun b e => ?_, fun t e => ?_⟩
  · obtain ⟨a, ha, hb⟩ := Rule.bind_ok.1 e
    exact (hf a (h.1 a ha)).1 b hb
  · rcases Rule.bind_error.1 e with he | ⟨a, ha, he⟩
    · exact h.2 t he
    · exact (hf a (h.1 a ha)).2 t he

theorem mono {r : Rule α} (h : Rule.Meets P Q r) (hp : ∀ a, P a → P' a) : Rule.Meets P' Q r :=
  ⟨fun a e => hp a (h.1 a e), h.2⟩

theorem ite {c : Prop} [Decidable c] {x y : Rule α} (hx : Rule.Meets P Q x) (hy : Rule.Meets P Q y) :
    Rule.Meets P Q (if c then x else y) := by
  split <;> assumption

end Rule.Meets

/-! ## Faults stop the engine -/

/-- The state after a fault: not `BUSY`. -/
abbrev stopped (t : State) : Prop := t.busy = false

/-- A reader: whatever it answers, its faults stop the engine. -/
abbrev Rule.Reads (r : Rule α) : Prop := r.Meets (fun _ => True) stopped

theorem raise_meets (P : α → Prop) (s : State) (code : ErrCode) (info : Nat) :
    Rule.Meets P stopped (raise s code info) := by
  constructor <;> intro t e <;> cases e
  rfl

theorem raiseIf_reads (s : State) (test : Bool) (code : ErrCode) (info : Nat) : (raiseIf s test code info).Reads :=
  Rule.Meets.ite (raise_meets _ _ _ _) (.ok trivial)

/-- A rule that takes no fault is a reader. -/
theorem reads_of_ne_halt {r : Rule α} (h : ∀ t, r ≠ .error (.halt t)) : r.Reads :=
  ⟨fun _ _ => trivial, fun t e => absurd e (h t)⟩

/-- A rule whose faults are faults taken is a reader. -/
theorem reads_of_taken {r : Rule α} (h : ∀ t, r = .error (.halt t) → ∃ u code info, t = State.takeFault u code info) :
    r.Reads :=
  ⟨fun _ _ => trivial, fun t e => by obtain ⟨u, c, i, rfl⟩ := h t e; rfl⟩

theorem memCheck_reads (s : State) (a n : Nat) : (memCheck s a n).Reads :=
  Rule.Meets.ite (.ok trivial) (raise_meets _ _ _ _)

theorem memRead_reads (s : State) (a n : Nat) : (memRead s a n).Reads :=
  (memCheck_reads s a n).bind fun _ _ => reads_of_ne_halt fun _ => inBytes_ne_halt

theorem readLe_reads (s : State) (a n : Nat) : (readLe s a n).Reads :=
  (memRead_reads s a n).bind fun _ _ => .pure trivial

theorem readElem_reads (s : State) (ty : EType) (a : Nat) : (readElem s ty a).Reads :=
  (readLe_reads s a _).bind fun _ _ => .pure trivial

theorem readElems_reads (s : State) (ty : EType) (a n : Nat) : (readElems s ty a n).Reads := by
  induction n generalizing a with
  | zero => exact .ok trivial
  | succ n ih => exact (readElem_reads s ty a).bind fun _ _ => (ih _).bind fun _ _ => .pure trivial

theorem tileValid_reads (s : State) : s.tileValid.Reads := reads_of_ne_halt fun _ => State.validOf_ne_halt

/-! ## What a record leaves as it was -/

/-- What no instruction that completes changes: what is due, whether a call runs, the host's port. -/
abbrev samePhase (s t : State) : Prop := t.seq = s.seq ∧ t.busy = s.busy ∧ t.port = s.port

/-- What no block or tile record changes either: the header and the place of the tile. -/
abbrev sameTile (s t : State) : Prop :=
  samePhase s t ∧ t.h = s.h ∧ t.t.x0 = s.t.x0 ∧ t.t.y0 = s.t.y0 ∧ t.t.width = s.t.width ∧ t.t.height = s.t.height
    ∧ t.t.dim = s.t.dim

theorem sameTile.trans {s t u : State} (h : sameTile s t) (k : sameTile t u) : sameTile s u := by
  simp only [sameTile, samePhase] at *
  simp only [k, h, and_self]

theorem samePhase.trans {s t u : State} (h : samePhase s t) (k : samePhase t u) : samePhase s u := by
  simp only [samePhase] at *
  simp only [k, h, and_self]

/-- A rule that completes as `P` says and whose faults stop the engine. -/
abbrev Rule.Keeps (P : State → State → Prop) (s : State) (r : Rule State) : Prop := r.Meets (P s) stopped

/-! ### The shared parts -/

theorem czHead_keeps (s : State) (mode : BitVec 2) (off : CzOffset) : (czHead s mode off).Keeps sameTile s :=
  (raiseIf_reads _ _ _ _).bind fun _ _ => .pure (by simp [sameTile, samePhase, State.advance])

theorem State.deliver_sameTile (s : State) (d : Nat) (ks : List Nat) (vs : List F64) : sameTile s (s.deliver d ks vs) := by
  simp [sameTile, samePhase, State.deliver, State.putPix]

theorem State.advance_sameTile (s : State) (n : Nat) : sameTile s (s.advance n) := by
  simp [sameTile, samePhase, State.advance]

theorem czDeliver_sameTile (s : State) (ks : List Nat) (vs : List F64) : sameTile s (czDeliver s ks vs) := by
  simp [sameTile, samePhase, czDeliver, State.deliver, State.putPix]

/-- The unpacker changes `CODES` and its cursor. -/
theorem unpk_meets (s : State) (conv : Conv) (a n k : Nat) :
    (unpk s conv a n k).Meets (fun r => sameTile s r.2 ∧ r.2.bare = s.bare) stopped := by
  refine ⟨fun r h => ?_, fun t h => ?_⟩
  · obtain ⟨-, bytes, -, -, -, hr⟩ := unpk_eq_ok (codes := r.1) (t := r.2).1 h
    rw [hr]; simp [sameTile, samePhase, State.withCodes]
  · rcases unpk_eq_halt.1 h with ⟨-, rfl⟩ | ⟨-, -, -, rfl⟩ <;> rfl

theorem tileHead_keeps (s : State) (mode otype : BitVec 2) (tag : BitVec 4) :
    (tileHead s mode otype tag).Keeps (fun s t => sameTile s t ∧ t.t.mode = mode) s :=
  (raiseIf_reads _ _ _ _).bind fun _ _ => (raiseIf_reads _ _ _ _).bind fun _ _ =>
    .pure (by simp [sameTile, samePhase, State.advance])

theorem originField_keeps (s : State) : (originField s).Keeps (fun s t => sameTile s t ∧ t.t.mode = s.t.mode) s := by
  unfold originField
  split
  · exact raise_meets _ _ _ _
  · exact (readElem_reads _ _ _).bind fun _ _ => .pure (by simp [sameTile, samePhase, State.advance])

/-! ### Blocks and tiles -/

theorem czRaw_keeps (s : State) (off : CzOffset) : (czRaw s off).Keeps sameTile s :=
  (czHead_keeps s _ off).bind fun u hu => (tileValid_reads u).bind fun _ _ => (memCheck_reads _ _ _).bind fun _ _ =>
    (readElems_reads _ _ _ _).bind fun _ _ => .pure ((hu.trans (czDeliver_sameTile _ _ _)).trans (State.advance_sameTile _ _))

theorem czBs_keeps (s : State) (off : CzOffset) (bits : BitVec 6) (count : CountField) :
    (czBs s off bits count).Keeps sameTile s := by
  refine (czHead_keeps s _ off).bind fun u hu => ?_
  refine (raiseIf_reads _ _ _ _).bind fun _ _ => (raiseIf_reads _ _ _ _).bind fun _ _ => ?_
  refine (tileValid_reads _).bind fun ks _ => (raiseIf_reads _ _ _ _).bind fun _ _ => ?_
  refine (unpk_meets _ _ _ _ _).bind fun r hr => .pure ?_
  refine sameTile.trans ?_ (czDeliver_sameTile _ _ _)
  refine sameTile.trans ?_ (State.advance_sameTile _ _)
  refine (hu.trans ?_).trans hr.1
  simp [sameTile, samePhase, State.advance]

theorem czConst_keeps (s : State) (off : CzOffset) : (czConst s off).Keeps sameTile s :=
  (czHead_keeps s _ off).bind fun u hu => (tileValid_reads u).bind fun _ _ => .pure (hu.trans (czDeliver_sameTile _ _ _))

theorem l2TileRaw_keeps (s : State) (otype : BitVec 2) (tag : BitVec 4) :
    (l2TileRaw s otype tag).Keeps (fun s t => sameTile s t ∧ t.t.mode = 0#2) s :=
  (tileHead_keeps s _ otype tag).bind fun u hu => (tileValid_reads u).bind fun _ _ => (memCheck_reads _ _ _).bind fun _ _ =>
    (readElems_reads _ _ _ _).bind fun _ _ =>
      .pure ⟨(hu.1.trans (State.deliver_sameTile _ _ _ _)).trans (State.advance_sameTile _ _), hu.2⟩

theorem l2TileBs_keeps (s : State) (otype : BitVec 2) (tag : BitVec 4) :
    (l2TileBs s otype tag).Keeps (fun s t => sameTile s t ∧ t.t.mode = 1#2) s :=
  (tileHead_keeps s _ otype tag).bind fun _ hu => (originField_keeps _).bind fun _ hv =>
    .pure ⟨(hu.1.trans hv.1).trans (by simp [sameTile, samePhase]), hv.2.trans hu.2⟩

theorem l2TileXb_keeps (s : State) (otype : BitVec 2) (tag : BitVec 4) :
    (l2TileXb s otype tag).Keeps (fun s t => sameTile s t ∧ t.t.mode = 2#2) s := by
  refine (tileHead_keeps s _ otype tag).bind fun u hu => (tileValid_reads u).bind fun _ _ => .ite ?_ ?_
  · exact Rule.Meets.bind (P := fun _ => True) (reads_of_ne_halt fun _ => refElems_ne_halt) fun _ _ =>
      .pure ⟨hu.1.trans (by simp [sameTile, samePhase, State.putPix]), hu.2⟩
  · exact .pure ⟨hu.1.trans (State.deliver_sameTile _ _ _ _), hu.2⟩

theorem l2TileConst_keeps (s : State) (otype : BitVec 2) (tag : BitVec 4) :
    (l2TileConst s otype tag).Keeps (fun s t => sameTile s t ∧ t.t.mode = 3#2) s :=
  (tileHead_keeps s _ otype tag).bind fun _ hu => (originField_keeps _).bind fun v hv => (tileValid_reads v).bind fun _ _ =>
    (reads_of_ne_halt fun _ => tileValues_ne_halt).bind fun _ _ =>
      .pure ⟨(hu.1.trans hv.1).trans (State.deliver_sameTile _ _ _ _), hv.2.trans hu.2⟩

theorem tileDeliver_keeps (s : State) : (tileDeliver s).Keeps sameTile s :=
  (tileValid_reads s).bind fun _ _ => (reads_of_ne_halt fun _ => tileValues_ne_halt).bind fun _ _ =>
    .pure (State.deliver_sameTile _ _ _ _)

/-! ### The other records and operations -/

theorem State.advance_samePhase (s : State) (n : Nat) : samePhase s (s.advance n) := by simp [samePhase, State.advance]

theorem samePhase_rfl (s : State) : samePhase s s := ⟨rfl, rfl, rfl⟩

theorem rmdStart_keeps (s : State) (numBytes : Word) :
    (rmdStart s numBytes).Keeps (fun s t => samePhase s t ∧ t.h = s.h) s :=
  (memCheck_reads _ _ _).bind fun _ _ => .pure (by simp [samePhase])

theorem setFormat_keeps (s : State) (f : Format) : (setFormat s f).Keeps (fun s t => samePhase s t ∧ t.h.fmt = f) s :=
  (raiseIf_reads _ _ _ _).bind fun _ _ => .pure (by simp [samePhase])

theorem czHdr_keeps (s : State) (v i h w : Word) (e : F64) : (czHdr s v i h w e).Keeps samePhase s :=
  (raiseIf_reads _ _ _ _).bind fun _ _ => (raiseIf_reads _ _ _ _).bind fun _ _ => .pure (by simp [samePhase, State.advance])

theorem czMsec_keeps (s : State) (nby nbx n : Word) (m : F32) : (czMsec s nby nbx n m).Keeps samePhase s :=
  .ite (.ok (by simp [samePhase, State.advance]))
    ((rmdStart_keeps _ _).mono fun _ h => .trans (by simp [samePhase, State.advance]) h.1)

theorem czPsec_keeps (s : State) (nby nbx n : Word) (m : F32) : (czPsec s nby nbx n m).Keeps samePhase s :=
  (raiseIf_reads _ _ _ _).bind fun _ _ => .pure (by simp [samePhase, State.advance])

theorem rleLit_keeps (s : State) (run : BitVec 16) : (rleLit s run).Keeps samePhase s :=
  (raiseIf_reads _ _ _ _).bind fun _ _ => (raiseIf_reads _ _ _ _).bind fun _ _ => (memRead_reads _ _ _).bind fun _ _ =>
    .pure (by simp [samePhase, State.rlPut, State.rlHead])

theorem rleRep_keeps (s : State) (run : BitVec 16) : (rleRep s run).Keeps samePhase s :=
  (raiseIf_reads _ _ _ _).bind fun _ _ => (raiseIf_reads _ _ _ _).bind fun _ _ => (memRead_reads _ _ _).bind fun _ _ =>
    .pure (by simp [samePhase, State.rlPut, State.rlHead])

theorem rleEnd_keeps (s : State) : (rleEnd s).Keeps samePhase s :=
  (raiseIf_reads _ _ _ _).bind fun _ _ => (raiseIf_reads _ _ _ _).bind fun _ _ => .pure (by simp [samePhase, State.rlHead])

theorem maskExpand_keeps (s : State) : (maskExpand s).Keeps samePhase s :=
  (reads_of_ne_halt fun _ => expandBits_ne_halt).bind fun _ _ => .pure (by simp [samePhase])

theorem l2Hdr_keeps (s : State) (header : L2Header) : (l2Hdr s header).Keeps samePhase s := by
  cases header with
  | unsupported v => exact raise_meets _ _ _ _
  | fields => exact (raiseIf_reads _ _ _ _).bind fun _ _ => .pure (by simp [samePhase, State.advance])

theorem checkValidCount_keeps (s : State) : (checkValidCount s).Keeps (fun s t => t = s) s :=
  (reads_of_ne_halt fun _ => State.nvalid_ne_halt).bind fun _ _ => (raiseIf_reads _ _ _ _).bind fun _ _ => .pure rfl

theorem l2Mask_keeps (s : State) (numBytes : Word) :
    (l2Mask s numBytes).Keeps (fun s t => samePhase s t ∧ t.h = { s.h with maskBytes := numBytes }) s := by
  refine .ite ?_ (.ite ?_ ?_)
  · exact (raiseIf_reads _ _ _ _).bind fun _ _ => .pure (by simp [samePhase, State.advance])
  · exact (rmdStart_keeps _ _).mono fun _ h => ⟨.trans (by simp [samePhase, State.advance]) h.1, h.2⟩
  · exact (raiseIf_reads _ _ _ _).bind fun _ _ => (checkValidCount_keeps _).mono fun _ h => by
      subst h; simp [samePhase, State.advance]

theorem l2Ranges_keeps (s : State) : (l2Ranges s).Keeps samePhase s :=
  (readElems_reads _ _ _ _).bind fun _ _ => (readElems_reads _ _ _ _).bind fun _ _ =>
    .pure (by simp [samePhase, State.advance])

theorem l2Sweep_keeps (s : State) : (l2Sweep s).Keeps samePhase s :=
  (memCheck_reads _ _ _).bind fun _ _ => (readElems_reads _ _ _ _).bind fun _ _ =>
    (reads_of_ne_halt fun _ => State.validOf_ne_halt).bind fun _ _ =>
      .pure (by simp [samePhase, State.advance, State.putPix])

theorem l2HfPlain_keeps (s : State) : (l2HfPlain s).Keeps samePhase s :=
  (raiseIf_reads _ _ _ _).bind fun _ _ => .pure (by simp [samePhase, State.advance])

theorem surfDims_keeps (source : SurfSource) (ks ds : List Nat) (s : State) :
    (surfDims source ks ds s).Keeps samePhase s := by
  induction ds generalizing s with
  | nil => exact .ok (samePhase_rfl s)
  | cons d ds ih =>
    exact Rule.Meets.bind (P := fun _ => True) (reads_of_ne_halt fun _ => surfValue_ne_halt) fun _ _ =>
      (ih _).mono fun _ h => .trans (by simp [samePhase, State.putPix]) h

theorem constSurf_keeps (s : State) (source : SurfSource) : (constSurf s source).Keeps samePhase s :=
  (reads_of_ne_halt fun _ => State.validOf_ne_halt).bind fun _ _ => surfDims_keeps _ _ _ _

theorem f32Sum_keeps (s : State) (a n : Nat) : (f32Sum s a n).Keeps samePhase s :=
  (memRead_reads _ _ _).bind fun _ _ => .pure (by simp [samePhase])

theorem bs2Head_keeps (s : State) (lutf : Bool) (numBits : BitVec 5) (count : CountField) :
    (bs2Head s lutf numBits count).Keeps (fun s t => samePhase s t ∧ t.bare = s.bare) s := by
  refine (raiseIf_reads _ _ _ _).bind fun _ _ => .ite ?_ ?_
  · exact (raiseIf_reads _ _ _ _).bind fun _ _ => .pure (by simp [samePhase, State.advance])
  · exact (tileValid_reads _).bind fun _ _ => (raiseIf_reads _ _ _ _).bind fun _ _ =>
      .pure (by simp [samePhase, State.advance])

theorem bs2Aff_keeps (s : State) (numBits : BitVec 5) (count : CountField) :
    (bs2Aff s numBits count).Keeps (fun s t => samePhase s t ∧ t.bare = s.bare) s := by
  refine (bs2Head_keeps _ _ _ _).bind fun u hu => ?_
  refine Rule.Meets.bind (P := fun _ => True) (reads_of_ne_halt fun _ => bs2Args_ne_halt) fun _ _ => ?_
  refine (unpk_meets _ _ _ _ _).bind fun r hr => .pure ⟨(hu.1.trans hr.1.1).trans ?_, ?_⟩
  · simp [samePhase, State.advance]
  · simpa [State.advance] using hr.2.trans hu.2

theorem lutLoad_keeps (s : State) (args : RemapArgs) :
    (lutLoad s args).Keeps (fun s t => samePhase s t ∧ t.bare = s.bare) s :=
  (unpk_meets _ _ _ _ _).bind fun r hr => .pure
    ⟨hr.1.1.trans (by simp [samePhase, State.advance]), by simpa [State.advance] using hr.2⟩

theorem remapLut_reads (s : State) (c : Nat) : (remapLut s c).Reads :=
  (raiseIf_reads _ _ _ _).bind fun _ _ => reads_of_ne_halt fun _ => written_ne_halt

theorem remapLutAll_reads (s : State) (cs : List Nat) : (remapLutAll s cs).Reads := by
  induction cs with
  | nil => exact .ok trivial
  | cons c cs ih => exact (remapLut_reads s c).bind fun _ _ => ih.bind fun _ _ => .pure trivial

theorem bs2Lut_keeps (s : State) (numBits : BitVec 5) (count : CountField) :
    (bs2Lut s numBits count).Keeps (fun s t => samePhase s t ∧ t.bare = s.bare) s := by
  refine (bs2Head_keeps _ _ _ _).bind fun u hu => (readLe_reads _ _ _).bind fun _ _ => (raiseIf_reads _ _ _ _).bind fun _ _ => ?_
  refine Rule.Meets.bind (P := fun _ => True) (reads_of_ne_halt fun _ => bs2Args_ne_halt) fun _ _ => ?_
  refine (lutLoad_keeps _ _).bind fun v hv => (unpk_meets _ _ _ _ _).bind fun r hr => ?_
  refine (remapLutAll_reads _ _).bind fun _ _ => .pure ⟨?_, ?_⟩
  · refine ((hu.1.trans (.trans ?_ hv.1)).trans hr.1.1).trans ?_ <;> simp [samePhase, State.advance]
  · simpa [State.advance, hu.2] using hr.2.trans hv.2

theorem hufTable_keeps (s : State) (v n i j : Word) :
    (hufTable s v n i j).Keeps (fun s t => samePhase s t ∧ t.bare = true) s :=
  (raiseIf_reads _ _ _ _).bind fun _ _ => (raiseIf_reads _ _ _ _).bind fun _ _ => (raiseIf_reads _ _ _ _).bind fun _ _ =>
    (raiseIf_reads _ _ _ _).bind fun _ _ => .pure (by simp [samePhase, State.advance])

theorem maskAnd_keeps (s : State) : (maskAnd s).Keeps samePhase s :=
  (reads_of_ne_halt fun _ => andMask_ne_halt).bind fun _ _ => .pure (by simp [samePhase])

theorem reshapeBands_keeps (bs : List Nat) (s : State) : (reshapeBands bs s).Keeps samePhase s := by
  induction bs generalizing s with
  | nil => exact .ok (samePhase_rfl s)
  | cons b bs ih =>
    refine Rule.Meets.bind (P := fun _ => True) (reads_of_ne_halt fun _ => written_ne_halt) fun _ _ => .ite ?_ (ih s)
    exact Rule.Meets.bind (P := fun _ => True) (reads_of_ne_halt fun _ => readPixAll_ne_halt) fun _ _ =>
      (ih _).mono fun _ h => .trans (by simp [samePhase]) h

theorem reshape_keeps (s : State) : (reshape s).Keeps samePhase s := .ite (reshapeBands_keeps _ _) (.ok (samePhase_rfl s))

/-! ### The Huffman operations -/

theorem hufSym_meets (s : State) : (hufSym s).Meets (fun r => samePhase s r.2) stopped := by
  refine ⟨fun r h => ?_, fun t h => ?_⟩
  · obtain ⟨len, hr⟩ := hufSym_eq_ok (x := r.1) (t := r.2) h
    rw [hr]; simp [samePhase, State.setHbPos]
  · rcases hufSym_eq_halt h with rfl | rfl <;> rfl

theorem trieInsertAll_keeps (es : List HufEntry) (s : State) : (trieInsertAll es s).Keeps samePhase s :=
  ⟨fun t h => by rw [trieInsertAll_frame.2 t h]; exact ⟨rfl, rfl, rfl⟩, fun t h => absurd h (trieInsertAll_frame.1 t)⟩

theorem hufBuild_keeps (s : State) : (hufBuild s).Keeps samePhase s :=
  (reads_of_ne_halt fun _ => entriesOf_ne_halt).bind fun _ _ =>
    (trieInsertAll_keeps _ _).mono fun _ h => .trans ⟨rfl, rfl, rfl⟩ h

theorem plainSample_keeps (s : State) (d k : Nat) : (plainSample s d k).Keeps samePhase s :=
  (hufSym_meets s).bind fun _ h => .pure (h.trans ⟨rfl, rfl, rfl⟩)

theorem deltaPixel_keeps (s : State) (d k : Nat) : (deltaPixel s d k).Keeps samePhase s :=
  (hufSym_meets s).bind fun _ h => (reads_of_ne_halt fun _ => predictor_ne_halt).bind fun _ _ =>
    .pure (h.trans ⟨rfl, rfl, rfl⟩)

theorem planeLoop_keeps {f : State → Nat → Nat → Rule State} (hf : ∀ s d k, (f s d k).Keeps samePhase s)
    (cs : List (Nat × Nat)) (s : State) : (planeLoop f cs s).Keeps samePhase s := by
  induction cs generalizing s with
  | nil => exact .ok (samePhase_rfl s)
  | cons c cs ih => exact (hf s _ _).bind fun _ h => (ih _).mono fun _ k => h.trans k

theorem deltaDims_keeps (ks ds : List Nat) (s : State) : (deltaDims ks ds s).Keeps samePhase s := by
  induction ds generalizing s with
  | nil => exact .ok (samePhase_rfl s)
  | cons d ds ih =>
    exact (planeLoop_keeps deltaPixel_keeps _ _).bind fun _ h =>
      (ih _).mono fun _ k => .trans (.trans ⟨rfl, rfl, rfl⟩ h) k

theorem hufPlane_keeps (s : State) (mode : PlaneMode) : (hufPlane s mode).Keeps samePhase s :=
  (reads_of_ne_halt fun _ => State.validOf_ne_halt).bind fun _ _ => by
    cases mode
    · exact deltaDims_keeps _ _ _
    · exact planeLoop_keeps plainSample_keeps _ _

/-! ## Every instruction of a call -/

/-- What a rule keeps, read off the outcome of its instruction. -/
theorem Rule.Keeps.next {P : State → State → Prop} {s t : State} {r : Rule State} (h : r.Keeps P s)
    (e : r.outcome = .next t) : t.busy = false ∨ P s t := by
  rcases Rule.outcome_eq_next.1 e with e | e
  · exact .inr (h.1 t e)
  · exact .inl (h.2 t e)

/-- An instruction other than `CMD.GO` takes a fault and stops the engine, or leaves what is due, `BUSY` and the host's
port as they were: the sequence rules alone say what is due next. -/
theorem exec_samePhase {i : Instr} {s t : State} (hi : ∀ x, i ≠ .cmdGo x) (h : exec i s = .next t) :
    t.busy = false ∨ samePhase s t := by
  cases i with
  | cmdGo x => exact absurd rfl (hi x)
  | idCntz _ _ => exact ((setFormat_keeps s _).next h).imp_right And.left
  | idLerc2 _ => exact ((setFormat_keeps s _).next h).imp_right And.left
  | czHdr _ _ _ _ _ => exact (czHdr_keeps s _ _ _ _ _).next h
  | czMsec _ _ _ _ => exact (czMsec_keeps s _ _ _ _).next h
  | czPsec _ _ _ _ => exact (czPsec_keeps s _ _ _ _).next h
  | czRaw off => exact ((czRaw_keeps s off).next h).imp_right And.left
  | czBs off b c => exact ((czBs_keeps s off b c).next h).imp_right And.left
  | czConst off => exact ((czConst_keeps s off).next h).imp_right And.left
  | czRsvd _ => exact Rule.Keeps.next (raise_meets _ s _ _) h
  | rleLit run => exact (rleLit_keeps s run).next h
  | rleRep run => exact (rleRep_keeps s run).next h
  | rleEnd => exact (rleEnd_keeps s).next h
  | rleZero => exact Rule.Keeps.next (raise_meets _ _ _ _) h
  | l2Hdr header => exact (l2Hdr_keeps s header).next h
  | l2Mask n => exact ((l2Mask_keeps s n).next h).imp_right And.left
  | l2Ranges => exact (l2Ranges_keeps s).next h
  | l2Sweep _ => exact (l2Sweep_keeps s).next h
  | l2Body => cases h; exact .inr ⟨rfl, rfl, rfl⟩
  | l2HfTiles => cases h; exact .inr ⟨rfl, rfl, rfl⟩
  | l2HfDelta => cases h; exact .inr ⟨rfl, rfl, rfl⟩
  | l2HfPlain => exact (l2HfPlain_keeps s).next h
  | l2TileRaw o g => exact ((l2TileRaw_keeps s o g).next h).imp_right fun k => k.1.1
  | l2TileBs o g => exact ((l2TileBs_keeps s o g).next h).imp_right fun k => k.1.1
  | l2TileXb o g => exact ((l2TileXb_keeps s o g).next h).imp_right fun k => k.1.1
  | l2TileConst o g => exact ((l2TileConst_keeps s o g).next h).imp_right fun k => k.1.1
  | bs2Aff n c => exact ((bs2Aff_keeps s n c).next h).imp_right And.left
  | bs2Lut n c => exact ((bs2Lut_keeps s n c).next h).imp_right And.left
  | hufTable _ _ _ _ => exact ((hufTable_keeps s _ _ _ _).next h).imp_right And.left
  | unpkL a n k =>
    exact Rule.Keeps.next ((unpk_meets s .legacy a.toNat n.toNat k.toNat).bind fun _ h => .pure h.1.1) h
  | unpkM a n k =>
    exact Rule.Keeps.next ((unpk_meets s .msbf a.toNat n.toNat k.toNat).bind fun _ h => .pure h.1.1) h
  | remapAff _ _ _ _ _ => cases h; exact .inr ⟨rfl, rfl, rfl⟩
  | remapLut c =>
    exact Rule.Keeps.next (r := do return { s with opResult := ← remapLut s c.toNat })
      ((remapLut_reads s c.toNat).bind fun _ _ => .pure ⟨rfl, rfl, rfl⟩) h
  | maskExpand => exact (maskExpand_keeps s).next h
  | f32Sum a n => exact (f32Sum_keeps s _ _).next h
  | hufBuild => exact (hufBuild_keeps s).next h
  | hufSym =>
    exact Rule.Keeps.next (r := do let (sym, s1) ← hufSym s; return { s1 with opResult := BitVec.ofNat 64 sym })
      ((hufSym_meets s).bind fun _ k => .pure (k.trans ⟨rfl, rfl, rfl⟩)) h
  | hufPlane m => exact (hufPlane_keeps s m).next h
  | constSurf c => exact (constSurf_keeps s c).next h
  | maskAnd => exact (maskAnd_keeps s).next h
  | reshape => exact (reshape_keeps s).next h

end Sys2Proof.Machine
end

