-- ==== Sys2Proof/Tests/Slice0.lean ====
section
/-!
SUPPORT. Tests: ill-formed terms, words written out from the encoding tables, one step of each instruction on the spec's
examples, and for each statement with hypotheses or clauses a state and operands that meet them.
-/

namespace Sys2Proof.Tests

set_option Elab.async false

open Sys2Proof.Machine

/-! ## Helpers -/

/-- A busy machine with these bytes in `IN`. -/
def busyWith (bytes : List Byte) : State :=
  { State.reset with busy := true, inMem := Memory.cellsFrom 0 bytes, inLen := BitVec.ofNat 32 bytes.length }

/-- An image of one tile, all of it valid. -/
def State.image (s : State) (w ht : Word) : State :=
  { s with h := { s.h with width := w, height := ht, nDim := 1 }, t := { s.t with width := w, height := ht } }

/-- A part of the next state, if there is one. -/
def after {α : Type} (o : Host.Outcome State Fault Refusal) (f : State → α) : Option α :=
  match o with
  | .next t => some (f t)
  | _ => none

theorem exists_of_after {α : Type} {o : Host.Outcome State Fault Refusal} {f : State → α} {v : α}
    (h : after o f = some v) : ∃ t, o = .next t ∧ f t = v := by
  cases o with
  | next t => exact ⟨t, rfl, Option.some.inj h⟩
  | fault _ => cases h
  | refused _ => cases h

/-- The bits stored at `PIX[0][i]`. -/
def pixBits (t : State) (i : Nat) : Option (BitVec 64) := (Memory.read t.pix i).map Elem.bits

/-- The error flag, code and value. -/
def faultOf (t : State) : Bool × BitVec 8 × Word := (t.err, t.errCode, t.errInfo)

/-! ## Ill-formed terms (each check of WellFormed) -/

theorem test_wf_idCntz_space : Instr.wf (.idCntz false 0x41) = false := by decide
theorem test_wf_czBs_invalid_bits : Instr.wf (.czBs .invalid 1 .invalid) = false := by decide
theorem test_wf_czBs_invalid_count : Instr.wf (.czBs .invalid 0 (.uint8 0)) = false := by decide
theorem test_wf_czRsvd_header : Instr.wf (.czRsvd 0x02) = false := by decide
theorem test_wf_rleLit_zero : Instr.wf (.rleLit 0) = false := by decide
theorem test_wf_rleLit_negative : Instr.wf (.rleLit 0x8001) = false := by decide
theorem test_wf_rleRep_sentinel : Instr.wf (.rleRep 0x8000) = false := by decide
theorem test_wf_rleRep_positive : Instr.wf (.rleRep 1) = false := by decide
theorem test_wf_l2Hdr_supported : Instr.wf (.l2Hdr (.unsupported 5)) = false := by decide
theorem test_wf_l2Hdr_version : Instr.wf (.l2Hdr (.fields 6 0 1 1 1 1 1 66 1 0 0 0)) = false := by decide
theorem test_wf_l2Hdr_checksum : Instr.wf (.l2Hdr (.fields 2 1 1 1 1 1 1 66 1 0 0 0)) = false := by decide
theorem test_wf_l2Hdr_numDims : Instr.wf (.l2Hdr (.fields 3 1 1 1 2 1 1 66 1 0 0 0)) = false := by decide
theorem test_wf_l2Sweep_zero : Instr.wf (.l2Sweep 0) = false := by decide

/-! ## Words written out from the encoding tables (R61 to R73) -/

theorem test_decode_cmdGo : decodeAt .command [0x01, 0x00, 0x00, 0x80] = .ok (.cmdGo 0x40000000) := by decide
theorem test_decode_idCntz :
    decodeAt .ident [0x43, 0x6E, 0x74, 0x5A, 0x49, 0x6D, 0x61, 0x67, 0x65, 0x20] = .ok (.idCntz false 0x20) := by decide
theorem test_decode_idCntz_leading :
    decodeAt .ident [0x09, 0x43, 0x6E, 0x74, 0x5A, 0x49, 0x6D, 0x61, 0x67, 0x65] = .ok (.idCntz true 0x09) := by decide
theorem test_decode_idLerc2 :
    decodeAt .ident [0x4C, 0x65, 0x72, 0x63, 0x32, 0x20, 0x02, 0x00, 0x00, 0x00] = .ok (.idLerc2 0x20) := by decide
theorem test_decode_ident_none :
    decodeAt .ident [0x4C, 0x65, 0x72, 0x63, 0x33, 0x20, 0x02, 0x00, 0x00, 0x00] = .error .noIdentifier := by decide
theorem test_decode_czHdr :
    decodeAt .czHdr [0x0B, 0, 0, 0, 0x08, 0, 0, 0, 0x03, 0, 0, 0, 0x02, 0x01, 0, 0, 0, 0, 0, 0, 0, 0, 0xE0, 0x3F]
      = .ok (.czHdr 11 8 3 258 0x3FE0000000000000) := by decide +kernel
theorem test_decode_czMsec :
    decodeAt .czMsec [1, 0, 0, 0, 2, 0, 0, 0, 0x03, 0x01, 0, 0, 0, 0, 0x80, 0x3F] = .ok (.czMsec 1 2 259 0x3F800000) := by
  decide +kernel
theorem test_decode_czPsec :
    decodeAt .czPsec [1, 0, 0, 0, 2, 0, 0, 0, 0x03, 0x01, 0, 0, 0, 0, 0x80, 0x3F] = .ok (.czPsec 1 2 259 0x3F800000) := by
  decide +kernel
theorem test_decode_czRaw : decodeAt .czBlock [0x80, 0xFE] = .ok (.czRaw (.int8 0xFE)) := by decide
theorem test_decode_czBs : decodeAt .czBlock [0x41, 0x0A, 0x00, 0x84, 0x03] = .ok (.czBs (.int16 10) 4 (.uint8 3)) := by
  decide
theorem test_decode_czConst :
    decodeAt .czBlock [0x02, 0x00, 0x00, 0x60, 0x40] = .ok (.czConst (.float32 0x40600000)) := by decide
theorem test_decode_czRsvd : decodeAt .czBlock [0x03] = .ok (.czRsvd 3) := by decide
theorem test_decode_czRsvd_bits : decodeAt .czBlock [0x20] = .ok (.czRsvd 0x20) := by decide
theorem test_decode_rleLit : decodeAt .rle [0x02, 0x01] = .ok (.rleLit 258) := by decide
theorem test_decode_rleRep : decodeAt .rle [0xFD, 0xFF] = .ok (.rleRep 0xFFFD) := by decide
theorem test_decode_rleEnd : decodeAt .rle [0x00, 0x80] = .ok .rleEnd := by decide
theorem test_decode_rleZero : decodeAt .rle [0x00, 0x00] = .ok .rleZero := by decide
theorem test_decode_l2Hdr :
    decodeAt .l2Hdr ([4, 0, 0, 0, 0xAA, 0, 0, 0xBB, 3, 0, 0, 0, 2, 1, 0, 0, 5, 0, 0, 0, 6, 0, 0, 0, 8, 0, 0, 0,
      0x42, 1, 0, 0, 1, 0, 0, 0] ++ [0, 0, 0, 0, 0, 0, 0xE0, 0x3F] ++ [0, 0, 0, 0, 0, 0, 0xF0, 0x3F]
      ++ [0, 0, 0, 0, 0, 0, 0, 0x40])
      = .ok (.l2Hdr (.fields 4 0xBB0000AA 3 258 5 6 8 322 1 0x3FE0000000000000 0x3FF0000000000000 0x4000000000000000)) := by
  decide +kernel
theorem test_decode_l2Hdr_unsupported : decodeAt .l2Hdr [6, 0, 0, 0] = .ok (.l2Hdr (.unsupported 6)) := by decide
theorem test_decode_l2Mask : decodeAt .l2Mask [1, 2, 0, 0] = .ok (.l2Mask 513) := by decide
theorem test_decode_l2Ranges : decodeAt .l2Ranges [] = .ok .l2Ranges := by decide
theorem test_decode_l2Sweep : decodeAt .l2Flag [0x01] = .ok (.l2Sweep 1) := by decide
theorem test_decode_l2Body : decodeAt .l2Flag [0x00] = .ok .l2Body := by decide
theorem test_decode_l2HfTiles : decodeAt .l2Hf [0x00] = .ok .l2HfTiles := by decide
theorem test_decode_l2HfDelta : decodeAt .l2Hf [0x01] = .ok .l2HfDelta := by decide
theorem test_decode_l2HfPlain : decodeAt .l2Hf [0x02] = .ok .l2HfPlain := by decide
theorem test_decode_l2Hf_bad : decodeAt .l2Hf [0x03] = .error .badHuffmanFlag := by decide
theorem test_decode_l2TileRaw : decodeAt .l2Tile [0x04] = .ok (.l2TileRaw 0 1) := by decide
theorem test_decode_l2TileBs : decodeAt .l2Tile [0x0D] = .ok (.l2TileBs 0 3) := by decide
theorem test_decode_l2TileXb : decodeAt .l2Tile [0x46] = .ok (.l2TileXb 1 1) := by decide
theorem test_decode_l2TileConst : decodeAt .l2Tile [0xC3] = .ok (.l2TileConst 3 0) := by decide
theorem test_decode_bs2Aff : decodeAt .bs2 [0x84, 0x03] = .ok (.bs2Aff 4 (.uint8 3)) := by decide
theorem test_decode_bs2Lut : decodeAt .bs2 [0x64, 0x03, 0x01] = .ok (.bs2Lut 4 (.uint16 259)) := by decide
theorem test_decode_hufTable :
    decodeAt .hufTable [4, 0, 0, 0, 0, 1, 0, 0, 2, 0, 0, 0, 9, 0, 0, 0] = .ok (.hufTable 4 256 2 9) := by decide +kernel
theorem test_decode_short : decodeAt .czBlock [0x41, 0x0A] = .error (.short 1 2) := by decide

/-- A table word: bit 0 is the lowest bit of the first byte. -/
theorem test_tableWord_go : decodeTableWord 32 0x80000001 = some (.cmdGo 0x40000000) := by decide
theorem test_tableWord_rle : decodeTableWord 16 0xFFFD = some (.rleRep 0xFFFD) := by decide

/-- The placed word is what the next step runs. -/
theorem test_withFetchWord_rle :
    after (step (State.reset.withFetchWord 16 0x8000)) faultOf = some (true, 4, 2) := by decide +kernel
theorem test_withFetchWord_go :
    after (step (State.reset.withFetchWord 32 1)) (fun t => (t.busy, t.seq)) = some (true, .bandStart) := by
  decide +kernel

/-! ## The host's command and the identifiers -/

theorem test_cmdGo_offset :
    after (exec (.cmdGo 0) { State.reset with optOffset := 7, done := true, cur := 3 }) (fun t => (t.cur, t.busy, t.done))
      = some (7, true, false) := by decide +kernel
theorem test_cmdGo_busy : after (exec (.cmdGo 1) (busyWith [1])) id = some (busyWith [1]) := by decide +kernel
theorem test_idCntz : after (exec (.idCntz false 0x20) (busyWith [])) (fun t => (t.h.fmt, t.cur)) = some (.cntz, 0) := by
  decide +kernel
theorem test_idLerc2_change :
    after (exec (.idLerc2 0x20) { busyWith [] with band := 1, cur := 5, h := { HGroup.reset with fmt := .cntz } }) faultOf
      = some (true, 1, 5) := by decide +kernel

/-! ## CntZImage (examples of R196 to R198) -/

theorem test_czHdr :
    after (exec (.czHdr 11 8 3 5 0) (busyWith [])) (fun t => (t.h.height, t.h.width, t.cur)) = some (3, 5, 34) := by
  decide +kernel
theorem test_czHdr_zero : after (exec (.czHdr 11 8 0 5 0) (busyWith [])) faultOf = some (true, 17, 0) := by decide +kernel
theorem test_czMsec : after (exec (.czMsec 0 0 0 0) (busyWith [])) (fun t => (t.m.present, t.cur)) = some (false, 16) := by
  decide +kernel
theorem test_czPsec :
    after (exec (.czPsec 2 1 9 0x3F800000) (State.image (busyWith []) 1 2)) (fun t => (t.h.nby, t.h.nbx, t.pstart))
      = some (2, 1, 16) := by decide +kernel
/-- A binary32 image of the given size. -/
def floats (bytes : List Byte) (w ht : Word) : State :=
  { State.image (busyWith bytes) w ht with h := { (State.image (busyWith bytes) w ht).h with etype := .f32 } }
theorem test_czRaw :
    after (exec (.czRaw (.float32 0x3F800000))
      (floats [0x00, 0x00, 0x00, 0x80, 0x3F, 0x00, 0x00, 0x00, 0x40, 0x00, 0x00, 0x40, 0x40] 2 1))
      (fun t => (pixBits t 0, pixBits t 1, t.cur)) = some (some 0x40000000, some 0x40400000, 13) := by decide +kernel
/-- The state of R197's example: step 0.5, bound 11.2 as binary32, 64-bit pixels. -/
def czBsExample : State :=
  let s := State.image (busyWith [0x81, 0x0A, 0x84, 0x03, 0x21, 0x03]) 3 1
  { s with h := { s.h with etype := .f64, maxVal := 0x41333333 }, qstep := 0x3FE0000000000000 }
theorem test_czBs :
    after (exec (.czBs (.int8 10) 4 (.uint8 3)) czBsExample) (fun t => (pixBits t 0, pixBits t 1, pixBits t 2, t.cur))
      = some (some 0x4025000000000000, some 0x4026000000000000, some 0x4026666660000000, 6) := by decide +kernel
theorem test_czBs_count :
    after (exec (.czBs (.int8 10) 4 (.uint8 2)) czBsExample) faultOf = some (true, 8, 4) := by decide +kernel
theorem test_czConst :
    after (exec (.czConst (.float32 0x40600000)) (floats [0x02, 0x00, 0x00, 0x60, 0x40] 1 2))
      (fun t => (pixBits t 0, pixBits t 1, t.cur)) = some (some 0x40600000, some 0x40600000, 5) := by decide +kernel
theorem test_czRsvd : after (exec (.czRsvd 3) { busyWith [3] with cur := 9 }) faultOf = some (true, 5, 9) := by
  decide +kernel

/-! ## Mask runs (examples of R133, R134, R139) -/

/-- A run loop at its start, over an image of 24 pixels. -/
def runs (bytes : List Byte) : State :=
  { State.image (busyWith bytes) 24 1 with rlBytes := BitVec.ofNat 32 bytes.length }
theorem test_rleLit :
    after (exec (.rleLit 2) (runs [0x02, 0x00, 0xF0, 0x0F])) (fun t => (t.bitset, t.rlIp, t.rlOp))
      = some ([(0, 0xF0), (1, 0x0F)], 4, 2) := by decide +kernel
theorem test_rleRep :
    after (exec (.rleRep 0xFFFD) (runs [0xFD, 0xFF, 0xFF])) (fun t => (t.bitset, t.rlIp, t.rlOp))
      = some ([(0, 0xFF), (1, 0xFF), (2, 0xFF)], 3, 3) := by decide +kernel
theorem test_rleRep_overflow :
    after (exec (.rleRep 0xFFFC) (runs [0xFC, 0xFF, 0xFF])) faultOf = some (true, 4, 2) := by decide +kernel
theorem test_rleEnd : after (exec .rleEnd { runs [0x00, 0x80] with rlOp := 3 }) (fun t => (t.rlIp, t.err)) = some (2, false) := by
  decide +kernel
theorem test_rleEnd_early : after (exec .rleEnd { runs [0x00, 0x80] with rlOp := 2 }) faultOf = some (true, 4, 2) := by
  decide +kernel
theorem test_rleZero : after (exec .rleZero (runs [0, 0])) faultOf = some (true, 4, 0) := by decide +kernel
theorem test_maskExpand :
    after (exec .maskExpand { State.image (busyWith []) 12 1 with bitset := [(0, 0xF0), (1, 0x30)] })
      (fun t => t.maskx.map Prod.snd) = some [1, 1, 1, 1, 0, 0, 0, 0, 0, 0, 1, 1] := by decide +kernel

/-! ## Bit-stream unpacker (examples of R104, R105, R108, R110, R114, R118) -/

theorem test_unpkL :
    after (exec (.unpkL 0 3 4) (busyWith [0x21, 0x03])) (fun t => (t.codes, t.bs.bit, t.cur))
      = some ([(0, 1), (1, 2), (2, 3)], 12, 0) := by decide +kernel
theorem test_unpkM :
    after (exec (.unpkM 0 3 4) (busyWith [0x21, 0x03])) (fun t => t.codes) = some [(0, 0), (1, 3), (2, 2)] := by
  decide +kernel
theorem test_remapAff :
    after (exec (.remapAff 2 0x4024000000000000 0x3FE0000000000000 0x4026666666666666 true) (busyWith []))
      (fun t => t.opResult) = some 0x4026000000000000 := by decide +kernel
theorem test_remapAff_clamp :
    after (exec (.remapAff 3 0x4024000000000000 0x3FE0000000000000 0x4026666666666666 true) (busyWith []))
      (fun t => t.opResult) = some 0x4026666666666666 := by decide +kernel
/-- A table of three centres: 2.0, 2.5, 4.0. -/
def centres : State :=
  { busyWith [] with
    lut := [(0, 0x4000000000000000), (1, 0x4004000000000000), (2, 0x4010000000000000)],
    t := { TGroup.reset with nLut := 3 } }
theorem test_remapLut : after (exec (.remapLut 2) centres) (fun t => t.opResult) = some 0x4010000000000000 := by
  decide +kernel
theorem test_remapLut_index : after (exec (.remapLut 3) centres) faultOf = some (true, 20, 0) := by decide +kernel
/-- A tile of three valid pixels of a version 2 band: origin 2.0, step 0.5, bound 100.0. -/
def bs2Tile (bytes : List Byte) : State :=
  let s := State.image (busyWith bytes) 3 1
  { s with h := { s.h with version := 2, zMax := 0x4059000000000000, etype := .f64 },
           t := { s.t with offset := 0x4000000000000000 }, qstep := 0x3FE0000000000000 }
theorem test_bs2Aff :
    after (exec (.bs2Aff 4 (.uint8 3)) (bs2Tile [0x84, 0x03, 0x21, 0x03])) (fun t => (t.val, t.cur))
      = some ([0x4004000000000000, 0x4008000000000000, 0x400C000000000000], 4) := by decide +kernel
theorem test_bs2Lut :
    after (exec (.bs2Lut 4 (.uint8 3)) (bs2Tile [0xA4, 0x03, 0x03, 0x41, 0x12])) (fun t => (t.lut.map Prod.snd, t.val, t.cur))
      = some ([0x4000000000000000, 0x4004000000000000, 0x4010000000000000],
        [0x4010000000000000, 0x4000000000000000, 0x4004000000000000], 5) := by decide +kernel

/-! ## Fletcher-32 (example of R146) -/

theorem test_f32Sum : after (exec (.f32Sum 0 2) (busyWith [0x01, 0x02])) (fun t => (t.fSum1, t.fSum2)) = some (0x102, 0x102) := by
  decide +kernel
theorem test_f32Sum_empty : after (exec (.f32Sum 0 0) (busyWith [])) (fun t => t.opResult) = some 0xFFFFFFFF := by
  decide +kernel

/-! ## Huffman -/

theorem test_hufTable :
    after (exec (.hufTable 2 256 3 7) (busyWith [])) (fun t => (t.huf.size, t.huf.i0, t.huf.i1, t.cur))
      = some (256, 3, 7, 16) := by decide +kernel
theorem test_hufTable_version : after (exec (.hufTable 1 256 3 7) (busyWith [])) faultOf = some (true, 9, 0) := by
  decide +kernel
/-- Three symbols: 0 with code `0`, 1 with code `10`, 2 with code `11`. -/
def threeCodes : State :=
  { busyWith [] with
    huf := { HufGroup.reset with size := 3, i1 := 3, maxLen := 2, qBits := 2 },
    hlen := [(0, 1), (1, 2), (2, 2)], hcode := [(0, 0), (1, 2), (2, 3)] }
/-- What `HUF.BUILD` makes of it. -/
def threeQuick : Memory QEntry :=
  [(0, { len := 1, sym := 0 }), (1, { len := 1, sym := 0 }), (2, { len := 2, sym := 1 }), (3, { len := 2, sym := 2 })]
theorem test_hufBuild : after (exec .hufBuild threeCodes) (fun t => t.qt) = some threeQuick := by decide +kernel
/-- The three symbols with codes longer than the quick table, which has one bit here: all are in the trie. -/
theorem test_hufBuild_trie :
    after (exec .hufBuild { threeCodes with huf := { threeCodes.huf with qBits := 1 } })
      (fun t => (Memory.read t.qt 1, t.huf.nNodes, (Memory.read t.trie 3).map TrieNode.sym))
      = some (some { len := 0, sym := 0 }, 4, some 2) := by decide +kernel
/-- The table built, and a stream: `10 0 11 ...`. -/
def threeStream (s : State) : State :=
  { s with inMem := Memory.cellsFrom 0 [0x00, 0x00, 0x00, 0x98, 0, 0, 0, 0], inLen := 8, qt := threeQuick }
theorem test_hufSym :
    after (exec .hufSym (threeStream threeCodes)) (fun t => (t.opResult, t.hb.bit)) = some (1, 2) := by decide +kernel
/-- An 8-bit unsigned row of three pixels, with a quick table of two bits. -/
def planeRow (syms : Memory QEntry) : State :=
  { threeStream (State.image threeCodes 3 1) with
    qt := syms, h := { (State.image threeCodes 3 1).h with imgType := 1, etype := .u8 } }
/-- Symbols 10, 3, 255 of R171's example: `10` names 10, `0` names 3, `11` names 255. -/
def rowSyms : Memory QEntry :=
  [(0, { len := 1, sym := 3 }), (1, { len := 1, sym := 3 }), (2, { len := 2, sym := 10 }), (3, { len := 2, sym := 255 })]
theorem test_hufPlane_delta :
    after (exec (.hufPlane .delta) (planeRow rowSyms)) (fun t => (pixBits t 0, pixBits t 1, pixBits t 2))
      = some (some 10, some 13, some 12) := by decide +kernel
theorem test_hufPlane_plain :
    after (exec (.hufPlane .plain) (planeRow rowSyms)) (fun t => (pixBits t 0, pixBits t 1, pixBits t 2))
      = some (some 10, some 3, some 255) := by decide +kernel

/-! ## Lerc2 -/

theorem test_l2Hdr :
    after (exec (.l2Hdr (.fields 2 0 3 5 1 15 8 58 1 0 0 0)) (busyWith [])) (fun t => (t.h.height, t.h.width, t.h.nValid, t.cur))
      = some (3, 5, 15, 58) := by decide +kernel
theorem test_l2Hdr_version : after (exec (.l2Hdr (.unsupported 6)) (busyWith [])) faultOf = some (true, 2, 0) := by
  decide +kernel
theorem test_l2Mask_void :
    after (exec (.l2Mask 0) (State.image (busyWith []) 2 2)) (fun t => (t.m.present, t.m.allVoid, t.cur))
      = some (false, true, 4) := by decide +kernel
theorem test_l2Mask_extra : after (exec (.l2Mask 1) (State.image (busyWith []) 2 2)) faultOf = some (true, 22, 4) := by
  decide +kernel
/-- An 8-bit unsigned image of two dimensions and two pixels. -/
def twoDims (bytes : List Byte) : State :=
  let s := State.image (busyWith bytes) 2 1
  { s with h := { s.h with version := 5, imgType := 1, etype := .u8, nDim := 2, nValid := 2, mbs := 8 } }
theorem test_l2Ranges :
    after (exec .l2Ranges (twoDims [1, 2, 3, 4])) (fun t => (t.dimMin.map Prod.snd, t.dimMax.map Prod.snd, t.cur))
      = some ([0x3FF0000000000000, 0x4000000000000000], [0x4008000000000000, 0x4010000000000000], 4) := by decide +kernel
theorem test_l2Sweep :
    after (exec (.l2Sweep 1) (twoDims [9, 1, 2, 3, 4])) (fun t => (pixBits t 0, pixBits t 1, pixBits t 2, pixBits t 3))
      = some (some 1, some 3, some 2, some 4) := by decide +kernel
theorem test_l2Body : after (exec .l2Body (busyWith [0])) (fun t => t.cur) = some 1 := by decide +kernel
theorem test_l2HfTiles : after (exec .l2HfTiles (busyWith [0])) (fun t => t.cur) = some 1 := by decide +kernel
theorem test_l2HfDelta :
    after (exec .l2HfDelta { busyWith [1] with planeMode := .plain }) (fun t => (t.cur, t.planeMode)) = some (1, .delta) := by
  decide +kernel
theorem test_l2HfPlain :
    after (exec .l2HfPlain { busyWith [2] with h := { HGroup.reset with version := 4 } }) (fun t => (t.cur, t.planeMode))
      = some (1, .plain) := by decide +kernel
theorem test_l2HfPlain_old :
    after (exec .l2HfPlain { busyWith [2] with cur := 6, h := { HGroup.reset with version := 3 } }) faultOf = some (true, 5, 6) := by
  decide +kernel
/-- Two 16-bit pixels (example of R244). -/
theorem test_l2TileRaw :
    after (exec (.l2TileRaw 0 0) { twoDims [0x00, 0xFE, 0xFF, 0x05, 0x00] with
        h := { (twoDims []).h with version := 2, imgType := 2, etype := .i16 } })
      (fun t => (pixBits t 0, pixBits t 1, t.cur)) = some (some 0xFFFE, some 5, 5) := by decide +kernel
theorem test_l2TileBs :
    after (exec (.l2TileBs 3 0) (twoDims [0xC1, 0x07])) (fun t => (t.t.offset, t.t.mode, t.bare, t.cur))
      = some (0x401C000000000000, 1, false, 2) := by decide +kernel
theorem test_l2TileBs_tag : after (exec (.l2TileBs 3 2) (twoDims [0xC9, 0x07])) faultOf = some (true, 6, 0) := by
  decide +kernel
/-- The second dimension of two pixels, the first holding 5 and 6. -/
def secondDim (bytes : List Byte) : State :=
  { twoDims bytes with
    t := { (twoDims []).t with dim := 1 }, dimMax := [(0, 0x4059000000000000), (1, 0x4028000000000000)],
    pix := [(0, { ty := .u8, bits := 5 }), (1, { ty := .u8, bits := 6 })] }
theorem test_l2TileXb :
    after (exec (.l2TileXb 0 1) (secondDim [0x06])) (fun t => (pixBits t 2, pixBits t 3)) = some (some 5, some 6) := by
  decide +kernel
theorem test_l2TileXb_zero :
    after (exec (.l2TileXb 0 0) (secondDim [0x02])) (fun t => (pixBits t 2, pixBits t 3)) = some (some 0, some 0) := by
  decide +kernel
/-- Bytes `C3 07` of a version 3 tile (example of R249). -/
theorem test_l2TileConst :
    after (exec (.l2TileConst 3 0) { twoDims [0xC3, 0x07] with h := { (twoDims []).h with version := 3 } })
      (fun t => (pixBits t 0, pixBits t 1, t.cur)) = some (some 7, some 7, 2) := by decide +kernel
/-- With the cross-band flag: 5 + 7 = 12 and 6 + 7 = 13, the latter clamped to 12. -/
theorem test_l2TileConst_cross :
    after (exec (.l2TileConst 3 1) (secondDim [0xC7, 0x07])) (fun t => (pixBits t 2, pixBits t 3)) = some (some 12, some 12) := by
  decide +kernel
theorem test_constSurf :
    after (exec (.constSurf .dimMin) { twoDims [] with dimMin := [(0, 0x401C000000000000), (1, 0x4022000000000000)] })
      (fun t => (pixBits t 0, pixBits t 1, pixBits t 2, pixBits t 3)) = some (some 7, some 7, some 9, some 9) := by decide +kernel

/-! ## Dispatcher -/

theorem test_maskAnd :
    after (exec .maskAnd { twoDims [] with
        band := 1, m := { MaskGroup.reset with present := true },
        maskx := [(0, 1), (1, 0)], cmask := [(0, 1), (1, 1)] }) (fun t => t.cmask) = some [(0, 1), (1, 0)] := by decide +kernel
/-- A finished band of two dimensions over two pixels: `a0 a1 b0 b1` (example of R276). -/
def oneBand : State :=
  { twoDims [] with
    optFlags := 0x20, res := { ResGroup.reset with nBands := 1 },
    bstat := [(0, { min := 0, max := 0, etype := .u8, nDim := 2, dimMin := [], dimMax := [], fileInfo := none })],
    cmask := [(0, 1), (1, 0)],
    pix := [(0, { ty := .u8, bits := 0xA0 }), (1, { ty := .u8, bits := 0xA1 }), (2, { ty := .u8, bits := 0xB0 }),
      (3, { ty := .u8, bits := 0xB1 })] }
theorem test_reshape :
    after (exec .reshape oneBand) (fun t => (pixBits t 0, pixBits t 1, pixBits t 2, pixBits t 3))
      = some (some 0xA0, some 0xB0, some 0xA1, some 0xB1) := by decide +kernel
theorem test_reshape_off : after (exec .reshape { oneBand with optFlags := 0 }) State.pix = some oneBand.pix := by
  decide +kernel

/-! ## Host reads and the end of a bit stream -/

/-- Five bytes are left: bit 32 is in the byte behind the buffer, three bytes above the last (R159, R160; log 25). -/
theorem test_hufSym_past_end :
    after (exec .hufSym { threeStream threeCodes with inLen := 5, hb := { base := 0, widx := 1, bit := 0 } }) faultOf
      = some (true, 16, 4) := by decide +kernel
/-- The echo of a version 4 header. -/
def echo : FileInfo := { h := { HGroup.reset with fmt := .lerc2, version := 4 }, dimMin := [(1, 9)], dimMax := [] }
/-- The header echo holds the per-dimension registers (R16, R22, R280). -/
theorem test_fileInfo_dimMin : echo.value (.dimMin 1) = some 9 := by decide +kernel

/-! ## Hypotheses that can be met: for each statement with hypotheses or clauses, a state and operands that meet them, with
the boundary values of each clause -/

theorem witness_DecodeEncode :
    (Instr.wf (.idLerc2 0x20) = true ∧ Instr.streamPos (.idLerc2 0x20) = some .ident
      ∧ 10 ≤ (encode (.idLerc2 0x20) ++ [2, 0, 0, 0]).length)
    ∧ Instr.wf (.rleLit 0x7FFF) = true ∧ Instr.streamPos (.rleLit 0x7FFF) = some .rle := by decide
theorem witness_EncodeDecode : decodeAt .rle [0x01, 0x80, 0xFF] = .ok (.rleRep 0x8001) := by decide
/-- Whether the call goes on after a step, and what is due then. -/
def goesOn (s : State) : Option (Bool × Phase) := after (step s) fun t => (t.busy, t.seq)
/-- A run record, at the last place the payload allows; and the checksum at the smallest range. -/
theorem witness_StepRunsInstruction :
    (let s : State := { runs [0x00, 0x80] with seq := .rle };
      s.port = [] ∧ s.busy = true ∧ s.recordAt = some (.rle, 0) ∧ s.rlIp.toNat + 2 ≤ s.rlBytes.toNat
        ∧ decodeAt .rle (window s maxRecordBytes 0) = .ok .rleEnd)
    ∧ (let s : State := { busyWith [] with seq := .checksum, h := { HGroup.reset with blobSize := 14 } };
      s.port = [] ∧ s.busy = true ∧ s.operationDue = some (.f32Sum 14 0) ∧ (14 : Int) ≤ s.h.blobSize.toInt) := by
  decide +kernel
/-- What is due after a record: the successors R185, R215, R132, R155 and R245 name, each from a state whose bytes decode; a
record that faults ends the call. -/
theorem witness_StepRunsInstruction_records :
    goesOn { busyWith [0x43, 0x6E, 0x74, 0x5A, 0x49, 0x6D, 0x61, 0x67, 0x65, 0x20] with seq := .ident } = some (true, .czHdr)
    ∧ goesOn { busyWith [0x4C, 0x65, 0x72, 0x63, 0x32, 0x20, 0, 0, 0, 0] with seq := .ident } = some (true, .l2Hdr)
    ∧ goesOn { busyWith (List.replicate 10 0 ++ [11, 0, 0, 0] ++ [8, 0, 0, 0] ++ [1, 0, 0, 0] ++ [1, 0, 0, 0]
        ++ List.replicate 8 0) with seq := .czHdr } = some (true, .czSetup)
    ∧ goesOn { busyWith (List.replicate 16 0) with seq := .czMsec } = some (true, .czPsec)
    ∧ goesOn { busyWith (List.replicate 8 0 ++ [1, 0, 0, 0] ++ List.replicate 5 0) with seq := .czMsec } = some (true, .rle)
    ∧ goesOn { State.image (busyWith ([1, 0, 0, 0] ++ [1, 0, 0, 0] ++ List.replicate 8 0)) 1 1 with seq := .czPsec }
      = some (true, .czPrefill)
    ∧ goesOn { runs [0x01, 0x00, 7] with seq := .rle } = some (true, .rle)
    ∧ goesOn { runs [0x00, 0x80] with seq := .rle, rlOp := 3 } = some (true, .maskExpand)
    ∧ goesOn { runs [0x00, 0x80] with seq := .rle } = some (false, .idle)
    ∧ goesOn { busyWith ([0x4C, 0x65, 0x72, 0x63, 0x32, 0x20] ++ [2, 0, 0, 0] ++ [1, 0, 0, 0] ++ [1, 0, 0, 0]
        ++ [1, 0, 0, 0] ++ [8, 0, 0, 0] ++ [58, 0, 0, 0] ++ [1, 0, 0, 0] ++ List.replicate 24 0) with seq := .l2Hdr }
      = some (true, .l2Setup)
    ∧ goesOn { twoDims [1, 0, 0, 0, 9] with seq := .l2Mask, h := { (twoDims []).h with nValid := 1 } } = some (true, .rle)
    ∧ goesOn { twoDims [1, 2, 3, 4] with seq := .l2Ranges } = some (true, .rangesTest)
    ∧ goesOn { twoDims [1, 1, 2, 3, 4] with seq := .l2Flag } = some (true, .l2Stats)
    ∧ goesOn { busyWith ([2, 0, 0, 0] ++ [4, 0, 0, 0] ++ [0, 0, 0, 0] ++ [4, 0, 0, 0]) with seq := .hufTable }
      = some (true, .bs2 0 0 0)
    ∧ goesOn { bs2Tile [0x84, 0x03, 0x21, 0x03] with seq := .bs2 0 0 0 } = some (true, .tileDeliver 0 0 0)
    ∧ goesOn { bs2Tile [0x84, 0x03, 0x21, 0x03] with seq := .bs2 0 0 0, bare := true } = some (true, .hufCodes)
    ∧ goesOn { twoDims [0xC1, 0x07] with seq := .l2Tile 2 1 0 } = some (true, .bs2 2 1 0) := by decide +kernel
/-- What is due after an internal operation (R132, R147, R155, R226 to R228, R272). -/
theorem witness_StepRunsInstruction_operations :
    goesOn { State.image (busyWith []) 12 1 with seq := .maskExpand, bitset := [(0, 0xF0), (1, 0x30)] } = some (true, .maskEnd)
    ∧ goesOn { busyWith (List.replicate 14 0) with seq := .checksum, h := { HGroup.reset with blobSize := 14 } }
      = some (true, .checksumTest)
    ∧ goesOn { twoDims [] with seq := .constSurf .globalMin } = some (true, .l2Stats)
    ∧ goesOn { threeCodes with seq := .hufBuild } = some (true, .hufAlign)
    ∧ goesOn { planeRow rowSyms with seq := .hufPlane } = some (true, .hufEnd)
    ∧ goesOn { twoDims [] with seq := .maskAnd } = some (true, .bandTail)
    ∧ goesOn { oneBand with seq := .reshape } = some (true, .finish) := by decide +kernel
theorem witness_CommandWord :
    ({ State.reset with port := [.writeReg 0 1] } : State).port = .writeReg 0 1 :: [] ∧ (1#32).getLsbD 0 = true
    ∧ ({ State.reset with port := [.writeReg 0 2] } : State).port = .writeReg 0 2 :: [] ∧ (2#32).getLsbD 0 = false := by
  decide +kernel
/-- A block's offset field cut after its first byte, bytes that are no identifier, a flag byte of 3, one byte left of a run
header. -/
theorem witness_FetchFaults :
    (let s : State := { busyWith [0x41, 0x0A] with seq := .czBlock 0 0 };
      s.recordAt = some (.czBlock, 0) ∧ decodeAt .czBlock (window s maxRecordBytes 0) = .error (.short 1 2)
        ∧ s.inLen.toNat < 0 + 1 + 2)
    ∧ (let s : State := { busyWith (List.replicate 10 0) with seq := .ident };
      s.recordAt = some (.ident, 0) ∧ decodeAt .ident (window s maxRecordBytes 0) = .error .noIdentifier)
    ∧ (let s : State := { busyWith [3] with seq := .l2Hf };
      s.port = [] ∧ s.busy = true ∧ s.recordAt = some (.l2Hf, 0)
        ∧ decodeAt .l2Hf (window s maxRecordBytes 0) = .error .badHuffmanFlag)
    ∧ (let s : State := { runs [0x00, 0x80] with seq := .rle, rlIp := 1 };
      s.port = [] ∧ s.busy = true ∧ s.rlBytes.toNat < s.rlIp.toNat + 2 ∧ after (step s) faultOf = some (true, 4, 1)) := by
  decide +kernel
theorem witness_GoStartsCall :
    (State.reset.busy = false ∧ State.reset.inputReady = true) ∧ (busyWith []).busy = true := by decide +kernel
theorem witness_IdentifierSettlesContainer :
    State.reset.band = 0
    ∧ (let s : State := { State.reset with band := 1, h := { HGroup.reset with fmt := .lerc2 } };
      s.band ≠ 0 ∧ s.h.fmt = .lerc2 ∧ s.h.fmt ≠ .cntz)
    ∧ (let s : State := { State.reset with band := 1, h := { HGroup.reset with fmt := .cntz } };
      s.band ≠ 0 ∧ s.h.fmt = .cntz ∧ s.h.fmt ≠ .lerc2)
    ∧ (let s (band : Word) : State :=
        { busyWith [] with seq := .bandStart, cur := 9, band := band, cfg := { Config.default with bandMax := 3 } };
      (s 2).port = [] ∧ (s 2).busy = true ∧ after (step (s 2)) (fun t => (t.err, t.h.blob0, t.seq)) = some (false, 9, .ident)
        ∧ after (step (s 3)) faultOf = some (true, 17, 9)) := by decide +kernel
/-- The largest image a configuration admits is accepted, one more pixel is not. The setup, in band 0 and after it. -/
theorem witness_CzHdrResult :
    let s : State := State.resetWith { Config.default with pixMax := 6 }
    let u : State := { busyWith [] with seq := .czSetup, optFlags := 1, optPixelType := 2, h := { HGroup.reset with width := 7 } }
    (u.port = [] ∧ u.busy = true ∧ u.seq = .czSetup)
    ∧ after (step u) (fun t => (t.h.etype, t.res.width, t.seq)) = some (.i16, 7, .czMsec)
    ∧ after (step { u with band := 1 }) (fun t => (t.h.etype, t.res.width, t.seq)) = some (.i16, 0, .czPsec)
    ∧ after (exec (.czHdr 11 8 3 2 0) s) (fun t => (t.err, t.cur)) = some (false, 34)
    ∧ after (exec (.czHdr 11 8 7 1 0) s) faultOf = some (true, 17, 0)
    ∧ after (exec (.czHdr 11 8 3 2 0) { s with band := 1 }) faultOf = some (true, 17, 0) := by decide +kernel
/-- A payload that just fits and one that is a byte too long; a grid as fine as the image and one finer. -/
theorem witness_CzSectionResults :
    let s : State := State.image (busyWith (List.replicate 18 0)) 2 2
    after (exec (.czMsec 0 0 2 0) s) (fun t => (t.err, t.rlBase)) = some (false, 16)
    ∧ after (exec (.czMsec 0 0 3 0) s) faultOf = some (true, 16, 16)
    ∧ after (exec (.czPsec 2 2 0 0) s) (fun t => t.err) = some false
    ∧ after (exec (.czPsec 2 3 0 0) s) faultOf = some (true, 17, 0)
    ∧ (let u : State := { s with seq := .maskEnd, cur := 16, h := { s.h with fmt := .cntz, mBytes := 2 } };
      (u.port = [] ∧ u.busy = true ∧ u.seq = .maskEnd ∧ u.h.fmt ≠ .lerc2)
        ∧ after (step u) (fun t => (t.cur, t.m.present, t.m.held, t.m.count, t.seq)) = some (18, true, true, 1, .czPsec)) := by
  decide +kernel
/-- Two valid pixels of three. -/
def masked (s : State) : State :=
  { s with m := { MaskGroup.reset with present := true }, maskx := [(0, 1), (1, 0), (2, 1)] }
theorem witness_CzRawResult :
    let s : State := masked (floats ([0x00] ++ [0, 0, 0x80, 0x3F] ++ [0, 0, 0, 0x40] ++ [0, 0, 0x40, 0x40]) 3 1)
    let bytes : List Byte := [0, 0, 0, 0x40] ++ [0, 0, 0x40, 0x40]
    CzOffset.float32 0x3F800000 ≠ .invalid ∧ s.tileInside ∧ s.maskReady s.tilePixels
      ∧ bytes.length = 4 * (s.validAmong s.tilePixels).length
      ∧ s.holds (s.cur + BitVec.ofNat 32 (1 + (CzOffset.float32 0x3F800000).len)).toNat bytes := by decide +kernel
/-- Code widths 0 (no code byte) and 32. -/
theorem witness_CzBsResult :
    (let s : State := State.image (busyWith [0x81, 0x0A, 0x80, 0x03]) 3 1;
      (0 : BitVec 6).toNat ≤ 32 ∧ CountField.value (.uint8 3) = (s.validAmong s.tilePixels).length ∧ s.tileInside
        ∧ s.maskReady s.tilePixels ∧ ([] : List Byte).length = packedBytes 3 0 ∧ s.holds 4 [])
    ∧ (let s : State := State.image (busyWith [0x81, 0x0A, 0xA0, 0x01, 1, 2, 3, 4]) 1 1;
      (32 : BitVec 6).toNat ≤ 32 ∧ CountField.value (.uint8 1) = (s.validAmong s.tilePixels).length ∧ s.tileInside
        ∧ s.maskReady s.tilePixels ∧ ([1, 2, 3, 4] : List Byte).length = packedBytes 1 32 ∧ s.holds 4 [1, 2, 3, 4]) := by
  decide +kernel
theorem witness_CzConstResult :
    let s : State := masked (State.image (busyWith []) 3 1)
    CzOffset.int8 5 ≠ .invalid ∧ s.maskReady s.tilePixels ∧ s.validAmong s.tilePixels = [0, 2] := by decide +kernel
/-- Code width 33 with a good count; width 32 with a count one too large; a payload one byte short, of a raw block and of a
packed one of the smallest width. -/
theorem witness_CzBlockFaults :
    let s : State := State.image (busyWith []) 2 1
    let short (n : Nat) : State := State.image (busyWith (List.replicate n 0)) 2 1
    ((short 9).maskReady (short 9).tilePixels ∧ (short 9).inLen.toNat < ((short 9).cur + 2).toNat + 4 * 2
        ∧ after (exec (.czRaw (.int8 0)) (short 9)) faultOf = some (true, 16, 2)
        ∧ after (exec (.czRaw (.int8 0)) (short 10)) (fun t => (t.err, t.cur)) = some (false, 10))
    ∧ ((short 4).inLen.toNat < ((short 4).cur + 2 + 2).toNat + packedBytes 2 (1 : BitVec 6).toNat
        ∧ after (exec (.czBs (.int8 0) 1 (.uint8 2)) (short 4)) faultOf = some (true, 16, 4)
        ∧ after (exec (.czBs (.int8 0) 1 (.uint8 2)) (short 5)) (fun t => (t.err, t.cur)) = some (false, 5))
    ∧ CzOffset.int8 0 ≠ .invalid ∧ CountField.uint8 2 ≠ .invalid ∧ 32 < (33 : BitVec 6).toNat
      ∧ (32 : BitVec 6).toNat ≤ 32 ∧ s.maskReady s.tilePixels
      ∧ CountField.value (.uint8 3) ≠ (s.validAmong s.tilePixels).length := by decide +kernel
/-- A literal run that ends with the payload and fills the bitset; then one byte short in each. -/
theorem witness_RleLitResult :
    let s : State := runs [0x03, 0x00, 1, 2, 3]
    (¬(s.rlBytes.toNat < (s.rlIp + 2).toNat + 3 ∨ s.maskBytes < s.rlOp.toNat + 3)
      ∧ ([1, 2, 3] : List Byte).length = (3 : BitVec 16).toNat ∧ s.holds (s.rlBase.toNat + (s.rlIp + 2).toNat) [1, 2, 3])
    ∧ s.rlBytes.toNat < (s.rlIp + 2).toNat + 4 ∧ s.maskBytes < 1 + 3 := by decide +kernel
/-- The shortest and the longest repeat, the latter into a bitset of its length. -/
theorem witness_RleRepResult :
    (let s : State := runs [0xFF, 0xFF, 0xAA];
      (0xFFFF : BitVec 16) = BitVec.ofInt 16 (-(1 : Nat))
        ∧ ¬(s.rlBytes.toNat < (s.rlIp + 2).toNat + 1 ∨ s.maskBytes < s.rlOp.toNat + 1)
        ∧ s.holds (s.rlBase.toNat + (s.rlIp + 2).toNat) [0xAA])
    ∧ (let s : State := { State.image (busyWith [0x01, 0x80, 0xAA]) 262136 1 with rlBytes := 3 };
      (0x8001 : BitVec 16) = BitVec.ofInt 16 (-(32767 : Nat))
        ∧ ¬(s.rlBytes.toNat < (s.rlIp + 2).toNat + 1 ∨ s.maskBytes < s.rlOp.toNat + 32767)
        ∧ s.holds (s.rlBase.toNat + (s.rlIp + 2).toNat) [0xAA]) := by decide +kernel
theorem witness_RleEndResult :
    (let s : State := { runs [0x00, 0x80] with rlOp := 3 };
      s.rlOp.toNat = s.maskBytes ∧ s.rlIp + 2 = s.rlBytes)
    ∧ (let s : State := { runs [0x00, 0x80, 0] with rlOp := 3 };
      ¬(s.rlOp.toNat = s.maskBytes ∧ s.rlIp + 2 = s.rlBytes)) := by decide +kernel
theorem witness_MaskExpandResult :
    let s : State := { State.image (busyWith []) 12 1 with bitset := [(0, 0xF0), (1, 0x30)] }
    s.np = 12 ∧ ∀ k < s.np, (Memory.read s.bitset (k / 8)).isSome = true := by decide +kernel
/-- Widths 1 and 32. -/
theorem witness_UnpkLegacyCodes :
    (([0x21, 0x03] : List Byte).length = packedBytes (9 : Word).toNat (1 : BitVec 6).toNat
      ∧ (busyWith [0x21, 0x03]).holds (0 : Word).toNat [0x21, 0x03])
    ∧ ([1, 2, 3, 4] : List Byte).length = packedBytes (1 : Word).toNat (32 : BitVec 6).toNat
      ∧ (busyWith [1, 2, 3, 4]).holds (0 : Word).toNat [1, 2, 3, 4] := by decide +kernel
theorem witness_UnpkMsbfCodes :
    (1 ≤ (1 : BitVec 6).toNat ∧ (1 : BitVec 6).toNat ≤ 32 ∧ (1 ≤ (32 : BitVec 6).toNat ∧ (32 : BitVec 6).toNat ≤ 32))
    ∧ ([1, 2, 3, 4, 5, 6, 7, 8] : List Byte).length = packedBytes (2 : Word).toNat (32 : BitVec 6).toNat
      ∧ (busyWith [0, 1, 2, 3, 4, 5, 6, 7, 8]).holds (1 : Word).toNat [1, 2, 3, 4, 5, 6, 7, 8] := by decide +kernel
/-- Width 33; width 1 and width 32 one byte past the end. -/
theorem witness_UnpkEdges :
    32 < (33 : BitVec 6).toNat
    ∧ (busyWith [1]).inLen.toNat < (0 : Word).toNat + packedBytes (9 : Word).toNat (1 : BitVec 6).toNat
    ∧ (busyWith [1, 2, 3]).inLen.toNat < (0 : Word).toNat + packedBytes (1 : Word).toNat (32 : BitVec 6).toNat := by
  decide +kernel
theorem witness_RemapLutResult :
    ((2 : Word).toNat < centres.t.nLut.toNat ∧ Memory.read centres.lut (2 : Word).toNat = some 0x4010000000000000)
    ∧ centres.t.nLut.toNat ≤ (3 : Word).toNat := by decide +kernel
/-- In a tile; and bare, with as many codes as the capacity allows. -/
theorem witness_Bs2AffResult :
    (let s : State := bs2Tile [0x84, 0x03, 0x21, 0x03];
      s.countFits 3 ∧ (s.bare = false → s.zmaxReady s.t.dim.toNat) ∧ ([0x21, 0x03] : List Byte).length = packedBytes 3 4
        ∧ s.holds 2 [0x21, 0x03])
    ∧ (let s : State := { busyWith [0x00, 0x00, 0x01, 0x00, 0x00] with bare := true };
      s.countFits 256 ∧ ([] : List Byte).length = packedBytes 256 0 ∧ s.holds 5 []) := by decide +kernel
/-- A table of three with two-bit indices, the largest of them in use; a table of one, whose indices take no bits; an index
one too large. -/
theorem witness_Bs2LutResult :
    (let s : State := bs2Tile [0xA4, 0x03, 0x03, 0x41, 0x12];
      s.countFits 3 ∧ (3 - 1) >>> 2 = 0 ∧ (∀ j < 2, (3 - 1) >>> j ≠ 0)
        ∧ ([0x41] : List Byte).length = packedBytes (3 - 1) 4 ∧ ([0x12] : List Byte).length = packedBytes 3 2
        ∧ s.holds 2 (3 :: [0x41] ++ [0x12]) ∧ ∀ z < 3, packedCode s.h.conv [0x12] 2 z < 3)
    ∧ (let s : State := bs2Tile [0xA4, 0x03, 0x01];
      s.countFits 3 ∧ (1 - 1) >>> 0 = 0 ∧ (∀ j < 0, (1 - 1) >>> j ≠ 0) ∧ s.holds 2 (1 :: [] ++ [])
        ∧ ∀ z < 3, packedCode s.h.conv [] 0 z < 1)
    ∧ (let s : State := bs2Tile [0xA4, 0x03, 0x03, 0x41, 0x13];
      s.holds 2 (3 :: [0x41] ++ [0x13]) ∧ ¬(∀ z < 3, packedCode s.h.conv [0x13] 2 z < 3)
        ∧ after (exec (.bs2Lut 4 (.uint8 3)) s) faultOf = some (true, 20, 5)) := by decide +kernel
theorem witness_LutMembership :
    ∃ t, exec (.bs2Lut 4 (.uint8 3)) (bs2Tile [0xA4, 0x03, 0x03, 0x41, 0x12]) = .next t ∧ (t.err, t.val.length) = (false, 3) :=
  exists_of_after (by decide +kernel)
/-- The whole buffer; one byte more; the comparison of a band; a blob one byte short of the range. -/
theorem witness_F32SumResult :
    (([1, 2, 3] : List Byte).length = (3 : Word).toNat ∧ (busyWith [1, 2, 3]).holds (0 : Word).toNat [1, 2, 3])
    ∧ (busyWith [1, 2, 3]).inLen.toNat < (1 : Word).toNat + (3 : Word).toNat
    ∧ (let s : State := { busyWith [] with seq := .checksumTest, opResult := 7, h := { HGroup.reset with checksum := 7 } };
      s.port = [] ∧ s.busy = true ∧ s.seq = .checksumTest ∧ s.opResult.setWidth 32 = s.h.checksum)
    ∧ (let s : State := { busyWith [] with seq := .checksum, h := { HGroup.reset with blob0 := 6, blobSize := 13 } };
      s.port = [] ∧ s.busy = true ∧ s.h.blobSize.toInt < 14 ∧ after (step s) faultOf = some (true, 17, 6)) := by
  decide +kernel
/-- An odd number of bytes. -/
theorem witness_FletcherCongruence :
    ∀ i < 4, ([0x0102, 0x0300] : List Nat)[i]? = if 2 * i < ([1, 2, 3] : List Byte).length then
      some ((([1, 2, 3] : List Byte).getD (2 * i) 0).toNat * 256 + (([1, 2, 3] : List Byte).getD (2 * i + 1) 0).toNat)
      else none := by decide
/-- The last byte of a range of three; and of the smallest range that has a byte. -/
theorem witness_OneByteChangeDetected :
    (2 < ([1, 2, 3] : List Byte).length ∧ ([1, 2, 3] : List Byte)[2]? ≠ some 4)
    ∧ (let s : State := { busyWith (List.replicate 14 0 ++ [4]) with
          seq := .checksum, h := { HGroup.reset with blobSize := 15, checksum := fletcherWord [3] } };
      s.port = [] ∧ s.busy = true ∧ s.seq = .checksum ∧ (14 : Int) ≤ s.h.blobSize.toInt
        ∧ ([3] : List Byte).length = (s.h.blobSize - 14).toNat ∧ s.h.checksum = fletcherWord [3]
        ∧ s.holds (s.h.blob0 + 14).toNat (([3] : List Byte).set 0 4)) := by decide +kernel
/-- The whole range, wrapped as far as it may; one index further; version 1. -/
theorem witness_HufTableResult :
    after (exec (.hufTable 2 256 256 512) State.reset) (fun t => t.err) = some false
    ∧ after (exec (.hufTable 2 256 257 513) State.reset) faultOf = some (true, 21, 0)
    ∧ after (exec (.hufTable 1 257 0 1) State.reset) faultOf = some (true, 9, 0) := by decide +kernel
/-- Lengths 1, 2, 2 and the stored codes `0`, `10`, `11`. -/
def storedCodes : State :=
  { busyWith [0x00, 0x00, 0x00, 0x58] with
    seq := .hufCodes, huf := { HufGroup.reset with size := 3, i1 := 3 }, t := { TGroup.reset with nVal := 3 },
    val := [0x3FF0000000000000, 0x4000000000000000, 0x4000000000000000] }
theorem witness_StoredCodesMakeTable :
    (storedCodes.port = [] ∧ storedCodes.busy = true ∧ storedCodes.seq = .hufCodes ∧ storedCodes.huf.size.toNat ≤ 65536
      ∧ storedCodes.err = false ∧ storedCodes.val = ([1, 2, 2] : List Nat).map realOfNat
      ∧ (∀ l ∈ ([1, 2, 2] : List Nat), l < 4294967296) ∧ ([1, 2, 2] : List Nat).length = storedCodes.t.nVal.toNat
      ∧ storedCodes.huf.i0.toNat < storedCodes.huf.i1.toNat
      ∧ storedCodes.huf.i1.toNat ≤ storedCodes.huf.i0.toNat + storedCodes.huf.size.toNat
      ∧ storedCodes.huf.i1.toNat ≤ 2 * storedCodes.huf.size.toNat)
    ∧ ∃ t, step storedCodes = .next t ∧ t.err = storedCodes.err :=
  ⟨by decide +kernel, exists_of_after (by decide +kernel)⟩
theorem witness_HufBuildResult : threeCodes.TableReady where
  size := by decide +kernel
  lengths := by decide +kernel
  codes := by decide +kernel
  prefixFree := by
    intro x hx y hy
    replace hx : x < 3 := hx
    replace hy : y < 3 := hy
    interval_cases x <;> interval_cases y <;> decide +kernel
  longest := by decide +kernel
  quickBits := by decide +kernel
/-- A hit of the quick table. After `HUF.BUILD`: a code that ends with the buffer. A word begun and none begun; a padding word
that ends with the buffer, and one byte less. -/
theorem witness_HufSymDecodes :
    (let s : State := threeStream threeCodes;
      peek s s.huf.qBits.toNat = .ok 2 ∧ Memory.read s.qt 2 = some { len := 2, sym := 1 }
        ∧ s.consumable 2)
    ∧ (let u : State := { threeCodes with
          inMem := Memory.cellsFrom 0 [0x00, 0x00, 0x00, 0x98], inLen := 4, hb := { base := 0, widx := 0, bit := 30 } };
      ∃ s, exec .hufBuild u = .next s
        ∧ (decide s.bitsReady, (peek s (s.lenAt 0)).toOption, s.codeAt 0, decide (s.consumable (s.lenAt 0)))
          = (true, some 0, 0, true))
    ∧ (let s (bit : BitVec 6) : State :=
        { busyWith (List.replicate 12 0) with seq := .hufAlign, hb := { base := 4, widx := 0, bit := bit } };
      (s 0).port = [] ∧ (s 0).busy = true ∧ after (step (s 0)) (fun t => (t.hb.widx, t.seq)) = some (0, .hufPlane)
        ∧ after (step (s 1)) (fun t => (t.hb.widx, t.hb.bit, t.seq)) = some (1, 0, .hufPlane)
        ∧ after (step { s 1 with seq := .hufEnd }) (fun t => (t.err, t.cur, t.seq)) = some (false, 12, .l2Stats)
        ∧ after (step { s 1 with seq := .hufEnd, inLen := 11 }) faultOf = some (true, 16, 4)
        ∧ after (step { s 0 with seq := .hufEnd }) (fun t => t.cur) = some 8) :=
  ⟨by decide +kernel, exists_of_after (by decide +kernel), by decide +kernel⟩
/-- The row's three symbols: `10`, `0`, `11`. -/
theorem witness_HufPlanePlainResult :
    let s : State := planeRow rowSyms
    s.maskReady s.pixels ∧ s.hb.bit.toNat < 32
      ∧ ([10, 3, 255] : List Nat).length = (s.validAmong s.pixels).length * s.h.nDim.toNat
      ∧ s.spells 5 s.hbPos [10, 3, 255] := by
  refine ⟨by decide +kernel, by decide +kernel, by decide +kernel, ⟨2, by rfl, 1, by rfl, 2, by rfl, rfl⟩⟩
theorem witness_HufPlaneDeltaResult :
    let s : State := planeRow rowSyms
    s.maskReady s.pixels ∧ s.hb.bit.toNat < 32
      ∧ ([10, 3, 255] : List Nat).length = s.h.nDim.toNat * (s.validAmong s.pixels).length
      ∧ s.spells 5 s.hbPos [10, 3, 255] := by
  refine ⟨by decide +kernel, by decide +kernel, by decide +kernel, ⟨2, by rfl, 1, by rfl, 2, by rfl, rfl⟩⟩
/-- A version 5 header whose declared size is the header alone; one byte less; a valid count one above the pixels. -/
theorem witness_L2HdrResult :
    after (exec (.l2Hdr (.fields 5 9 1 2 3 2 1 66 7 0 0 0)) State.reset) (fun t => (t.err, t.cur)) = some (false, 66)
    ∧ after (exec (.l2Hdr (.fields 5 9 1 2 3 2 1 65 7 0 0 0)) State.reset) faultOf = some (true, 17, 0)
    ∧ after (exec (.l2Hdr (.fields 5 9 1 2 3 3 1 66 7 0 0 0)) State.reset) faultOf = some (true, 17, 0)
    ∧ (let u (version : Word) : State :=
        { busyWith [] with seq := .l2Setup, h := { HGroup.reset with version := version, imgType := 1, height := 4 } };
      ((u 2).port = [] ∧ (u 2).busy = true ∧ (u 2).seq = .l2Setup)
        ∧ after (step (u 2)) (fun t => (t.h.etype, t.h.conv, t.res.height, t.seq)) = some (.u8, .legacy, 4, .l2Prefill)
        ∧ after (step (u 3)) (fun t => t.h.conv) = some .msbf) := by decide +kernel
/-- Each clause: all valid; a payload that just fits; nothing held; a held mask of the declared count; the end of a payload,
with the declared count and with one less. -/
theorem witness_L2MaskResult :
    let s : State := State.image (busyWith [2, 0, 0, 0, 0x00, 0x80]) 3 1
    let part : State := { s with h := { s.h with nValid := 2 } }
    (({ s with h := { s.h with nValid := 3 } } : State).h.nValid.toNat = s.np)
    ∧ ¬(part.h.nValid = 0 ∨ part.h.nValid.toNat = part.np) ∧ (part.cur + 4).toNat + 2 ≤ part.inLen.toNat
    ∧ part.m.held = false
    ∧ (let r : State := { masked part with m := { MaskGroup.reset with held := true } };
      r.m.held = true ∧ (∀ k < r.np, (Memory.read r.maskx k).isSome = true)
        ∧ ((List.range r.np).filter fun k => Memory.read r.maskx k == some 1#8).length = r.h.nValid.toNat)
    ∧ (let u : State := { masked part with seq := .maskEnd, cur := 4, h := { part.h with fmt := .lerc2, maskBytes := 2 } };
      (u.port = [] ∧ u.busy = true ∧ u.seq = .maskEnd ∧ u.h.fmt = .lerc2
          ∧ ∀ k < u.np, (Memory.read u.maskx k).isSome = true)
        ∧ after (step u) (fun t => (t.err, t.cur, t.m.count, t.m.held, t.seq)) = some (false, 6, 1, true, .constSurf .globalMin)
        ∧ after (step { u with h := { u.h with nValid := 1 } }) faultOf = some (true, 8, 6)) := by
  decide +kernel
/-- The mask word 0, at the places where it is due. -/
def noPayload (nValid version : Word) (zMax : F64) : State :=
  let s := masked (State.image (busyWith [0, 0, 0, 0]) 3 1)
  { s with seq := .l2Mask, m := { MaskGroup.reset with held := true },
           h := { s.h with nValid := nValid, version := version, zMax := zMax } }
/-- What is due without a payload: of a void band, of a constant one, before and from version 4 on, and after a mask used
again. -/
theorem witness_L2MaskResult_due :
    ((noPayload 0 2 0).port = [] ∧ (noPayload 0 2 0).busy = true ∧ (noPayload 0 2 0).holds 0 [0, 0, 0, 0]
      ∧ (noPayload 3 2 0).h.nValid.toNat = (noPayload 3 2 0).np
      ∧ ∀ k < (noPayload 2 4 1).np, (Memory.read (noPayload 2 4 1).maskx k).isSome = true)
    ∧ after (step (noPayload 0 2 1)) (fun t => (t.m.allVoid, t.seq)) = some (true, .l2Stats)
    ∧ after (step (noPayload 3 2 0)) (fun t => (t.m.allVoid, t.seq)) = some (false, .constSurf .globalMin)
    ∧ after (step (noPayload 3 3 1)) State.seq = some .l2Flag
    ∧ after (step (noPayload 3 4 1)) State.seq = some .l2Ranges
    ∧ after (step (noPayload 2 4 1)) (fun t => (t.m.present, t.m.count, t.cur, t.seq)) = some (true, 0, 4, .l2Ranges) := by
  decide +kernel
/-- The ranges; the last value cut off; both dimensions constant; the second one not. -/
theorem witness_L2RangesResult :
    (let s : State := twoDims [1, 2, 3, 4];
      ([1, 2, 3, 4] : List Byte).length = 2 * s.h.nDim.toNat * s.imgSize ∧ s.holds s.cur.toNat [1, 2, 3, 4])
    ∧ (let s : State := twoDims [1, 2, 3];
      3 < 2 * s.h.nDim.toNat ∧ ([1, 2, 3] : List Byte).length = 3 * s.imgSize ∧ s.holds s.cur.toNat [1, 2, 3]
        ∧ s.inLen.toNat < s.cur.toNat + (3 + 1) * s.imgSize ∧ after (exec .l2Ranges s) faultOf = some (true, 16, 3))
    ∧ (let s (last : F64) : State := { twoDims [] with seq := .rangesTest, dimMin := [(0, 7), (1, 9)], dimMax := [(0, 7), (1, last)] };
      (s 9).port = [] ∧ (s 9).busy = true
        ∧ (∀ d < (s 9).h.nDim.toNat, (Memory.read (s 9).dimMin d).isSome = true ∧ (Memory.read (s 9).dimMax d).isSome = true)
        ∧ after (step (s 9)) State.seq = some (.constSurf .dimMin) ∧ after (step (s 8)) State.seq = some .l2Flag) := by
  decide +kernel
theorem witness_L2SweepResult :
    let s : State := twoDims [9, 1, 2, 3, 4]
    s.maskReady s.pixels ∧ (s.validAmong s.pixels).length = s.h.nValid.toNat
      ∧ ([1, 2, 3, 4] : List Byte).length = (s.validAmong s.pixels).length * s.h.nDim.toNat * s.imgSize
      ∧ s.holds (s.cur + 1).toNat [1, 2, 3, 4]
      ∧ (twoDims [9, 1, 2, 3]).inLen.toNat < (s.cur + 1).toNat + s.h.nValid.toNat * s.h.nDim.toNat * s.imgSize
      ∧ after (exec (.l2Sweep 9) (twoDims [9, 1, 2, 3])) faultOf = some (true, 16, 1) := by decide +kernel
/-- Versions 3 and 4. A bound of 0.5 and of 0.50002 in a version 2 band of bytes, 0.5 in version 1; the second flag byte. -/
theorem witness_L2FlagResults :
    (4 ≤ (4 : Word).toInt ∧ (3 : Word).toInt < 4)
    ∧ (let s (version : Word) (bound : F64) : State :=
        { twoDims [0] with seq := .l2Flag, h := { (twoDims []).h with version := version, maxZErr := bound } };
      (s 2 0).port = [] ∧ (s 2 0).busy = true ∧ (s 2 0).holds 0 [0]
        ∧ after (step (s 2 0x3FE0000000000000)) State.seq = some .l2Hf
        ∧ after (step (s 2 0x3FE00029F16B11C7)) (fun t => (t.seq, t.t.width)) = some (.l2Tile 0 0 0, 2)
        ∧ after (step (s 1 0x3FE0000000000000)) State.seq = some (.l2Tile 0 0 0))
    ∧ (let s (hf : Byte) : State := { twoDims [hf] with seq := .l2Hf };
      (s 0).holds 0 [0] ∧ (s 1).holds 0 [1] ∧ (s 2).holds 0 [2] ∧ 4 ≤ (s 2).h.version.toInt
        ∧ after (step (s 0)) State.seq = some (.l2Tile 0 0 0)
        ∧ after (step (s 2)) (fun t => (t.seq, t.planeMode)) = some (.hufTable, .plain)) := by decide +kernel
theorem witness_L2TileRawResult :
    let s : State := twoDims [0, 1, 2]
    s.tagFits 0 ∧ s.flagOf 0 = false ∧ s.tileInside ∧ s.maskReady s.tilePixels
      ∧ ([1, 2] : List Byte).length = (s.validAmong s.tilePixels).length * s.imgSize ∧ s.holds (s.cur + 1).toNat [1, 2] := by
  decide +kernel
/-- The header with the cross-band flag; the delivery of two values to the second dimension. -/
theorem witness_L2TileBsResult :
    (let s : State := secondDim [0xC5, 0x07];
      s.tagFits 1 ∧ (s.flagOf 1 = true ∧ s.t.dim ≠ 0) ∧ s.originType 3 = some .i8
        ∧ ([0x07] : List Byte).length = esize .i8 ∧ s.holds (s.cur + 1).toNat [0x07])
    ∧ (let s : State := { secondDim [] with
          seq := .tileDeliver 0 0 1, val := [0, 0], t := { (secondDim []).t with xband := true } };
      s.port = [] ∧ s.busy = true ∧ s.tileInside ∧ s.maskReady s.tilePixels
        ∧ s.val.length = (s.validAmong s.tilePixels).length ∧ s.zmaxReady s.t.dim.toNat
        ∧ s.referenceReady (s.validAmong s.tilePixels)) := by decide +kernel
theorem witness_L2TileXbResult :
    let s : State := secondDim []
    s.tagFits 1 ∧ (s.flagOf 1 = true ∧ s.t.dim ≠ 0 ∧ s.referenceReady (s.validAmong s.tilePixels))
      ∧ s.tagFits 0 ∧ s.flagOf 0 = false ∧ s.maskReady s.tilePixels := by decide +kernel
theorem witness_L2TileConstResult :
    let s : State := secondDim [0xC7, 0x07]
    s.tagFits 1 ∧ (s.flagOf 1 = true ∧ s.t.dim ≠ 0 ∧ s.zmaxReady s.t.dim.toNat
        ∧ s.referenceReady (s.validAmong s.tilePixels))
      ∧ s.originType 3 = some .i8 ∧ ([0x07] : List Byte).length = esize .i8 ∧ s.holds (s.cur + 1).toNat [0x07]
      ∧ s.tileInside ∧ s.maskReady s.tilePixels := by decide +kernel
/-- A wrong tag, in version 4 by its low bit, in version 5 by its upper bits; the flag on dimension 0 and on a raw tile; a
selector without a type; counts one off, and one above the capacity; a table of no entry. -/
theorem witness_TileRecordFaults :
    (let s : State := { twoDims [] with h := { (twoDims []).h with version := 4 } };
      ¬s.tagFits 1)
    ∧ (let s : State := twoDims [];
      ¬s.tagFits 2 ∧ s.tagFits 1 ∧ s.flagOf 1 = true ∧ s.t.dim = 0)
    ∧ (secondDim []).flagOf 1 = true
    ∧ (let s : State := { State.resetWith { Config.default with originMap := [] } with t := TGroup.reset };
      s.tagFits 0 ∧ s.flagOf 0 = false ∧ s.originType 0 = none)
    ∧ (let s : State := twoDims [];
      s.bare = false ∧ s.maskReady s.tilePixels ∧ CountField.value (.uint8 3) ≠ (s.validAmong s.tilePixels).length)
    ∧ ({ State.reset with bare := true } : State).cfg.hufSymMax < CountField.value (.uint16 257)
    ∧ (let s : State := bs2Tile [0xA4, 0x03, 0x00];
      CountField.uint8 3 ≠ .invalid ∧ s.countFits (CountField.value (.uint8 3))
        ∧ s.holds (s.cur + BitVec.ofNat 32 (1 + (CountField.uint8 3).len)).toNat [0]) := by decide +kernel
/-- Each payload and field one byte short. -/
theorem witness_TileRecordFaults_cut :
    (let s : State := twoDims [0, 1];
      s.tagFits 0 ∧ s.flagOf 0 = false ∧ s.maskReady s.tilePixels
        ∧ s.inLen.toNat < (s.cur + 1).toNat + (s.validAmong s.tilePixels).length * s.imgSize
        ∧ after (exec (.l2TileRaw 0 0) s) faultOf = some (true, 16, 1))
    ∧ (let s : State := twoDims [0xC1];
      s.originType 3 = some .i8 ∧ s.inLen.toNat < (s.cur + 1).toNat + esize .i8
        ∧ after (exec (.l2TileBs 3 0) s) faultOf = some (true, 16, 1)
        ∧ after (exec (.l2TileConst 3 0) s) faultOf = some (true, 16, 1)) := by decide +kernel
/-- The codes of `BS2.AFF` one byte short; of `BS2.LUT` the size byte, the entries and the indices. -/
theorem witness_TileRecordFaults_bs2 :
    ((bs2Tile []).zmaxReady (bs2Tile []).t.dim.toNat ∧ (bs2Tile []).countFits (CountField.value (.uint8 3)))
    ∧ ((bs2Tile [0x84, 3, 0x21]).inLen.toNat < 2 + packedBytes 3 4
      ∧ after (exec (.bs2Aff 4 (.uint8 3)) (bs2Tile [0x84, 3, 0x21])) faultOf = some (true, 16, 2))
    ∧ after (exec (.bs2Lut 4 (.uint8 3)) (bs2Tile [0xA4, 3])) faultOf = some (true, 16, 2)
    ∧ ((bs2Tile [0xA4, 3, 3]).holds 2 [3] ∧ (bs2Tile [0xA4, 3, 3]).inLen.toNat < 3 + packedBytes 2 4
      ∧ after (exec (.bs2Lut 4 (.uint8 3)) (bs2Tile [0xA4, 3, 3])) faultOf = some (true, 16, 3))
    ∧ ((bs2Tile [0xA4, 3, 3, 0x41]).holds 2 [3, 0x41] ∧ (bs2Tile [0xA4, 3, 3, 0x41]).inLen.toNat < 4 + packedBytes 3 2
      ∧ (2 >>> 2 = 0 ∧ ∀ j < 2, 2 >>> j ≠ 0)
      ∧ after (exec (.bs2Lut 4 (.uint8 3)) (bs2Tile [0xA4, 3, 3, 0x41])) faultOf = some (true, 16, 4)) := by decide +kernel
theorem witness_ConstSurfResult :
    let s : State := { twoDims [] with dimMin := [(0, 0), (1, 0)] }
    s.maskReady s.pixels ∧ ∀ d < s.h.nDim.toNat, (Memory.read s.dimMin d).isSome = true := by decide +kernel
theorem witness_MaskAndResult :
    let s : State := { twoDims [] with band := 1, cmask := [(0, 1), (1, 0)] }
    s.maskReady s.pixels ∧ s.band ≠ 0 ∧ ∀ k < s.np, (Memory.read s.cmask k).isSome = true := by decide +kernel
theorem witness_ReshapeResult :
    oneBand.optFlags.getLsbD 5 = true ∧ oneBand.res.nBands.toNat = 1 ∧ ∃ st, Memory.read oneBand.bstat 0 = some st
      ∧ oneBand.np * st.nDim.toNat ≤ 4294967296
      ∧ (1 < st.nDim.toNat ∧ ∀ i < oneBand.np * st.nDim.toNat, (Memory.read oneBand.pix (pixKey 0 i)).isSome = true) :=
  ⟨by decide +kernel, by decide +kernel, _, rfl, by decide +kernel, by decide +kernel⟩
/-- One byte either way, and two; the end at the end of the buffer, and one past it. -/
theorem witness_BandEndSnap :
    let s : State := { busyWith [1, 2, 3, 4] with
      seq := .bandEnd, cur := 3, h := { HGroup.reset with fmt := .lerc2, blobSize := 4 } }
    s.port = [] ∧ s.busy = true ∧ s.seq = .bandEnd
    ∧ after (step s) (fun t => (t.err, t.cur)) = some (false, 4)
    ∧ after (step { s with cur := 5 }) (fun t => (t.err, t.cur)) = some (false, 4)
    ∧ after (step { s with cur := 2 }) faultOf = some (true, 18, 2)
    ∧ after (step { s with cur := 6 }) faultOf = some (true, 18, 6)
    ∧ after (step { s with cur := 4, h := { s.h with blobSize := 5 } }) faultOf = some (true, 16, 5)
    ∧ after (step { s with h := { s.h with fmt := .cntz, pixBytes := 3 }, pstart := 1 }) (fun t => (t.err, t.cur))
      = some (false, 4) := by decide +kernel
theorem witness_NoDataSweep :
    (let s : State := { oneBand with seq := .sweep };
      s.port = [] ∧ s.busy = true ∧ s.seq = .sweep ∧ (∀ k < s.np, (Memory.read s.cmask k).isSome = true)
        ∧ ∀ b < s.res.nBands.toNat, ∃ st, Memory.read s.bstat b = some st ∧ s.np * st.nDim.toNat ≤ 4294967296)
    ∧ after (step { floats [] 1 2 with seq := .czPrefill, optFlags := 2, optNoData := 0x3FF0000000000000 })
      (fun t => (pixBits t 0, pixBits t 1, pixBits t 2, t.seq, t.res.ndValid))
      = some (some 0x3F800000, some 0x3F800000, none, .czBlock 0 0, true)
    ∧ after (step { twoDims [] with seq := .l2Prefill }) (fun t => (pixBits t 3, pixBits t 4, t.seq, t.res.ndValid))
      = some (some 0, none, .l2Mask, false) := by
  refine ⟨⟨by decide +kernel, by decide +kernel, by decide +kernel, by decide +kernel, fun b hb => ?_⟩, by decide +kernel,
    by decide +kernel⟩
  have : b = 0 := Nat.lt_one_iff.1 hb
  subst this
  exact ⟨_, rfl, by decide +kernel⟩
/-- Statistics with ranges and without; the tail of band 0 with a packed mask and the echo, the buffer ending 10 and 11
bytes further; the completion. -/
theorem witness_CompletionWrite :
    (let s : State := { oneBand with
        seq := .l2Stats, dimMin := [(0, 0), (1, 1)], dimMax := [(0, 2), (1, 3)],
        h := { oneBand.h with version := 4, zMax := 0x3FF0000000000000 } };
      (s.port = [] ∧ s.busy = true ∧ s.h.nValid ≠ 0 ∧ feq s.h.zMin s.h.zMax = false
          ∧ ∀ d < s.h.nDim.toNat, (Memory.read s.dimMin d).isSome = true ∧ (Memory.read s.dimMax d).isSome = true)
        ∧ after (step s) (fun t => (Memory.read t.bstat 0).map fun st => (st.dimMin, st.dimMax)) = some (some ([0, 1], [2, 3]))
        ∧ after (step { s with h := { s.h with nValid := 0, zMin := 5 } })
            (fun t => (Memory.read t.bstat 0).map fun st => (st.dimMin, st.max))
          = some (some ([5, 5], 0x3FF0000000000000))
        ∧ after (step { s with seq := .czStats }) (fun t => (Memory.read t.bstat 0).map fun st => (st.min, st.nDim))
          = some (some (f64Largest, 1)))
    ∧ (let s : State := { oneBand with
          seq := .bandTail, optFlags := 0x18, cur := 1, inLen := 11, bitset := [(0, 0x80)], dimMin := [(0, 7)],
          m := { MaskGroup.reset with present := true } };
      (s.port = [] ∧ s.busy = true ∧ s.band = 0 ∧ (s.optFlags.getLsbD 3 = true ∧ s.m.present = true)
          ∧ (∀ j < s.maskBytes, (Memory.read s.bitset j).isSome = true)
          ∧ s.optFlags.getLsbD 4 = true ∧ (Memory.read s.bstat s.band.toNat).isSome = true)
        ∧ after (step s) (fun t => (t.encmask, t.res.encValid, t.res.nBands, t.seq)) = some ([(0, 0x80)], true, 1, .sweep)
        ∧ after (step { s with inLen := 12 }) (fun t => t.seq) = some .bandStart)
    ∧ (let s : State := { oneBand with seq := .finish };
      s.port = [] ∧ s.busy = true ∧ s.seq = .finish ∧ ∀ k < s.np, (Memory.read s.cmask k).isSome = true) := by
  refine ⟨⟨⟨by decide +kernel, by decide +kernel, by decide +kernel, by decide +kernel, by decide +kernel⟩, by decide +kernel,
      by decide +kernel, by decide +kernel⟩,
    ⟨by decide +kernel, by decide +kernel, by decide +kernel⟩, by decide +kernel⟩
theorem witness_FaultEntry : (busyWith []).port = [] := by decide +kernel
/-- Writes to the first and the last writable register and their neighbours, and while `BUSY`; reads of a register, of `PIX`
after `DONE`, and of `IN`; a write of `IN` at its last byte. -/
theorem witness_RegisterReadback :
    (let s (word : Nat) (v : Word) : State := { State.reset with port := [.writeReg word v] };
      (s 4 7).port = .writeReg 4 7 :: [] ∧ (s 4 7).busy = false ∧ (s 4 7).err = false
        ∧ after (step (s 3 7)) (fun t => t.regValue 3) = some 0 ∧ after (step (s 4 7)) (fun t => t.regValue 4) = some 7
        ∧ after (step (s 6 0xFF)) (fun t => t.regValue 6) = some 0x3F
        ∧ after (step (s 9 7)) (fun t => (t.regValue 9, t.regValue 8)) = some (7, 0)
        ∧ after (step (s 10 7)) (fun t => t.regValue 10) = some 0
        ∧ after (step { s 9 7 with busy := true }) faultOf = none)
    ∧ (let s (ev : HostEvent) : State := { oneBand with port := [ev], busy := false, done := true };
      after (step (s (.readReg 1))) State.rdata = some 2 ∧ after (step (s (.readReg 12))) State.rdata = some 1
        ∧ after (step (s (.readPix 0 3))) State.rdata = some 0xB1 ∧ after (step (s (.readCmask 0))) State.rdata = some 1
        ∧ after (step (s (.readStat 0 .nDim))) State.rdata = some 2)
    ∧ (let s (ev : HostEvent) : State :=
        { busyWith [1, 2] with port := [ev], busy := false, cfg := { Config.default with inMax := 3 } };
      2 < (s (.writeIn 2 5)).cfg.inMax ∧ after (step (s (.writeIn 2 5))) State.inMem = some [(0, 1), (1, 2), (2, 5)]
        ∧ after (step (s (.readIn 1))) State.rdata = some 2) := by
  refine ⟨⟨rfl, rfl, rfl, ?_⟩, ?_, ?_⟩ <;> decide +kernel
/-- A reset while `BUSY` and one while idle. -/
theorem witness_ResetValues :
    (let s : State := { busyWith [1] with port := [.reset], cur := 5 };
      s.port = .reset :: [] ∧ after (step s) (fun t => (t.busy, t.cur, t.inLen, t.inMem)) = some (false, 0, 0, [(0, 1)]))
    ∧ (let s : State := { busyWith [1] with port := [.reset], busy := false, seq := .idle };
      after (step s) (fun t => (t.busy, t.inMem)) = some (false, [])) := by decide +kernel
/-- A step of the run loop from a state that meets every invariant. -/
def invariantState : State := { runs [0x00, 0x80] with seq := .rle, rlOp := 3, bitset := [(0, 1), (1, 2), (2, 3)] }
theorem witness_MemoriesStayCanonical :
    invariantState.MemoriesWf ∧ ∃ t, step invariantState = .next t ∧ t.err = false :=
  ⟨by constructor <;> decide +kernel, exists_of_after (by decide +kernel)⟩
theorem witness_StatusStaysLegal :
    invariantState.statusOk ∧ ∃ t, step invariantState = .next t ∧ t.err = false :=
  ⟨by decide +kernel, exists_of_after (by decide +kernel)⟩
theorem witness_MasksAndCursorsStayLegal :
    (invariantState.masksBinary ∧ invariantState.cursorsOk) ∧ ∃ t, step invariantState = .next t ∧ t.err = false :=
  ⟨by decide +kernel, exists_of_after (by decide +kernel)⟩
/-- The first tile of an image of two tiles, whose record ends the tile. -/
def firstTile : State :=
  { twoDims [0x02] with
    seq := .l2Tile 0 0 1,
    h := { (twoDims []).h with version := 2, width := 10 }, t := { (twoDims []).t with width := 8, dim := 1 } }
theorem witness_TileStaysInGrid :
    (firstTile.tileOk ∧ ∃ t, step firstTile = .next t ∧ (t.seq, t.t.x0, t.t.width) = (.l2Tile 0 1 0, 8, 2))
    ∧ (firstTile.port = [] ∧ firstTile.busy = true)
    ∧ after (step { firstTile with seq := .l2Tile 0 1 1 }) (fun t => (t.busy, t.seq)) = some (true, .l2Stats)
    ∧ (let s (c : Nat) : State :=
        { floats [0x82, 7] 9 1 with seq := .czBlock 0 c, h := { (floats [] 9 1).h with nbx := 4, nby := 1 } };
      after (step (s 1)) (fun t => (t.busy, t.seq)) = some (true, .czBlock 0 2)
        ∧ after (step (s 2)) (fun t => (t.busy, t.seq)) = some (true, .czStats)) :=
  ⟨⟨show firstTile.l2TileIs 0 0 1 by decide +kernel, exists_of_after (by decide +kernel)⟩, by decide +kernel,
    by decide +kernel, by decide +kernel⟩
/-- The same tile at its `BS2` record and at the delivery of its eight values. -/
theorem witness_TileStaysInGrid_delivery :
    (let s : State := { firstTile with seq := .bs2 0 0 1, inMem := Memory.cellsFrom 0 [0x80, 8], inLen := 2 };
      (s.bare = false ∧ s.l2TileIs 0 0 1) ∧ goesOn s = some (true, .tileDeliver 0 0 1))
    ∧ (let s : State := { firstTile with seq := .tileDeliver 0 0 1, val := List.replicate 8 0 };
      s.l2TileIs 0 0 1 ∧ after (step s) (fun t => (t.seq, t.t.dim)) = some (.l2Tile 0 1 0, 0)) := by decide +kernel
theorem witness_EngineKeepsInputs :
    invariantState.port = [] ∧ (∃ t, step invariantState = .next t ∧ t.err = false)
    ∧ ∃ t, step { invariantState with port := [.turn] } = .next t ∧ t.err = false :=
  ⟨by decide +kernel, exists_of_after (by decide +kernel), exists_of_after (by decide +kernel)⟩
/-- Each of the five phases, with a step that goes on. -/
theorem witness_NoOutputBeforeChecksum :
    after (step { busyWith [] with seq := .bandStart }) (fun t => (t.err, t.seq)) = some (false, .ident)
    ∧ after (step { busyWith [0x4C, 0x65, 0x72, 0x63, 0x32, 0x20, 0, 0, 0, 0] with seq := .ident }) (fun t => (t.err, t.seq))
      = some (false, .l2Hdr)
    ∧ after (step { busyWith ([0x4C, 0x65, 0x72, 0x63, 0x32, 0x20] ++ [3, 0, 0, 0] ++ [0, 0, 0, 0] ++ [1, 0, 0, 0]
        ++ [1, 0, 0, 0] ++ [1, 0, 0, 0] ++ [8, 0, 0, 0] ++ [62, 0, 0, 0] ++ [1, 0, 0, 0] ++ List.replicate 24 0)
        with seq := .l2Hdr }) (fun t => (t.err, t.seq)) = some (false, .checksum)
    ∧ after (step { busyWith (List.replicate 14 0) with seq := .checksum, h := { HGroup.reset with blobSize := 14 } })
      (fun t => (t.err, t.seq)) = some (false, .checksumTest)
    ∧ after (step { busyWith [] with seq := .checksumTest }) (fun t => (t.err, t.seq)) = some (false, .l2Setup) := by
  decide +kernel

end Sys2Proof.Tests
end

namespace Sys2Proof.Machine

/-! # What a step of the engine keeps

The status and the error record (R14, R15), the inputs (R24, R43), the masks' values and the cursors' bit counts (R13, R21).
`RunsTo` and `FaultsTo` say what the two ways a rule can end leave of them, always compared with the state `s₀` in which
the step began: a rule's parts then compose by `Rule.Meets.bind` alone. Where a part writes none of these fields, what is
to be shown of the state after it unfolds to what is known of the state before it. -/

/-- The status flags and the error record (R14, R15). -/
def State.status (s : State) : Bool × Bool × Bool × BitVec 8 × Word := (s.busy, s.done, s.err, s.errCode, s.errInfo)

/-- What only the host writes: the configuration, `IN`, `IN_LEN` and the OPT registers (R24, R43). -/
def State.inputs (s : State) : Config × List Host.Cell × Word × Word × BitVec 6 × BitVec 3 × F64 :=
  (s.cfg, s.inMem, s.inLen, s.optOffset, s.optFlags, s.optPixelType, s.optNoData)

/-- Binary masks, and bit counts inside a word (R13, R21). -/
def State.bitsLegal (s : State) : Prop := s.masksBinary ∧ s.cursorsOk

/-- The step that began in `s₀` has come to `t` without a fault. -/
def State.RunsTo (s₀ t : State) : Prop :=
  t.status = s₀.status ∧ t.inputs = s₀.inputs ∧ (s₀.bitsLegal → t.bitsLegal)

/-- The step that began in `s₀` has taken a fault, and `t` is the state after the fault entry (R290). -/
def State.FaultsTo (s₀ t : State) : Prop :=
  t.busy = false ∧ t.err = true ∧ t.done = s₀.done ∧ t.seq = .idle ∧ t.inputs = s₀.inputs
    ∧ (s₀.bitsLegal → t.bitsLegal)

/-- A rule that hands on a value only: whatever it answers, its faults are faults of the step. -/
abbrev Rule.ReadsFrom {α : Type} (s₀ : State) (r : Rule α) : Prop := r.Meets (fun _ => True) s₀.FaultsTo

/-- A rule that completes with a state the step can come to. -/
abbrev Rule.RunsFrom (s₀ : State) (r : Rule State) : Prop := r.Meets s₀.RunsTo s₀.FaultsTo

section

variable {α β : Type} {s₀ s : State}

theorem State.runsTo_rfl (s : State) : s.RunsTo s := ⟨rfl, rfl, id⟩

/-- Fault entry empties the masks and leaves the cursors. -/
theorem State.RunsTo.takeFault (h : s₀.RunsTo s) (code : ErrCode) (info : Nat) :
    s₀.FaultsTo (s.takeFault code info) := by
  obtain ⟨hs, hi, hl⟩ := h
  exact ⟨rfl, rfl, congrArg (fun x => x.2.1) hs, rfl, hi, fun h0 => ⟨⟨nofun, nofun⟩, (hl h0).2⟩⟩

theorem raise_meets_faultsTo {P : α → Prop} {code : ErrCode} {info : Nat} (h : s₀.RunsTo s) :
    Rule.Meets P s₀.FaultsTo (raise s code info) := by
  constructor <;> intro t e <;> cases e
  exact h.takeFault code info

/-- A rule that takes no fault of its own. -/
theorem Rule.Meets.of_ne_halt {r : Rule α} (h : ∀ t, r ≠ .error (.halt t)) : r.ReadsFrom s₀ :=
  ⟨fun _ _ => trivial, fun t e => absurd e (h t)⟩

/-- A reader first, then a rule that meets its postcondition whatever was read. -/
theorem Rule.Meets.read {P : β → Prop} {r : Rule α} {f : α → Rule β} (h : r.ReadsFrom s₀)
    (hf : ∀ a, (f a).Meets P s₀.FaultsTo) : Rule.Meets P s₀.FaultsTo (r >>= f) :=
  h.bind fun a _ => hf a

/-- One of two readers first, as a test decides. -/
theorem Rule.Meets.read_either {P : β → Prop} {c : Prop} [Decidable c] {x y : Rule α} {f : α → Rule β}
    (hx : x.ReadsFrom s₀) (hy : y.ReadsFrom s₀) (hf : ∀ a, (f a).Meets P s₀.FaultsTo) :
    Rule.Meets P s₀.FaultsTo (if c then x >>= f else y >>= f) :=
  .ite (.read hx hf) (.read hy hf)

/-! ## The readers -/

theorem raiseIf_readsFrom {test : Bool} {code : ErrCode} {info : Nat} (h : s₀.RunsTo s) :
    (raiseIf s test code info).ReadsFrom s₀ :=
  .ite (raise_meets_faultsTo h) (.ok trivial)

theorem memCheck_readsFrom {a n : Nat} (h : s₀.RunsTo s) : (memCheck s a n).ReadsFrom s₀ :=
  .ite (.ok trivial) (raise_meets_faultsTo h)

theorem memRead_readsFrom {a n : Nat} (h : s₀.RunsTo s) : (memRead s a n).ReadsFrom s₀ :=
  .read (memCheck_readsFrom h) fun _ => .of_ne_halt fun _ => inBytes_ne_halt

theorem readLe_readsFrom {a n : Nat} (h : s₀.RunsTo s) : (readLe s a n).ReadsFrom s₀ :=
  .read (memRead_readsFrom h) fun _ => .pure trivial

theorem readElem_readsFrom {ty : EType} {a : Nat} (h : s₀.RunsTo s) : (readElem s ty a).ReadsFrom s₀ :=
  .read (readLe_readsFrom h) fun _ => .pure trivial

theorem readElems_readsFrom {ty : EType} {a n : Nat} (h : s₀.RunsTo s) : (readElems s ty a n).ReadsFrom s₀ := by
  induction n generalizing a with
  | zero => exact .ok trivial
  | succ n ih => exact .read (readElem_readsFrom h) fun _ => .read ih fun _ => .pure trivial

theorem validOf_readsFrom {ks : List Nat} : (s.validOf ks).ReadsFrom s₀ := .of_ne_halt fun _ => State.validOf_ne_halt

theorem tileValues_readsFrom {ks : List Nat} {vs : List F64} : (tileValues s ks vs).ReadsFrom s₀ :=
  .of_ne_halt fun _ => tileValues_ne_halt

theorem bs2Args_readsFrom : (bs2Args s).ReadsFrom s₀ := .of_ne_halt fun _ => bs2Args_ne_halt

theorem excluded_readsFrom : s.excluded.ReadsFrom s₀ := .of_ne_halt fun _ => State.excluded_ne_halt

theorem written_readsFrom {mem : MemName} {index : Nat} {o : Option α} : (written mem index o).ReadsFrom s₀ :=
  .of_ne_halt fun _ => written_ne_halt

theorem remapLut_readsFrom {c : Nat} (h : s₀.RunsTo s) : (remapLut s c).ReadsFrom s₀ :=
  .read (raiseIf_readsFrom h) fun _ => written_readsFrom

theorem remapLutAll_readsFrom {cs : List Nat} (h : s₀.RunsTo s) : (remapLutAll s cs).ReadsFrom s₀ :=
  ⟨fun _ _ => trivial, fun _ e => by rw [remapLutAll_eq_halt e]; exact h.takeFault _ _⟩

/-! ## What a rule does to the state -/

theorem State.RunsTo.advance (h : s₀.RunsTo s) (n : Nat) : s₀.RunsTo (s.advance n) := h

theorem State.RunsTo.goto (h : s₀.RunsTo s) (p : Phase) : s₀.RunsTo (s.goto p) := h

theorem State.RunsTo.putPix (h : s₀.RunsTo s) (cells : List (Nat × Elem)) : s₀.RunsTo (s.putPix cells) := h

theorem State.RunsTo.deliver (h : s₀.RunsTo s) (d : Nat) (ks : List Nat) (vs : List F64) :
    s₀.RunsTo (s.deliver d ks vs) := h

theorem State.RunsTo.czDeliver (h : s₀.RunsTo s) (ks : List Nat) (vs : List F64) : s₀.RunsTo (czDeliver s ks vs) := h

theorem State.RunsTo.putStat (h : s₀.RunsTo s) (st : BandStat) : s₀.RunsTo (s.putStat st) := h

theorem State.RunsTo.firstBandResults (h : s₀.RunsTo s) : s₀.RunsTo s.firstBandResults := by
  rw [State.firstBandResults_eq]; exact h

/-- An extraction leaves the bit count of `BS` inside a word, since the width is at most 32 (R102, R104, R105). -/
theorem State.RunsTo.withCodes {conv : Conv} {bytes : List Byte} {a n k : Nat} (h : s₀.RunsTo s) (hk : k ≤ 32) :
    s₀.RunsTo (s.withCodes a (extractCodes conv bytes n k)) := by
  obtain ⟨hs, hi, hl⟩ := h
  refine ⟨hs, hi, fun h0 => ?_⟩
  obtain ⟨hmasks, -, hhb⟩ := hl h0
  refine ⟨hmasks, ?_, hhb⟩
  have hbit := extractCodes_bit_lt conv bytes n hk
  simp only [State.withCodes, BitVec.toNat_ofNat]
  omega

theorem unpk_meets_runsTo {conv : Conv} {a n k : Nat} (h : s₀.RunsTo s) :
    (unpk s conv a n k).Meets (fun r => s₀.RunsTo r.2) s₀.FaultsTo := by
  refine ⟨fun r e => ?_, fun t e => ?_⟩
  · obtain ⟨hk, bytes, -, -, -, ht⟩ := unpk_eq_ok (codes := r.1) (t := r.2).1 e
    rw [ht]
    exact h.withCodes hk
  · rcases unpk_eq_halt.1 e with ⟨-, rfl⟩ | ⟨-, -, -, rfl⟩ <;> exact h.takeFault _ _

/-- Where the bit reader's cursor is put, its bit count is inside a word (R159). -/
theorem State.RunsTo.setHbPos {pos : Nat} (h : s₀.RunsTo s) : s₀.RunsTo (s.setHbPos pos) :=
  have ⟨hs, hi, hl⟩ := h
  ⟨hs, hi, fun h0 => have ⟨hmasks, hbs, _⟩ := hl h0; ⟨hmasks, hbs, s.setHbPos_bit_lt pos⟩⟩

/-- So has the cursor at the start of a word (R161, R165). -/
theorem State.RunsTo.setWord {base widx : Word} (h : s₀.RunsTo s) :
    s₀.RunsTo { s with hb := { base := base, widx := widx, bit := 0#6 } } :=
  have ⟨hs, hi, hl⟩ := h
  ⟨hs, hi, fun h0 => have ⟨hmasks, hbs, _⟩ := hl h0; ⟨hmasks, hbs, Nat.succ_pos 31⟩⟩

/-- A mask of ones and zeros stays one (R139). -/
theorem State.RunsTo.writeMaskx {xs : List Byte} (h : s₀.RunsTo s) (hx : ∀ x ∈ xs, x = 0#8 ∨ x = 1#8) :
    s₀.RunsTo { s with maskx := Memory.writeRange s.maskx 0 xs } :=
  have ⟨hs, hi, hl⟩ := h
  ⟨hs, hi, fun h0 => have ⟨⟨hmaskx, hcmask⟩, hcursors⟩ := hl h0
    ⟨⟨fun c hc => (Memory.mem_writeRange hc).elim (hx _) (hmaskx c), hcmask⟩, hcursors⟩⟩

/-- So does the combined mask (R274). -/
theorem State.RunsTo.writeCmask {xs : List Byte} (h : s₀.RunsTo s) (hx : ∀ x ∈ xs, x = 0#8 ∨ x = 1#8) :
    s₀.RunsTo { s with cmask := Memory.writeRange s.cmask 0 xs } :=
  have ⟨hs, hi, hl⟩ := h
  ⟨hs, hi, fun h0 => have ⟨⟨hmaskx, hcmask⟩, hcursors⟩ := hl h0
    ⟨⟨hmaskx, fun c hc => (Memory.mem_writeRange hc).elim (hx _) (hcmask c)⟩, hcursors⟩⟩

/-! ## Headers and sections -/

theorem rmdStart_runsFrom {numBytes : Word} (h : s₀.RunsTo s) : (rmdStart s numBytes).RunsFrom s₀ :=
  .read (memCheck_readsFrom h) fun _ => .pure h

theorem checkValidCount_runsFrom (h : s₀.RunsTo s) : (checkValidCount s).RunsFrom s₀ :=
  .read (.of_ne_halt fun _ => State.nvalid_ne_halt) fun _ => .read (raiseIf_readsFrom h) fun _ => .pure h

theorem setFormat_runsFrom {f : Format} (h : s₀.RunsTo s) : (setFormat s f).RunsFrom s₀ :=
  .read (raiseIf_readsFrom h) fun _ => .pure h

theorem czHdr_runsFrom {v i ht w : Word} {e : F64} (h : s₀.RunsTo s) : (czHdr s v i ht w e).RunsFrom s₀ :=
  .read (raiseIf_readsFrom h) fun _ => .read (raiseIf_readsFrom h) fun _ => .pure h

theorem czMsec_runsFrom {nby nbx n : Word} {m : F32} (h : s₀.RunsTo s) : (czMsec s nby nbx n m).RunsFrom s₀ :=
  .ite (.ok h) (rmdStart_runsFrom h)

theorem czPsec_runsFrom {nby nbx n : Word} {m : F32} (h : s₀.RunsTo s) : (czPsec s nby nbx n m).RunsFrom s₀ :=
  .read (raiseIf_readsFrom h) fun _ => .pure h

theorem l2Hdr_runsFrom {header : L2Header} (h : s₀.RunsTo s) : (l2Hdr s header).RunsFrom s₀ := by
  cases header with
  | unsupported v => exact raise_meets_faultsTo h
  | fields => exact .read (raiseIf_readsFrom h) fun _ => .pure h

theorem l2Mask_runsFrom {n : Word} (h : s₀.RunsTo s) : (l2Mask s n).RunsFrom s₀ :=
  .ite (.read (raiseIf_readsFrom h) fun _ => .pure h)
    (.ite (rmdStart_runsFrom h) (.read (raiseIf_readsFrom h) fun _ => checkValidCount_runsFrom h))

theorem l2Ranges_runsFrom (h : s₀.RunsTo s) : (l2Ranges s).RunsFrom s₀ :=
  .read (readElems_readsFrom h) fun _ => .read (readElems_readsFrom h) fun _ => .pure h

theorem hufTable_runsFrom {v n i j : Word} (h : s₀.RunsTo s) : (hufTable s v n i j).RunsFrom s₀ :=
  .read (raiseIf_readsFrom h) fun _ => .read (raiseIf_readsFrom h) fun _ => .read (raiseIf_readsFrom h) fun _ =>
    .read (raiseIf_readsFrom h) fun _ => .pure h

theorem l2HfPlain_runsFrom (h : s₀.RunsTo s) : (l2HfPlain s).RunsFrom s₀ :=
  .read (raiseIf_readsFrom (.advance h _)) fun _ => .pure h

/-! ## Mask runs -/

theorem rleLit_runsFrom {run : BitVec 16} (h : s₀.RunsTo s) : (rleLit s run).RunsFrom s₀ :=
  .read (raiseIf_readsFrom h) fun _ => .read (raiseIf_readsFrom h) fun _ => .read (memRead_readsFrom h) fun _ =>
    .pure h

theorem rleRep_runsFrom {run : BitVec 16} (h : s₀.RunsTo s) : (rleRep s run).RunsFrom s₀ :=
  .read (raiseIf_readsFrom h) fun _ => .read (raiseIf_readsFrom h) fun _ => .read (memRead_readsFrom h) fun _ =>
    .pure h

theorem rleEnd_runsFrom (h : s₀.RunsTo s) : (rleEnd s).RunsFrom s₀ :=
  .read (raiseIf_readsFrom h) fun _ => .read (raiseIf_readsFrom h) fun _ => .pure h

/-- What a list reader answers has a property that each of its answers has. -/
theorem readsEach.forall {P : β → Prop} {f : α → Option β} {xs : List α} {ys : List β} (h : readsEach f xs ys)
    (hf : ∀ x y, f x = some y → P y) : ∀ y ∈ ys, P y := by
  intro y hy
  obtain ⟨x, -, hx⟩ := List.mem_map.1 (h ▸ List.mem_map_of_mem hy : some y ∈ xs.map f)
  exact hf x y hx

/-- Every byte of the expanded mask is a bit of the bitset (R139). -/
theorem expandBits_binary {ks : List Nat} {xs : List Byte} (h : expandBits s ks = .ok xs) :
    ∀ x ∈ xs, x = 0#8 ∨ x = 1#8 := by
  refine (expandBits_eq_ok.1 h).forall fun k y hy => ?_
  obtain ⟨x, -, rfl⟩ := Option.map_eq_some_iff.1 hy
  exact maskBit_binary x k

theorem maskExpand_runsFrom (h : s₀.RunsTo s) : (maskExpand s).RunsFrom s₀ :=
  .bind ⟨fun _ e => expandBits_binary e, fun _ e => absurd e expandBits_ne_halt⟩ fun _ hx => .pure (h.writeMaskx hx)

/-- A byte of the combined mask has been combined with a 0 or a 1 (R274). -/
theorem andMask_binary {ks : List Nat} {xs : List Byte} (h : andMask s ks = .ok xs) : ∀ x ∈ xs, x = 0#8 ∨ x = 1#8 := by
  refine (andMask_eq_ok.1 h).forall fun k y hy => ?_
  unfold State.andByte at hy
  split at hy
  · cases hy
  · obtain ⟨old, -, rfl⟩ := Option.map_eq_some_iff.1 hy
    split
    · exact (by decide : ∀ x : Byte, x &&& 1#8 = 0#8 ∨ x &&& 1#8 = 1#8) old
    · exact .inl BitVec.and_zero

theorem maskAnd_runsFrom (h : s₀.RunsTo s) : (maskAnd s).RunsFrom s₀ :=
  .bind ⟨fun _ e => andMask_binary e, fun _ e => absurd e andMask_ne_halt⟩ fun _ hx => .pure (h.writeCmask hx)

/-! ## Blocks, tiles and bodies -/

theorem czHead_runsFrom {mode : BitVec 2} {off : CzOffset} (h : s₀.RunsTo s) : (czHead s mode off).RunsFrom s₀ :=
  .read (raiseIf_readsFrom h) fun _ => .pure h

theorem czRaw_runsFrom {off : CzOffset} (h : s₀.RunsTo s) : (czRaw s off).RunsFrom s₀ :=
  .bind (czHead_runsFrom h) fun _ hu => .read validOf_readsFrom fun _ => .read (memCheck_readsFrom hu) fun _ =>
    .read (readElems_readsFrom hu) fun _ => .pure (.advance (.czDeliver hu _ _) _)

theorem czBs_runsFrom {off : CzOffset} {bits : BitVec 6} {count : CountField} (h : s₀.RunsTo s) :
    (czBs s off bits count).RunsFrom s₀ :=
  .bind (czHead_runsFrom h) fun _ hu => .read (raiseIf_readsFrom hu) fun _ => .read (raiseIf_readsFrom hu) fun _ =>
    .read validOf_readsFrom fun _ => .read (raiseIf_readsFrom hu) fun _ => .bind (unpk_meets_runsTo hu) fun _ hr =>
      .pure (.czDeliver (.advance hr _) _ _)

theorem czConst_runsFrom {off : CzOffset} (h : s₀.RunsTo s) : (czConst s off).RunsFrom s₀ :=
  .bind (czHead_runsFrom h) fun _ hu => .read validOf_readsFrom fun _ => .pure (.czDeliver hu _ _)

theorem tileHead_runsFrom {mode otype : BitVec 2} {tag : BitVec 4} (h : s₀.RunsTo s) :
    (tileHead s mode otype tag).RunsFrom s₀ :=
  .read (raiseIf_readsFrom h) fun _ => .read (raiseIf_readsFrom h) fun _ => .pure h

theorem originField_runsFrom (h : s₀.RunsTo s) : (originField s).RunsFrom s₀ := by
  unfold originField
  split
  · exact raise_meets_faultsTo h
  · exact .read (readElem_readsFrom h) fun _ => .pure h

theorem l2TileRaw_runsFrom {otype : BitVec 2} {tag : BitVec 4} (h : s₀.RunsTo s) : (l2TileRaw s otype tag).RunsFrom s₀ :=
  .bind (tileHead_runsFrom h) fun _ hu => .read validOf_readsFrom fun _ => .read (memCheck_readsFrom hu) fun _ =>
    .read (readElems_readsFrom hu) fun _ => .pure (.advance (.deliver hu _ _ _) _)

theorem l2TileBs_runsFrom {otype : BitVec 2} {tag : BitVec 4} (h : s₀.RunsTo s) : (l2TileBs s otype tag).RunsFrom s₀ :=
  .bind (tileHead_runsFrom h) fun _ hu => .bind (originField_runsFrom hu) fun _ hv => .pure hv

theorem l2TileXb_runsFrom {otype : BitVec 2} {tag : BitVec 4} (h : s₀.RunsTo s) : (l2TileXb s otype tag).RunsFrom s₀ :=
  .bind (tileHead_runsFrom h) fun _ hu => .read validOf_readsFrom fun _ =>
    .ite (.read (.of_ne_halt fun _ => refElems_ne_halt) fun _ => .pure hu) (.pure (.deliver hu _ _ _))

theorem l2TileConst_runsFrom {otype : BitVec 2} {tag : BitVec 4} (h : s₀.RunsTo s) :
    (l2TileConst s otype tag).RunsFrom s₀ :=
  .bind (tileHead_runsFrom h) fun _ hu => .bind (originField_runsFrom hu) fun _ hv => .read validOf_readsFrom fun _ =>
    .read tileValues_readsFrom fun _ => .pure (.deliver hv _ _ _)

theorem tileDeliver_runsFrom (h : s₀.RunsTo s) : (tileDeliver s).RunsFrom s₀ :=
  .read validOf_readsFrom fun _ => .read tileValues_readsFrom fun _ => .pure (.deliver h _ _ _)

theorem l2Sweep_runsFrom (h : s₀.RunsTo s) : (l2Sweep s).RunsFrom s₀ :=
  .read (memCheck_readsFrom (.advance h _)) fun _ => .read (readElems_readsFrom (.advance h _)) fun _ =>
    .read validOf_readsFrom fun _ => .pure (.advance (.putPix (.advance h _) _) _)

theorem surfDims_runsFrom {source : SurfSource} {ks ds : List Nat} (h : s₀.RunsTo s) :
    (surfDims source ks ds s).RunsFrom s₀ := by
  induction ds generalizing s with
  | nil => exact .ok h
  | cons d ds ih => exact .read (.of_ne_halt fun _ => surfValue_ne_halt) fun _ => ih (h.putPix _)

theorem constSurf_runsFrom {source : SurfSource} (h : s₀.RunsTo s) : (constSurf s source).RunsFrom s₀ :=
  .read validOf_readsFrom fun _ => surfDims_runsFrom h

/-! ## The `BS2` record and the checksum -/

theorem bs2Head_runsFrom {lutf : Bool} {numBits : BitVec 5} {count : CountField} (h : s₀.RunsTo s) :
    (bs2Head s lutf numBits count).RunsFrom s₀ :=
  .read (raiseIf_readsFrom h) fun _ =>
    .ite (.read (raiseIf_readsFrom h) fun _ => .pure h)
      (.read validOf_readsFrom fun _ => .read (raiseIf_readsFrom h) fun _ => .pure h)

theorem bs2Aff_runsFrom {numBits : BitVec 5} {count : CountField} (h : s₀.RunsTo s) :
    (bs2Aff s numBits count).RunsFrom s₀ :=
  .bind (bs2Head_runsFrom h) fun _ hu => .read bs2Args_readsFrom fun _ => .bind (unpk_meets_runsTo hu) fun _ hr => .pure hr

theorem lutLoad_runsFrom {args : RemapArgs} (h : s₀.RunsTo s) : (lutLoad s args).RunsFrom s₀ :=
  .bind (unpk_meets_runsTo h) fun _ hr => .pure hr

theorem bs2Lut_runsFrom {numBits : BitVec 5} {count : CountField} (h : s₀.RunsTo s) :
    (bs2Lut s numBits count).RunsFrom s₀ :=
  .bind (bs2Head_runsFrom h) fun _ hu => .read (readLe_readsFrom hu) fun _ => .read (raiseIf_readsFrom hu) fun _ =>
    .read bs2Args_readsFrom fun _ => .bind (lutLoad_runsFrom hu) fun _ hv => .bind (unpk_meets_runsTo hv) fun _ hr =>
      .read (remapLutAll_readsFrom (.advance hr _)) fun _ => .pure hr

theorem f32Sum_runsFrom {a n : Nat} (h : s₀.RunsTo s) : (f32Sum s a n).RunsFrom s₀ :=
  .read (memRead_readsFrom h) fun _ => .pure h

/-! ## The Huffman operations -/

theorem hufLengths_runsFrom (h : s₀.RunsTo s) : (hufLengths s).RunsFrom s₀ :=
  .read (raiseIf_readsFrom h) fun _ => .read (raiseIf_readsFrom h) fun _ => .pure h

theorem consume_runsFrom {m : Nat} (h : s₀.RunsTo s) : (consume s m).RunsFrom s₀ :=
  .ite (.ok h.setHbPos) (raise_meets_faultsTo h)

theorem readCodes_runsFrom {syms : List Nat} (h : s₀.RunsTo s) : (readCodes s syms).RunsFrom s₀ := by
  induction syms generalizing s with
  | nil => exact .ok h
  | cons x syms ih =>
    exact .read (.of_ne_halt fun _ => State.hlenOf_ne_halt) fun _ =>
      .ite (ih h) (.read (.of_ne_halt fun _ => peek_ne_halt) fun _ => .bind (consume_runsFrom h) fun _ hu => ih hu)

theorem hufCodes_runsFrom (h : s₀.RunsTo s) : (hufCodes s).RunsFrom s₀ :=
  .bind (hufLengths_runsFrom h) fun _ hu => .bind (readCodes_runsFrom (.setWord hu)) fun _ hv =>
    .read (.of_ne_halt fun _ => entriesOf_ne_halt) fun _ => .read (raiseIf_readsFrom hv) fun _ =>
      .read (raiseIf_readsFrom hv) fun _ => .pure hv

theorem hufAlign_runsFrom (h : s₀.RunsTo s) : (hufAlign s).RunsFrom s₀ := by
  refine .ok ?_
  split
  · exact h
  · exact h.setWord

theorem trieInsertAll_runsFrom {es : List HufEntry} (h : s₀.RunsTo s) : (trieInsertAll es s).RunsFrom s₀ :=
  ⟨fun t e => by rw [trieInsertAll_frame.2 t e]; exact h, fun t e => absurd e (trieInsertAll_frame.1 t)⟩

theorem hufBuild_runsFrom (h : s₀.RunsTo s) : (hufBuild s).RunsFrom s₀ :=
  .read (.of_ne_halt fun _ => entriesOf_ne_halt) fun _ => trieInsertAll_runsFrom h

theorem hufSym_meets_runsTo (h : s₀.RunsTo s) : (hufSym s).Meets (fun r => s₀.RunsTo r.2) s₀.FaultsTo := by
  refine ⟨fun r e => ?_, fun t e => ?_⟩
  · obtain ⟨len, hr⟩ := hufSym_eq_ok (x := r.1) (t := r.2) e
    rw [hr]
    exact h.setHbPos
  · rcases hufSym_eq_halt e with rfl | rfl <;> exact h.takeFault _ _

theorem plainSample_runsFrom {d k : Nat} (h : s₀.RunsTo s) : (plainSample s d k).RunsFrom s₀ :=
  .bind (hufSym_meets_runsTo h) fun _ hr => .pure (.putPix hr _)

theorem deltaPixel_runsFrom {d k : Nat} (h : s₀.RunsTo s) : (deltaPixel s d k).RunsFrom s₀ :=
  .bind (hufSym_meets_runsTo h) fun _ hr => .read (.of_ne_halt fun _ => predictor_ne_halt) fun _ => .pure hr

theorem planeLoop_runsFrom {f : State → Nat → Nat → Rule State}
    (hf : ∀ {s d k}, s₀.RunsTo s → (f s d k).RunsFrom s₀) {cs : List (Nat × Nat)} (h : s₀.RunsTo s) :
    (planeLoop f cs s).RunsFrom s₀ := by
  induction cs generalizing s with
  | nil => exact .ok h
  | cons c cs ih => exact .bind (hf h) fun _ hu => ih hu

theorem deltaDims_runsFrom {ks ds : List Nat} (h : s₀.RunsTo s) : (deltaDims ks ds s).RunsFrom s₀ := by
  induction ds generalizing s with
  | nil => exact .ok h
  | cons d ds ih => exact .bind (planeLoop_runsFrom deltaPixel_runsFrom h) fun _ hu => ih hu

theorem hufPlane_runsFrom {mode : PlaneMode} (h : s₀.RunsTo s) : (hufPlane s mode).RunsFrom s₀ :=
  .read validOf_readsFrom fun _ => by
    cases mode with
    | delta => exact deltaDims_runsFrom h
    | plain => exact planeLoop_runsFrom plainSample_runsFrom h

/-! ## The end of a band and of a call -/

theorem reshapeBands_runsFrom {bs : List Nat} (h : s₀.RunsTo s) : (reshapeBands bs s).RunsFrom s₀ := by
  induction bs generalizing s with
  | nil => exact .ok h
  | cons b bs ih =>
    exact .read written_readsFrom fun _ =>
      .ite (.read (.of_ne_halt fun _ => readPixAll_ne_halt) fun _ => ih h) (ih h)

theorem reshape_runsFrom (h : s₀.RunsTo s) : (reshape s).RunsFrom s₀ := .ite (reshapeBands_runsFrom h) (.ok h)

theorem encodedMask_runsFrom (h : s₀.RunsTo s) : (encodedMask s).RunsFrom s₀ :=
  .ite (.read (.of_ne_halt fun _ => bitsetBytes_ne_halt) fun _ => .pure h) (.ok h)

theorem fileInfo_runsFrom (h : s₀.RunsTo s) : (fileInfo s).RunsFrom s₀ :=
  .ite (.read written_readsFrom fun _ => .pure (.putStat h _)) (.ok h)

theorem bandTail_runsFrom (h : s₀.RunsTo s) : (bandTail s).RunsFrom s₀ :=
  .bind (.ite (encodedMask_runsFrom h) (.ok h)) fun _ hu => .bind (fileInfo_runsFrom hu) fun _ hv => .pure hv

theorem sweepBands_runsFrom {ks bs : List Nat} (h : s₀.RunsTo s) : (sweepBands ks bs s).RunsFrom s₀ := by
  induction bs generalizing s with
  | nil => exact .ok h
  | cons b bs ih => exact .read written_readsFrom fun _ => ih (h.putPix _)

theorem noDataSweep_runsFrom (h : s₀.RunsTo s) : (noDataSweep s).RunsFrom s₀ :=
  .read excluded_readsFrom fun _ => sweepBands_runsFrom h

theorem l2Stats_runsFrom (h : s₀.RunsTo s) : (l2Stats s).RunsFrom s₀ :=
  .read_either (.of_ne_halt fun _ => dimList_ne_halt) (.ok trivial) fun _ =>
    .read_either (.of_ne_halt fun _ => dimList_ne_halt) (.ok trivial) fun _ => .pure (State.RunsTo.putStat h _)

theorem bandStart_runsFrom (h : s₀.RunsTo s) : (bandStart s).RunsFrom s₀ :=
  .read (raiseIf_readsFrom h) fun _ => .pure h

theorem bandEnd_runsFrom (h : s₀.RunsTo s) : (bandEnd s).RunsFrom s₀ :=
  .read (raiseIf_readsFrom h) fun _ => .read (raiseIf_readsFrom h) fun _ => .pure h

theorem maskEnd_runsFrom (h : s₀.RunsTo s) : (maskEnd s).RunsFrom s₀ := .ite (checkValidCount_runsFrom h) (.ok h)

theorem checksumTest_runsFrom (h : s₀.RunsTo s) : (checksumTest s).RunsFrom s₀ :=
  .read (raiseIf_readsFrom h) fun _ => .pure h

theorem hufEnd_runsFrom (h : s₀.RunsTo s) : (hufEnd s).RunsFrom s₀ := .read (raiseIf_readsFrom h) fun _ => .pure h

theorem czSetup_runsTo (h : s₀.RunsTo s) : s₀.RunsTo (czSetup s) := State.RunsTo.firstBandResults h

theorem l2Setup_runsTo (h : s₀.RunsTo s) : s₀.RunsTo (l2Setup s) := State.RunsTo.firstBandResults h

end

/-! ## Every instruction of a call -/

/-- What a rule's instruction leads to. -/
theorem Rule.RunsFrom.next {s₀ t : State} {r : Rule State} (h : r.RunsFrom s₀) (e : r.outcome = .next t) :
    s₀.RunsTo t ∨ s₀.FaultsTo t :=
  (Rule.outcome_eq_next.1 e).imp (h.1 t) (h.2 t)

/-- `CMD.GO` while a call runs is ignored (R321). -/
theorem exec_cmdGo_of_busy {s : State} (x : BitVec 31) (hb : s.busy = true) : exec (.cmdGo x) s = .next s := if_pos hb

/-- While a call runs every instruction keeps the status, the inputs and the legality of masks and cursors, or takes a
fault. -/
theorem exec_leadsTo {i : Instr} {s t : State} (hb : s.busy = true) (h : exec i s = .next t) :
    s.RunsTo t ∨ s.FaultsTo t := by
  have h0 := s.runsTo_rfl
  cases i with
  | cmdGo x =>
    cases (exec_cmdGo_of_busy x hb).symm.trans h
    exact .inl h0
  | idCntz _ _ => exact (setFormat_runsFrom h0).next h
  | idLerc2 _ => exact (setFormat_runsFrom h0).next h
  | czHdr _ _ _ _ _ => exact (czHdr_runsFrom h0).next h
  | czMsec _ _ _ _ => exact (czMsec_runsFrom h0).next h
  | czPsec _ _ _ _ => exact (czPsec_runsFrom h0).next h
  | czRaw _ => exact (czRaw_runsFrom h0).next h
  | czBs _ _ _ => exact (czBs_runsFrom h0).next h
  | czConst _ => exact (czConst_runsFrom h0).next h
  | czRsvd _ => exact Rule.RunsFrom.next (raise_meets_faultsTo h0) h
  | rleLit _ => exact (rleLit_runsFrom h0).next h
  | rleRep _ => exact (rleRep_runsFrom h0).next h
  | rleEnd => exact (rleEnd_runsFrom h0).next h
  | rleZero => exact Rule.RunsFrom.next (raise_meets_faultsTo (s := s.rlHead 0#16) h0) h
  | l2Hdr _ => exact (l2Hdr_runsFrom h0).next h
  | l2Mask _ => exact (l2Mask_runsFrom h0).next h
  | l2Ranges => exact (l2Ranges_runsFrom h0).next h
  | l2Sweep _ => exact (l2Sweep_runsFrom h0).next h
  | l2Body => cases h; exact .inl h0
  | l2HfTiles => cases h; exact .inl h0
  | l2HfDelta => cases h; exact .inl h0
  | l2HfPlain => exact (l2HfPlain_runsFrom h0).next h
  | l2TileRaw _ _ => exact (l2TileRaw_runsFrom h0).next h
  | l2TileBs _ _ => exact (l2TileBs_runsFrom h0).next h
  | l2TileXb _ _ => exact (l2TileXb_runsFrom h0).next h
  | l2TileConst _ _ => exact (l2TileConst_runsFrom h0).next h
  | bs2Aff _ _ => exact (bs2Aff_runsFrom h0).next h
  | bs2Lut _ _ => exact (bs2Lut_runsFrom h0).next h
  | hufTable _ _ _ _ => exact (hufTable_runsFrom h0).next h
  | unpkL _ _ _ => exact Rule.RunsFrom.next (.bind (unpk_meets_runsTo h0) fun _ hr => .pure hr) h
  | unpkM _ _ _ => exact Rule.RunsFrom.next (.bind (unpk_meets_runsTo h0) fun _ hr => .pure hr) h
  | remapAff _ _ _ _ _ => cases h; exact .inl h0
  | remapLut c =>
    exact Rule.RunsFrom.next (r := do return { s with opResult := ← remapLut s c.toNat })
      (.read (remapLut_readsFrom h0) fun _ => .pure h0) h
  | maskExpand => exact (maskExpand_runsFrom h0).next h
  | f32Sum _ _ => exact (f32Sum_runsFrom h0).next h
  | hufBuild => exact (hufBuild_runsFrom h0).next h
  | hufSym =>
    exact Rule.RunsFrom.next (r := do let (sym, s1) ← hufSym s; return { s1 with opResult := BitVec.ofNat 64 sym })
      (.bind (hufSym_meets_runsTo h0) fun _ hr => .pure hr) h
  | hufPlane _ => exact (hufPlane_runsFrom h0).next h
  | constSurf _ => exact (constSurf_runsFrom h0).next h
  | maskAnd => exact (maskAnd_runsFrom h0).next h
  | reshape => exact (reshape_runsFrom h0).next h

/-! # What a step can lead to -/

/-- The call that ran in `s` has ended without a fault (R281). -/
def State.EndsTo (s t : State) : Prop :=
  t.busy = false ∧ t.done = true ∧ t.err = s.err ∧ t.errCode = s.errCode ∧ t.errInfo = s.errInfo ∧ t.seq = .idle
    ∧ t.inputs = s.inputs ∧ (s.bitsLegal → t.bitsLegal)

/-- The call that runs in `s` goes on in `t`, where something is due if something was. -/
def State.GoesOnTo (s t : State) : Prop := s.RunsTo t ∧ (s.seq ≠ .idle → t.seq ≠ .idle)

section

variable {s₀ s t : State}

theorem State.RunsTo.busy_eq (h : s₀.RunsTo s) : s.busy = s₀.busy := congrArg (fun x => x.1) h.1

/-- Where the rules say what is due next, something is. -/
theorem State.RunsTo.goesOn (h : s₀.RunsTo s) {p : Phase} (hp : p ≠ .idle) : s₀.GoesOnTo (s.goto p) :=
  ⟨h.goto p, fun _ => hp⟩

/-! ## What is due next -/

theorem ite_phase_ne_idle {c : Prop} [Decidable c] {p q : Phase} (hp : p ≠ .idle) (hq : q ≠ .idle) :
    (if c then p else q) ≠ .idle := by
  split
  · exact hp
  · exact hq

theorem State.afterMask_ne_idle (s : State) : s.afterMask ≠ .idle :=
  ite_phase_ne_idle nofun (ite_phase_ne_idle nofun (ite_phase_ne_idle nofun nofun))

theorem czEnter_goesOn (h : s₀.RunsTo s) (r c : Nat) : s₀.GoesOnTo (czEnter s r c) := ⟨h, fun _ => nofun⟩

theorem l2Enter_goesOn (h : s₀.RunsTo s) (r c d : Nat) : s₀.GoesOnTo (l2Enter s r c d) := ⟨h, fun _ => nofun⟩

theorem nextBlock_goesOn (h : s₀.RunsTo s) (r c : Nat) : s₀.GoesOnTo (nextBlock s r c) := by
  unfold nextBlock
  split
  · exact czEnter_goesOn h _ _
  · split
    · exact czEnter_goesOn h _ _
    · exact h.goesOn nofun

theorem nextTile_goesOn (h : s₀.RunsTo s) (r c d : Nat) : s₀.GoesOnTo (nextTile s r c d) := by
  unfold nextTile
  split
  · exact l2Enter_goesOn h _ _ _
  · split
    · exact l2Enter_goesOn h _ _ _
    · split
      · exact l2Enter_goesOn h _ _ _
      · exact h.goesOn nofun

/-- The sequence rules only say what is due next, and never that nothing is. -/
theorem sequence_goesOn (i : Instr) (h : s₀.RunsTo s) (hseq : s.seq = s₀.seq) : s₀.GoesOnTo (sequence i s) := by
  have stay : s₀.GoesOnTo s := ⟨h, fun hs => hseq ▸ hs⟩
  unfold sequence
  refine iteInduction (fun _ => stay) fun _ => ?_
  cases s.seq with
  | ident => exact h.goesOn (ite_phase_ne_idle nofun nofun)
  | czMsec => exact h.goesOn (ite_phase_ne_idle nofun nofun)
  | rle => exact h.goesOn (ite_phase_ne_idle nofun nofun)
  | czBlock r c => exact nextBlock_goesOn h r c
  | l2Hdr => exact h.goesOn (ite_phase_ne_idle nofun nofun)
  | l2Mask => exact h.goesOn (ite_phase_ne_idle s.afterMask_ne_idle nofun)
  | l2Flag =>
    refine iteInduction (fun _ => iteInduction (fun _ => ?_) fun _ => ?_) fun _ => ?_
    · exact h.goesOn nofun
    · exact l2Enter_goesOn h 0 0 0
    · exact h.goesOn nofun
  | l2Hf => exact iteInduction (fun _ => l2Enter_goesOn h 0 0 0) fun _ => h.goesOn nofun
  | bs2 r c d => exact h.goesOn (ite_phase_ne_idle nofun nofun)
  | l2Tile r c d => exact iteInduction (fun _ => h.goesOn nofun) fun _ => nextTile_goesOn h r c d
  | czHdr | maskExpand | czPsec | checksum | constSurf | l2Ranges | hufTable | hufBuild | hufPlane | maskAnd | reshape =>
    exact h.goesOn nofun
  | _ => exact stay

/-! ## The rules between records -/

/-- The end of a call: `DONE`, and nothing due (R281). -/
theorem finishCall_endsTo (s : State) :
    (finishCall s).Meets (fun t => s.EndsTo (t.goto .idle)) s.FaultsTo :=
  .read excluded_readsFrom fun _ => .pure ⟨rfl, rfl, rfl, rfl, rfl, rfl, rfl, id⟩

/-- A rule goes on with the call, ends it, or takes a fault. -/
theorem runRule_meets (s : State) : (runRule s).Meets (fun t => s.GoesOnTo t ∨ s.EndsTo t) s.FaultsTo := by
  have h := s.runsTo_rfl
  have next {r : Rule State} {p : State → Phase} (hr : r.RunsFrom s) (hp : ∀ u, p u ≠ .idle) :
      Rule.Meets (fun t => s.GoesOnTo t ∨ s.EndsTo t) s.FaultsTo (do let u ← r; return u.goto (p u)) :=
    hr.bind fun u hu => .pure (.inl (hu.goesOn (hp u)))
  unfold runRule
  cases s.seq with
  | bandStart => exact next (bandStart_runsFrom h) fun _ => nofun
  | czSetup => exact .pure (.inl ((czSetup_runsTo h).goesOn (ite_phase_ne_idle nofun nofun)))
  | maskEnd => exact next (maskEnd_runsFrom h) fun u => ite_phase_ne_idle u.afterMask_ne_idle nofun
  | czPrefill => exact .pure (.inl (czEnter_goesOn (s := czPrefill s) h 0 0))
  | czStats => exact .pure (.inl ((State.RunsTo.putStat h _).goesOn nofun))
  | checksumTest => exact next (checksumTest_runsFrom h) fun _ => nofun
  | l2Setup => exact .pure (.inl ((l2Setup_runsTo h).goesOn nofun))
  | l2Prefill => exact .pure (.inl (State.RunsTo.goesOn (s := l2Prefill s) h nofun))
  | rangesTest =>
    exact .read (.of_ne_halt fun _ => constDims_ne_halt) fun _ => .pure (.inl (h.goesOn (ite_phase_ne_idle nofun nofun)))
  | hufCodes => exact next (hufCodes_runsFrom h) fun _ => nofun
  | hufAlign => exact next (hufAlign_runsFrom h) fun _ => nofun
  | hufEnd => exact next (hufEnd_runsFrom h) fun _ => nofun
  | tileDeliver r c d => exact (tileDeliver_runsFrom h).bind fun _ hu => .pure (.inl (nextTile_goesOn hu r c d))
  | l2Stats => exact next (l2Stats_runsFrom h) fun _ => nofun
  | bandEnd => exact next (bandEnd_runsFrom h) fun _ => nofun
  | bandTail => exact next (bandTail_runsFrom h) fun _ => ite_phase_ne_idle nofun nofun
  | sweep => exact next (noDataSweep_runsFrom h) fun _ => nofun
  | finish => exact (finishCall_endsTo s).bind fun _ hu => .pure (.inr hu)
  | _ => exact .ok (.inl ⟨h, id⟩)

/-! ## A step of the engine -/

/-- A fetch takes a fault of the state it fetches in (R44, R234, R267). -/
theorem fetch_readsFrom (s : State) (pos : StreamPos) (a : Nat) : (some <$> fetch s pos a).ReadsFrom s := by
  refine ⟨fun _ _ => trivial, fun t e => ?_⟩
  have e : fetch s pos a = .error (.halt t) := by
    cases hf : fetch s pos a with
    | error _ => rw [hf] at e; cases e; rfl
    | ok _ => rw [hf] at e; cases e
  rcases fetch_eq_halt e with ⟨_, _, -, -, rfl⟩ | rfl | rfl <;> exact s.runsTo_rfl.takeFault _ _

/-- Finding what is due takes no fault but that of a fetch, of an exhausted run stream (R132) or of a checksum without a
range (R147). -/
theorem due_readsFrom (s : State) : (due s).ReadsFrom s := by
  have h := s.runsTo_rfl
  unfold due
  cases s.seq with
  | rle => exact .ite (raise_meets_faultsTo h) (fetch_readsFrom s _ _)
  | checksum => exact .ite (raise_meets_faultsTo h) (.ok trivial)
  | ident | czHdr | czMsec | czPsec | czBlock | l2Hdr | l2Mask | l2Ranges | l2Flag | l2Hf | hufTable | bs2 | l2Tile =>
    exact fetch_readsFrom s _ _
  | _ => exact .ok trivial

/-- An instruction that runs in a call and takes no fault leaves what is due to the sequence rules. -/
theorem exec_seq {i : Instr} (hb : s.busy = true) (h : exec i s = .next t) (ht : t.busy = true) : t.seq = s.seq := by
  by_cases hi : ∃ x, i = .cmdGo x
  · obtain ⟨x, rfl⟩ := hi
    cases (exec_cmdGo_of_busy x hb).symm.trans h
    rfl
  · rcases exec_samePhase (fun x hx => hi ⟨x, hx⟩) h with hstop | ⟨hseq, -, -⟩
    · cases hstop.symm.trans ht
    · exact hseq

/-- The sequence rules add nothing once the engine has stopped. -/
theorem sequence_of_stopped (i : Instr) (h : s.busy = false) : sequence i s = s := by simp [sequence, h]

/-- A step of the engine while a call runs: the call goes on, ends, or takes a fault. -/
theorem engineStep_leadsTo (hb : s.busy = true) (h : engineStep s = .next t) :
    s.GoesOnTo t ∨ s.EndsTo t ∨ s.FaultsTo t := by
  rcases engineStep_eq_next hb h with ⟨i, u, -, hu, rfl⟩ | ⟨-, hr | hr⟩ | hd
  · rcases exec_leadsTo hb hu with hgo | hfault
    · exact .inl (sequence_goesOn i hgo (exec_seq hb hu (hgo.busy_eq.trans hb)))
    · exact .inr (.inr ((sequence_of_stopped i hfault.1).symm ▸ hfault))
  · exact ((runRule_meets s).1 t hr).imp_right .inl
  · exact .inr (.inr ((runRule_meets s).2 t hr))
  · exact .inr (.inr ((due_readsFrom s).2 t hd))

end

/-! # The host's accesses -/

/-- No word of the command register is another instruction than `CMD.GO` (R61). -/
theorem decodeAt_command_eq_ok {bytes : List Byte} {i : Instr} (h : decodeAt .command bytes = .ok i) :
    ∃ x, i = .cmdGo x := by
  simp only [decodeAt, decodeCommand] at h
  cases hw : word32At bytes 0 with
  | error e => rw [hw] at h; cases h
  | ok w =>
    rw [hw] at h
    change (if w.getLsbD 0 then _ else _) = _ at h
    split at h
    · cases h; exact ⟨_, rfl⟩
    · cases h

/-- A word written to `CMD` does nothing, or it starts a call where none runs (R61, R266, R321). -/
theorem hostStep_cmd {s t : State} {v : Word} (h : hostStep (.writeReg 0 v) s = .next t) :
    t = s ∨ t = s.startCall := by
  simp only [hostStep] at h
  split at h
  · next i hd =>
    obtain ⟨x, rfl⟩ := decodeAt_command_eq_ok hd
    simp only [exec, execCmdGo] at h
    split at h
    · cases h; exact .inl rfl
    · split at h
      · cases h; exact .inr rfl
      · cases h
  · cases h; exact .inl rfl

/-- What a host event can do: let the engine step, start a call, reset, or write nothing but `IN`, the writable registers
and the field of reads. -/
theorem hostStep_eq_next {s t : State} {ev : HostEvent} (h : hostStep ev s = .next t) :
    engineStep s = .next t ∨ t = s.startCall ∨ t = s.resetInput ∨ t = { s with
      inMem := t.inMem, inLen := t.inLen, optOffset := t.optOffset, optFlags := t.optFlags,
      optPixelType := t.optPixelType, optNoData := t.optNoData, rdata := t.rdata } := by
  cases ev with
  | turn => exact .inl h
  | reset => cases h; exact .inr (.inr (.inl rfl))
  | writeReg word v =>
    by_cases hw : word = 0
    · subst hw
      rcases hostStep_cmd h with rfl | rfl
      · exact .inr (.inr (.inr rfl))
      · exact .inr (.inl rfl)
    · rw [hostStep_writeReg hw, hostWriteReg_eq] at h
      split at h
      · cases h
      · cases h; rw [State.putReg_eq]; exact .inr (.inr (.inr rfl))
  | writeIn a x =>
    simp only [hostStep, hostAccess, hostWriteIn] at h
    split at h
    · cases h
    · split at h
      · cases h; exact .inr (.inr (.inr rfl))
      · cases h
  | _ => cases h; exact .inr (.inr (.inr rfl))

/-! # The invariants of a step -/

/-- A property that does not look at the host's registers, that a start of a call and a reset establish and that the busy
engine keeps, is kept by every step. -/
theorem step_preserves {P : State → Prop}
    (hhost : ∀ {s : State} (m l o f y n r p k), P s → P { s with
      inMem := m, inLen := l, optOffset := o, optFlags := f, optPixelType := y, optNoData := n, rdata := r,
      port := p, fresh := k })
    (hstart : ∀ s : State, P s.startCall) (hreset : ∀ s : State, P s.resetInput)
    (hengine : ∀ {s t : State}, s.busy = true → P s → engineStep s = .next t → P t)
    {s t : State} (hs : P s) (h : step s = .next t) : P t := by
  have fresh {s : State} (hs : P s) : P { s with fresh := s.fresh + 1 } := hhost _ _ _ _ _ _ _ _ _ hs
  have engine {s t : State} (hs : P s) (h : engineStep s = .next t) : P t := by
    cases hb : s.busy with
    | false => rw [engineStep_of_idle hb] at h; cases h; exact hs
    | true => exact hengine hb hs h
  cases hp : s.port with
  | nil =>
    rw [step_of_empty hp] at h
    obtain ⟨u, hu, rfl⟩ := nextFree_eq_next.1 h
    exact fresh (engine hs hu)
  | cons ev rest =>
    rw [step_of_event hp] at h
    obtain ⟨u, hu, rfl⟩ := nextFree_eq_next.1 h
    have hs' : P { s with port := rest } := hhost _ _ _ _ _ _ _ _ _ hs
    rcases hostStep_eq_next hu with he | rfl | rfl | hw
    · exact fresh (engine hs' he)
    · exact fresh (hstart _)
    · exact fresh (hreset _)
    · rw [hw]; exact hhost (s := s) _ _ _ _ _ _ _ _ _ hs

/-- The status of a running call is `BUSY` alone, with no error recorded (R15). -/
theorem status_of_running {s : State} (h : s.statusOk) (hb : s.busy = true) :
    s.done = false ∧ s.err = false ∧ s.errCode = 0#8 ∧ s.errInfo = 0#32 := by
  obtain ⟨⟨⟨hnot, -, -⟩ | ⟨-, hdone, herr⟩ | ⟨hnot, -, -⟩ | ⟨hnot, -, -⟩, hrecord⟩, -⟩ := h
  case inr.inl => exact ⟨hdone, herr, hrecord herr⟩
  all_goals cases hb.symm.trans hnot

/-- A step of the engine keeps the status legal: the call goes on as `BUSY`, or it is `DONE` or `ERROR` and nothing is
due. -/
theorem engineStep_statusOk {s t : State} (hb : s.busy = true) (h : s.statusOk) (e : engineStep s = .next t) :
    t.statusOk := by
  obtain ⟨hdone, herr, hrecord⟩ := status_of_running h hb
  rcases engineStep_leadsTo hb e with ⟨⟨ht, -, -⟩, hseq⟩ | ⟨hbusy, hend, herr', hcode, hinfo, hidle, -, -⟩ |
    ⟨hbusy, herr', hdone', hidle, -, -⟩
  · simp only [State.status, Prod.mk.injEq] at ht
    obtain ⟨hbusy, hdone', herr', hcode, hinfo⟩ := ht
    rw [hb] at hbusy
    exact ⟨⟨.inr (.inl ⟨hbusy, hdone'.trans hdone, herr'.trans herr⟩),
      fun _ => ⟨hcode.trans hrecord.1, hinfo.trans hrecord.2⟩⟩, fun _ => hseq (h.2.1 hb), fun _ => hbusy⟩
  · have nothing : t.busy = true ↔ t.seq ≠ .idle := by simp [hbusy, hidle]
    exact ⟨⟨.inr (.inr (.inl ⟨hbusy, hend, herr'.trans herr⟩)),
      fun _ => ⟨hcode.trans hrecord.1, hinfo.trans hrecord.2⟩⟩, nothing⟩
  · have nothing : t.busy = true ↔ t.seq ≠ .idle := by simp [hbusy, hidle]
    exact ⟨⟨.inr (.inr (.inr ⟨hbusy, hdone'.trans hdone, herr'⟩)), fun hno => by cases herr'.symm.trans hno⟩,
      nothing⟩

theorem startCall_statusOk (s : State) : s.startCall.statusOk :=
  ⟨⟨.inr (.inl ⟨rfl, rfl, rfl⟩), fun _ => ⟨rfl, rfl⟩⟩, ⟨fun _ => nofun, fun _ => rfl⟩⟩

theorem resetInput_statusOk (s : State) : s.resetInput.statusOk :=
  ⟨⟨.inl ⟨rfl, rfl, rfl⟩, fun _ => ⟨rfl, rfl⟩⟩, ⟨nofun, fun h => absurd rfl h⟩⟩

/-- Settles O56: the host's accesses leave the status alone but for a start and a reset, and a step of the engine goes on,
ends in `DONE` or ends in `ERROR`. -/
theorem statusStaysLegal : Obligations.StatusStaysLegal := fun _ _ hs h =>
  step_preserves (fun _ _ _ _ _ _ _ _ _ hs => hs) startCall_statusOk resetInput_statusOk engineStep_statusOk hs h

/-- Nothing is in a mask, and both cursors are 0, when a call starts and after a reset. -/
theorem bitsLegal_of_reset {s : State} (hx : s.maskx = []) (hc : s.cmask = []) (hbs : s.bs = .reset)
    (hhb : s.hb = .reset) : s.bitsLegal := by
  simp [State.bitsLegal, State.masksBinary, State.cursorsOk, hx, hc, hbs, hhb, BitCursor.reset]

theorem engineStep_bitsLegal {s t : State} (hb : s.busy = true) (h : s.bitsLegal) (e : engineStep s = .next t) :
    t.bitsLegal := by
  rcases engineStep_leadsTo hb e with ⟨⟨-, -, hl⟩, -⟩ | ⟨-, -, -, -, -, -, -, hl⟩ | ⟨-, -, -, -, -, hl⟩ <;> exact hl h

/-- Settles O57: only `MASK.EXPAND` and `MASK.AND` write into the two masks, bytes 0 and 1, and only the unpacker and the
bit reader move the cursors, to a place inside a word. -/
theorem masksAndCursorsStayLegal : Obligations.MasksAndCursorsStayLegal := fun _ _ hm hc h =>
  step_preserves (P := State.bitsLegal) (fun _ _ _ _ _ _ _ _ _ hs => hs) (fun _ => bitsLegal_of_reset rfl rfl rfl rfl)
    (fun _ => bitsLegal_of_reset rfl rfl rfl rfl) engineStep_bitsLegal ⟨hm, hc⟩ h

/-! # What the host reads and writes -/

section

variable {s : State}

/-! ## The registers -/

/-- A field above another, as a number. -/
theorem toNat_append_eq_add {m n : Nat} (x : BitVec m) (y : BitVec n) : (x ++ y).toNat = 2 ^ n * x.toNat + y.toNat := by
  rw [BitVec.toNat_append, ← Nat.shiftLeft_add_eq_or_of_lt y.isLt, Nat.shiftLeft_eq, Nat.mul_comm]

/-- `STATUS` as a number (R14). -/
theorem statusWord_eq (s : State) :
    s.statusWord = BitVec.ofNat 32 (s.busy.toNat + 2 * s.done.toNat + 4 * s.err.toNat) := by
  apply BitVec.eq_of_toNat_eq
  simp only [State.statusWord, BitVec.toNat_setWidth, BitVec.toNat_ofNat, toNat_append_eq_add, BitVec.toNat_ofBool]
  congr 1
  omega

/-- `RES.FLAGS` as a number (R14). -/
theorem resFlagsWord_eq (s : State) :
    s.resFlagsWord = BitVec.ofNat 32 (s.res.maskValid.toNat + 2 * s.res.encValid.toNat + 4 * s.res.ndValid.toNat
      + 8 * s.res.etype.code.toNat) := by
  apply BitVec.eq_of_toNat_eq
  simp only [State.resFlagsWord, BitVec.toNat_setWidth, BitVec.toNat_ofNat, toNat_append_eq_add, BitVec.toNat_ofBool]
  congr 1
  omega

/-- At `CMD` and where there is no register a read gives 0 (R14). -/
theorem regValue_eq_zero {word : Nat} (h : word = 0 ∨ word = 15 ∨ 17 < word) : s.regValue word = 0#32 := by
  rcases h with rfl | rfl | h
  · rfl
  · rfl
  · obtain ⟨n, rfl⟩ := Nat.exists_eq_add_of_le' h
    rfl

/-- The free values play no part in a register that has a value. -/
theorem regValue_fresh {word : Nat} (h : word < 10 ∨ (s.busy = false ∧ s.err = false)) (k : Nat) :
    State.regValue { s with fresh := k } word = s.regValue word := by
  rcases h with h | ⟨hb, he⟩
  · interval_cases word <;> rfl
  · have hdef : s.resDefined = true := by simp [State.resDefined, hb, he]
    have hdef' : State.resDefined { s with fresh := k } = true := hdef
    simp only [State.regValue, hdef, hdef', if_true]
    rfl

/-- A write leaves every other register alone, and one to a register the host cannot write leaves that alone too (R14). -/
theorem regValue_putReg_other {word other : Nat} (h : other ≠ word ∨ word < 4 ∨ 9 < word) (v : Word) :
    (s.putReg word v).regValue other = s.regValue other := by
  rw [State.putReg_eq]
  have hcases : other < 4 ∨ (9 < other ∧ other < 18) ∨ 17 < other ∨ (4 ≤ other ∧ other ≤ 9 ∧ word ≠ other) := by omega
  rcases hcases with h | ⟨h, h'⟩ | h | ⟨h4, h9, hne⟩
  · interval_cases other <;> rfl
  · interval_cases other <;> rfl
  · rw [regValue_eq_zero (.inr (.inr h)), regValue_eq_zero (.inr (.inr h))]
  · have hreg : other = 4 ∨ other = 5 ∨ other = 6 ∨ other = 7 ∨ other = 8 ∨ other = 9 := by omega
    rcases hreg with rfl | rfl | rfl | rfl | rfl | rfl
    · exact if_neg hne
    · exact if_neg hne
    · exact congrArg (BitVec.setWidth 32) (if_neg hne)
    · exact congrArg (BitVec.setWidth 32) (if_neg hne)
    · exact BitVec.extractLsb'_append_eq_right.trans (if_neg hne)
    · exact BitVec.extractLsb'_append_eq_left.trans (if_neg hne)

/-- Keeping the low `n` bits of a word is masking it. -/
theorem setWidth_setWidth_eq_and (v : Word) {n : Nat} (hn : n ≤ 32) :
    (v.setWidth n).setWidth 32 = v &&& BitVec.ofNat 32 (2 ^ n - 1) := by
  have hpow : 2 ^ n - 1 < 2 ^ 32 := by
    have := Nat.pow_le_pow_right (n := 2) (by decide) hn
    omega
  apply BitVec.eq_of_toNat_eq
  have hv := Nat.mod_le v.toNat (2 ^ n)
  rw [BitVec.toNat_and, BitVec.toNat_ofNat, Nat.mod_eq_of_lt hpow, Nat.and_two_pow_sub_one_eq_mod, BitVec.toNat_setWidth,
    BitVec.toNat_setWidth, Nat.mod_eq_of_lt (Nat.lt_of_le_of_lt hv v.isLt)]

/-- A written register reads back, without the bits that have no meaning (R14). -/
theorem regValue_putReg_same {word : Nat} (h4 : 4 ≤ word) (h9 : word ≤ 9) (v : Word) :
    (s.putReg word v).regValue word = if word = 6 then v &&& 0x3F else if word = 7 then v &&& 0x7 else v := by
  have hreg : word = 4 ∨ word = 5 ∨ word = 6 ∨ word = 7 ∨ word = 8 ∨ word = 9 := by omega
  rcases hreg with rfl | rfl | rfl | rfl | rfl | rfl
  · rfl
  · rfl
  · exact setWidth_setWidth_eq_and v (n := 6) (by decide)
  · exact setWidth_setWidth_eq_and v (n := 3) (by decide)
  · exact BitVec.extractLsb'_append_eq_right
  · exact BitVec.extractLsb'_append_eq_left

/-! ## The outputs -/

/-- What a rule of the call wrote into the output a host event reads, if it reads one (R51). -/
def State.outputRead (s : State) : HostEvent → Option (BitVec 64)
  | .readPix b i => s.pixelOutput b i
  | .readMaskx k => (Memory.read s.maskx k).map fun x => x.setWidth 64
  | .readCmask k => (Memory.read s.cmask k).map fun x => x.setWidth 64
  | .readEncmask k => (Memory.read s.encmask k).map fun x => x.setWidth 64
  | .readStat b f => (Memory.read s.bstat b).bind fun st => st.value f
  | _ => none

/-- The events that read an output. -/
def HostEvent.readsOutput (ev : HostEvent) : Prop :=
  (∃ b i, ev = .readPix b i) ∨ (∃ k, ev = .readMaskx k ∨ ev = .readCmask k ∨ ev = .readEncmask k)
    ∨ ∃ b field, ev = .readStat b field

/-- Such an event puts the value of the output into the field of reads, and changes nothing else (R51, R323). -/
theorem hostStep_readsOutput {ev : HostEvent} (h : ev.readsOutput) (s : State) :
    ∃ i, hostStep ev s = .next { s with rdata := s.outputValue (s.outputRead ev) i } := by
  rcases h with ⟨b, i, rfl⟩ | ⟨k, rfl | rfl | rfl⟩ | ⟨b, f, rfl⟩ <;> exact ⟨_, rfl⟩

theorem outputValue_of_not_done (h : s.done = false) (v : Option (BitVec 64)) (i : Nat) :
    s.outputValue v i = s.freeRead i := by simp [State.outputValue, h]

theorem outputValue_of_done (h : s.done = true) {v : Option (BitVec 64)} {x : BitVec 64} (hv : v = some x) (i : Nat) :
    s.outputValue v i = x := by simp [State.outputValue, h, hv]

theorem pixelOutput_eq {b i : Nat} {e : Elem} (hi : i < 4294967296) (h : Memory.read s.pix (pixKey b i) = some e) :
    s.pixelOutput b i = some e.bits := by simp [State.pixelOutput, hi, h]

theorem inputRead_eq {a : Nat} {x : Byte} (ha : a < s.inLen.toNat) (h : Memory.read s.inMem a = some x) :
    s.inputRead a = x.setWidth 64 := by simp [State.inputRead, ha, h]

theorem hostWriteIn_eq {a : Nat} (x : Byte) (hb : s.busy = false) (ha : a < s.cfg.inMax) :
    hostWriteIn s a x = .next { s with inMem := Memory.write s.inMem a x } := by simp [hostWriteIn, hb, ha]

end

/-- A step that takes a host event whose next state is known. -/
theorem step_of_hostStep {s t : State} {ev : HostEvent} {rest : List HostEvent} (hp : s.port = ev :: rest)
    (h : hostStep ev { s with port := rest } = .next t) : step s = .next { t with fresh := t.fresh + 1 } := by
  rw [step_of_event hp, h]; rfl

/-- Settles O53, by the kind of access: register writes, register reads, reads of the outputs, writes and reads of `IN`. -/
theorem registerReadback : Obligations.RegisterReadback := by
  intro s rest
  refine ⟨fun word v hp hword => ?_, fun word hp => ?_, fun ev hp hev => ?_, fun a x hp hb ha => ?_, fun a hp => ?_⟩
  · have hstep := (hostStep_writeReg hword v { s with port := rest }).trans (hostWriteReg_eq _ word v)
    split
    · next hbusy => rw [step_of_event hp, hstep, if_pos hbusy]; rfl
    · next hfree =>
      refine ⟨_, step_of_hostStep hp (hstep.trans (if_neg hfree)), ?_, fun h4 h9 => ?_, fun other hne hother => ?_⟩
      · rw [State.putReg_eq]
      · rw [regValue_fresh (.inl (by omega)), regValue_putReg_same h4 h9]
      · rw [regValue_fresh (by rw [State.putReg_eq]; exact hother), regValue_putReg_other hne]
        rfl
  · refine ⟨s.regValue word, step_of_hostStep hp rfl, regValue_eq_zero, ?_, ?_, ?_, ?_, ?_, ?_, ?_, ?_, ?_, fun hb he => ?_⟩
    · rintro rfl; exact statusWord_eq s
    iterate 8 rintro rfl; rfl
    have hdef : s.resDefined = true := by simp [State.resDefined, hb, he]
    refine ⟨?_, ?_, ?_, ?_, ?_, ?_, ?_⟩ <;> rintro rfl <;> simp only [State.regValue, hdef, if_true, resFlagsWord_eq]
  · obtain ⟨i, hi⟩ := hostStep_readsOutput hev { s with port := rest }
    refine ⟨_, step_of_hostStep hp hi, fun hd => ⟨i, outputValue_of_not_done hd _ i⟩, fun hd => ⟨?_, ?_, ?_, ?_, ?_⟩⟩
    · rintro b j e rfl hj he; exact outputValue_of_done hd (pixelOutput_eq hj he) i
    · rintro k x rfl hx; exact outputValue_of_done hd (congrArg (Option.map _) hx) i
    · rintro k x rfl hx; exact outputValue_of_done hd (congrArg (Option.map _) hx) i
    · rintro k x rfl hx; exact outputValue_of_done hd (congrArg (Option.map _) hx) i
    · intro b st hst
      have field {f : StatField} {x : BitVec 64} (hev : ev = .readStat b f) (hx : st.value f = some x) :
          State.outputValue { s with port := rest } (State.outputRead { s with port := rest } ev) i = x := by
        subst hev
        exact outputValue_of_done hd (Option.bind_eq_some_iff.2 ⟨st, hst, hx⟩) i
      exact ⟨fun h => field h rfl, fun h => field h rfl, fun h => field h rfl, fun h => field h rfl,
        fun _ _ h => field h, fun _ _ h => field h,
        fun f r x h hf hx => field h (Option.bind_eq_some_iff.2 ⟨f, hf, hx⟩)⟩
  · refine ⟨_, step_of_hostStep hp (hostWriteIn_eq x hb ha), rfl, Memory.read_write_same _ a x, fun other hne => ?_⟩
    exact Memory.read_write_other _ x hne
  · exact ⟨_, step_of_hostStep hp rfl, fun x ha hx => inputRead_eq ha hx⟩

end Sys2Proof.Machine

namespace Sys2Proof.Machine

/-! # The buffer: what the engine reads of it and never writes -/

section

variable {s t : State}

/-! ## The inputs stay -/

/-- Whether the engine goes on, ends the call or takes a fault, the inputs are as they were (R24, R43). -/
theorem engineStep_inputs (h : engineStep s = .next t) : t.inputs = s.inputs := by
  cases hb : s.busy with
  | false => rw [engineStep_of_idle hb] at h; cases h; rfl
  | true =>
    rcases engineStep_leadsTo hb h with ⟨⟨-, hgo, -⟩, -⟩ | ⟨-, -, -, -, -, -, hend, -⟩ | ⟨-, -, -, -, hfault, -⟩
    · exact hgo
    · exact hend
    · exact hfault

/-- So of the whole step, where the host leaves it to the engine: with nothing pending, or by its turn. -/
theorem step_inputs (hp : s.port = [] ∨ ∃ rest, s.port = .turn :: rest) (h : step s = .next t) :
    t.inputs = s.inputs := by
  rcases hp with hp | ⟨rest, hp⟩
  · rw [step_of_empty hp] at h
    obtain ⟨u, hu, rfl⟩ := nextFree_eq_next.1 h
    have hkept : u.inputs = s.inputs := engineStep_inputs hu
    exact hkept
  · rw [step_of_event hp] at h
    obtain ⟨u, hu, rfl⟩ := nextFree_eq_next.1 h
    have hkept : u.inputs = State.inputs { s with port := rest } := engineStep_inputs hu
    exact hkept

/-! ## Faults of a fetch -/

/-- A field that passes the end of the buffer (R44). -/
theorem fetch_of_short {pos : StreamPos} {a off width : Nat}
    (hd : decodeAt pos (window s maxRecordBytes a) = .error (.short off width)) (hcut : s.inLen.toNat < a + off + width) :
    fetch s pos a = raise s .trunc (a + off) := by
  unfold fetch
  rw [hd]
  exact if_neg (Nat.not_le.2 hcut)

/-- Bytes that are no identifier (R267). -/
theorem fetch_of_noIdentifier {pos : StreamPos} {a : Nat}
    (hd : decodeAt pos (window s maxRecordBytes a) = .error .noIdentifier) : fetch s pos a = raise s .magic s.cur.toNat := by
  unfold fetch
  rw [hd]

/-- A second flag byte of 3 to 255 (R234). -/
theorem fetch_of_badHuffmanFlag {pos : StreamPos} {a : Nat}
    (hd : decodeAt pos (window s maxRecordBytes a) = .error .badHuffmanFlag) : fetch s pos a = raise s .blockMode a := by
  unfold fetch
  rw [hd]

/-- What is due where a record is: its fetch, at its place. A run header is fetched only where the declared bytes hold it
(R132). -/
theorem due_of_recordAt {pos : StreamPos} {a : Nat} (hr : s.recordAt = some (pos, a))
    (hrun : pos = .rle → s.rlIp.toNat + 2 ≤ s.rlBytes.toNat) : due s = some <$> fetch s pos a := by
  unfold State.recordAt at hr
  unfold due
  cases hseq : s.seq <;> rw [hseq] at hr <;> cases hr
  case rle => exact if_neg (Nat.not_lt.2 (hrun rfl))
  all_goals rfl

/-- Where a run stream is exhausted before its end, the fault is due (R132). -/
theorem due_of_exhausted (hseq : s.seq = .rle) (h : s.rlBytes.toNat < s.rlIp.toNat + 2) :
    due s = raise s .rle s.rlAddr := by
  unfold due
  rw [hseq]
  exact if_pos h

/-- A fault raised where something should be due is the fault of the step. -/
theorem step_faultedWith_of_due {code : ErrCode} {info : Nat} (hp : s.port = []) (hb : s.busy = true)
    (hd : due s = raise s code info) : faultedWith (step s) code info := by
  have he : engineStep s = .next (s.takeFault code info) := by
    unfold engineStep
    rw [if_pos hb, hd]
    rfl
  rw [step_of_empty hp, he]
  exact ⟨_, rfl, rfl, rfl, rfl, rfl⟩

/-- A fault raised in the fetch of the record due is the fault of the step. -/
theorem step_faultedWith_of_fetch {pos : StreamPos} {a : Nat} {code : ErrCode} {info : Nat} (hp : s.port = [])
    (hb : s.busy = true) (hr : s.recordAt = some (pos, a)) (hrun : pos = .rle → s.rlIp.toNat + 2 ≤ s.rlBytes.toNat)
    (hf : fetch s pos a = raise s code info) : faultedWith (step s) code info :=
  step_faultedWith_of_due hp hb (by rw [due_of_recordAt hr hrun, hf]; rfl)

end

/-- Settles O59: the seven inputs are kept together, on each of the ways a step of the engine can end. -/
theorem engineKeepsInputs : Obligations.EngineKeepsInputs := by
  intro s t hp h
  have hkept := step_inputs hp h
  simp only [State.inputs, Prod.mk.injEq] at hkept
  obtain ⟨hcfg, hmem, hlen, hoffset, hflags, htype, hnoData⟩ := hkept
  exact ⟨hmem, hlen, hoffset, hflags, htype, hnoData, hcfg⟩

/-- Settles O6: each of the three rejections of the decoder is a fault of the fetch, and the fetch is what the step does;
an exhausted run stream faults before its fetch. -/
theorem fetchFaults : Obligations.FetchFaults := by
  intro s hp hb
  refine ⟨fun pos a hr hrun => ⟨fun off width hd hcut => ?_, fun hd => ?_, fun hd => ?_⟩, fun hseq hout => ?_⟩
  · exact step_faultedWith_of_fetch hp hb hr hrun (fetch_of_short hd hcut)
  · exact step_faultedWith_of_fetch hp hb hr hrun (fetch_of_noIdentifier hd)
  · exact step_faultedWith_of_fetch hp hb hr hrun (fetch_of_badHuffmanFlag hd)
  · exact step_faultedWith_of_due hp hb (due_of_exhausted hseq hout)

end Sys2Proof.Machine

namespace Sys2Proof

/-! # The decoder as an equivalence

At a position the decoder answers a record exactly when the record is a well-formed one of that position and its
encoding begins the bytes (`decodeAt_eq_ok_iff`, R60 to R77). A field is read exactly where its bytes stand
(`fieldAt_eq_ok`), so a decoder, which reads one field after the other, and the encoder, which appends them, say the
same. -/

/-! ## Byte order -/

theorem leNat_lt (xs : List Byte) : leNat xs < 256 ^ xs.length := by
  induction xs with
  | nil => simp [leNat]
  | cons x xs ih =>
    have hx := x.isLt
    simp only [leNat, List.length_cons, pow_succ]
    omega

theorem leBytes_leNat (xs : List Byte) : leBytes xs.length (leNat xs) = xs := by
  induction xs with
  | nil => rfl
  | cons x xs ih =>
    have hx := x.isLt
    have hlow : BitVec.ofNat 8 (x.toNat + 256 * leNat xs) = x := by
      apply BitVec.eq_of_toNat_eq
      rw [BitVec.toNat_ofNat]
      omega
    have hhigh : (x.toNat + 256 * leNat xs) / 256 = leNat xs := by omega
    rw [List.length_cons, leNat, leBytes, hlow, hhigh, ih]

theorem leNat_leBytes {n v : Nat} (h : v < 256 ^ n) : leNat (leBytes n v) = v := by
  induction n generalizing v with
  | zero => simp only [pow_zero] at h; simp only [leBytes, leNat]; omega
  | succ n ih =>
    have hhigh : v / 256 < 256 ^ n := Nat.div_lt_of_lt_mul (by rw [pow_succ] at h; omega)
    rw [leBytes, leNat, ih hhigh, BitVec.toNat_ofNat]
    omega

@[simp] theorem leBytes_one (x : Byte) : leBytes 1 x.toNat = [x] := by
  rw [leBytes, leBytes, BitVec.ofNat_toNat, BitVec.setWidth_eq]

/-! ## Fields -/

theorem Decode.bind_eq_ok {α β : Type} {x : Except DecodeError α} {f : α → Except DecodeError β} {b : β} :
    (x >>= f) = .ok b ↔ ∃ a, x = .ok a ∧ f a = .ok b := by
  cases x <;> simp [bind, Except.bind]

@[simp] theorem Decode.ok_bind {α β : Type} (a : α) (f : α → Except DecodeError β) :
    ((Except.ok a : Except DecodeError α) >>= f) = f a := rfl

@[simp] theorem Decode.pure_eq_ok {α : Type} {a b : α} : (pure a : Except DecodeError α) = .ok b ↔ a = b := by
  simp [pure, Except.pure]

/-- Consecutive fields are read one after the other. -/
theorem append_prefix_iff {xs ys bs : List Byte} : xs ++ ys <+: bs ↔ xs <+: bs ∧ ys <+: bs.drop xs.length := by
  constructor
  · rintro ⟨zs, rfl⟩
    simp
  · rintro ⟨⟨zs, rfl⟩, h⟩
    simpa using h

theorem cons_prefix_iff {x : Byte} {ys bs : List Byte} : x :: ys <+: bs ↔ [x] <+: bs ∧ ys <+: bs.drop 1 :=
  append_prefix_iff (xs := [x])

/-- A field is read exactly where its bytes stand. -/
theorem fieldAt_eq_ok {bs : List Byte} {off n v : Nat} :
    fieldAt bs off n = .ok v ↔ v < 256 ^ n ∧ off + n ≤ bs.length ∧ leBytes n v <+: bs.drop off := by
  unfold fieldAt
  split_ifs with hlen
  · have htake : ((bs.drop off).take n).length = n := by simp; omega
    constructor
    · intro h
      cases h
      have hlt := leNat_lt ((bs.drop off).take n)
      have hbytes := leBytes_leNat ((bs.drop off).take n)
      rw [htake] at hlt hbytes
      exact ⟨hlt, hlen, hbytes.symm ▸ List.take_prefix n _⟩
    · rintro ⟨hv, -, hpre⟩
      rw [List.prefix_iff_eq_take, leBytes_length] at hpre
      rw [← hpre, leNat_leBytes hv]
  · simp [hlen]

/-- The field of a machine word. -/
theorem wordAt_eq_ok {bs : List Byte} {off n : Nat} {w : BitVec (8 * n)} (hn : 0 < n) :
    (do return BitVec.ofNat (8 * n) (← fieldAt bs off n)) = .ok w ↔ leBytes n w.toNat <+: bs.drop off := by
  have hpow : 256 ^ n = 2 ^ (8 * n) := by rw [pow_mul]; rfl
  simp only [Decode.bind_eq_ok, fieldAt_eq_ok]
  constructor
  · rintro ⟨v, ⟨hv, -, hpre⟩, hw⟩
    cases hw
    rwa [BitVec.toNat_ofNat, Nat.mod_eq_of_lt (hpow ▸ hv)]
  · intro hpre
    have hlen := hpre.length_le
    rw [leBytes_length, List.length_drop] at hlen
    exact ⟨w.toNat, ⟨hpow ▸ w.isLt, by omega, hpre⟩, congrArg _ (by simp)⟩

theorem word32At_eq_ok {bs : List Byte} {off : Nat} {w : Word} : word32At bs off = .ok w ↔ le32 w <+: bs.drop off :=
  wordAt_eq_ok (n := 4) (by decide)

theorem word64At_eq_ok {bs : List Byte} {off : Nat} {w : BitVec 64} :
    word64At bs off = .ok w ↔ le64 w <+: bs.drop off :=
  wordAt_eq_ok (n := 8) (by decide)

theorem word16At_eq_ok {bs : List Byte} {off : Nat} {w : BitVec 16} :
    word16At bs off = .ok w ↔ leBytes 2 w.toNat <+: bs.drop off :=
  wordAt_eq_ok (n := 2) (by decide)

theorem byteAt_eq_ok {bs : List Byte} {off : Nat} {x : Byte} : byteAt bs off = .ok x ↔ [x] <+: bs.drop off :=
  leBytes_one x ▸ wordAt_eq_ok (n := 1) (by decide)

/-! ## Fields with a selected width -/

theorem eq_three_of_ne {x : BitVec 2} (h0 : x ≠ 0#2) (h1 : x ≠ 1#2) (h2 : x ≠ 2#2) : x = 3#2 := by bv_omega

/-- A field of four, two or one bytes, or none, as its selector says (R65, R72). -/
theorem selectedField_eq_ok {α : Type} {selector : BitVec 2} {bs : List Byte} {off : Nat} {four : Word → α}
    {two : BitVec 16 → α} {one : Byte → α} {absent v : α} :
    (if selector == 0#2 then do return four (← word32At bs off)
      else if selector == 1#2 then do return two (← word16At bs off)
      else if selector == 2#2 then do return one (← byteAt bs off)
      else return absent : Except DecodeError α) = .ok v
      ↔ (0#2 = selector ∧ ∃ x, le32 x <+: bs.drop off ∧ four x = v)
        ∨ (1#2 = selector ∧ ∃ x, leBytes 2 x.toNat <+: bs.drop off ∧ two x = v)
        ∨ (2#2 = selector ∧ ∃ x, [x] <+: bs.drop off ∧ one x = v)
        ∨ (3#2 = selector ∧ absent = v) := by
  obtain rfl | rfl | rfl | rfl : selector = 0#2 ∨ selector = 1#2 ∨ selector = 2#2 ∨ selector = 3#2 := by bv_omega
  all_goals simp [-bind_pure_comp, Decode.bind_eq_ok, word32At_eq_ok, word16At_eq_ok, byteAt_eq_ok]

/-- The base-offset field (R65). -/
theorem decodeCzOffset_eq_ok {otype : BitVec 2} {bs : List Byte} {off : Nat} {v : CzOffset} :
    decodeCzOffset otype bs off = .ok v ↔ v.otype = otype ∧ v.bytes <+: bs.drop off :=
  selectedField_eq_ok.trans (by cases v <;> simp [CzOffset.otype, CzOffset.bytes, le32])

/-- The count field (R65, R72). -/
theorem decodeCount_eq_ok {ctype : BitVec 2} {bs : List Byte} {off : Nat} {v : CountField} :
    decodeCount ctype bs off = .ok v ↔ v.ctype = ctype ∧ v.bytes <+: bs.drop off :=
  selectedField_eq_ok.trans (by cases v <;> simp [CountField.ctype, CountField.bytes, le32])

/-! ## Bit fields of a header -/

/-- Two bit fields make up a word exactly when they are its parts. -/
theorem append_eq_iff_extractLsb' {v w : Nat} {hi : BitVec v} {lo : BitVec w} {x : BitVec (v + w)} :
    hi ++ lo = x ↔ x.extractLsb' w v = hi ∧ x.extractLsb' 0 w = lo := by
  constructor
  · rintro rfl
    exact ⟨BitVec.extractLsb'_append_eq_left, BitVec.extractLsb'_append_eq_right⟩
  · rintro ⟨rfl, rfl⟩
    exact (BitVec.extractLsb'_append_extractLsb'_eq_extractLsb' (Nat.zero_add w).symm).trans BitVec.extractLsb'_eq_self

/-- So do three, as in a header byte. -/
theorem append_append_eq_iff_extractLsb' {u v w : Nat} {hi : BitVec u} {mid : BitVec v} {lo : BitVec w}
    {x : BitVec (u + v + w)} :
    hi ++ mid ++ lo = x ↔ x.extractLsb' (w + v) u = hi ∧ x.extractLsb' w v = mid ∧ x.extractLsb' 0 w = lo := by
  constructor
  · rintro rfl
    refine ⟨?_, ?_, BitVec.extractLsb'_append_eq_right⟩
    · rw [BitVec.extractLsb'_append_eq_of_le (Nat.le_add_right w v), Nat.add_sub_cancel_left,
        BitVec.extractLsb'_append_eq_left]
    · rw [BitVec.extractLsb'_append_eq_of_le (Nat.le_refl w), Nat.sub_self, BitVec.extractLsb'_append_eq_right]
  · rintro ⟨rfl, rfl, rfl⟩
    rw [BitVec.extractLsb'_append_extractLsb'_eq_extractLsb' rfl, append_eq_iff_extractLsb']
    exact ⟨rfl, rfl⟩

theorem extractLsb'_one_eq_ofBool_iff {w k : Nat} {x : BitVec w} {b : Bool} :
    x.extractLsb' k 1 = BitVec.ofBool b ↔ x.getLsbD k = b := by
  have hbit : x.extractLsb' k 1 = BitVec.ofBool (x.getLsbD k) := by
    apply BitVec.eq_of_getLsbD_eq
    intro i hi
    obtain rfl : i = 0 := by omega
    simp
  rw [hbit]
  cases x.getLsbD k <;> cases b <;> decide

/-- The command word: bit 0 set, the others as they are (R61). -/
theorem append_one_eq_iff {ignored : BitVec 31} {w : Word} :
    ignored ++ 1#1 = w ↔ w.extractLsb' 1 31 = ignored ∧ w.getLsbD 0 = true :=
  append_eq_iff_extractLsb'.trans (and_congr_right' (extractLsb'_one_eq_ofBool_iff (b := true)))

/-- The fields of a block's header byte: four zero bits between the selector and the mode (R65). -/
theorem czHeaderByte_eq_iff {off : CzOffset} {mode : BitVec 2} {x : Byte} :
    czHeaderByte off mode = x
      ↔ x.extractLsb' 6 2 = off.otype ∧ x.extractLsb' 2 4 = 0#4 ∧ x.extractLsb' 0 2 = mode :=
  append_append_eq_iff_extractLsb'

/-- The fields of a tile's header byte (R71). -/
theorem tileHeaderByte_eq_iff {otype : BitVec 2} {tag : BitVec 4} {mode : BitVec 2} {x : Byte} :
    tileHeaderByte otype tag mode = x
      ↔ x.extractLsb' 6 2 = otype ∧ x.extractLsb' 2 4 = tag ∧ x.extractLsb' 0 2 = mode :=
  append_append_eq_iff_extractLsb'

/-- The fields of a `BS2` record's header byte (R72). -/
theorem bs2HeaderByte_eq_iff {count : CountField} {lutf : Bool} {numBits : BitVec 5} {x : Byte} :
    bs2HeaderByte count lutf numBits = x
      ↔ x.extractLsb' 6 2 = count.ctype ∧ x.getLsbD 5 = lutf ∧ x.extractLsb' 0 5 = numBits :=
  append_append_eq_iff_extractLsb'.trans (and_congr_right' (and_congr_left' extractLsb'_one_eq_ofBool_iff))

/-! ## A record at the start of the bytes -/

/-- A well-formed record of a position whose encoding the bytes begin with; the identifier test reads ten bytes
(R62). -/
structure Instr.StandsAt (i : Instr) (pos : StreamPos) (bs : List Byte) : Prop where
  wf : i.wf = true
  place : i.streamPos = some pos
  begins : encode i <+: bs
  tenBytes : pos = .ident → 10 ≤ bs.length

variable {bs : List Byte} {i : Instr}

/-- The command word (R61). -/
theorem decodeCommand_eq_ok : decodeCommand bs = .ok i ↔ i.StandsAt .command bs := by
  simp only [decodeCommand, Decode.bind_eq_ok, word32At_eq_ok, List.drop_zero]
  constructor
  · rintro ⟨w, hw, h⟩
    split_ifs at h with hbit
    cases h
    exact ⟨rfl, rfl, by rwa [encode, append_one_eq_iff.2 ⟨rfl, hbit⟩], nofun⟩
  · rintro ⟨-, hpos, hpre, -⟩
    cases i with
    | cmdGo ignored =>
      obtain ⟨hx, hbit⟩ := append_one_eq_iff.1 (Eq.refl (ignored ++ 1#1))
      exact ⟨_, hpre, by rw [if_pos hbit, hx]; rfl⟩
    | _ => cases hpos

/-! ### Records of fixed fields -/

/-- `CZH` (R63). -/
theorem decodeCzHdr_eq_ok : decodeCzHdr bs = .ok i ↔ i.StandsAt .czHdr bs := by
  simp only [decodeCzHdr, Decode.bind_eq_ok, word32At_eq_ok, word64At_eq_ok, List.drop_zero]
  constructor
  · rintro ⟨version, hv, imageType, ht, height, hh, width, hw, maxZError, hz, h⟩
    cases h
    exact ⟨rfl, rfl, by simp [encode, append_prefix_iff, *], nofun⟩
  · rintro ⟨-, hpos, hpre, -⟩
    cases i with
    | czHdr => simpa [encode, append_prefix_iff, and_assoc] using hpre
    | _ => cases hpos

/-- Four words, one after the other: the layout of `CZS` and `HUFT` (R64, R73). -/
theorem fourWords_eq_ok {f : Word → Word → Word → Word → Instr} :
    (do
      let a ← word32At bs 0
      let b ← word32At bs 4
      let c ← word32At bs 8
      let d ← word32At bs 12
      return f a b c d) = .ok i
      ↔ ∃ a b c d, le32 a ++ le32 b ++ le32 c ++ le32 d <+: bs ∧ f a b c d = i := by
  simp only [Decode.bind_eq_ok, word32At_eq_ok, List.drop_zero, Decode.pure_eq_ok]
  constructor
  · rintro ⟨a, ha, b, hb, c, hc, d, hd, h⟩
    exact ⟨a, b, c, d, by simp [append_prefix_iff, *], h⟩
  · rintro ⟨a, b, c, d, hpre, h⟩
    simp only [append_prefix_iff, List.length_append, le32_length] at hpre
    obtain ⟨⟨⟨ha, hb⟩, hc⟩, hd⟩ := hpre
    exact ⟨a, ha, b, hb, c, hc, d, hd, h⟩

/-- `CZS`, the mask section (R64). -/
theorem decodeCzMsec_eq_ok : decodeCzMsec bs = .ok i ↔ i.StandsAt .czMsec bs := by
  refine fourWords_eq_ok.trans ⟨?_, fun ⟨_, hpos, hpre, _⟩ => ?_⟩
  · rintro ⟨nby, nbx, numBytes, maxValue, hpre, rfl⟩
    exact ⟨rfl, rfl, hpre, nofun⟩
  · cases i with
    | czMsec nby nbx numBytes maxValue => exact ⟨nby, nbx, numBytes, maxValue, hpre, rfl⟩
    | _ => cases hpos

/-- `CZS`, the pixel section (R64). -/
theorem decodeCzPsec_eq_ok : decodeCzPsec bs = .ok i ↔ i.StandsAt .czPsec bs := by
  refine fourWords_eq_ok.trans ⟨?_, fun ⟨_, hpos, hpre, _⟩ => ?_⟩
  · rintro ⟨nby, nbx, numBytes, maxValue, hpre, rfl⟩
    exact ⟨rfl, rfl, hpre, nofun⟩
  · cases i with
    | czPsec nby nbx numBytes maxValue => exact ⟨nby, nbx, numBytes, maxValue, hpre, rfl⟩
    | _ => cases hpos

/-- `HUFT` (R73). -/
theorem decodeHufTable_eq_ok : decodeHufTable bs = .ok i ↔ i.StandsAt .hufTable bs := by
  refine fourWords_eq_ok.trans ⟨?_, fun ⟨_, hpos, hpre, _⟩ => ?_⟩
  · rintro ⟨hversion, size, i0, i1, hpre, rfl⟩
    exact ⟨rfl, rfl, hpre, nofun⟩
  · cases i with
    | hufTable hversion size i0 i1 => exact ⟨hversion, size, i0, i1, hpre, rfl⟩
    | _ => cases hpos

/-- `L2M` (R68). -/
theorem decodeL2Mask_eq_ok : decodeL2Mask bs = .ok i ↔ i.StandsAt .l2Mask bs := by
  simp only [decodeL2Mask, Decode.bind_eq_ok, word32At_eq_ok, List.drop_zero]
  constructor
  · rintro ⟨numBytes, hn, h⟩
    cases h
    exact ⟨rfl, rfl, hn, nofun⟩
  · rintro ⟨-, hpos, hpre, -⟩
    cases i with
    | l2Mask numBytes => exact ⟨numBytes, hpre, rfl⟩
    | _ => cases hpos

/-- `L2.RANGES` is all payload: it stands everywhere. -/
theorem decodeL2Ranges_eq_ok : decodeAt .l2Ranges bs = .ok i ↔ i.StandsAt .l2Ranges bs := by
  constructor
  · intro h
    cases h
    exact ⟨rfl, rfl, List.nil_prefix, nofun⟩
  · rintro ⟨-, hpos, -, -⟩
    cases i with
    | l2Ranges => rfl
    | _ => cases hpos

/-! ### Records a value or a bit field of the first bytes tells apart -/

/-- `RLE`: the run tells the four records apart (R66). -/
theorem decodeRle_eq_ok : decodeRle bs = .ok i ↔ i.StandsAt .rle bs := by
  simp only [decodeRle, Decode.bind_eq_ok, word16At_eq_ok, List.drop_zero, beq_iff_eq]
  constructor
  · rintro ⟨run, hrun, h⟩
    split_ifs at h with hend hzero hneg <;> cases h
    · subst hend; exact ⟨rfl, rfl, hrun, nofun⟩
    · subst hzero; exact ⟨rfl, rfl, hrun, nofun⟩
    · exact ⟨by simp [Instr.wf, hend, hneg], rfl, hrun, nofun⟩
    · exact ⟨by simp [Instr.wf, hzero, hneg], rfl, hrun, nofun⟩
  · rintro ⟨hwf, hpos, hpre, -⟩
    cases i with
    | rleLit run =>
      simp only [Instr.wf, Bool.and_eq_true, bne_iff_ne, Bool.not_eq_true'] at hwf
      obtain ⟨hzero, hneg⟩ := hwf
      have hend : run ≠ 0x8000#16 := by rintro rfl; exact absurd hneg (by decide)
      exact ⟨run, hpre, by simp [hend, hzero, hneg]⟩
    | rleRep run =>
      simp only [Instr.wf, Bool.and_eq_true, bne_iff_ne] at hwf
      obtain ⟨hend, hneg⟩ := hwf
      have hzero : run ≠ 0#16 := by rintro rfl; exact absurd hneg (by decide)
      exact ⟨run, hpre, by simp [hend, hzero, hneg]⟩
    | rleEnd => exact ⟨0x8000#16, hpre, rfl⟩
    | rleZero => exact ⟨0#16, hpre, rfl⟩
    | _ => cases hpos

/-- The first `L2F` byte (R70). -/
theorem decodeL2Flag_eq_ok : decodeL2Flag bs = .ok i ↔ i.StandsAt .l2Flag bs := by
  simp only [decodeL2Flag, Decode.bind_eq_ok, byteAt_eq_ok, List.drop_zero, beq_iff_eq]
  constructor
  · rintro ⟨flag, hflag, h⟩
    split_ifs at h with hzero <;> cases h
    · subst hzero; exact ⟨rfl, rfl, hflag, nofun⟩
    · exact ⟨by simp [Instr.wf, hzero], rfl, hflag, nofun⟩
  · rintro ⟨hwf, hpos, hpre, -⟩
    cases i with
    | l2Sweep flag =>
      have hne : flag ≠ 0#8 := bne_iff_ne.1 hwf
      exact ⟨flag, hpre, if_neg hne⟩
    | l2Body => exact ⟨0#8, hpre, rfl⟩
    | _ => cases hpos

/-- The second `L2F` byte (R70). -/
theorem decodeL2Hf_eq_ok : decodeL2Hf bs = .ok i ↔ i.StandsAt .l2Hf bs := by
  simp only [decodeL2Hf, Decode.bind_eq_ok, byteAt_eq_ok, List.drop_zero, beq_iff_eq]
  constructor
  · rintro ⟨hf, hhf, h⟩
    split_ifs at h with h0 h1 h2 <;> cases h <;> subst hf
    · exact ⟨rfl, rfl, hhf, nofun⟩
    · exact ⟨rfl, rfl, hhf, nofun⟩
    · exact ⟨rfl, rfl, hhf, nofun⟩
  · rintro ⟨-, hpos, hpre, -⟩
    cases i with
    | l2HfTiles => exact ⟨0#8, hpre, rfl⟩
    | l2HfDelta => exact ⟨1#8, hpre, rfl⟩
    | l2HfPlain => exact ⟨2#8, hpre, rfl⟩
    | _ => cases hpos

/-- `L2T`: the mode tells the four records apart (R71). -/
theorem decodeL2Tile_eq_ok : decodeL2Tile bs = .ok i ↔ i.StandsAt .l2Tile bs := by
  simp only [decodeL2Tile, Decode.bind_eq_ok, byteAt_eq_ok, List.drop_zero, beq_iff_eq]
  constructor
  · rintro ⟨th, hth, h⟩
    have hbyte {mode : BitVec 2} (hm : th.extractLsb' 0 2 = mode) :
        [tileHeaderByte (th.extractLsb' 6 2) (th.extractLsb' 2 4) mode] <+: bs := by
      rwa [tileHeaderByte_eq_iff.2 ⟨rfl, rfl, hm⟩]
    split_ifs at h with h0 h1 h2 <;> cases h
    · exact ⟨rfl, rfl, hbyte h0, nofun⟩
    · exact ⟨rfl, rfl, hbyte h1, nofun⟩
    · exact ⟨rfl, rfl, hbyte h2, nofun⟩
    · exact ⟨rfl, rfl, hbyte (eq_three_of_ne h0 h1 h2), nofun⟩
  · rintro ⟨-, hpos, hpre, -⟩
    have hfields (otype : BitVec 2) (tag : BitVec 4) (mode : BitVec 2) :=
      tileHeaderByte_eq_iff.1 (Eq.refl (tileHeaderByte otype tag mode))
    cases i with
    | l2TileRaw otype tag => exact ⟨_, hpre, by simp [hfields]⟩
    | l2TileBs otype tag => exact ⟨_, hpre, by simp [hfields]⟩
    | l2TileXb otype tag => exact ⟨_, hpre, by simp [hfields]⟩
    | l2TileConst otype tag => exact ⟨_, hpre, by simp [hfields]⟩
    | _ => cases hpos

/-- `BS2`: bit 5 tells the two records apart (R72). -/
theorem decodeBs2_eq_ok : decodeBs2 bs = .ok i ↔ i.StandsAt .bs2 bs := by
  simp only [decodeBs2, Decode.bind_eq_ok, byteAt_eq_ok, decodeCount_eq_ok, List.drop_zero]
  constructor
  · rintro ⟨bh, hbh, count, ⟨hc, hcount⟩, h⟩
    have hbytes {lutf : Bool} (hbit : bh.getLsbD 5 = lutf) :
        bs2HeaderByte count lutf (bh.extractLsb' 0 5) :: count.bytes <+: bs := by
      rw [bs2HeaderByte_eq_iff.2 ⟨hc.symm, hbit, rfl⟩]
      exact cons_prefix_iff.2 ⟨hbh, hcount⟩
    split_ifs at h with hlut <;> cases h
    · exact ⟨rfl, rfl, hbytes hlut, nofun⟩
    · exact ⟨rfl, rfl, hbytes (Bool.eq_false_of_not_eq_true hlut), nofun⟩
  · rintro ⟨-, hpos, hpre, -⟩
    have hfields (count : CountField) (lutf : Bool) (numBits : BitVec 5) :=
      bs2HeaderByte_eq_iff.1 (Eq.refl (bs2HeaderByte count lutf numBits))
    cases i with
    | bs2Aff numBits count =>
      obtain ⟨hctype, hbit, hbits⟩ := hfields count false numBits
      obtain ⟨hhead, hcount⟩ := cons_prefix_iff.1 hpre
      exact ⟨_, hhead, count, ⟨hctype.symm, hcount⟩, by rw [hbit, hbits]; rfl⟩
    | bs2Lut numBits count =>
      obtain ⟨hctype, hbit, hbits⟩ := hfields count true numBits
      obtain ⟨hhead, hcount⟩ := cons_prefix_iff.1 hpre
      exact ⟨_, hhead, count, ⟨hctype.symm, hcount⟩, by rw [hbit, hbits]; rfl⟩
    | _ => cases hpos

/-! ### Blocks -/

/-- A byte whose bits 5:2 are zero is reserved in mode 3 only (R65, R199). -/
theorem isReservedBlockHeader_czHeaderByte (off : CzOffset) (mode : BitVec 2) :
    isReservedBlockHeader (czHeaderByte off mode) = (mode == 3#2) := by
  obtain ⟨-, hzero, hmode⟩ := czHeaderByte_eq_iff.1 (Eq.refl (czHeaderByte off mode))
  simp [isReservedBlockHeader, hzero, hmode]

theorem isReservedBlockHeader_eq_false {x : Byte} :
    isReservedBlockHeader x = false ↔ x.extractLsb' 2 4 = 0#4 ∧ x.extractLsb' 0 2 ≠ 3#2 := by
  simp [isReservedBlockHeader, and_comm]

/-- The second header byte and the count field follow the offset field (R65, R197). -/
theorem czBs_begins_iff {off : CzOffset} {bits : BitVec 6} {count : CountField} (hoff : off ≠ .invalid) :
    encode (.czBs off bits count) <+: bs
      ↔ czHeaderByte off 1#2 :: off.bytes <+: bs ∧ [(count.ctype ++ bits : BitVec 8)] <+: bs.drop (1 + off.len)
        ∧ count.bytes <+: bs.drop (2 + off.len) := by
  rw [encode, if_neg hoff, append_prefix_iff, cons_prefix_iff (ys := count.bytes), List.drop_drop, List.length_cons,
    CzOffset.bytes_length, Nat.add_comm off.len 1, show 1 + off.len + 1 = 2 + off.len by omega]

/-- `CZB`: reserved bits, else the mode, tell the four records apart (R65). -/
theorem decodeCzBlock_eq_ok : decodeCzBlock bs = .ok i ↔ i.StandsAt .czBlock bs := by
  simp only [decodeCzBlock, Decode.bind_eq_ok, byteAt_eq_ok, List.drop_zero, beq_iff_eq]
  constructor
  · rintro ⟨hb, hhb, h⟩
    cases hres : isReservedBlockHeader hb with
    | true =>
      rw [hres, if_pos rfl] at h
      cases h
      exact ⟨hres, rfl, hhb, nofun⟩
    | false =>
      rw [hres, if_neg Bool.false_ne_true] at h
      simp only [Decode.bind_eq_ok, decodeCzOffset_eq_ok] at h
      obtain ⟨off, ⟨ho, hoff⟩, h⟩ := h
      obtain ⟨hzero, h3⟩ := isReservedBlockHeader_eq_false.1 hres
      have hbytes {mode : BitVec 2} (hm : hb.extractLsb' 0 2 = mode) : czHeaderByte off mode :: off.bytes <+: bs := by
        rw [czHeaderByte_eq_iff.2 ⟨ho.symm, hzero, hm⟩]
        exact cons_prefix_iff.2 ⟨hhb, hoff⟩
      split_ifs at h with h0 h1 hinv
      · cases h
        exact ⟨rfl, rfl, hbytes h0, nofun⟩
      · cases h
        subst hinv
        exact ⟨rfl, rfl, hbytes h1, nofun⟩
      · simp only [Decode.bind_eq_ok, byteAt_eq_ok, decodeCount_eq_ok] at h
        obtain ⟨hb1, hhb1, count, ⟨hc, hcount⟩, h⟩ := h
        cases h
        have hsecond : (count.ctype ++ hb1.extractLsb' 0 6 : BitVec 8) = hb1 :=
          append_eq_iff_extractLsb'.2 ⟨hc.symm, rfl⟩
        have hpre := (czBs_begins_iff hinv).2 ⟨hbytes h1, hsecond.symm ▸ hhb1, hcount⟩
        exact ⟨by simp [Instr.wf, hinv], rfl, hpre, nofun⟩
      · cases h
        have h2 : hb.extractLsb' 0 2 = 2#2 := by bv_omega
        exact ⟨rfl, rfl, hbytes h2, nofun⟩
  · rintro ⟨hwf, hpos, hpre, -⟩
    have hfields (off : CzOffset) (mode : BitVec 2) := czHeaderByte_eq_iff.1 (Eq.refl (czHeaderByte off mode))
    cases i with
    | czRaw off =>
      obtain ⟨hhead, hoff⟩ := cons_prefix_iff.1 hpre
      obtain ⟨hotype, -, hmode⟩ := hfields off 0#2
      refine ⟨_, hhead, ?_⟩
      rw [isReservedBlockHeader_czHeaderByte, hotype, hmode]
      exact Decode.bind_eq_ok.2 ⟨off, decodeCzOffset_eq_ok.2 ⟨rfl, hoff⟩, rfl⟩
    | czBs off bits count =>
      have hfirst : czHeaderByte off 1#2 :: off.bytes <+: bs := (List.prefix_append _ _).trans hpre
      obtain ⟨hhead, hoff⟩ := cons_prefix_iff.1 hfirst
      obtain ⟨hotype, -, hmode⟩ := hfields off 1#2
      refine ⟨_, hhead, ?_⟩
      rw [isReservedBlockHeader_czHeaderByte, hotype, hmode]
      refine Decode.bind_eq_ok.2 ⟨off, decodeCzOffset_eq_ok.2 ⟨rfl, hoff⟩, ?_⟩
      by_cases hinv : off = .invalid
      · subst hinv
        simp only [Instr.wf, bne_self_eq_false, Bool.false_or, Bool.and_eq_true, beq_iff_eq] at hwf
        obtain ⟨rfl, rfl⟩ := hwf
        rfl
      · obtain ⟨-, hsecond, hcount⟩ := (czBs_begins_iff hinv).1 hpre
        obtain ⟨hctype, hbits⟩ := append_eq_iff_extractLsb'.1 (Eq.refl (count.ctype ++ bits))
        simp only [show ¬ (1#2 = 0#2) by decide, if_false, if_true, hinv, Decode.bind_eq_ok, byteAt_eq_ok,
          decodeCount_eq_ok]
        exact ⟨_, hsecond, count, ⟨hctype.symm, hcount⟩, by rw [hbits]; rfl⟩
    | czConst off =>
      obtain ⟨hhead, hoff⟩ := cons_prefix_iff.1 hpre
      obtain ⟨hotype, -, hmode⟩ := hfields off 2#2
      refine ⟨_, hhead, ?_⟩
      rw [isReservedBlockHeader_czHeaderByte, hotype, hmode]
      exact Decode.bind_eq_ok.2 ⟨off, decodeCzOffset_eq_ok.2 ⟨rfl, hoff⟩, rfl⟩
    | czRsvd hb => exact ⟨hb, hpre, if_pos hwf⟩
    | _ => cases hpos

/-! ### The Lerc2 header -/

/-- What follows a supported version: the checksum from version 3 on, the dimensions from version 4 on (R67, R216). In
each of the three layouts the decoder's offsets are the sums of the lengths before them. -/
theorem decodeL2Hdr_of_supported {version : Word} (hv : le32 version <+: bs) (hs : isSupportedVersion version = true) :
    decodeL2Hdr bs = .ok i ↔ ∃ checksum height width numDims numValid mbs blobSize imageType maxZError zMin zMax,
      (3 ≤ version.toInt ∨ checksum = 0#32) ∧ (4 ≤ version.toInt ∨ numDims = 1#32)
      ∧ encodeL2Header
          (.fields version checksum height width numDims numValid mbs blobSize imageType maxZError zMin zMax) <+: bs
      ∧ .l2Hdr (.fields version checksum height width numDims numValid mbs blobSize imageType maxZError zMin zMax)
        = i := by
  have hread : word32At bs 0 = .ok version := word32At_eq_ok.2 hv
  obtain ⟨h3, h4⟩ | ⟨h3, h4⟩ | ⟨h3, h4⟩ : (¬ 3 ≤ version.toInt ∧ ¬ 4 ≤ version.toInt)
      ∨ (3 ≤ version.toInt ∧ ¬ 4 ≤ version.toInt) ∨ (3 ≤ version.toInt ∧ 4 ≤ version.toInt) := by omega
  all_goals
    simp only [decodeL2Hdr, hread, hs, h3, h4, Decode.bind_eq_ok, word32At_eq_ok, word64At_eq_ok, Decode.pure_eq_ok,
      Decode.ok_bind, pure_bind, encodeL2Header, append_prefix_iff, hv, List.length_append, le32_length, le64_length,
      List.append_nil, Bool.not_true, Bool.false_eq_true, if_false, if_true, true_or, false_or, true_and, and_assoc,
      exists_and_left, exists_eq_left, Nat.reduceAdd]

/-- `L2H` (R67). -/
theorem decodeL2Hdr_eq_ok : decodeL2Hdr bs = .ok i ↔ i.StandsAt .l2Hdr bs := by
  constructor
  · intro h
    obtain ⟨version, hread, hrest⟩ := Decode.bind_eq_ok.1 h
    have hv : le32 version <+: bs := word32At_eq_ok.1 hread
    cases hs : isSupportedVersion version with
    | false =>
      rw [hs] at hrest
      cases hrest
      exact ⟨by simp [Instr.wf, L2Header.wf, hs], rfl, hv, nofun⟩
    | true =>
      obtain ⟨_, _, _, _, _, _, _, _, _, _, _, hchecksum, hdims, hpre, rfl⟩ := (decodeL2Hdr_of_supported hv hs).1 h
      exact ⟨by simp [Instr.wf, L2Header.wf, hs, hchecksum, hdims], rfl, hpre, nofun⟩
  · rintro ⟨hwf, hpos, hpre, -⟩
    cases i with
    | l2Hdr header =>
      cases header with
      | unsupported v => exact Decode.bind_eq_ok.2 ⟨v, word32At_eq_ok.2 hpre, if_pos hwf⟩
      | fields v =>
        simp only [Instr.wf, L2Header.wf, Bool.and_eq_true, Bool.or_eq_true, decide_eq_true_eq, beq_iff_eq] at hwf
        obtain ⟨⟨hs, hchecksum⟩, hdims⟩ := hwf
        have hv : le32 v <+: bs := by
          simp only [encode, encodeL2Header, List.append_assoc] at hpre
          exact (List.prefix_append _ _).trans hpre
        exact (decodeL2Hdr_of_supported hv hs).2 ⟨_, _, _, _, _, _, _, _, _, _, _, hchecksum, hdims, hpre, rfl⟩
    | _ => cases hpos

/-! ### The identifiers -/

theorem trimBytes_sublist (xs : List Byte) : (trimBytes xs).Sublist xs :=
  (List.rdropWhile_prefix isTrimByte _).sublist.trans (List.dropWhile_suffix isTrimByte).sublist

theorem trimBytes_cons_of_isTrimByte {x : Byte} (hx : isTrimByte x = true) (xs : List Byte) :
    trimBytes (x :: xs) = trimBytes xs := by
  rw [trimBytes, List.dropWhile_cons_of_pos hx, trimBytes]

/-- The ten bytes of `ID.CNTZ`: one white space byte before the nine letters or after them (R62). -/
theorem trimBytes_eq_cntzMagic_iff {id : List Byte} (hlen : id.length = 10) :
    trimBytes id = cntzMagic
      ↔ ∃ x, isTrimByte x = true ∧ (id = x :: cntzMagic ∨ id = cntzMagic ++ [x]) := by
  constructor
  · intro h
    have hmagic : cntzMagic.length = 9 := rfl
    cases id with
    | nil => cases hlen
    | cons x xs =>
      by_cases hx : isTrimByte x = true
      · rw [trimBytes_cons_of_isTrimByte hx] at h
        have hsub := trimBytes_sublist xs
        rw [h] at hsub
        have hxs := hsub.eq_of_length_le (by simp at hlen; omega)
        exact ⟨x, hx, .inl (by rw [hxs])⟩
      · rw [trimBytes, List.dropWhile_cons_of_neg hx] at h
        obtain ⟨ys, y, hys⟩ := (List.eq_nil_or_concat' (x :: xs)).resolve_left (by simp)
        rw [hys] at h hlen ⊢
        change List.rdropWhile isTrimByte (ys ++ [y]) = cntzMagic at h
        by_cases hy : isTrimByte y = true
        · rw [List.rdropWhile_concat_pos _ _ _ hy] at h
          have hpre := List.rdropWhile_prefix isTrimByte ys
          rw [h] at hpre
          have hys := hpre.eq_of_length (by simp at hlen; omega)
          exact ⟨y, hy, .inr (by rw [hys])⟩
        · rw [List.rdropWhile_concat_neg _ _ _ hy] at h
          rw [h] at hlen
          cases hlen
  · rintro ⟨x, hx, rfl | rfl⟩
    · rw [trimBytes_cons_of_isTrimByte hx]
      decide
    · have hkeep : (cntzMagic ++ [x]).dropWhile isTrimByte = cntzMagic ++ [x] := rfl
      rw [trimBytes, hkeep]
      exact (List.rdropWhile_concat_pos isTrimByte cntzMagic x hx).trans (by decide)

/-- A byte of a list stands at its offset. -/
theorem getD_prefix_drop {xs : List Byte} {k : Nat} (d : Byte) (h : k < xs.length) : [xs.getD k d] <+: xs.drop k := by
  rw [List.drop_eq_getElem_cons h, List.getD_eq_getElem xs d h]
  exact List.cons_prefix_cons.2 ⟨rfl, List.nil_prefix⟩

/-- `ID` (R62). -/
theorem decodeIdent_eq_ok : decodeIdent bs = .ok i ↔ i.StandsAt .ident bs := by
  constructor
  · intro h
    simp only [decodeIdent, Decode.bind_eq_ok, fieldAt_eq_ok] at h
    obtain ⟨-, ⟨-, hten, -⟩, h⟩ := h
    have hlen : (bs.take 10).length = 10 := by simp; omega
    have hid : bs.take 10 <+: bs := List.take_prefix 10 bs
    split_ifs at h with htrim hfirst hlerc
    · obtain ⟨x, hx, he | he⟩ := (trimBytes_eq_cntzMagic_iff hlen).1 htrim <;> rw [he] at h hfirst hid <;> cases h
      · exact ⟨hx, rfl, hid, fun _ => hten⟩
      · cases hfirst
    · obtain ⟨x, hx, he | he⟩ := (trimBytes_eq_cntzMagic_iff hlen).1 htrim <;> rw [he] at h hfirst hid <;> cases h
      · exact absurd hx hfirst
      · exact ⟨hx, rfl, hid, fun _ => hten⟩
    · cases h
      refine ⟨rfl, rfl, ?_, fun _ => hten⟩
      have hsixth : [(bs.take 10).getD 5 0#8] <+: (bs.take 10).drop 5 := getD_prefix_drop 0#8 (by omega)
      exact (append_prefix_iff.2 ⟨hlerc ▸ List.take_prefix 5 _, hsixth⟩).trans hid
  · rintro ⟨hwf, hpos, hpre, hten⟩
    have hlen := hten rfl
    have hread : fieldAt bs 0 10 = .ok (leNat (bs.take 10)) := if_pos hlen
    have htake : (bs.take 10).length = 10 := by simp; omega
    cases i with
    | idCntz leading space =>
      have hid : bs.take 10 = encode (.idCntz leading space) := by
        rw [List.prefix_iff_eq_take] at hpre
        cases leading <;> exact hpre.symm
      have htrim : trimBytes (bs.take 10) = cntzMagic := by
        rw [trimBytes_eq_cntzMagic_iff htake, hid]
        cases leading
        · exact ⟨space, hwf, .inr rfl⟩
        · exact ⟨space, hwf, .inl rfl⟩
      rw [decodeIdent, hread, Decode.ok_bind, if_pos htrim, hid]
      cases leading
      · rfl
      · exact if_pos hwf
    | idLerc2 sixth =>
      obtain ⟨rest, rfl⟩ := hpre
      have htrim : trimBytes ((encode (.idLerc2 sixth) ++ rest).take 10) ≠ cntzMagic := by
        rw [ne_eq, trimBytes_eq_cntzMagic_iff htake]
        rintro ⟨x, hx, he | he⟩ <;> cases he
      rw [decodeIdent, hread, Decode.ok_bind, if_neg htrim]
      rfl
    | _ => cases hpos

/-! ## Every position -/

/-- The decoder answers exactly the well-formed record of the position whose encoding the bytes begin with. -/
theorem decodeAt_eq_ok_iff {pos : StreamPos} : decodeAt pos bs = .ok i ↔ i.StandsAt pos bs := by
  cases pos with
  | command => exact decodeCommand_eq_ok
  | ident => exact decodeIdent_eq_ok
  | czHdr => exact decodeCzHdr_eq_ok
  | czMsec => exact decodeCzMsec_eq_ok
  | czPsec => exact decodeCzPsec_eq_ok
  | czBlock => exact decodeCzBlock_eq_ok
  | rle => exact decodeRle_eq_ok
  | l2Hdr => exact decodeL2Hdr_eq_ok
  | l2Mask => exact decodeL2Mask_eq_ok
  | l2Ranges => exact decodeL2Ranges_eq_ok
  | l2Flag => exact decodeL2Flag_eq_ok
  | l2Hf => exact decodeL2Hf_eq_ok
  | l2Tile => exact decodeL2Tile_eq_ok
  | bs2 => exact decodeBs2_eq_ok
  | hufTable => exact decodeHufTable_eq_ok

end Sys2Proof

namespace Sys2Proof.Machine

/-- A word written to `CMD` with bit 0 set is decoded to `CMD.GO` (R61). -/
theorem decodeAt_command_of_go {v : Word} (h : v.getLsbD 0 = true) :
    decodeAt .command (le32 v) = .ok (.cmdGo (v.extractLsb' 1 31)) := by
  have hbytes : encode (.cmdGo (v.extractLsb' 1 31)) = le32 v := congrArg le32 (append_one_eq_iff.2 ⟨rfl, h⟩)
  exact decodeAt_eq_ok_iff.2 ⟨rfl, rfl, hbytes ▸ List.prefix_rfl, nofun⟩

/-- A word with bit 0 clear is no record (R61). -/
theorem decodeAt_command_of_notGo {v : Word} (h : v.getLsbD 0 = false) :
    decodeAt .command (le32 v) = .error .notACommand := by
  have hread : word32At (le32 v) 0 = .ok v := word32At_eq_ok.2 List.prefix_rfl
  rw [decodeAt, decodeCommand, hread, Decode.ok_bind, h]
  rfl

/-- Settles O2: a well-formed record stands at the start of its own encoding. -/
theorem decodeEncode : Obligations.DecodeEncode := by
  intro i pos rest hwf hpos hten
  exact decodeAt_eq_ok_iff.2 ⟨hwf, hpos, List.prefix_append _ rest, hten⟩

/-- Settles O3: what the decoder answers stands at the start of the bytes. -/
theorem encodeDecode : Obligations.EncodeDecode := by
  intro pos bytes i h
  obtain ⟨hwf, hpos, hpre, -⟩ := decodeAt_eq_ok_iff.1 h
  exact ⟨hwf, hpos, hpre⟩

/-- Settles O1, by running the decoder on each string. -/
theorem encodingSamples : Obligations.EncodingSamples := ⟨rfl, rfl, rfl, rfl, rfl, rfl, rfl, rfl, rfl⟩

/-- Settles O5: the decoder tells the two words apart by bit 0, and `CMD.GO` does not read its operand. -/
theorem commandWord : Obligations.CommandWord := by
  intro s v rest hport
  refine ⟨fun hgo => ?_, fun hnot => ?_, fun x y => rfl⟩
  · rw [step_of_event hport, hostStep, decodeAt_command_of_go hgo]
    rfl
  · rw [step_of_event hport, hostStep, decodeAt_command_of_notGo hnot]
    rfl

end Sys2Proof.Machine

namespace Sys2Proof.Machine

/-! # The bit-stream unpacker

Both conventions read a stream as a row of fields. `streamField` is the field of `k` bits at bit `pos`; a field is the two
parts a word boundary cuts it into, each of which lies in one word. So one turn of either extraction loop takes the field at
the cursor and moves the cursor by `k` bits, and the loop has a closed form (`extractCodes_eq`, R104 to R106). What the
records do follows from it. -/

/-! ## The words of a stream -/

theorem leNat_drop (bytes : List Byte) (j : Nat) : leNat (bytes.drop j) = leNat bytes / 256 ^ j := by
  induction bytes generalizing j with
  | nil => simp [leNat]
  | cons x xs ih =>
    cases j with
    | zero => simp
    | succ j =>
      have hx := x.isLt
      have hhigh : (x.toNat + 256 * leNat xs) / 256 = leNat xs := by omega
      rw [List.drop_succ_cons, ih, leNat, pow_succ', ← Nat.div_div_eq_div_mul, hhigh]

theorem leNat_take (bytes : List Byte) (j : Nat) : leNat (bytes.take j) = leNat bytes % 256 ^ j := by
  induction bytes generalizing j with
  | nil => simp [leNat]
  | cons x xs ih =>
    cases j with
    | zero => simp [leNat, Nat.mod_one]
    | succ j =>
      have hx := x.isLt
      have hhigh : (x.toNat + 256 * leNat xs) / 256 = leNat xs := by omega
      have hlow : (x.toNat + 256 * leNat xs) % 256 = x.toNat := by omega
      rw [List.take_succ_cons, leNat, leNat, ih, pow_succ', Nat.mod_mul, hhigh, hlow]

theorem streamWord_eq (bytes : List Byte) (i : Nat) : streamWord bytes i = leNat bytes / 2 ^ (32 * i) % 2 ^ 32 := by
  have hpow : 256 ^ (4 * i) = 2 ^ (32 * i) := by rw [show 256 = 2 ^ 8 from rfl, ← pow_mul]; congr 1; omega
  rw [streamWord, leNat_take, leNat_drop, hpow, show 256 ^ 4 = 2 ^ 32 from rfl]

/-- Past the end of the stream both sides are 0 (R103). -/
theorem wordsL_getD (bytes : List Byte) (i : Nat) : (wordsL bytes).getD i 0 = leNat bytes / 2 ^ (32 * i) % 2 ^ 32 := by
  rw [← streamWord_eq, wordsL, List.getD_eq_getElem?_getD, List.getElem?_map]
  rcases Nat.lt_or_ge i (ceilDiv bytes.length 4) with hi | hi
  · rw [List.getElem?_range hi]; rfl
  · have hend : bytes.length ≤ 4 * i := by have := ceilDiv_mul_ge bytes.length (b := 4) (by decide); omega
    rw [List.getElem?_eq_none (by simpa using hi), streamWord, List.drop_eq_nil_of_le hend]
    rfl

theorem wordsL_getD_lt (bytes : List Byte) (i : Nat) : (wordsL bytes).getD i 0 < 2 ^ 32 := by
  rw [wordsL_getD]; exact Nat.mod_lt _ (Nat.two_pow_pos 32)

theorem wordsM_getD_lt (bytes : List Byte) (i : Nat) : (wordsM bytes).getD i 0 < 2 ^ 32 := by
  rw [wordsM, List.getD_eq_getElem?_getD, List.getElem?_map]
  cases (List.range (ceilDiv bytes.length 4))[i]? with
  | none => exact Nat.two_pow_pos 32
  | some j =>
    simp only [Option.map_some, Option.getD_some]
    split
    · exact Nat.mod_lt _ (by decide)
    · rw [streamWord_eq]; exact Nat.mod_lt _ (Nat.two_pow_pos 32)

/-! ## Fields -/

/-- The field of `k` bits at bit `pos` of a stream: the code there (R104, R105). -/
def streamField (conv : Conv) (bytes : List Byte) (pos k : Nat) : Nat :=
  match conv with
  | .legacy => leNat bytes / 2 ^ pos % 2 ^ k
  | .msbf => (List.range k).foldl (fun acc b => 2 * acc + msbfBit bytes (pos + b)) 0

theorem packedCode_eq_streamField (conv : Conv) (bytes : List Byte) (k o : Nat) :
    packedCode conv bytes k o = streamField conv bytes (o * k) k := by cases conv <;> rfl

/-- The later part of a LEGACY field is the high one. -/
theorem streamField_legacy_add (bytes : List Byte) (pos a m : Nat) :
    streamField .legacy bytes pos (a + m)
      = streamField .legacy bytes pos a + streamField .legacy bytes (pos + a) m * 2 ^ a := by
  simp only [streamField]
  rw [pow_add, Nat.mod_mul, Nat.div_div_eq_div_mul, ← pow_add, Nat.mul_comm (2 ^ a)]

/-- A LEGACY field inside one word. -/
theorem streamField_legacy_word {bytes : List Byte} {pos k : Nat} (h : pos % 32 + k ≤ 32) :
    streamField .legacy bytes pos k = ((wordsL bytes).getD (pos / 32) 0 >>> (pos % 32)) % 2 ^ k := by
  have hpos : 2 ^ (32 * (pos / 32)) * 2 ^ (pos % 32) = 2 ^ pos := by rw [← pow_add, Nat.div_add_mod]
  have hword : 2 ^ 32 = 2 ^ (pos % 32) * 2 ^ (32 - pos % 32) := by rw [← pow_add]; congr 1; omega
  rw [wordsL_getD, Nat.shiftRight_eq_div_pow, hword, Nat.mod_mul_right_div_self, Nat.div_div_eq_div_mul, hpos,
    Nat.mod_mod_of_dvd _ (Nat.pow_dvd_pow 2 (by omega))]
  rfl

/-- A LEGACY field that a word boundary cuts: the rest of the word is its low part. -/
theorem streamField_legacy_across {bytes : List Byte} {pos k : Nat} (hk : k ≤ 32) (h : 32 < pos % 32 + k) :
    streamField .legacy bytes pos k = (wordsL bytes).getD (pos / 32) 0 >>> (pos % 32)
      + ((wordsL bytes).getD (pos / 32 + 1) 0 % 2 ^ (k - (32 - pos % 32))) <<< (32 - pos % 32) := by
  have hlt : (wordsL bytes).getD (pos / 32) 0 >>> (pos % 32) < 2 ^ (32 - pos % 32) := by
    rw [Nat.shiftRight_eq_div_pow]
    refine Nat.div_lt_of_lt_mul ?_
    rw [← pow_add, show pos % 32 + (32 - pos % 32) = 32 by omega]
    exact wordsL_getD_lt bytes _
  have hlow : streamField .legacy bytes pos (32 - pos % 32) = (wordsL bytes).getD (pos / 32) 0 >>> (pos % 32) := by
    rw [streamField_legacy_word (by omega), Nat.mod_eq_of_lt hlt]
  have hhigh : streamField .legacy bytes (pos + (32 - pos % 32)) (k - (32 - pos % 32))
      = (wordsL bytes).getD (pos / 32 + 1) 0 % 2 ^ (k - (32 - pos % 32)) := by
    rw [streamField_legacy_word (by omega), show (pos + (32 - pos % 32)) / 32 = pos / 32 + 1 by omega,
      show (pos + (32 - pos % 32)) % 32 = 0 by omega, Nat.shiftRight_zero]
  have hcut := streamField_legacy_add bytes pos (32 - pos % 32) (k - (32 - pos % 32))
  rwa [show 32 - pos % 32 + (k - (32 - pos % 32)) = k by omega, hlow, hhigh, ← Nat.shiftLeft_eq] at hcut

theorem streamField_msbf_succ (bytes : List Byte) (pos k : Nat) :
    streamField .msbf bytes pos (k + 1) = 2 * streamField .msbf bytes pos k + msbfBit bytes (pos + k) := by
  simp only [streamField, List.range_succ, List.foldl_append, List.foldl_cons, List.foldl_nil]

/-- The later part of an MSBF field is the low one. -/
theorem streamField_msbf_add (bytes : List Byte) (pos a m : Nat) :
    streamField .msbf bytes pos (a + m)
      = streamField .msbf bytes pos a * 2 ^ m + streamField .msbf bytes (pos + a) m := by
  induction m with
  | zero => simp [streamField]
  | succ m ih =>
    rw [← Nat.add_assoc, streamField_msbf_succ, ih, streamField_msbf_succ, pow_succ, Nat.add_assoc pos]
    ring

/-- An MSBF field inside one word. -/
theorem streamField_msbf_word {bytes : List Byte} {pos k : Nat} (h : pos % 32 + k ≤ 32) :
    streamField .msbf bytes pos k = ((wordsM bytes).getD (pos / 32) 0 >>> (32 - pos % 32 - k)) % 2 ^ k := by
  induction k with
  | zero => simp [streamField, Nat.mod_one]
  | succ k ih =>
    have hdiv : (pos + k) / 32 = pos / 32 := by omega
    have hshift : 31 - (pos + k) % 32 = 32 - pos % 32 - (k + 1) := by omega
    have hshift' : 32 - pos % 32 - k = 32 - pos % 32 - (k + 1) + 1 := by omega
    rw [streamField_msbf_succ, ih (by omega), msbfBit, hdiv, hshift, hshift', Nat.shiftRight_succ, pow_succ', Nat.mod_mul,
      Nat.add_comm]

/-- An MSBF field that a word boundary cuts: the rest of the word is its high part. -/
theorem streamField_msbf_across {bytes : List Byte} {pos k : Nat} (hk : k ≤ 32) (h : 32 < pos % 32 + k) :
    streamField .msbf bytes pos k
      = ((wordsM bytes).getD (pos / 32) 0 % 2 ^ (32 - pos % 32)) <<< (k - (32 - pos % 32))
        + (wordsM bytes).getD (pos / 32 + 1) 0 >>> (32 - (k - (32 - pos % 32))) := by
  have hlt : (wordsM bytes).getD (pos / 32 + 1) 0 >>> (32 - (k - (32 - pos % 32))) < 2 ^ (k - (32 - pos % 32)) := by
    rw [Nat.shiftRight_eq_div_pow]
    refine Nat.div_lt_of_lt_mul ?_
    rw [← pow_add, Nat.sub_add_cancel (by omega)]
    exact wordsM_getD_lt bytes _
  have hhigh : streamField .msbf bytes pos (32 - pos % 32) = (wordsM bytes).getD (pos / 32) 0 % 2 ^ (32 - pos % 32) := by
    rw [streamField_msbf_word (by omega), Nat.sub_self, Nat.shiftRight_zero]
  have hlow : streamField .msbf bytes (pos + (32 - pos % 32)) (k - (32 - pos % 32))
      = (wordsM bytes).getD (pos / 32 + 1) 0 >>> (32 - (k - (32 - pos % 32))) := by
    rw [streamField_msbf_word (by omega), show (pos + (32 - pos % 32)) / 32 = pos / 32 + 1 by omega,
      show (pos + (32 - pos % 32)) % 32 = 0 by omega, Nat.sub_zero, Nat.mod_eq_of_lt hlt]
  have hcut := streamField_msbf_add bytes pos (32 - pos % 32) (k - (32 - pos % 32))
  rwa [show 32 - pos % 32 + (k - (32 - pos % 32)) = k by omega, hhigh, hlow, ← Nat.shiftLeft_eq] at hcut

theorem msbfBit_lt (bytes : List Byte) (pos : Nat) : msbfBit bytes pos < 2 := Nat.mod_lt _ (by decide)

theorem streamField_lt (conv : Conv) (bytes : List Byte) (pos k : Nat) : streamField conv bytes pos k < 2 ^ k := by
  cases conv with
  | legacy => exact Nat.mod_lt _ (Nat.two_pow_pos k)
  | msbf =>
    induction k with
    | zero => exact Nat.one_pos
    | succ k ih =>
      have := msbfBit_lt bytes (pos + k)
      rw [streamField_msbf_succ, pow_succ]
      omega

/-- The first bit of an MSBF field is its most significant one. -/
theorem testBit_streamField_msbf (bytes : List Byte) (pos : Nat) {k b : Nat} (h : b < k) :
    (streamField .msbf bytes pos k).testBit (k - 1 - b) = decide (msbfBit bytes (pos + b) = 1) := by
  induction k with
  | zero => omega
  | succ k ih =>
    have hlt := msbfBit_lt bytes (pos + k)
    rw [streamField_msbf_succ]
    rcases Nat.lt_or_ge b k with hb | hb
    · have hhigh : (2 * streamField .msbf bytes pos k + msbfBit bytes (pos + k)) / 2 = streamField .msbf bytes pos k := by
        omega
      rw [show k + 1 - 1 - b = k - 1 - b + 1 by omega, Nat.testBit_succ, hhigh, ih hb]
    · obtain rfl : b = k := by omega
      have hlow : (2 * streamField .msbf bytes pos b + msbfBit bytes (pos + b)) % 2 = msbfBit bytes (pos + b) := by omega
      rw [show b + 1 - 1 - b = 0 by omega, Nat.testBit_zero, hlow]

/-! ## The extraction loops -/

/-- A field that stays in its word moves the cursor by its width, to the next word when it ends this one. -/
theorem cursor_within {α : Type} (f : Nat → Nat → α) {pos k : Nat} (h : pos % 32 + k ≤ 32) :
    (if pos % 32 + k = 32 then f (pos / 32 + 1) 0 else f (pos / 32) (pos % 32 + k))
      = f ((pos + k) / 32) ((pos + k) % 32) := by
  split
  · congr 1 <;> omega
  · congr 1 <;> omega

/-- So does a field that a word boundary cuts. -/
theorem cursor_across {α : Type} (f : Nat → Nat → α) {pos k : Nat} (hk : k ≤ 32) (h : 32 < pos % 32 + k) :
    f (pos / 32 + 1) (k - (32 - pos % 32)) = f ((pos + k) / 32) ((pos + k) % 32) := by
  congr 1 <;> omega

theorem takeCodesL_succ (bytes : List Byte) {k : Nat} (hk : k ≤ 32) (n pos : Nat) :
    takeCodesL (wordsL bytes) k (n + 1) (pos / 32) (pos % 32) =
      let r := takeCodesL (wordsL bytes) k n ((pos + k) / 32) ((pos + k) % 32)
      (streamField .legacy bytes pos k :: r.1, r.2) := by
  rw [takeCodesL]
  rcases Nat.lt_or_ge 32 (pos % 32 + k) with h | h
  · rw [if_neg (by omega : ¬k ≤ 32 - pos % 32), streamField_legacy_across hk h,
      ← cursor_across (takeCodesL (wordsL bytes) k n) hk h]
  · rw [if_pos (by omega : k ≤ 32 - pos % 32), streamField_legacy_word h,
      ← cursor_within (takeCodesL (wordsL bytes) k n) h]

theorem takeCodesM_succ (bytes : List Byte) {k : Nat} (hk : k ≤ 32) (n pos : Nat) :
    takeCodesM (wordsM bytes) k (n + 1) (pos / 32) (pos % 32) =
      let r := takeCodesM (wordsM bytes) k n ((pos + k) / 32) ((pos + k) % 32)
      (streamField .msbf bytes pos k :: r.1, r.2) := by
  rw [takeCodesM]
  rcases Nat.lt_or_ge 32 (pos % 32 + k) with h | h
  · rw [if_neg (by omega : ¬k ≤ 32 - pos % 32), streamField_msbf_across hk h,
      ← cursor_across (takeCodesM (wordsM bytes) k n) hk h]
  · rw [if_pos (by omega : k ≤ 32 - pos % 32), streamField_msbf_word h,
      ← cursor_within (takeCodesM (wordsM bytes) k n) h]

/-- A loop whose every turn takes the field at the cursor and moves the cursor behind it. -/
theorem loop_eq_fields {loop : Nat → Nat → Nat → List Nat × Nat × Nat} {field : Nat → Nat} {k : Nat}
    (hzero : ∀ w b, loop 0 w b = ([], w, b))
    (hsucc : ∀ n pos, loop (n + 1) (pos / 32) (pos % 32) =
      let r := loop n ((pos + k) / 32) ((pos + k) % 32)
      (field pos :: r.1, r.2)) (n pos : Nat) :
    loop n (pos / 32) (pos % 32)
      = ((List.range n).map fun o => field (pos + o * k), (pos + n * k) / 32, (pos + n * k) % 32) := by
  induction n generalizing pos with
  | zero => simp [hzero]
  | succ n ih =>
    have hend : pos + k + n * k = pos + (n + 1) * k := by ring
    have hcodes (o : Nat) : pos + k + o * k = pos + (o + 1) * k := by ring
    simp only [hsucc, ih, hend, hcodes, List.range_succ_eq_map, List.map_cons, List.map_map, Function.comp_def,
      Nat.zero_mul, Nat.add_zero, Nat.succ_eq_add_one]

/-- An extraction of a legal width gives the codes of the closed forms and leaves the cursor behind the last of them (R104 to
R106). -/
theorem extractCodes_eq (conv : Conv) (bytes : List Byte) (n : Nat) {k : Nat} (hk : k ≤ 32) :
    extractCodes conv bytes n k = ((List.range n).map (packedCode conv bytes k), n * k / 32, n * k % 32) := by
  have hfields : (List.range n).map (packedCode conv bytes k)
      = (List.range n).map fun o => streamField conv bytes (0 + o * k) k :=
    List.map_congr_left fun o _ => by rw [packedCode_eq_streamField, Nat.zero_add]
  rw [hfields]
  by_cases h0 : k = 0
  · subst h0
    have hzero (pos : Nat) : streamField conv bytes pos 0 = 0 := Nat.lt_one_iff.1 (streamField_lt conv bytes pos 0)
    simp only [extractCodes_zero, hzero, List.map_const', List.length_range, Nat.mul_zero, Nat.zero_div, Nat.zero_mod]
  · unfold extractCodes
    rw [if_neg h0]
    cases conv with
    | legacy => simpa using loop_eq_fields (fun _ _ => rfl) (takeCodesL_succ bytes hk) n 0
    | msbf => simpa using loop_eq_fields (fun _ _ => rfl) (takeCodesM_succ bytes hk) n 0

/-! ## `CODES` and the cursor after an extraction -/

section

variable {α : Type} (m : Memory α) (vs : List α) {i : Nat}

/-- A list written from address 0: its elements at their indices. -/
theorem Memory.read_writeRange_zero (h : i < vs.length) : Memory.read (Memory.writeRange m 0 vs) i = vs[i]? := by
  simpa using Memory.read_writeRange_inside m 0 vs h

theorem Memory.read_writeRange_zero_past (h : vs.length ≤ i) :
    Memory.read (Memory.writeRange m 0 vs) i = Memory.read m i :=
  Memory.read_writeRange_outside m 0 vs (.inr (by simpa using h))

end

/-- The codes of a stream of `n`. -/
def packedCodes (conv : Conv) (bytes : List Byte) (n k : Nat) : List Nat := (List.range n).map (packedCode conv bytes k)

@[simp] theorem packedCodes_length (conv : Conv) (bytes : List Byte) (n k : Nat) :
    (packedCodes conv bytes n k).length = n := by simp [packedCodes]

theorem packedCodes_getElem? (conv : Conv) (bytes : List Byte) {n : Nat} (k : Nat) {o : Nat} (h : o < n) :
    (packedCodes conv bytes n k)[o]? = some (packedCode conv bytes k o) := by
  rw [packedCodes, List.getElem?_map, List.getElem?_range h, Option.map_some]

theorem packedCode_of_getElem? {conv : Conv} {bytes : List Byte} {n k o c : Nat}
    (h : (packedCodes conv bytes n k)[o]? = some c) : packedCode conv bytes k o = c := by
  have ho : o < n := by simpa only [packedCodes_length] using (List.getElem?_eq_some_iff.1 h).1
  rwa [packedCodes_getElem? conv bytes k ho, Option.some.injEq] at h

theorem mem_packedCodes {conv : Conv} {bytes : List Byte} {n k c : Nat} :
    c ∈ packedCodes conv bytes n k ↔ ∃ o < n, packedCode conv bytes k o = c := by
  simp [packedCodes]

theorem packedCode_width_zero (conv : Conv) (bytes : List Byte) (o : Nat) : packedCode conv bytes 0 o = 0 := by
  rw [packedCode_eq_streamField]
  exact Nat.lt_one_iff.1 (streamField_lt conv bytes (o * 0) 0)

/-- An extraction whose stream the buffer holds. -/
theorem unpk_of_holds {s : State} {a n k : Nat} {bytes : List Byte} (conv : Conv) (hk : k ≤ 32)
    (hl : bytes.length = packedBytes n k) (hh : k ≠ 0 → s.holds a bytes) :
    unpk s conv a n k = .ok (packedCodes conv bytes n k,
      s.withCodes a (packedCodes conv bytes n k, n * k / 32, n * k % 32)) :=
  unpk_eq_ok.2 ⟨hk, bytes, hl, hh, by rw [extractCodes_eq conv bytes n hk]; rfl,
    by rw [extractCodes_eq conv bytes n hk]; rfl⟩

/-- What the two extraction operations do (R100): `CODES` and the cursor are written, and nothing else. -/
theorem outcome_unpk_of_holds {s : State} {a n : Word} {k : BitVec 6} {bytes : List Byte} (conv : Conv)
    (hk : k.toNat ≤ 32) (hl : bytes.length = packedBytes n.toNat k.toNat) (hh : k.toNat ≠ 0 → s.holds a.toNat bytes) :
    ∃ t, Rule.outcome (do return (← unpk s conv a.toNat n.toNat k.toNat).2) = .next t
      ∧ t = { s with
          codes := t.codes,
          bs := { base := a, widx := BitVec.ofNat 32 (n.toNat * k.toNat / 32),
                  bit := BitVec.ofNat 6 (n.toNat * k.toNat % 32) } }
      ∧ (∀ o < n.toNat, Memory.read t.codes o = some (BitVec.ofNat 32 (packedCode conv bytes k.toNat o)))
      ∧ ∀ o, n.toNat ≤ o → Memory.read t.codes o = Memory.read s.codes o := by
  refine ⟨_, by rw [unpk_of_holds conv hk hl hh]; rfl, ?_, fun o ho => ?_, fun o ho => ?_⟩
  · simp only [State.withCodes, BitVec.ofNat_toNat, BitVec.setWidth_eq]
  · rw [State.withCodes_codes, Memory.read_writeRange_zero _ _ (by simpa using ho), List.getElem?_map,
      packedCodes_getElem? conv bytes k.toNat ho, Option.map_some]
  · rw [State.withCodes_codes, Memory.read_writeRange_zero_past _ _ (by simpa using ho)]

/-- A legal extraction that passes the end of the buffer, and an illegal width (R102, R103). -/
theorem unpk_faults {s : State} {a n k : Nat} (conv : Conv) :
    (32 < k → faultedWith (Rule.outcome (do return (← unpk s conv a n k).2)) .param s.cur.toNat)
    ∧ (1 ≤ k → k ≤ 32 → s.inLen.toNat < a + packedBytes n k →
      faultedWith (Rule.outcome (do return (← unpk s conv a n k).2)) .trunc a) :=
  ⟨fun h => faultedWith_of_halt (Rule.bind_error.2 (.inl (unpk_eq_halt.2 (.inl ⟨h, rfl⟩)))),
    fun h1 h32 hend => faultedWith_of_halt (Rule.bind_error.2 (.inl (unpk_eq_halt.2 (.inr ⟨h1, h32, hend, rfl⟩))))⟩

/-- Settles O19: the closed form of R105 is `packedCode .legacy`. -/
theorem unpkLegacyCodes : Obligations.UnpkLegacyCodes := by
  intro s a n k bytes _ hk hl hh
  exact outcome_unpk_of_holds .legacy hk hl fun _ => hh

/-- Settles O20: the bits of the closed form of R104, the first most significant. -/
theorem unpkMsbfCodes : Obligations.UnpkMsbfCodes := by
  intro s a n k bytes _ hk hl hh
  obtain ⟨t, hrun, ht, hcodes, hrest⟩ := outcome_unpk_of_holds .msbf hk hl fun _ => hh
  refine ⟨t, hrun, ht, fun o ho => ⟨_, hcodes o ho, ?_, fun b hb => ?_⟩, hrest⟩
  · rw [packedCode_eq_streamField]
    exact (BitVec.toNat_ofNat _ _).trans_lt ((Nat.mod_le _ _).trans_lt (streamField_lt _ _ _ _))
  · rw [packedCode_eq_streamField, BitVec.getLsbD_ofNat, testBit_streamField_msbf bytes _ hb,
      decide_eq_true (by omega : k.toNat - 1 - b < 32), Bool.true_and]

/-- Settles O21: the width 0 is an extraction from no bytes, the two faults are those of `unpk`. -/
theorem unpkEdges : Obligations.UnpkEdges := by
  intro s a n k i hi
  obtain ⟨conv, hexec⟩ : ∃ conv, exec i s = Rule.outcome (do return (← unpk s conv a.toNat n.toNat k.toNat).2) := by
    rcases hi with rfl | rfl
    · exact ⟨.legacy, rfl⟩
    · exact ⟨.msbf, rfl⟩
  rw [hexec]
  refine ⟨?_, unpk_faults conv⟩
  rintro rfl
  have h := outcome_unpk_of_holds (s := s) (a := a) (n := n) (k := 0) (bytes := []) conv (Nat.zero_le 32)
    (packedBytes_zero n.toNat).symm (fun h => absurd rfl h)
  have hzero : (0 : BitVec 6).toNat = 0 := rfl
  simp only [hzero, packedCode_width_zero, Nat.mul_zero, Nat.zero_div, Nat.zero_mod] at h
  exact h

/-! ## Remapping -/

/-- Settles O22: the two NaNs are the free values of the remap (R109). -/
theorem remapAffResult : Obligations.RemapAffResult := by
  intro s c off step vmax clamp
  refine ⟨_, _, _, s.freeNaN_isNaN .mul 0, s.freeNaN_isNaN .add 0, rfl, ?_⟩
  cases clamp <;> simp [exec, execRemapAff, remapAff]

/-- Settles O23, by the size of the table. -/
theorem remapLutResult : Obligations.RemapLutResult := by
  intro s c
  refine ⟨fun v hc hv => ?_, fun hc => ?_⟩
  · exact Rule.outcome_eq_next.2 (.inl (Rule.bind_ok.2 ⟨v, remapLut_eq_ok.2 ⟨hc, hv⟩, rfl⟩))
  · exact faultedWith_of_halt (Rule.bind_error.2 (.inl (remapLut_eq_halt.2 ⟨hc, rfl⟩)))

/-! ## The `BS2` record -/

theorem CountField.value_lt (count : CountField) : CountField.value count < 2 ^ 32 := by
  cases count with
  | uint32 n => exact n.isLt
  | uint16 n => exact n.isLt.trans (by decide)
  | uint8 n => exact n.isLt.trans (by decide)
  | invalid => decide

/-- `T.NVAL` holds the count whole. -/
theorem CountField.toNat_ofNat_value (count : CountField) :
    (BitVec.ofNat 32 (CountField.value count)).toNat = CountField.value count := by
  rw [BitVec.toNat_ofNat, Nat.mod_eq_of_lt (CountField.value_lt count)]

/-- `T.BITS` holds the width whole, and it is legal. -/
theorem toNat_setWidth_numBits (numBits : BitVec 5) : (numBits.setWidth 6).toNat = numBits.toNat := by
  have := numBits.isLt
  rw [BitVec.toNat_setWidth, Nat.mod_eq_of_lt (by omega)]

/-- The state behind the header and the count of a record (R113). -/
def State.bs2Headed (s : State) (lutf : Bool) (numBits : BitVec 5) (count : CountField) : State :=
  { s with
    cur := s.cur + BitVec.ofNat 32 (1 + count.len),
    t := { s.t with bits := numBits.setWidth 6, lutf := lutf, nVal := BitVec.ofNat 32 (CountField.value count) } }

theorem bs2Head_of_fits {s : State} {count : CountField} (lutf : Bool) (numBits : BitVec 5) (hc : count ≠ .invalid)
    (hn : s.countFits (CountField.value count)) :
    bs2Head s lutf numBits count = .ok (s.bs2Headed lutf numBits count) :=
  bs2Head_eq_ok.2 ⟨hc, hn, rfl⟩

/-- An affine record in a tile or bare (R114, R115): the codes behind the head, remapped or kept. -/
theorem bs2Aff_of_holds {s : State} {numBits : BitVec 5} {count : CountField} {bytes : List Byte}
    (hc : count ≠ .invalid) (hn : s.countFits (CountField.value count))
    (hz : s.bare = false → s.zmaxReady s.t.dim.toNat)
    (hl : bytes.length = packedBytes (CountField.value count) numBits.toNat)
    (hh : s.holds (s.cur + BitVec.ofNat 32 (1 + count.len)).toNat bytes) :
    ∃ t, bs2Aff s numBits count = .ok t
      ∧ t = { s.bs2Headed false numBits count with
          cur := s.cur + BitVec.ofNat 32 (1 + count.len) + BitVec.ofNat 32 bytes.length,
          codes := t.codes, bs := t.bs, val := t.val }
      ∧ t.val =
          let codes := packedCodes s.h.conv bytes (CountField.value count) numBits.toNat
          let args := s.remapOperands
          if s.bare then codes.map realOfNat else s.remapCodes args.off args.step args.vmax args.clamp codes := by
  have hnVal : (s.bs2Headed false numBits count).t.nVal.toNat = CountField.value count := CountField.toNat_ofNat_value count
  rw [← hnVal] at hl ⊢
  have hargs : bs2Args (s.bs2Headed false numBits count) = .ok s.remapOperands := bs2Args_eq_ok.2 ⟨hz, rfl⟩
  have hunpk := unpk_of_holds (s := s.bs2Headed false numBits count) s.h.conv numBits.isLt.le hl fun _ => hh
  refine ⟨_, Rule.bind_ok.2 ⟨_, bs2Head_of_fits false numBits hc hn, Rule.bind_ok.2 ⟨_, hargs,
    Rule.bind_ok.2 ⟨_, hunpk, rfl⟩⟩⟩, ?_, rfl⟩
  rw [hl]
  rfl

/-- Settles O24, by the two contexts of the record. -/
theorem bs2AffResult : Obligations.Bs2AffResult := by
  intro s numBits count bytes n a args hc hn hz hl hh
  obtain ⟨t, hrun, ht, hval⟩ := bs2Aff_of_holds hc hn hz hl hh
  refine ⟨t, Rule.outcome_eq_next.2 (.inl hrun), ht, ?_, fun z v hv => ?_⟩
  · rw [hval]
    dsimp only
    split
    · rw [List.length_map, packedCodes_length]
    · rw [State.remapCodes_length, packedCodes_length]
  · rw [hval] at hv
    dsimp only at hv
    split at hv
    · next hbare =>
      rw [if_pos hbare]
      obtain ⟨c, hcode, rfl⟩ := Option.map_eq_some_iff.1 (List.getElem?_map ▸ hv)
      rw [packedCode_of_getElem? hcode]
    · next htile =>
      rw [if_neg htile]
      have hz : z < n := by
        simpa only [State.remapCodes_length, packedCodes_length] using (List.getElem?_eq_some_iff.1 hv).1
      exact State.remapCodes_remapsTo (packedCodes_getElem? _ _ _ hz) hv

/-! ## The lookup table (R117, R118) -/

/-- The table of a record: the origin, then the stored entries remapped (R118). -/
def State.loadedTable (s : State) (args : RemapArgs) (entries : List Byte) (nLut width : Nat) : List F64 :=
  args.off :: s.remapEntries args.off args.step args.vmax args.clamp (packedCodes s.h.conv entries (nLut - 1) width)

theorem State.loadedTable_length (s : State) (args : RemapArgs) (entries : List Byte) {nLut : Nat} (width : Nat)
    (h : nLut ≠ 0) : (s.loadedTable args entries nLut width).length = nLut := by
  rw [State.loadedTable, List.length_cons, State.remapEntries_length, packedCodes_length]
  omega

/-- Entry `i` of the table, from 1 on, is stored code `i - 1` remapped. -/
theorem State.loadedTable_remapsTo {s : State} {args : RemapArgs} {entries : List Byte} {nLut width i : Nat} {v : F64}
    (h0 : 1 ≤ i) (hi : i < nLut) (hv : (s.loadedTable args entries nLut width)[i]? = some v) :
    remapsTo (packedCode s.h.conv entries width (i - 1)) args.off args.step args.vmax args.clamp v := by
  obtain ⟨j, rfl⟩ : ∃ j, i = j + 1 := ⟨i - 1, by omega⟩
  rw [State.loadedTable, List.getElem?_cons_succ] at hv
  exact State.remapEntries_remapsTo (packedCodes_getElem? _ _ _ (by omega)) hv

theorem lutLoad_of_holds {s : State} (args : RemapArgs) {entries : List Byte} (hw : s.t.bits.toNat ≤ 32)
    (hl : entries.length = packedBytes (s.t.nLut.toNat - 1) s.t.bits.toNat) (hh : s.holds s.cur.toNat entries) :
    ∃ t, lutLoad s args = .ok t ∧ t = { s with
      cur := s.cur + BitVec.ofNat 32 entries.length, codes := t.codes, bs := t.bs,
      lut := Memory.writeRange s.lut 0 (s.loadedTable args entries s.t.nLut.toNat s.t.bits.toNat) } := by
  refine ⟨_, Rule.bind_ok.2 ⟨_, unpk_of_holds s.h.conv hw hl fun _ => hh, rfl⟩, ?_⟩
  rw [hl]
  rfl

/-! ## The lookups (R110, R117) -/

section

variable {s : State}

/-- A table is loaded whole: every index below its size names an entry. -/
def State.TableLoaded (s : State) : Prop := ∀ c < s.t.nLut.toNat, (Memory.read s.lut c).isSome = true

theorem remapLut_of_lt {c : Nat} (ht : s.TableLoaded) (hc : c < s.t.nLut.toNat) :
    ∃ v, remapLut s c = .ok v ∧ Memory.read s.lut c = some v := by
  obtain ⟨v, hv⟩ := Option.isSome_iff_exists.1 (ht c hc)
  exact ⟨v, remapLut_eq_ok.2 ⟨hc, hv⟩, hv⟩

/-- Indices that all name entries give these entries. -/
theorem remapLutAll_of_lt {cs : List Nat} (ht : s.TableLoaded) (h : ∀ c ∈ cs, c < s.t.nLut.toNat) :
    ∃ vs, remapLutAll s cs = .ok vs ∧ vs.length = cs.length
      ∧ ∀ (z c : Nat), cs[z]? = some c → vs[z]? = Memory.read s.lut c := by
  have hrun : ∃ vs, remapLutAll s cs = .ok vs := by
    induction cs with
    | nil => exact ⟨[], rfl⟩
    | cons c cs ih =>
      obtain ⟨v, hv, -⟩ := remapLut_of_lt ht (h c List.mem_cons_self)
      obtain ⟨vs, hvs⟩ := ih fun d hd => h d (List.mem_cons_of_mem c hd)
      exact ⟨v :: vs, Rule.bind_ok.2 ⟨v, hv, Rule.bind_ok.2 ⟨vs, hvs, rfl⟩⟩⟩
  obtain ⟨vs, hvs⟩ := hrun
  obtain ⟨hlen, hval⟩ := remapLutAll_eq_ok.1 hvs
  refine ⟨vs, hvs, hlen, fun z c hc => ?_⟩
  obtain ⟨-, v, hv, hz⟩ := hval z c hc
  rw [hz, hv]

/-- The first index that names no entry ends the rule. -/
theorem remapLutAll_of_ge {cs : List Nat} (ht : s.TableLoaded) (h : ∃ c ∈ cs, s.t.nLut.toNat ≤ c) :
    remapLutAll s cs = .error (.halt (s.takeFault .lutIndex s.cur.toNat)) := by
  induction cs with
  | nil => obtain ⟨c, hc, -⟩ := h; cases hc
  | cons d cs ih =>
    rw [remapLutAll, Rule.bind_error]
    rcases Nat.lt_or_ge d s.t.nLut.toNat with hd | hd
    · obtain ⟨v, hv, -⟩ := remapLut_of_lt ht hd
      obtain ⟨c, hc, hge⟩ := h
      have hcs : c ∈ cs := (List.mem_cons.1 hc).resolve_left (by omega)
      exact .inr ⟨v, hv, Rule.bind_error.2 (.inl (ih ⟨c, hcs, hge⟩))⟩
    · exact .inl (remapLut_eq_halt.2 ⟨hd, rfl⟩)

end

/-! ## A record with a table (R117) -/

section

variable {s : State}

theorem Rule.bind_of_ok {α β : Type} {x : Rule α} {a : α} (f : α → Rule β) (h : x = .ok a) : (x >>= f) = f a := by
  rw [h, Rule.ok_bind]

/-- Bytes further on in the buffer, at an address that is a register. -/
theorem State.holds_behind {a : Word} {xs ys zs : List Byte} (h : s.holds a.toNat (xs ++ ys ++ zs)) :
    s.holds (a + BitVec.ofNat 32 xs.length).toNat ys := by
  have hend := h.1
  have hlen := s.inLen.isLt
  simp only [List.length_append] at hend
  rw [BitVec.toNat_add, BitVec.toNat_ofNat, Nat.add_mod_mod, Nat.mod_eq_of_lt (by omega)]
  exact State.holds_part h

theorem readLe_one_of_holds {a : Nat} {x : Byte} (h : s.holds a [x]) : readLe s a 1 = .ok x.toNat :=
  readLe_eq_ok.2 ⟨[x], rfl, h, by simp only [leNat, Nat.mul_zero, Nat.add_zero]⟩

/-- The size byte, the entries and the indices of a record, each at its address. -/
theorem State.holds_lutRecord {a : Word} {nLut : Byte} {entries indices : List Byte}
    (h : s.holds a.toNat (nLut :: entries ++ indices)) :
    s.holds a.toNat [nLut] ∧ s.holds (a + 1).toNat entries
      ∧ s.holds (a + 1 + BitVec.ofNat 32 entries.length).toNat indices := by
  refine ⟨State.holds_part (xs := []) (zs := entries ++ indices) h, State.holds_behind (xs := [nLut]) h, ?_⟩
  have hend : s.holds a.toNat (nLut :: entries ++ indices ++ []) := by rwa [List.append_nil]
  have := State.holds_behind hend
  rwa [List.length_cons, Nat.add_comm, BitVec.ofNat_add, ← BitVec.add_assoc] at this

/-- The address behind a record whose table begins at `a`. -/
theorem lutRecord_end (a : Word) (entries indices : Nat) :
    a + 1 + BitVec.ofNat 32 entries + BitVec.ofNat 32 indices = a + BitVec.ofNat 32 (1 + entries + indices) := by
  rw [BitVec.ofNat_add, BitVec.ofNat_add, ← BitVec.add_assoc, ← BitVec.add_assoc]
  rfl

/-- The width of the indices fits the unpacker: a table has at most 255 entries. -/
theorem bitLength_size_le (nLut : Byte) : bitLength (nLut.toNat - 1) ≤ 32 := by
  by_contra h
  have hlt := nLut.isLt
  have hshift : (nLut.toNat - 1) >>> 8 = 0 := by rw [Nat.shiftRight_eq_div_pow]; exact Nat.div_eq_of_lt (by omega)
  exact (bitLength_spec _).2 8 (by omega) hshift

/-- The state behind the size byte of a table (R117). -/
def State.lutSized (s : State) (nLut : Byte) : State := { s with t := { s.t with nLut := nLut } }.advance 1

/-- A record with a table, up to its indices (R117): the head, the size, the table, the unpacking; only the lookups are
left. -/
theorem bs2Lut_of_holds {numBits : BitVec 5} {count : CountField} {nLut : Byte} {entries indices : List Byte}
    {kIdx : Nat} (hc : count ≠ .invalid) (hn : s.countFits (CountField.value count))
    (hz : s.bare = false → s.zmaxReady s.t.dim.toNat) (h0 : nLut ≠ 0) (hk : bitLength (nLut.toNat - 1) = kIdx)
    (hle : entries.length = packedBytes (nLut.toNat - 1) numBits.toNat)
    (hli : indices.length = packedBytes (CountField.value count) kIdx)
    (hh : s.holds (s.cur + BitVec.ofNat 32 (1 + count.len)).toNat (nLut :: entries ++ indices)) :
    ∃ u, bs2Lut s numBits count = (remapLutAll u (packedCodes s.h.conv indices (CountField.value count) kIdx) >>=
        fun vs => .ok { u with val := vs })
      ∧ u = { s with
          cur := s.cur + BitVec.ofNat 32 (1 + count.len) + BitVec.ofNat 32 (1 + entries.length + indices.length),
          t := { s.t with
            bits := numBits.setWidth 6, lutf := true, nVal := BitVec.ofNat 32 (CountField.value count), nLut := nLut },
          codes := u.codes, bs := u.bs,
          lut := Memory.writeRange s.lut 0 (s.loadedTable s.remapOperands entries nLut.toNat numBits.toNat) } := by
  obtain ⟨hsizeAt, hentriesAt, hindicesAt⟩ := State.holds_lutRecord hh
  have hwidth := toNat_setWidth_numBits numBits
  rw [← hwidth] at hle ⊢
  subst hk
  have hargs : bs2Args ((s.bs2Headed true numBits count).lutSized nLut) = .ok s.remapOperands :=
    bs2Args_eq_ok.2 ⟨hz, rfl⟩
  obtain ⟨w, hload, hw⟩ := lutLoad_of_holds (s := (s.bs2Headed true numBits count).lutSized nLut) s.remapOperands
    (hwidth.trans_le numBits.isLt.le) hle hentriesAt
  have hnVal : w.t.nVal.toNat = CountField.value count := by rw [hw]; exact CountField.toNat_ofNat_value count
  have hconv : w.h.conv = s.h.conv := by rw [hw]; rfl
  obtain ⟨r, hunpk⟩ : ∃ r, unpk w w.h.conv w.cur.toNat w.t.nVal.toNat (bitLength (nLut.toNat - 1)) =
      .ok (packedCodes s.h.conv indices (CountField.value count) (bitLength (nLut.toNat - 1)),
        w.withCodes w.cur.toNat r) := by
    rw [hnVal, hconv]
    exact ⟨_, unpk_of_holds s.h.conv (bitLength_size_le nLut) hli fun _ => by rw [hw]; exact hindicesAt⟩
  have hread : readLe (s.bs2Headed true numBits count) (s.bs2Headed true numBits count).cur.toNat 1 = .ok nLut.toNat :=
    readLe_one_of_holds hsizeAt
  have hsize : BitVec.ofNat 8 nLut.toNat = nLut := by rw [BitVec.ofNat_toNat, BitVec.setWidth_eq]
  have htest : raiseIf ((s.bs2Headed true numBits count).lutSized nLut) (decide (nLut.toNat = 0)) .param
      ((s.bs2Headed true numBits count).lutSized nLut).cur.toNat = .ok () :=
    raiseIf_eq_ok.2 (decide_eq_false (BitVec.toNat_ne.1 h0))
  rw [bs2Lut, Rule.bind_of_ok _ (bs2Head_of_fits true numBits hc hn), Rule.bind_of_ok _ hread, hsize]
  refine ⟨_, (Rule.bind_of_ok _ htest).trans <| (Rule.bind_of_ok _ hargs).trans <|
    (Rule.bind_of_ok _ hload).trans (Rule.bind_of_ok _ hunpk), ?_⟩
  rw [hnVal, ← hli, ← lutRecord_end]
  exact congrArg (fun x : State => { x with
    cur := x.cur + BitVec.ofNat 32 indices.length,
    codes := (w.withCodes w.cur.toNat r).codes, bs := (w.withCodes w.cur.toNat r).bs }) hw

end

/-- Settles O25, by whether every index names an entry. -/
theorem bs2LutResult : Obligations.Bs2LutResult := by
  intro s numBits count nLut entries indices kIdx n a args hc hn hz h0 hk hk' hle hli hh
  obtain ⟨u, hrun, hu⟩ := bs2Lut_of_holds hc hn hz h0 (bitLength_unique hk hk') hle hli hh
  have hlen : (s.loadedTable args entries nLut.toNat numBits.toNat).length = nLut.toNat :=
    State.loadedTable_length _ _ _ _ (BitVec.toNat_ne.1 h0)
  have hlut : u.lut = Memory.writeRange s.lut 0 (s.loadedTable args entries nLut.toNat numBits.toNat) := by rw [hu]
  have hentry {i : Nat} (hi : i < nLut.toNat) :
      Memory.read u.lut i = (s.loadedTable args entries nLut.toNat numBits.toNat)[i]? := by
    rw [hlut, Memory.read_writeRange_zero _ _ (hi.trans_eq hlen.symm)]
  have hsize : u.t.nLut = nLut := by rw [hu]
  have hloaded : u.TableLoaded := fun c hlt => by
    rw [hsize] at hlt
    rw [hentry hlt, List.getElem?_eq_getElem (hlt.trans_eq hlen.symm), Option.isSome_some]
  split
  · next hall =>
    have hnamed : ∀ c ∈ packedCodes s.h.conv indices n kIdx, c < u.t.nLut.toNat := by
      intro c hmem
      obtain ⟨z, hz', rfl⟩ := mem_packedCodes.1 hmem
      exact hsize ▸ hall z hz'
    obtain ⟨vs, hvs, hvlen, hvals⟩ := remapLutAll_of_lt hloaded hnamed
    refine ⟨{ u with val := vs }, Rule.outcome_eq_next.2 (.inl (hrun.trans (Rule.bind_of_ok _ hvs))),
      ?_, ?_, ?_, ?_, ?_, ?_⟩
    · rw [hu]
    · exact hentry (Nat.pos_of_ne_zero (BitVec.toNat_ne.1 h0))
    · intro i h1 hi
      obtain ⟨v, hv⟩ := Option.isSome_iff_exists.1 (hloaded i (hsize.symm ▸ hi))
      exact ⟨v, hv, State.loadedTable_remapsTo h1 hi (hentry hi ▸ hv)⟩
    · intro i hi
      exact hlut ▸ Memory.read_writeRange_zero_past _ _ (hlen.trans_le hi)
    · exact hvlen.trans (packedCodes_length _ _ _ _)
    · intro z hz'
      exact hvals z _ (packedCodes_getElem? _ _ _ hz')
  · next hex =>
    push Not at hex
    obtain ⟨z, hz', hge⟩ := hex
    have hbad := remapLutAll_of_ge hloaded ⟨_, mem_packedCodes.2 ⟨z, hz', rfl⟩, hsize.symm ▸ hge⟩
    have hfault : bs2Lut s numBits count = .error (.halt (u.takeFault .lutIndex u.cur.toNat)) := by
      rw [hrun, hbad, Rule.error_bind]
    have hcur : u.cur = a + BitVec.ofNat 32 (1 + entries.length + indices.length) := by rw [hu]
    exact hcur ▸ faultedWith_of_halt hfault

/-- A record that completes ends with its lookups. -/
theorem bs2Lut_eq_ok {s t : State} {numBits : BitVec 5} {count : CountField} (h : bs2Lut s numBits count = .ok t) :
    ∃ u cs vs, remapLutAll u cs = .ok vs ∧ t = { u with val := vs } := by
  obtain ⟨_, -, h⟩ := Rule.bind_ok.1 h
  obtain ⟨_, -, h⟩ := Rule.bind_ok.1 h
  obtain ⟨_, -, h⟩ := Rule.bind_ok.1 h
  obtain ⟨_, -, h⟩ := Rule.bind_ok.1 h
  obtain ⟨_, -, h⟩ := Rule.bind_ok.1 h
  obtain ⟨⟨cs, _⟩, -, h⟩ := Rule.bind_ok.1 h
  obtain ⟨vs, hlook, h⟩ := Rule.bind_ok.1 h
  cases h
  exact ⟨_, cs, vs, hlook, rfl⟩

/-- Settles O26: a record without a fault completed, and its values are those of its lookups (R119). -/
theorem lutMembership : Obligations.LutMembership := by
  intro s t numBits count _ hexec herr v hv
  rcases Rule.outcome_eq_next.1 hexec with hok | hhalt
  · obtain ⟨u, cs, vs, hlook, rfl⟩ := bs2Lut_eq_ok hok
    obtain ⟨hlen, hvals⟩ := remapLutAll_eq_ok.1 hlook
    obtain ⟨z, hz, hvz⟩ := List.getElem_of_mem hv
    obtain ⟨hlt, w, hw, hwz⟩ := hvals z _ (List.getElem?_eq_getElem (hz.trans_eq hlen))
    have hvw : w = v := by rw [List.getElem?_eq_getElem hz, hvz, Option.some.injEq] at hwz; exact hwz.symm
    exact ⟨_, hlt, hvw ▸ hw⟩
  · obtain ⟨-, hfault, -⟩ := (bs2Lut_runsFrom (State.runsTo_rfl s)).2 t hhalt
    cases herr.symm.trans hfault

end Sys2Proof.Machine

namespace Sys2Proof.Machine

/-! # The run-length mask decoder

A run record is its header, two tests that raise the same fault, and for `RLE.LIT` and `RLE.REP` a read and a write of the
bitset (R133 to R135). `raiseIf_or` puts the two tests together; with it each record has one equation, a fault or the rest. -/

section

variable {s : State} {run : BitVec 16}

/-! ## The tests -/

/-- Two tests in a row with one fault are one test. -/
theorem raiseIf_or {α : Type} (s : State) (p q : Prop) [Decidable p] [Decidable q] (code : ErrCode) (info : Nat)
    (rest : Rule α) :
    (do raiseIf s (decide p) code info; raiseIf s (decide q) code info; rest)
      = if p ∨ q then raise s code info else rest := by
  by_cases hp : p
  · simp [hp, raise_eq]
  · by_cases hq : q <;> simp [hp, hq, raise_eq]

/-- Where the two tests fault, and where the run's bytes stand: behind the header's two bytes (R132). -/
theorem State.rlHead_rlAddr (s : State) (run : BitVec 16) :
    (s.rlHead run).rlAddr = s.rlBase.toNat + (s.rlIp + 2).toNat := rfl

theorem State.rlHead_holds {a : Nat} {bytes : List Byte} (h : s.holds a bytes) : (s.rlHead run).holds a bytes := h

theorem rleLit_eq (s : State) (run : BitVec 16) :
    rleLit s run =
      if s.rlBytes.toNat < (s.rlIp + 2).toNat + run.toNat ∨ s.maskBytes < s.rlOp.toNat + run.toNat then
        raise (s.rlHead run) .rle (s.rlBase.toNat + (s.rlIp + 2).toNat)
      else do
        let bytes ← memRead (s.rlHead run) (s.rlHead run).rlAddr run.toNat
        return (s.rlHead run).rlPut run.toNat bytes :=
  raiseIf_or ..

theorem rleRep_eq (s : State) (run : BitVec 16) :
    rleRep s run =
      if s.rlBytes.toNat < (s.rlIp + 2).toNat + 1 ∨ s.maskBytes < s.rlOp.toNat + repeatCount run then
        raise (s.rlHead run) .rle (s.rlBase.toNat + (s.rlIp + 2).toNat)
      else do
        let bytes ← memRead (s.rlHead run) (s.rlHead run).rlAddr 1
        return (s.rlHead run).rlPut 1 (List.replicate (repeatCount run) (bytes.headD 0#8)) :=
  raiseIf_or ..

theorem rleEnd_eq (s : State) :
    rleEnd s =
      if s.rlOp.toNat ≠ s.maskBytes ∨ s.rlIp + 2 ≠ s.rlBytes then
        raise (s.rlHead 0x8000) .rle (s.rlBase.toNat + (s.rlIp + 2).toNat)
      else .ok (s.rlHead 0x8000) :=
  raiseIf_or ..

/-! ## The bytes of a run -/

/-- What a run that passes its tests leaves: the bytes in the bitset, the two counts, the header, and nothing else. -/
theorem rlPut_result (s : State) (run : BitVec 16) (consumed : Nat) (bytes : List Byte) :
    let t := (s.rlHead run).rlPut consumed bytes
    t = { s with rlRun := run, rlIp := s.rlIp + 2 + BitVec.ofNat 32 consumed,
                 rlOp := s.rlOp + BitVec.ofNat 32 bytes.length, bitset := t.bitset }
    ∧ (∀ j < bytes.length, Memory.read t.bitset (s.rlOp.toNat + j) = bytes[j]?)
    ∧ ∀ j, j < s.rlOp.toNat ∨ s.rlOp.toNat + bytes.length ≤ j → Memory.read t.bitset j = Memory.read s.bitset j :=
  ⟨rfl, fun _ hj => Memory.read_writeRange_inside s.bitset _ bytes hj,
    fun _ hj => Memory.read_writeRange_outside s.bitset _ bytes hj⟩

/-- The count of a repeat run, from the header it is written as (R134). -/
theorem repeatCount_ofInt_neg {n : Nat} (hn : n ≤ 32767) : repeatCount (BitVec.ofInt 16 (-n)) = n := by
  rw [repeatCount, BitVec.ofInt_neg, BitVec.neg_neg, BitVec.ofInt_natCast, BitVec.toNat_ofNat]
  omega

/-! ## The expanded mask -/

/-- Over a bitset that is written, `MASKX` gets one byte for each pixel, the bit of the pixel (R139). -/
theorem maskExpand_of_written (h : ∀ k < s.np, (Memory.read s.bitset (k / 8)).isSome = true) :
    ∃ xs : List Byte, maskExpand s = .ok { s with maskx := Memory.writeRange s.maskx 0 xs } ∧ xs.length = s.np
      ∧ ∀ k x, k < s.np → Memory.read s.bitset (k / 8) = some x → xs[k]? = some (maskBit x k) := by
  obtain ⟨xs, hxs⟩ := readsEach_of_isSome (f := fun k => (Memory.read s.bitset (k / 8)).map fun x => maskBit x k)
    (xs := List.range s.np) fun k hk => by simpa using h k (List.mem_range.1 hk)
  refine ⟨xs, by rw [maskExpand, expandBits_eq_ok.2 hxs]; rfl, by simpa using hxs.length, fun k x hk hx => ?_⟩
  rw [hxs.get (List.getElem?_range hk), hx, Option.map_some]

end

/-! ## The obligations -/

/-- Settles O15: the two tests, then the bytes that stand behind the header (R133). -/
theorem rleLitResult : Obligations.RleLitResult := by
  intro s run bytes ip a
  have hexec : exec (.rleLit run) s = (rleLit s run).outcome := rfl
  rw [hexec, rleLit_eq]
  split
  · exact faultedWith_raise ..
  · intro hlen hholds
    rw [← hlen, State.rlHead_rlAddr, memRead_of_holds (State.rlHead_holds hholds)]
    exact ⟨_, rfl, rlPut_result s run bytes.length bytes⟩

/-- Settles O16: the two tests, then the byte behind the header as often as the header says (R134). -/
theorem rleRepResult : Obligations.RleRepResult := by
  intro s run v n ip a _ hn hrun
  have hexec : exec (.rleRep run) s = (rleRep s run).outcome := rfl
  have hcount : repeatCount run = n := hrun ▸ repeatCount_ofInt_neg hn
  rw [hexec, rleRep_eq, hcount]
  split
  · exact faultedWith_raise ..
  · intro hholds
    obtain ⟨hframe, hinside, houtside⟩ := rlPut_result s run 1 (List.replicate n v)
    have hread : memRead (s.rlHead run) (s.rlHead run).rlAddr 1 = .ok [v] :=
      memRead_of_holds (State.rlHead_holds hholds)
    rw [List.length_replicate] at hframe hinside houtside
    rw [hread]
    exact ⟨_, rfl, hframe, fun j hj => (hinside j hj).trans (List.getElem?_replicate_of_lt hj), houtside⟩

/-- Settles O17: the tests of the sentinel (R135), and the fault of a zero run (R136). -/
theorem rleEndResult : Obligations.RleEndResult := by
  intro s
  have hexec : exec .rleEnd s = (rleEnd s).outcome := rfl
  refine ⟨?_, faultedWith_raise ..⟩
  rw [hexec, rleEnd_eq]
  by_cases hends : s.rlOp.toNat = s.maskBytes ∧ s.rlIp + 2 = s.rlBytes
  · rw [if_pos hends, if_neg (by tauto)]
    rfl
  · rw [if_neg hends, if_pos (by tauto)]
    exact faultedWith_raise ..

/-- Settles O18: a pixel's byte is the bit of its place in the bitset (R138, R139). -/
theorem maskExpandResult : Obligations.MaskExpandResult := by
  intro s hwritten
  obtain ⟨xs, hrun, hlen, hbits⟩ := maskExpand_of_written hwritten
  refine ⟨_, Rule.outcome_eq_next.2 (.inl hrun), rfl, fun k x hk hx => ?_, fun k hk => ?_⟩
  · rw [Memory.read_writeRange_zero _ _ (hk.trans_eq hlen.symm), hbits k x hk hx, maskBit_eq]
  · exact Memory.read_writeRange_zero_past _ _ (hlen.trans_le hk)

end Sys2Proof.Machine

namespace Sys2Proof.Machine

/-! # The Fletcher-32 engine

The blocks of R146 are a schedule of folds, and a fold keeps a sum modulo 65535 (`carryFold_modEq`). So the engine's two
sums go along with the sums without blocks, pair by pair (`fletcherSums_agree`). -/

/-! ## Pairs of bytes -/

/-- The pairs of R146: the first byte high, an odd last byte the high half of a pair of its own. -/
def bytePairs : List Byte → List Nat
  | x :: y :: rest => (x.toNat * 256 + y.toNat) :: bytePairs rest
  | [x] => [x.toNat * 256]
  | [] => []

/-- The pairs by index, an absent second byte read as 0. -/
theorem bytePairs_getElem? (bytes : List Byte) (i : Nat) :
    (bytePairs bytes)[i]? = if 2 * i < bytes.length then
      some ((bytes.getD (2 * i) 0).toNat * 256 + (bytes.getD (2 * i + 1) 0).toNat) else none := by
  induction bytes using bytePairs.induct generalizing i with
  | case1 x y rest ih => cases i <;> simp [bytePairs, ih, Nat.mul_add]
  | case2 x => cases i <;> simp [bytePairs, Nat.mul_add]
  | case3 => simp [bytePairs]

/-! ## The steps of the two sums -/

/-- One pair added to both sums. -/
def addPair (r : Nat × Nat) (w : Nat) : Nat × Nat := (r.1 + w, r.2 + (r.1 + w))

/-- The end-around carry of both sums. -/
def foldSums (r : Nat × Nat) : Nat × Nat := (carryFold r.1, carryFold r.2)

/-- The end of a last block: it is folded when it holds a pair. -/
def closeBlock (t : Nat) (r : Nat × Nat) : Nat × Nat := if t = 0 then r else foldSums r

theorem fletcherSums_nil (t : Nat) (r : Nat × Nat) : fletcherSums [] t r.1 r.2 = closeBlock t r := rfl

theorem fletcherSums_singleton (x : Byte) (t : Nat) (r : Nat × Nat) :
    fletcherSums [x] t r.1 r.2 = addPair (closeBlock t r) (x.toNat * 256) := by
  by_cases ht : t = 0 <;> simp [fletcherSums, closeBlock, ht, addPair, foldSums]

theorem fletcherSums_cons_cons (x y : Byte) (rest : List Byte) (t : Nat) (r : Nat × Nat) :
    let r' := addPair r (x.toNat * 256 + y.toNat)
    fletcherSums (x :: y :: rest) t r.1 r.2 =
      if t + 1 = Config.f32Block then fletcherSums rest 0 (foldSums r').1 (foldSums r').2
      else fletcherSums rest (t + 1) r'.1 r'.2 := by
  simp only [fletcherSums, addPair, foldSums, Nat.add_assoc]

theorem fletcher_eq (bytes : List Byte) : fletcher bytes = foldSums (fletcherSums bytes 0 65535 65535) := rfl

/-! ## Agreement modulo 65535 -/

/-- An end-around carry keeps the sum modulo 65535, since 65536 is 1 there (R148). -/
theorem carryFold_modEq (x : Nat) : carryFold x ≡ x [MOD 65535] := by
  simp only [carryFold, Nat.ModEq]
  omega

/-- Two pairs of sums agree modulo 65535, half by half. -/
def SumsAgree (r q : Nat × Nat) : Prop := r.1 ≡ q.1 [MOD 65535] ∧ r.2 ≡ q.2 [MOD 65535]

section

variable {r q : Nat × Nat}

theorem SumsAgree.addPair (h : SumsAgree r q) (w : Nat) : SumsAgree (addPair r w) (addPair q w) :=
  ⟨h.1.add_right w, h.2.add (h.1.add_right w)⟩

theorem SumsAgree.foldSums (h : SumsAgree r q) : SumsAgree (foldSums r) q :=
  ⟨(carryFold_modEq _).trans h.1, (carryFold_modEq _).trans h.2⟩

theorem SumsAgree.closeBlock (h : SumsAgree r q) (t : Nat) : SumsAgree (closeBlock t r) q := by
  unfold Machine.closeBlock
  split
  · exact h
  · exact h.foldSums

/-- Wherever the engine stands in a block, its sums over the rest agree with those without blocks. -/
theorem fletcherSums_agree (bytes : List Byte) (t : Nat) (h : SumsAgree r q) :
    SumsAgree (fletcherSums bytes t r.1 r.2) ((bytePairs bytes).foldl addPair q) := by
  induction bytes using bytePairs.induct generalizing t r q with
  | case1 x y rest ih =>
    have hpair := h.addPair (x.toNat * 256 + y.toNat)
    rw [fletcherSums_cons_cons, bytePairs, List.foldl_cons]
    split
    · exact ih 0 hpair.foldSums
    · exact ih (t + 1) hpair
  | case2 x =>
    rw [fletcherSums_singleton]
    exact (h.closeBlock t).addPair _
  | case3 =>
    rw [fletcherSums_nil]
    exact h.closeBlock t

end

theorem fletcher_agree (bytes : List Byte) :
    SumsAgree (fletcher bytes) ((bytePairs bytes).foldl addPair (65535, 65535)) := by
  rw [fletcher_eq]
  exact (fletcherSums_agree (r := (65535, 65535)) bytes 0 ⟨rfl, rfl⟩).foldSums

/-! ## The operation and its comparison -/

section

variable {s : State}

theorem f32Sum_of_holds {a : Nat} {bytes : List Byte} (h : s.holds a bytes) :
    f32Sum s a bytes.length = .ok { s with
      fSum1 := BitVec.ofNat 32 (fletcher bytes).1, fSum2 := BitVec.ofNat 32 (fletcher bytes).2,
      opResult := (fletcherWord bytes).setWidth 64 } := by
  rw [f32Sum, memRead_of_holds h]
  rfl

/-- A range that passes the end of the buffer faults before any sum (R146). -/
theorem f32Sum_of_past {a len : Nat} (h : s.inLen.toNat < a + len) :
    f32Sum s a len = .error (.halt (s.takeFault .trunc a)) := by
  rw [f32Sum, memRead_eq_halt.2 ⟨h, rfl⟩]
  rfl

theorem checksumTest_eq (s : State) :
    checksumTest s = if s.opResult.setWidth 32 = s.h.checksum then .ok s
      else raise s .checksum (s.opResult.setWidth 32).toNat := by
  split
  · next heq => exact Rule.bind_ok.2 ⟨(), raiseIf_eq_ok.2 (bne_eq_false_iff_eq.2 heq), rfl⟩
  · next hne => exact Rule.bind_error.2 (.inl (raiseIf_eq_error.2 ⟨bne_iff_ne.2 hne, rfl⟩))

/-- Where the blob is shorter than the 14 bytes before the range, the fault is due in place of the sum (R147). -/
theorem due_of_shortBlob (hseq : s.seq = .checksum) (h : s.h.blobSize.toInt < 14) :
    due s = raise s .param s.h.blob0.toNat := by
  unfold due
  rw [hseq]
  exact if_pos h

theorem due_of_checksumTest (hseq : s.seq = .checksumTest) : due s = .ok none := by
  unfold due
  rw [hseq]

theorem runRule_of_checksumTest (hseq : s.seq = .checksumTest) :
    runRule s = do return (← checksumTest s).goto .l2Setup := by
  unfold runRule
  rw [hseq]

/-- A fault raised in the rule due is the fault of the step. -/
theorem step_faultedWith_of_rule {u : State} {code : ErrCode} {info : Nat} (hp : s.port = []) (hb : s.busy = true)
    (hd : due s = .ok none) (h : runRule s = .error (.halt (u.takeFault code info))) :
    faultedWith (step s) code info := by
  rw [step_of_rule hp hb hd, h]
  exact ⟨_, rfl, rfl, rfl, rfl, rfl⟩

end

/-! ## The obligations -/

/-- Settles O27: the sum over a range that is held or passes the end (R146), and the two tests of the check (R147). -/
theorem f32SumResult : Obligations.F32SumResult := by
  intro s a len bytes
  have hexec : exec (.f32Sum a len) s = (f32Sum s a.toNat len.toNat).outcome := rfl
  rw [hexec]
  refine ⟨fun hlen hholds => ?_, fun hpast => faultedWith_of_halt (f32Sum_of_past hpast), fun hp hb hseq => ?_,
    fun hp hb hseq hshort => step_faultedWith_of_due hp hb (due_of_shortBlob hseq hshort)⟩
  · rw [← hlen, f32Sum_of_holds hholds]
    rfl
  · have hrule := runRule_of_checksumTest hseq
    rw [checksumTest_eq] at hrule
    split
    · next heq =>
      rw [if_pos heq] at hrule
      exact step_of_rule_ok hp hb (due_of_checksumTest hseq) hrule
    · next hne =>
      rw [if_neg hne] at hrule
      exact step_faultedWith_of_rule hp hb (due_of_checksumTest hseq) hrule

/-- Settles O28: the words of the statement are the pairs of the bytes, and the sums over these agree. -/
theorem fletcherCongruence : Obligations.FletcherCongruence := by
  intro bytes words hwords
  obtain rfl : words = bytePairs bytes :=
    List.ext_getElem? fun i => (hwords i).trans (bytePairs_getElem? bytes i).symm
  exact fletcher_agree bytes

end Sys2Proof.Machine

namespace Sys2Proof.Machine

/-! # The Huffman decoder

Four parts, in the order in which a plane is decoded. The table: lengths and stored codes make a table no code of
which begins another (`hufCodes_tableReady`). The two lookup structures: `HUF.BUILD` fills the quick table
(`buildQuick_hit`, `buildQuick_miss`) and grows the trie, whose nodes are labelled by the paths to them (`IsTree`,
`TrieHolds`). One symbol: of such a table one code at most comes next, and the lookup finds it
(`hufSym_of_comesNext`). The plane: the loops of R171 and R173 as one list of cells written into `PIX`
(`planeLoop_plain`, `deltaDims_run`); the predictor reads a stored value back as a byte, which is exact in each
element type (`byte_storeElem`). -/

/-! ## The table header (R156) -/

/-- A test in front of a rule. -/
theorem raiseIf_bind {α : Type} (s : State) (p : Prop) [Decidable p] (code : ErrCode) (info : Nat) (rest : Rule α) :
    (do raiseIf s (decide p) code info; rest) = if p then raise s code info else rest := by
  by_cases hp : p <;> simp [hp, raise_eq]

/-- `HUF.TABLE` as one decision: the version, then the ranges, then the fields. -/
theorem hufTable_eq (s : State) (hversion size i0 i1 : Word) :
    let s1 := { s with huf := { s.huf with size := size, i0 := i0, i1 := i1 }, bare := true }
    hufTable s hversion size i0 i1 =
      if hversion.toInt < 2 then raise s1 .hufVersion s.cur.toNat
      else if size.toInt < 1 ∨ (s.cfg.hufSymMax : Int) < size.toInt then raise s1 .hufTable s.cur.toNat
      else if i0.toInt < 0 ∨ i1.toInt ≤ i0.toInt then raise s1 .hufTable s.cur.toNat
      else if size.toInt < i1.toInt - i0.toInt ∨ 2 * size.toInt < i1.toInt then raise s1 .hufTable s.cur.toNat
      else .ok (s1.advance 16) := by
  simp only [hufTable, raiseIf_bind, Rule.pure_eq_ok]

/-- Settles O30, test by test (R156). -/
theorem hufTableResult : Obligations.HufTableResult := by
  intro s v size i0 i1
  have hexec : exec (.hufTable v size i0 i1) s = (hufTable s v size i0 i1).outcome := rfl
  rw [hexec, hufTable_eq]
  by_cases hv : v.toInt < 2
  · rw [if_pos hv, if_pos hv]
    exact faultedWith_raise ..
  rw [if_neg hv, if_neg hv]
  split
  · rw [if_neg (by omega), if_neg (by omega), if_neg (by omega)]
    rfl
  · split
    · exact faultedWith_raise ..
    · split
      · exact faultedWith_raise ..
      · rw [if_pos (by omega)]
        exact faultedWith_raise ..

/-! ## Integers as binary64 (R8, R255) -/

section

variable {m p : Nat}

/-- Moved left until bit `p` is its top bit, a number lies between `2^p` and `2^(p+1)`. -/
theorem shiftLeft_log2_bounds (h0 : m ≠ 0) (hp : m.log2 ≤ p) :
    2 ^ p ≤ m <<< (p - m.log2) ∧ m <<< (p - m.log2) < 2 ^ (p + 1) := by
  have hpow : ∀ e, 2 ^ (m.log2 + e) * 2 ^ (p - m.log2) = 2 ^ (p + e) := fun e => by
    rw [← pow_add]
    congr 1
    omega
  rw [Nat.shiftLeft_eq, ← hpow 1]
  constructor
  · exact (hpow 0).symm.trans_le (Nat.mul_le_mul_right _ (Nat.log2_self_le h0))
  · exact Nat.mul_lt_mul_of_pos_right Nat.lt_log2_self (by positivity)

/-- Rounding a whole number of no more bits than the fraction holds is exact: the number with its top bit moved to the
fraction's end, below its exponent. -/
theorem roundPack_exact {k top n : Nat} (h0 : m ≠ 0) (hp : m.log2 ≤ p) (hk : p + k ≤ n) :
    roundPack p k top (m <<< n) = min top ((m.log2 + n - p - k) * 2 ^ p + m <<< (p - m.log2)) := by
  have hlog : (m <<< n).log2 = m.log2 + n := by
    refine (Nat.log2_eq_iff (by rw [Nat.shiftLeft_eq]; positivity)).2 ?_
    rw [Nat.shiftLeft_eq, pow_add, Nat.add_right_comm, pow_add]
    exact ⟨Nat.mul_le_mul_right _ (Nat.log2_self_le h0),
      Nat.mul_lt_mul_of_pos_right Nat.lt_log2_self (by positivity)⟩
  have hshift : max (m.log2 + n - p) k = m.log2 + n - p := by omega
  have hsplit : m <<< n = m <<< (p - m.log2) * 2 ^ (m.log2 + n - p) := by
    rw [Nat.shiftLeft_eq, Nat.shiftLeft_eq, Nat.mul_assoc, ← pow_add]
    congr 2
    omega
  have hpos : 0 < 2 ^ (m.log2 + n - p) := by positivity
  simp only [roundPack, hlog, hshift]
  rw [hsplit, Nat.shiftRight_eq_div_pow, Nat.mul_div_cancel _ hpos, Nat.mul_mod_left]
  simp [hpos.ne]

end

/-- The fields of a value put together from a sign and the other 63 bits. -/
theorem f64WithSign_fields (neg : Bool) {bits : Nat} (h : bits < 2 ^ 63) :
    f64Neg (f64WithSign neg bits) = neg ∧ f64Exp (f64WithSign neg bits) = bits / 2 ^ 52
      ∧ f64Frac (f64WithSign neg bits) = bits % 2 ^ 52 := by
  unfold f64Neg f64Exp f64Frac f64WithSign
  rw [BitVec.msb_eq_decide, BitVec.toNat_ofNat]
  cases neg <;> simp <;> omega

section

variable {z : Int}

/-- An integer of no more than 53 bits is exact in binary64: its exponent is that of its top bit, the bits below it the
fraction. -/
theorem realOfInt_fields (h0 : z ≠ 0) (h : z.natAbs < 2 ^ 53) :
    f64Neg (realOfInt z) = decide (z < 0) ∧ f64Exp (realOfInt z) = z.natAbs.log2 + 1023
      ∧ 2 ^ 52 + f64Frac (realOfInt z) = z.natAbs <<< (52 - z.natAbs.log2) := by
  have habs : z.natAbs ≠ 0 := Int.natAbs_ne_zero.2 h0
  have hlog : z.natAbs.log2 ≤ 52 := by
    have := (Nat.log2_lt habs).2 h
    omega
  obtain ⟨hlo, hhi⟩ := shiftLeft_log2_bounds habs hlog
  have hval : realOfInt z = f64WithSign (decide (z < 0))
      ((z.natAbs.log2 + 1022) * 2 ^ 52 + z.natAbs <<< (52 - z.natAbs.log2)) := by
    rw [realOfInt, if_neg h0, roundF64, roundPack_exact habs hlog (by decide), f64InfBits, Nat.min_eq_right (by omega)]
    rfl
  obtain ⟨hneg, hexp, hfrac⟩ := f64WithSign_fields (decide (z < 0))
    (bits := (z.natAbs.log2 + 1022) * 2 ^ 52 + z.natAbs <<< (52 - z.natAbs.log2)) (by omega)
  rw [hval, hexp, hfrac]
  exact ⟨hneg, by omega, by omega⟩

theorem f64Exp_realOfInt_lt (h : z.natAbs < 2 ^ 53) : f64Exp (realOfInt z) < 2047 := by
  by_cases h0 : z = 0
  · subst h0; decide
  · have := (Nat.log2_lt (Int.natAbs_ne_zero.2 h0)).2 h
    obtain ⟨-, hexp, -⟩ := realOfInt_fields h0 h
    omega

theorem f64Neg_realOfInt (h : z.natAbs < 2 ^ 53) : f64Neg (realOfInt z) = decide (z < 0) := by
  by_cases h0 : z = 0
  · subst h0; decide
  · exact (realOfInt_fields h0 h).1

theorem f64Mag_realOfInt (h : z.natAbs < 2 ^ 53) : f64Mag (realOfInt z) = z.natAbs <<< 1074 := by
  by_cases h0 : z = 0
  · subst h0; decide
  · have habs : z.natAbs ≠ 0 := Int.natAbs_ne_zero.2 h0
    have := (Nat.log2_lt habs).2 h
    obtain ⟨-, hexp, hfrac⟩ := realOfInt_fields h0 h
    rw [f64Mag, hexp, if_neg (by omega), show 4503599627370496 = 2 ^ 52 from rfl, hfrac, ← Nat.shiftLeft_add,
      show 52 - z.natAbs.log2 + (z.natAbs.log2 + 1023 - 1) = 1074 by omega]

theorem truncF64_realOfInt (h : z.natAbs < 2 ^ 53) : truncF64 (realOfInt z) = z := by
  have hexp := f64Exp_realOfInt_lt h
  have hmag : f64Mag (realOfInt z) >>> 1074 = z.natAbs := by
    rw [f64Mag_realOfInt h, Nat.shiftLeft_shiftRight]
  rw [truncF64, if_neg (by omega), f64Neg_realOfInt h, hmag]
  by_cases hz : z < 0
  · rw [if_pos (decide_eq_true hz)]
    omega
  · rw [if_neg (by simpa using hz)]
    omega

theorem truncF64_realOfNat {n : Nat} (h : n < 2 ^ 53) : (truncF64 (realOfNat n)).toNat = n := by
  rw [realOfNat, truncF64_realOfInt (by simpa using h), Int.toNat_natCast]

end

/-! ## A byte stored and read back (R112, R171) -/

/-- The fields of a binary32 value put together from a sign and the other 31 bits. -/
theorem ofNat32_fields (neg : Bool) {bits : Nat} (h : bits < 2 ^ 31) :
    let x := BitVec.ofNat 32 ((if neg then 2147483648 else 0) + bits)
    x.msb = neg ∧ x.toNat / 8388608 % 256 = bits / 2 ^ 23 ∧ x.toNat % 8388608 = bits % 2 ^ 23 := by
  intro x
  rw [BitVec.msb_eq_decide, BitVec.toNat_ofNat]
  cases neg <;> simp <;> omega

/-- An integer of no more than 24 bits is exact in binary32, too: its top bit moved to the fraction's end, below its
exponent. -/
theorem narrowF64_realOfInt (nan : BitVec 64) {z : Int} (h0 : z ≠ 0) (h : z.natAbs < 2 ^ 24) :
    narrowF64 nan (realOfInt z) = BitVec.ofNat 32 ((if decide (z < 0) then 2147483648 else 0)
      + ((z.natAbs.log2 + 126) * 2 ^ 23 + z.natAbs <<< (23 - z.natAbs.log2))) := by
  have h53 : z.natAbs < 2 ^ 53 := by omega
  have hfinite : (f64Exp (realOfInt z) == 2047) = false := beq_eq_false_iff_ne.2 (f64Exp_realOfInt_lt h53).ne
  have habs : z.natAbs ≠ 0 := Int.natAbs_ne_zero.2 h0
  have hlog : z.natAbs.log2 ≤ 23 := Nat.le_of_lt_succ ((Nat.log2_lt habs).2 h)
  have hbounds := shiftLeft_log2_bounds habs hlog
  have hmag : z.natAbs <<< 1074 ≠ 0 := mt Nat.shiftLeft_eq_zero_iff.1 habs
  rw [narrowF64, f64IsNaN, f64IsInf, hfinite, Bool.false_and, Bool.false_and, if_neg Bool.false_ne_true,
    if_neg Bool.false_ne_true, f64Mag_realOfInt h53, if_neg hmag, f64Neg_realOfInt h53,
    roundPack_exact habs hlog (by decide), Nat.min_eq_right (by omega),
    show z.natAbs.log2 + 1074 - 23 - 925 = z.natAbs.log2 + 126 by omega]

/-- So it is read back as it was stored. -/
theorem widenF32_narrowF64 (nan : BitVec 64) (nan' : F64) {z : Int} (h : z.natAbs < 2 ^ 24) :
    widenF32 nan' (narrowF64 nan (realOfInt z)) = realOfInt z := by
  by_cases h0 : z = 0
  · subst h0
    have hzero : narrowF64 nan (realOfInt 0) = 0#32 := by
      simp [narrowF64, realOfInt, f64IsNaN, f64IsInf, f64Exp, f64Mag, f64Frac, f64Neg]
    rw [hzero]
    rfl
  have habs : z.natAbs ≠ 0 := Int.natAbs_ne_zero.2 h0
  have hlog : z.natAbs.log2 ≤ 23 := Nat.le_of_lt_succ ((Nat.log2_lt habs).2 h)
  obtain ⟨hlo, hhi⟩ := shiftLeft_log2_bounds habs hlog
  obtain ⟨hsign, hexp, hfrac⟩ := ofNat32_fields (decide (z < 0))
    (bits := (z.natAbs.log2 + 126) * 2 ^ 23 + z.natAbs <<< (23 - z.natAbs.log2)) (by omega)
  have hexp' : ((z.natAbs.log2 + 126) * 2 ^ 23 + z.natAbs <<< (23 - z.natAbs.log2)) / 2 ^ 23 = z.natAbs.log2 + 127 := by
    omega
  have hfrac' : 8388608 + ((z.natAbs.log2 + 126) * 2 ^ 23 + z.natAbs <<< (23 - z.natAbs.log2)) % 2 ^ 23
      = z.natAbs <<< (23 - z.natAbs.log2) := by
    omega
  have hmag : z.natAbs <<< (23 - z.natAbs.log2) <<< (z.natAbs.log2 + 126) = z.natAbs <<< 149 := by
    rw [← Nat.shiftLeft_add]
    congr 1
    omega
  rw [narrowF64_realOfInt nan h0 h, widenF32, hexp, hfrac, hexp', hsign]
  simp only [if_neg (show z.natAbs.log2 + 127 ≠ 255 by omega), Nat.add_one_ne_zero, if_false, hfrac',
    Nat.add_succ_sub_one, hmag, mt Nat.shiftLeft_eq_zero_iff.1 habs, ← Nat.shiftLeft_add]
  rw [realOfInt, if_neg h0]

/-- The low byte of an integer is that of its residue in a wider type, read with a sign or without. -/
theorem ofInt_toInt_ofInt {n : Nat} (hn : 8 ≤ n) (z : Int) :
    BitVec.ofInt 8 (BitVec.ofInt n z).toInt = BitVec.ofInt 8 z := by
  apply BitVec.eq_of_toInt_eq
  rw [BitVec.toInt_ofInt, BitVec.toInt_ofInt, BitVec.toInt_ofInt, Int.bmod_bmod_of_dvd (pow_dvd_pow 2 hn)]

theorem ofInt_toNat_ofInt {n : Nat} (hn : 8 ≤ n) (z : Int) :
    BitVec.ofInt 8 ((BitVec.ofInt n z).toNat : Int) = BitVec.ofInt 8 z := by
  apply BitVec.eq_of_toInt_eq
  have hdvd : ((2 ^ 8 : Nat) : Int) ∣ ((2 ^ n : Nat) : Int) := Int.natCast_dvd_natCast.2 (pow_dvd_pow 2 hn)
  rw [BitVec.toInt_ofInt, BitVec.toInt_ofInt, BitVec.toNat_ofInt, Int.toNat_of_nonneg (Int.emod_nonneg _ (by simp)),
    Int.bmod_def, Int.bmod_def, Int.emod_emod_of_dvd _ hdvd]

theorem setWidth_truncMod {n : Nat} (hn : n ≤ 64) (v : F64) :
    (truncMod v n).setWidth n = BitVec.ofInt n (truncF64 v) := by
  rw [truncMod, BitVec.ofNat_toNat, BitVec.setWidth_setWidth_of_le _ hn, BitVec.setWidth_eq]

section

variable {z : Int} (h : z.natAbs < 2 ^ 24) {n : Nat} (h8 : 8 ≤ n) (h32 : n ≤ 32)

include h h8 h32

/-- The two ways an integer type reads its bits, for the byte of the value. -/
theorem byte_signed : BitVec.ofInt 8 (truncF64 (realOfInt ((truncMod (realOfInt z) n).setWidth n).toInt))
    = BitVec.ofInt 8 z := by
  have hpow : 2 ^ n ≤ 2 ^ 32 := Nat.pow_le_pow_right two_pos h32
  have hlt := BitVec.toInt_lt (x := BitVec.ofInt n z)
  have hle := BitVec.le_toInt (BitVec.ofInt n z)
  have hhalf : (2 : Int) ^ (n - 1) ≤ 2 ^ 31 := pow_le_pow_right₀ (by decide) (by omega)
  rw [setWidth_truncMod (by omega), truncF64_realOfInt (z := z) (by omega), truncF64_realOfInt (by omega),
    ofInt_toInt_ofInt h8]

theorem byte_unsigned : BitVec.ofInt 8 (truncF64 (realOfNat ((truncMod (realOfInt z) n).setWidth n).toNat))
    = BitVec.ofInt 8 z := by
  have hpow : 2 ^ n ≤ 2 ^ 32 := Nat.pow_le_pow_right two_pos h32
  have hlt := (BitVec.ofInt n z).isLt
  rw [setWidth_truncMod (by omega), truncF64_realOfInt (z := z) (by omega), realOfNat, truncF64_realOfInt (by omega),
    ofInt_toNat_ofInt h8]

end

/-- A stored integer of no more than 24 bits has the byte of that integer, whatever the element type. -/
theorem byte_storeElem (nan : BitVec 64) (ty : EType) {z : Int} (h : z.natAbs < 2 ^ 24) :
    (storeElem nan ty (realOfInt z)).byte = (BitVec.ofInt 8 z).toNat := by
  have htrunc := truncF64_realOfInt (z := z) (by omega)
  unfold Elem.byte
  congr 1
  cases ty with
  | i8 => exact byte_signed h (n := 8) (by decide) (by decide)
  | i16 => exact byte_signed h (n := 16) (by decide) (by decide)
  | i32 => exact byte_signed h (n := 32) (by decide) (by decide)
  | u8 => exact byte_unsigned h (n := 8) (by decide) (by decide)
  | u16 => exact byte_unsigned h (n := 16) (by decide) (by decide)
  | u32 => exact byte_unsigned h (n := 32) (by decide) (by decide)
  | f32 =>
    have hbits : (BitVec.zeroExtend 64 (narrowF64 nan (realOfInt z))).setWidth 32 = narrowF64 nan (realOfInt z) :=
      (BitVec.setWidth_setWidth_of_le _ (by decide)).trans (BitVec.setWidth_eq _)
    simp only [storeElem, Elem.real, hbits, widenF32_narrowF64 _ _ h, htrunc]
  | f64 => simp only [storeElem, Elem.real, htrunc]

/-- The value a byte is read as is an integer with that byte (R171). -/
theorem State.planeValue_eq (s : State) (v8 : Byte) :
    ∃ z : Int, z.natAbs < 2 ^ 24 ∧ s.planeValue v8 = realOfInt z ∧ BitVec.ofInt 8 z = v8 := by
  have hlt := v8.isLt
  by_cases hi : s.h.imgType = 0#32
  · refine ⟨v8.toInt, ?_, if_pos hi, BitVec.ofInt_toInt⟩
    have := BitVec.toInt_lt (x := v8)
    have := BitVec.le_toInt v8
    omega
  · exact ⟨v8.toNat, by omega, if_neg hi, by rw [BitVec.ofInt_natCast, BitVec.ofNat_toNat, BitVec.setWidth_eq]⟩

/-- So a stored value of the plane is read back as its byte. -/
theorem byte_storeElem_planeValue (s : State) (nan : BitVec 64) (ty : EType) (v8 : Byte) :
    (storeElem nan ty (s.planeValue v8)).byte = v8.toNat := by
  obtain ⟨z, hz, hval, hbyte⟩ := s.planeValue_eq v8
  rw [hval, byte_storeElem nan ty hz, hbyte]

/-! ## The bit reader (R159, R160) -/

section

variable {s t : State}

/-- Two states read the same bits: the same buffer, from the same base. -/
def State.SameBits (s t : State) : Prop := t.inMem = s.inMem ∧ t.inLen = s.inLen ∧ t.hb.base = s.hb.base

theorem State.SameBits.trans {u : State} (h : s.SameBits t) (h' : t.SameBits u) : s.SameBits u :=
  ⟨h'.1.trans h.1, h'.2.1.trans h.2.1, h'.2.2.trans h.2.2⟩

theorem hbit_congr (h : s.SameBits t) (i : Nat) : hbit t i = hbit s i := by
  obtain ⟨hmem, hlen, hbase⟩ := h
  have haddr : t.bitByte i = s.bitByte i := by rw [State.bitByte, State.bitByte, hbase]
  rw [hbit, hbit, haddr, hlen, inByte, inByte, hmem]

theorem peek_congr (h : s.SameBits t) (hpos : t.hbPos = s.hbPos) (m : Nat) : peek t m = peek s m := by
  have hfrom (i acc : Nat) : peekFrom t m i acc = peekFrom s m i acc := by
    induction m generalizing i acc with
    | zero => rfl
    | succ m ih => simp only [peekFrom, hbit_congr h, ih]
  rw [peek, peek, hpos, hfrom]

/-- Bits that may be consumed end at a position the cursor can hold. -/
theorem State.consumable.pos_lt {m : Nat} (h : s.consumable m) : s.hbPos + m < 137438953472 := by
  have hlen := s.inLen.isLt
  have hend := h.1
  omega

end

/-! ## The lengths (R157, R158) -/

section

variable {α : Type}

/-- What a list of cells leaves at an address: the old content, or a value of one of its cells. -/
theorem Memory.read_writeAll_or (cells : List (Nat × α)) (m : Memory α) (a : Nat) :
    Memory.read (Memory.writeAll m cells) a = Memory.read m a
      ∨ ∃ v, (a, v) ∈ cells ∧ Memory.read (Memory.writeAll m cells) a = some v := by
  induction cells generalizing m with
  | nil => exact .inl rfl
  | cons c cs ih =>
    rw [Memory.writeAll_cons]
    rcases ih (Memory.write m c.1 c.2) with h | ⟨v, hv, h⟩
    · rw [h, Memory.read_write]
      split
      · next ha => exact .inr ⟨c.2, by rw [ha]; exact List.mem_cons_self, rfl⟩
      · exact .inl rfl
    · exact .inr ⟨v, List.mem_cons_of_mem c hv, h⟩

end

section

variable {s t : State}

/-- The lengths the record before the codes has left (R158). -/
def State.storedLengths (s : State) : List Nat := s.val.map fun v => (truncF64 v).toNat

/-- The lengths of the table: 0 everywhere, then those of the record at the serialized symbols (R158). -/
def State.tableLengths (s : State) : Memory (BitVec 6) :=
  Memory.writeAll (Memory.writeRange s.hlen 0 (List.replicate s.huf.size.toNat 0#6))
    (s.hufSymbols.zip (s.storedLengths.map (BitVec.ofNat 6)))

theorem hufLengths_eq_ok (h : hufLengths s = .ok t) :
    s.t.nVal.toNat = s.hufSymbols.length ∧ (∀ l ∈ s.storedLengths, l ≤ 32)
      ∧ t = { s with hlen := s.tableLengths } := by
  obtain ⟨_, hcount, h⟩ := Rule.bind_ok.1 h
  obtain ⟨_, hlong, h⟩ := Rule.bind_ok.1 h
  cases h
  rw [raiseIf_eq_ok] at hcount hlong
  refine ⟨by simpa using hcount, fun l hl => ?_, rfl⟩
  simpa using List.any_eq_false.1 hlong l hl

/-- Every symbol of the table has a length of no more than 32 then, and 0 but for the serialized ones. -/
theorem hufLengths_lenAt (h : hufLengths s = .ok t) {x : Nat} (hx : x < s.huf.size.toNat) :
    (Memory.read t.hlen x).isSome = true ∧ t.lenAt x ≤ 32 ∧ (t.lenAt x ≠ 0 → x ∈ s.hufSymbols) := by
  obtain ⟨-, hlong, rfl⟩ := hufLengths_eq_ok h
  have hzero : Memory.read (Memory.writeRange s.hlen 0 (List.replicate s.huf.size.toNat 0#6)) x = some 0#6 := by
    rw [Memory.read_writeRange_zero _ _ (by simpa using hx), List.getElem?_replicate_of_lt hx]
  unfold State.lenAt State.tableLengths
  rcases Memory.read_writeAll_or (s.hufSymbols.zip (s.storedLengths.map (BitVec.ofNat 6)))
    (Memory.writeRange s.hlen 0 (List.replicate s.huf.size.toNat 0#6)) x with hr | ⟨v, hv, hr⟩
  · rw [hr, hzero]
    exact ⟨rfl, by decide, fun h0 => absurd rfl h0⟩
  · obtain ⟨hmem, hlen⟩ := List.of_mem_zip hv
    obtain ⟨l, hl, rfl⟩ := List.mem_map.1 hlen
    rw [hr]
    refine ⟨rfl, ?_, fun _ => hmem⟩
    have := hlong l hl
    simp only [Option.getD_some, BitVec.toNat_ofNat]
    omega

/-- Where the serialized symbols are distinct and each has a length, the lengths are the stored ones. -/
theorem hufLengths_stored (h : hufLengths s = .ok t) (hd : s.hufSymbols.Nodup) {j x l : Nat}
    (hx : s.hufSymbols[j]? = some x) (hl : s.storedLengths[j]? = some l) : t.lenAt x = l := by
  obtain ⟨-, hlong, rfl⟩ := hufLengths_eq_ok h
  have hmem : (x, BitVec.ofNat 6 l) ∈ s.hufSymbols.zip (s.storedLengths.map (BitVec.ofNat 6)) :=
    List.mem_of_getElem? (i := j) (List.getElem?_zip_eq_some.2 ⟨hx, by rw [List.getElem?_map, hl]; rfl⟩)
  have hle := hlong l (List.mem_of_getElem? hl)
  rw [State.lenAt, State.tableLengths, Memory.read_writeAll_mem _ _ (hd.sublist (fst_zip_sublist _ _)) hmem]
  simp only [Option.getD_some, BitVec.toNat_ofNat]
  omega

end

/-! ## The stored codes (R162) -/

section

variable {s t : State}

/-- The code of a symbol is there, and is a number of as many bits as its length. -/
def State.HasCode (s : State) (x : Nat) : Prop :=
  (Memory.read s.hcode x).isSome = true ∧ s.codeAt x < 2 ^ s.lenAt x

/-- The state behind a code that has been read: the code, and the cursor moved past it. -/
def State.codeRead (s : State) (x code : Nat) : State :=
  { s with hcode := Memory.write s.hcode x (BitVec.ofNat 32 code) }.setHbPos (s.hbPos + s.lenAt x)

theorem State.codeRead_hcode (x code y : Nat) : Memory.read (s.codeRead x code).hcode y =
    if y = x then some (BitVec.ofNat 32 code) else Memory.read s.hcode y := Memory.read_write ..

/-- One symbol at a time: no code where the length is 0, else the next bits. -/
theorem readCodes_cons {x : Nat} {xs : List Nat} (h : readCodes s (x :: xs) = .ok t) :
    (s.lenAt x = 0 ∧ readCodes s xs = .ok t)
      ∨ (s.lenAt x ≠ 0 ∧ ∃ code, peek s (s.lenAt x) = .ok code ∧ s.consumable (s.lenAt x)
        ∧ readCodes (s.codeRead x code) xs = .ok t) := by
  obtain ⟨l, hl, h⟩ := Rule.bind_ok.1 h
  obtain ⟨-, rfl⟩ := State.hlenOf_eq_ok.1 hl
  split at h
  · next h0 => exact .inl ⟨h0, h⟩
  · next h0 =>
    obtain ⟨code, hcode, h⟩ := Rule.bind_ok.1 h
    obtain ⟨u, hu, h⟩ := Rule.bind_ok.1 h
    obtain ⟨hc, rfl⟩ := consume_eq_ok.1 hu
    exact .inr ⟨h0, code, hcode, hc, h⟩

theorem readCodes_frame {xs : List Nat} (h : readCodes s xs = .ok t) :
    t = { s with hcode := t.hcode, hb := t.hb } ∧ t.hb.base = s.hb.base
      ∧ ∀ y, y ∉ xs → Memory.read t.hcode y = Memory.read s.hcode y := by
  induction xs generalizing s with
  | nil => cases h; exact ⟨rfl, rfl, fun _ _ => rfl⟩
  | cons x xs ih =>
    rcases readCodes_cons h with ⟨-, h⟩ | ⟨-, code, -, -, h⟩
    · obtain ⟨hframe, hbase, hcodes⟩ := ih h
      exact ⟨hframe, hbase, fun y hy => hcodes y fun hm => hy (List.mem_cons_of_mem x hm)⟩
    · obtain ⟨hframe, hbase, hcodes⟩ := ih h
      refine ⟨hframe, hbase, fun y hy => ?_⟩
      obtain ⟨hne, hy⟩ := not_or.1 (mt List.mem_cons.2 hy)
      rw [hcodes y hy, State.codeRead_hcode, if_neg hne]

/-- Every symbol read that has a length has a code. -/
theorem readCodes_hasCode {xs : List Nat} (h : readCodes s xs = .ok t) {x : Nat} (hx : s.lenAt x ≠ 0)
    (hm : x ∈ xs ∨ s.HasCode x) : t.HasCode x := by
  induction xs generalizing s with
  | nil => cases h; exact hm.resolve_left List.not_mem_nil
  | cons y ys ih =>
    rcases readCodes_cons h with ⟨h0, h⟩ | ⟨h0, code, hcode, -, h⟩
    · refine ih h hx (hm.imp_left fun hm => (List.mem_cons.1 hm).resolve_left ?_)
      rintro rfl
      exact hx h0
    · refine ih h hx ?_
      by_cases hxy : x = y
      · subst hxy
        refine .inr ?_
        unfold State.HasCode State.codeAt
        rw [State.codeRead_hcode, if_pos rfl, Option.getD_some, BitVec.toNat_ofNat]
        exact ⟨rfl, (Nat.mod_le _ _).trans_lt (peek_lt hcode)⟩
      · refine hm.imp (fun hm => (List.mem_cons.1 hm).resolve_left hxy) fun hm => ?_
        unfold State.HasCode State.codeAt
        rw [State.codeRead_hcode, if_neg hxy]
        exact hm

/-- Distinct symbols: the code of each is what stands in the stream behind the codes before it, and the cursor ends
behind the last. -/
theorem readCodes_reads {xs : List Nat} (h : readCodes s xs = .ok t) (hd : xs.Nodup)
    (h32 : ∀ x ∈ xs, s.lenAt x ≤ 32) :
    t.hbPos = s.hbPos + (xs.map s.lenAt).sum
      ∧ ∀ j x, xs[j]? = some x → s.lenAt x ≠ 0 → ∀ u, s.SameBits u →
        u.hbPos = s.hbPos + ((xs.take j).map s.lenAt).sum → peek u (s.lenAt x) = .ok (t.codeAt x) := by
  induction xs generalizing s with
  | nil => cases h; exact ⟨rfl, nofun⟩
  | cons y ys ih =>
    obtain ⟨hy, hd⟩ := List.nodup_cons.1 hd
    have h32' : ∀ x ∈ ys, s.lenAt x ≤ 32 := fun x hx => h32 x (List.mem_cons_of_mem y hx)
    rcases readCodes_cons h with ⟨h0, h⟩ | ⟨h0, code, hcode, hc, h⟩
    · obtain ⟨hpos, hread⟩ := ih h hd h32'
      refine ⟨by rw [hpos, List.map_cons, List.sum_cons, h0, Nat.zero_add], fun j x hj hx u hu hup => ?_⟩
      cases j with
      | zero => cases hj; exact absurd h0 hx
      | succ j =>
        rw [List.take_succ_cons, List.map_cons, List.sum_cons, h0, Nat.zero_add] at hup
        exact hread j x hj hx u hu hup
    · obtain ⟨hpos, hread⟩ := ih h hd h32'
      have hstart : (s.codeRead y code).hbPos = s.hbPos + s.lenAt y := State.setHbPos_hbPos _ hc.pos_lt
      rw [hstart] at hpos hread
      refine ⟨by rw [hpos, List.map_cons, List.sum_cons, Nat.add_assoc]; rfl, fun j x hj hx u hu hup => ?_⟩
      cases j with
      | zero =>
        cases hj
        have hlt : code < 2 ^ 32 :=
          (peek_lt hcode).trans_le (Nat.pow_le_pow_right two_pos (h32 y List.mem_cons_self))
        rw [peek_congr hu hup, hcode, State.codeAt, (readCodes_frame h).2.2 y hy, State.codeRead_hcode, if_pos rfl,
          Option.getD_some, BitVec.toNat_ofNat, Nat.mod_eq_of_lt hlt]
      | succ j =>
        rw [List.take_succ_cons, List.map_cons, List.sum_cons, ← Nat.add_assoc] at hup
        exact hread j x hj hx u hu hup

end

/-! ## The checks and the two scalars (R163, R164) -/

/-- The largest of a list, and of a start value. -/
theorem foldl_max_spec (xs : List Nat) (a : Nat) :
    (a ≤ xs.foldl max a ∧ ∀ x ∈ xs, x ≤ xs.foldl max a)
      ∧ (xs.foldl max a = a ∨ xs.foldl max a ∈ xs) := by
  induction xs generalizing a with
  | nil => simp
  | cons x xs ih =>
    obtain ⟨⟨ha, hle⟩, hmem⟩ := ih (max a x)
    rw [List.foldl_cons]
    refine ⟨⟨by omega, ?_⟩, ?_⟩
    · rintro y (_ | ⟨_, hy⟩)
      · omega
      · exact hle y hy
    · rcases hmem with hmem | hmem
      · rcases Nat.le_total a x with h | h
        · exact .inr (by rw [hmem, Nat.max_eq_right h]; exact List.mem_cons_self)
        · exact .inl (by rw [hmem, Nat.max_eq_left h])
      · exact .inr (List.mem_cons_of_mem x hmem)

section

variable {s : State}

/-- The symbols with a code, in order (R19). -/
def State.coded (s : State) : List Nat := (List.range s.huf.size.toNat).filter fun x => s.lenAt x ≠ 0

theorem State.mem_coded {x : Nat} : x ∈ s.coded ↔ x < s.huf.size.toNat ∧ 0 < s.lenAt x := by
  simp [State.coded, Nat.pos_iff_ne_zero]

/-- The entries are those of the coded symbols. -/
theorem State.hufEntries_eq_ok {es : List HufEntry} :
    s.hufEntries = .ok es ↔ (∀ x < s.huf.size.toNat, (Memory.read s.hlen x).isSome = true
        ∧ (0 < s.lenAt x → (Memory.read s.hcode x).isSome = true)) ∧ es = s.coded.map s.entryAt := by
  simp only [State.hufEntries, entriesOf_eq_ok, List.mem_range, State.coded, Nat.pos_iff_ne_zero]

/-- Entries without a clash: no code begins another symbol's. -/
theorem not_begins_of_anyClash (h : anyClash (s.coded.map s.entryAt) = false) {x y : Nat} (hx : x ∈ s.coded)
    (hy : y ∈ s.coded) (hne : x ≠ y) (hle : s.lenAt x ≤ s.lenAt y) :
    s.codeAt y >>> (s.lenAt y - s.lenAt x) ≠ s.codeAt x := by
  have hsymm : Std.Symm fun x y => HufEntry.clash (s.entryAt x) (s.entryAt y) = false :=
    ⟨fun x y hxy => (Bool.or_comm _ _).trans hxy⟩
  have hclash := (List.pairwise_map.1 (anyClash_eq_false h)).forall hx hy hne
  rw [HufEntry.clash, Bool.or_eq_false_iff, Bool.and_eq_false_iff] at hclash
  rcases hclash.1 with hlt | hcode
  · exact absurd hle (of_decide_eq_false hlt)
  · exact beq_eq_false_iff_ne.1 hcode

end

/-! ## The rule after the length record (R158 to R164) -/

section

variable {s t : State}

theorem State.lenAt_congr (h : t.hlen = s.hlen) (x : Nat) : t.lenAt x = s.lenAt x := by
  rw [State.lenAt, State.lenAt, h]

/-- The bit stream begins at `CUR` (R161). -/
def State.streamStart (s : State) : State := { s with hb := { base := s.cur, widx := 0#32, bit := 0#6 } }

/-- The longest length of the table (R164). -/
def State.longestLen (s : State) : Nat := (s.coded.map s.lenAt).foldl max 0

/-- The two scalars of R164. -/
def State.withScalars (s : State) : State :=
  { s with huf := { s.huf with maxLen := BitVec.ofNat 6 s.longestLen,
                               qBits := BitVec.ofNat 4 (min s.longestLen Config.quickBitsMax) } }

/-- Every entry of the table can be read, there is one, and no code begins another (R163). -/
def State.TableChecked (s : State) : Prop :=
  (∀ x < s.huf.size.toNat, (Memory.read s.hlen x).isSome = true) ∧ s.coded ≠ []
    ∧ anyClash (s.coded.map s.entryAt) = false

/-- The rule in its parts: the lengths, the stored codes, the checks, the two scalars. -/
theorem hufCodes_eq_ok (h : hufCodes s = .ok t) :
    ∃ u v, hufLengths s = .ok u ∧ readCodes u.streamStart u.hufSymbols = .ok v ∧ v.TableChecked
      ∧ t = v.withScalars := by
  obtain ⟨u, hu, h⟩ := Rule.bind_ok.1 h
  obtain ⟨v, hv, h⟩ := Rule.bind_ok.1 h
  obtain ⟨es, hes, h⟩ := Rule.bind_ok.1 h
  obtain ⟨_, hempty, h⟩ := Rule.bind_ok.1 h
  obtain ⟨_, hclash, h⟩ := Rule.bind_ok.1 h
  obtain ⟨hread, rfl⟩ := State.hufEntries_eq_ok.1 hes
  rw [raiseIf_eq_ok] at hempty hclash
  refine ⟨u, v, hu, hv, ⟨fun x hx => (hread x hx).1, by simpa using hempty, hclash⟩, ?_⟩
  cases h
  rw [List.map_map]
  rfl

/-- The rule leaves the lengths, the codes, the bit cursor and the two scalars. -/
theorem hufCodes_frame (h : hufCodes s = .ok t) :
    t = { s with hlen := t.hlen, hcode := t.hcode, hb := t.hb,
                 huf := { s.huf with maxLen := t.huf.maxLen, qBits := t.huf.qBits } } := by
  obtain ⟨u, v, hu, hv, -, rfl⟩ := hufCodes_eq_ok h
  obtain ⟨-, -, rfl⟩ := hufLengths_eq_ok hu
  obtain ⟨hframe, -, -⟩ := readCodes_frame hv
  rw [hframe]
  rfl

/-- The table it leaves is one that `HUF.BUILD` can take. -/
theorem hufCodes_tableReady (h : hufCodes s = .ok t) (hsize : s.huf.size.toNat ≤ 65536) : t.TableReady := by
  obtain ⟨u, v, hu, hv, ⟨hread, hne, hclash⟩, rfl⟩ := hufCodes_eq_ok h
  have hframe := (readCodes_frame hv).1
  have husize : u.huf = s.huf ∧ u.hufSymbols = s.hufSymbols := by
    obtain ⟨-, -, rfl⟩ := hufLengths_eq_ok hu
    exact ⟨rfl, rfl⟩
  have hvsize : v.huf = s.huf := by rw [hframe, ← husize.1]; rfl
  have hlen (x : Nat) : v.lenAt x = u.lenAt x := State.lenAt_congr (by rw [hframe]; rfl) x
  have hle : ∀ x < v.huf.size.toNat, v.lenAt x ≤ 32 := fun x hx => by
    rw [hlen]
    exact (hufLengths_lenAt hu (hvsize ▸ hx)).2.1
  have hcode : ∀ x < v.huf.size.toNat, 0 < v.lenAt x → v.HasCode x := fun x hx h0 => by
    rw [hlen] at h0
    have hsym := (hufLengths_lenAt hu (hvsize ▸ hx)).2.2 h0.ne'
    exact readCodes_hasCode hv h0.ne' (.inl (husize.2 ▸ hsym))
  obtain ⟨⟨-, hmax⟩, hattained⟩ := foldl_max_spec (v.coded.map v.lenAt) 0
  obtain ⟨x, hx⟩ := List.exists_mem_of_ne_nil _ hne
  have hlongest : ∃ x < v.huf.size.toNat, 0 < v.lenAt x ∧ v.lenAt x = v.longestLen := by
    have h0 : 0 < v.lenAt x := (State.mem_coded.1 hx).2
    have hmaxx := hmax _ (List.mem_map_of_mem hx)
    rcases hattained with hz | hmem
    · omega
    · obtain ⟨y, hy, hyl⟩ := List.mem_map.1 hmem
      exact ⟨y, (State.mem_coded.1 hy).1, (State.mem_coded.1 hy).2, hyl⟩
  have hlong32 : v.longestLen ≤ 32 := by
    obtain ⟨y, hy, -, hyl⟩ := hlongest
    exact hyl ▸ hle y hy
  have hmaxLen : v.withScalars.huf.maxLen.toNat = v.longestLen := by
    rw [State.withScalars, BitVec.toNat_ofNat]
    omega
  constructor
  case size => exact (congrArg (fun g : HufGroup => g.size.toNat) hvsize).trans_le hsize
  case lengths => exact fun x hx => ⟨hread x hx, hle x hx⟩
  case codes => exact hcode
  case prefixFree =>
    intro x hx y hy hne h0 hxy
    have hyc : y ∈ v.coded := State.mem_coded.2 ⟨hy, h0.trans_le hxy⟩
    exact not_begins_of_anyClash hclash (State.mem_coded.2 ⟨hx, h0⟩) hyc hne hxy
  case longest =>
    rw [hmaxLen]
    refine ⟨fun x hx => ?_, hlongest⟩
    rcases Nat.eq_zero_or_pos (v.lenAt x) with h0 | h0
    · exact h0.trans_le (Nat.zero_le _)
    · exact hmax _ (List.mem_map_of_mem (State.mem_coded.2 ⟨hx, h0⟩))
  case quickBits =>
    rw [hmaxLen, State.withScalars, BitVec.toNat_ofNat]
    exact Nat.mod_eq_of_lt ((Nat.min_le_right _ _).trans_lt (by decide))

/-! ## What the record and the stream store (R157, R158, R162) -/

theorem State.hufSymbols_length (s : State) : s.hufSymbols.length = s.huf.i1.toNat - s.huf.i0.toNat := by
  rw [State.hufSymbols, List.length_map, List.length_range]

theorem State.hufSymbols_getElem? {j : Nat} (h : j < s.hufSymbols.length) :
    s.hufSymbols[j]? = some (hufIndex s.huf.size.toNat (s.huf.i0.toNat + j)) := by
  rw [State.hufSymbols_length] at h
  rw [State.hufSymbols, List.getElem?_map, List.getElem?_range h, Option.map_some]

/-- No more indices than the table has symbols name distinct ones, wrapped or not. -/
theorem State.hufSymbols_nodup (hspan : s.huf.i1.toNat ≤ s.huf.i0.toNat + s.huf.size.toNat) : s.hufSymbols.Nodup := by
  refine List.Nodup.map_on (fun j hj k hk hjk => ?_) List.nodup_range
  rw [List.mem_range] at hj hk
  unfold hufIndex at hjk
  split at hjk <;> split at hjk <;> omega

/-- Lengths that are stored as numbers are read as these (R158). -/
theorem State.storedLengths_of_val {lens : List Nat} (hval : s.val = lens.map realOfNat)
    (hlt : ∀ l ∈ lens, l < 4294967296) : s.storedLengths = lens := by
  rw [State.storedLengths, hval, List.map_map]
  refine (List.map_congr_left fun l hl => ?_).trans lens.map_id
  exact truncF64_realOfNat ((hlt l hl).trans (by decide))

/-- Distinct serialized symbols with as many lengths: each gets its length, and its code is what stands in the stream
behind the codes before it. -/
theorem hufCodes_stored (h : hufCodes s = .ok t) (hd : s.hufSymbols.Nodup)
    (hl : s.storedLengths.length = s.hufSymbols.length) :
    t.hb.base = s.cur ∧ t.hbPos = s.storedLengths.sum
      ∧ (∀ j x l, s.hufSymbols[j]? = some x → s.storedLengths[j]? = some l → t.lenAt x = l
        ∧ (0 < l → ∀ w, s.streamStart.SameBits w → w.hbPos = (s.storedLengths.take j).sum →
          peek w l = .ok (t.codeAt x)))
      ∧ ∀ x < s.huf.size.toNat, x ∉ s.hufSymbols → t.lenAt x = 0 := by
  obtain ⟨u, v, hu, hv, -, rfl⟩ := hufCodes_eq_ok h
  obtain ⟨hframe, hbase, -⟩ := readCodes_frame hv
  have hlen (x : Nat) : v.lenAt x = u.lenAt x := State.lenAt_congr (by rw [hframe]; rfl) x
  have hstored {j x l : Nat} (hx : s.hufSymbols[j]? = some x) (hl : s.storedLengths[j]? = some l) : u.lenAt x = l :=
    hufLengths_stored hu hd hx hl
  have hmap : s.hufSymbols.map u.lenAt = s.storedLengths := by
    refine List.ext_getElem (by rw [List.length_map, hl]) fun j hj hj' => ?_
    rw [List.getElem_map]
    exact hstored (List.getElem?_eq_getElem _) (List.getElem?_eq_getElem _)
  have h32 : ∀ x ∈ s.hufSymbols, u.lenAt x ≤ 32 := fun x hx =>
    (hufLengths_eq_ok hu).2.1 _ (hmap ▸ List.mem_map_of_mem hx)
  have hother : ∀ x < s.huf.size.toNat, x ∉ s.hufSymbols → v.lenAt x = 0 := fun x hx hsym => by
    rw [hlen]
    by_contra h0
    exact hsym ((hufLengths_lenAt hu hx).2.2 h0)
  obtain ⟨hsyms, hcur, hbits⟩ :
      u.hufSymbols = s.hufSymbols ∧ u.cur = s.cur ∧ u.streamStart.SameBits s.streamStart := by
    obtain ⟨-, -, rfl⟩ := hufLengths_eq_ok hu
    exact ⟨rfl, rfl, rfl, rfl, rfl⟩
  rw [hsyms] at hv
  obtain ⟨hpos, hread⟩ := readCodes_reads hv hd h32
  have hzero : u.streamStart.hbPos = 0 := rfl
  rw [hzero, Nat.zero_add] at hpos
  refine ⟨hbase.trans hcur, hpos.trans (congrArg List.sum hmap), fun j x l hx hl => ?_, hother⟩
  have hxl := hstored hx hl
  refine ⟨(hlen x).trans hxl, fun h0 w hw hwpos => ?_⟩
  subst hxl
  refine hread j x hx h0.ne' w (hbits.trans hw) ?_
  rw [hzero, Nat.zero_add, hwpos, ← hmap, ← List.map_take]
  rfl

end

section

variable {s t : State}

/-- The three rules between the records and operations of a Huffman body. -/
theorem due_of_hufRule (hseq : s.seq = .hufCodes ∨ s.seq = .hufAlign ∨ s.seq = .hufEnd) : due s = .ok none := by
  unfold due
  rcases hseq with hseq | hseq | hseq <;> rw [hseq]

theorem runRule_of_hufCodes (hseq : s.seq = .hufCodes) : runRule s = do return (← hufCodes s).goto .hufBuild := by
  unfold runRule
  rw [hseq]

/-- A step of the codes rule that takes no fault completes the rule. -/
theorem step_hufCodes_of_next (hp : s.port = []) (hb : s.busy = true) (hseq : s.seq = .hufCodes)
    (hstep : step s = .next t) (herr : t.err = false) :
    ∃ u, hufCodes s = .ok u ∧ t = { u with seq := .hufBuild, fresh := u.fresh + 1 } := by
  rw [step_of_rule hp hb (due_of_hufRule (.inl hseq)), runRule_of_hufCodes hseq] at hstep
  obtain ⟨v, hv, rfl⟩ := nextFree_eq_next.1 hstep
  rcases Rule.outcome_eq_next.1 hv with hv | hv
  · obtain ⟨u, hu, h⟩ := Rule.bind_ok.1 hv
    cases h
    exact ⟨u, hu, rfl⟩
  · rcases Rule.bind_error.1 hv with hv | ⟨_, _, hv⟩
    · obtain ⟨-, hfault, -⟩ := (hufCodes_runsFrom s.runsTo_rfl).2 v hv
      cases herr.symm.trans hfault
    · cases hv

end

/-- Settles O31: a step without a fault completed the rule, and the stored lengths and codes are those of its two reads
(R158, R162). -/
theorem storedCodesMakeTable : Obligations.StoredCodesMakeTable := by
  intro s t hp hb hseq hsize hstep herr hs
  obtain ⟨u, hu, rfl⟩ := step_hufCodes_of_next hp hb hseq hstep (herr.trans hs)
  have hready := hufCodes_tableReady hu hsize
  have hframe := hufCodes_frame hu
  refine ⟨⟨hready.size, hready.lengths, hready.codes, hready.prefixFree, hready.longest, hready.quickBits⟩,
    congrArg (fun x : State => { x with seq := .hufBuild, fresh := x.fresh + 1 }) hframe, ?_⟩
  intro lens hval hlt hcount hi hspan hwrap sym stream
  obtain ⟨v, -, hv, -⟩ := hufCodes_eq_ok hu
  obtain ⟨hcounted, hle, -⟩ := hufLengths_eq_ok hv
  have hlens : s.storedLengths = lens := State.storedLengths_of_val hval hlt
  have hlen : lens.length = s.hufSymbols.length := hcount.trans hcounted
  have hsym {j : Nat} (hj : j < lens.length) : s.hufSymbols[j]? = some (sym j) :=
    State.hufSymbols_getElem? (hj.trans_eq hlen)
  obtain ⟨hbase, hpos, hread, hzero⟩ := hufCodes_stored hu (State.hufSymbols_nodup hspan) (hlens ▸ hlen)
  rw [hlens] at hpos hread hle
  refine ⟨?_, hbase, hpos, fun j l hl => ?_, fun x hx hother => ?_⟩
  · rw [hlen, State.hufSymbols_length]
    omega
  · obtain ⟨hlenx, hcode⟩ := hread j (sym j) l (hsym (List.getElem?_eq_some_iff.1 hl).1) hl
    refine ⟨hlenx, fun h0 => hcode h0 _ ⟨rfl, rfl, rfl⟩ (State.setHbPos_hbPos _ ?_)⟩
    have hbits := List.sum_le_card_nsmul (lens.take j) 32 fun l hl => hle l (List.mem_of_mem_take hl)
    have htake := List.length_take_le' j lens
    have hnVal := s.t.nVal.isLt
    rw [smul_eq_mul] at hbits
    omega
  · refine hzero x hx fun hmem => ?_
    obtain ⟨j, hj, hxj⟩ := List.mem_iff_getElem.1 hmem
    have hj' : j < lens.length := hj.trans_eq hlen.symm
    exact hother j hj' (hxj.symm.trans (List.getElem?_eq_some_iff.1 (hsym hj')).2)

/-! ## The quick table (R166) -/

section

variable {s : State}

/-- The symbols with a code are those of nonzero length; of a checked table the code of each can be read. -/
theorem State.TableReady.hufEntries (h : s.TableReady) : s.hufEntries = .ok (s.coded.map s.entryAt) :=
  State.hufEntries_eq_ok.2 ⟨fun x hx => ⟨(h.lengths x hx).1, fun h0 => (h.codes x hx h0).1⟩, rfl⟩

/-- In a checked table at most one code begins a bit string: of two that do the shorter begins the longer. -/
theorem State.TableReady.eq_of_begins (h : s.TableReady) {x y n v : Nat} (hx : x ∈ s.coded) (hy : y ∈ s.coded)
    (hxn : s.lenAt x ≤ n) (hyn : s.lenAt y ≤ n) (hxv : v >>> (n - s.lenAt x) = s.codeAt x)
    (hyv : v >>> (n - s.lenAt y) = s.codeAt y) : x = y := by
  wlog hle : s.lenAt x ≤ s.lenAt y generalizing x y
  · exact (this hy hx hyn hxn hyv hxv (Nat.le_of_not_le hle)).symm
  obtain ⟨hxs, hx0⟩ := State.mem_coded.1 hx
  obtain ⟨hys, -⟩ := State.mem_coded.1 hy
  by_contra hne
  refine h.prefixFree x hxs y hys hne hx0 hle ?_
  rw [← hyv, ← hxv, ← Nat.shiftRight_add]
  congr 1
  omega

/-- The quick table's entry for a symbol. -/
def State.quickEntry (s : State) (x : Nat) : QEntry := { len := BitVec.ofNat 6 (s.lenAt x), sym := BitVec.ofNat 16 x }

/-- The cells of a code are the indices it begins. -/
theorem mem_quickCells {q a : Nat} {e : HufEntry} {v : QEntry} :
    (a, v) ∈ quickCells q e ↔ a >>> (q - e.len) = e.code
      ∧ v = { len := BitVec.ofNat 6 e.len, sym := BitVec.ofNat 16 e.sym } := by
  have hpos : 0 < 2 ^ (q - e.len) := by positivity
  simp only [quickCells, List.mem_map, List.mem_range, Prod.mk.injEq, Nat.shiftRight_eq_div_pow, Nat.shiftLeft_eq]
  constructor
  · rintro ⟨j, hj, rfl, rfl⟩
    refine ⟨?_, rfl⟩
    rw [Nat.mul_comm, Nat.mul_add_div hpos, Nat.div_eq_of_lt hj, Nat.add_zero]
  · rintro ⟨ha, rfl⟩
    exact ⟨a % 2 ^ (q - e.len), Nat.mod_lt _ hpos, by rw [← ha, Nat.div_add_mod'], rfl⟩

/-- The cells of all short codes. -/
def State.quickTable (s : State) : List (Nat × QEntry) :=
  ((s.coded.map s.entryAt).filter fun e => e.len ≤ s.huf.qBits.toNat).flatMap (quickCells s.huf.qBits.toNat)

/-- The cells of the table: an index that a short code begins, with that code's entry. -/
theorem mem_quickTable {a : Nat} {v : QEntry} :
    (a, v) ∈ s.quickTable ↔ ∃ x ∈ s.coded, s.lenAt x ≤ s.huf.qBits.toNat
      ∧ a >>> (s.huf.qBits.toNat - s.lenAt x) = s.codeAt x
      ∧ v = s.quickEntry x := by
  simp only [State.quickTable, List.mem_flatMap, List.mem_filter, List.mem_map, decide_eq_true_eq, mem_quickCells]
  constructor
  · rintro ⟨_, ⟨⟨x, hx, rfl⟩, hlen⟩, ha, rfl⟩
    exact ⟨x, hx, hlen, ha, rfl⟩
  · rintro ⟨x, hx, hlen, ha, rfl⟩
    exact ⟨_, ⟨⟨x, hx, rfl⟩, hlen⟩, ha, rfl⟩

/-- An index of the quick table that a code begins names its symbol. -/
theorem buildQuick_hit (h : s.TableReady) {x a : Nat} (hx : x ∈ s.coded) (hlen : s.lenAt x ≤ s.huf.qBits.toNat)
    (ha : a >>> (s.huf.qBits.toNat - s.lenAt x) = s.codeAt x) :
    Memory.read (buildQuick s (s.coded.map s.entryAt)).qt a = some (s.quickEntry x) := by
  refine Memory.read_writeAll_const _ _ ?_ ⟨_, mem_quickTable.2 ⟨x, hx, hlen, ha, rfl⟩, rfl⟩
  rintro ⟨_, v⟩ hc rfl
  obtain ⟨y, hy, hylen, hya, rfl⟩ := mem_quickTable.1 hc
  rw [h.eq_of_begins hx hy hlen hylen ha hya]

/-- Another index holds a miss, and behind the table nothing changes. -/
theorem buildQuick_miss {a : Nat} (ha : ∀ x ∈ s.coded, s.lenAt x ≤ s.huf.qBits.toNat →
      a >>> (s.huf.qBits.toNat - s.lenAt x) ≠ s.codeAt x) :
    Memory.read (buildQuick s (s.coded.map s.entryAt)).qt a =
      if a < 2 ^ s.huf.qBits.toNat then some { len := 0, sym := 0 } else Memory.read s.qt a := by
  have hnone : ∀ c ∈ s.quickTable, c.1 ≠ a := by
    rintro ⟨_, v⟩ hc rfl
    obtain ⟨x, hx, hlen, hxa, -⟩ := mem_quickTable.1 hc
    exact ha x hx hlen hxa
  refine (Memory.read_writeAll_other _ _ hnone).trans ?_
  split
  · next hlt =>
    rw [Memory.read_writeRange_zero _ _ (by simpa using hlt), List.getElem?_replicate_of_lt hlt]
    rfl
  · next hge => exact Memory.read_writeRange_zero_past _ _ (by simpa using hge)

/-- An index that a code begins lies inside the table. -/
theorem State.TableReady.lt_of_begins (h : s.TableReady) {x a : Nat} (hx : x ∈ s.coded)
    (hlen : s.lenAt x ≤ s.huf.qBits.toNat)
    (ha : a >>> (s.huf.qBits.toNat - s.lenAt x) = s.codeAt x) : a < 2 ^ s.huf.qBits.toNat := by
  obtain ⟨hxs, h0⟩ := State.mem_coded.1 hx
  have hcode := (h.codes x hxs h0).2
  rw [← ha, Nat.shiftRight_eq_div_pow, Nat.div_lt_iff_lt_mul (by positivity), ← pow_add] at hcode
  rwa [show s.lenAt x + (s.huf.qBits.toNat - s.lenAt x) = s.huf.qBits.toNat by omega] at hcode

end

/-! ## Bit strings -/

/-- The low `len` bits of a number, most significant first. -/
def bitString (len v : Nat) : List Bool := (List.range len).map fun j => (v >>> (len - 1 - j)) % 2 == 1

@[simp] theorem bitString_length (len v : Nat) : (bitString len v).length = len := by simp [bitString]

theorem bitString_succ (len v : Nat) : bitString (len + 1) v = bitString len (v / 2) ++ [v % 2 == 1] := by
  rw [bitString, List.range_succ, List.map_append, List.map_singleton]
  congr 1
  · refine List.map_congr_left fun j hj => ?_
    have hj := List.mem_range.1 hj
    rw [show len + 1 - 1 - j = 1 + (len - 1 - j) by omega, Nat.shiftRight_add, Nat.shiftRight_one]
  · simp

/-- The first bits are those of the number moved right. -/
theorem bitString_add (k n v : Nat) : ∃ rest, bitString (k + n) v = bitString k (v >>> n) ++ rest := by
  induction n generalizing v with
  | zero => exact ⟨[], by simp⟩
  | succ n ih =>
    obtain ⟨rest, hrest⟩ := ih (v / 2)
    refine ⟨rest ++ [v % 2 == 1], ?_⟩
    rw [← Nat.add_assoc, bitString_succ, hrest, List.append_assoc, Nat.add_comm n 1, Nat.shiftRight_add,
      Nat.shiftRight_one]

theorem bitString_inj {len v w : Nat} (hv : v < 2 ^ len) (hw : w < 2 ^ len) (h : bitString len v = bitString len w) :
    v = w := by
  induction len generalizing v w with
  | zero => omega
  | succ len ih =>
    rw [bitString_succ, bitString_succ] at h
    obtain ⟨hhigh, hlow⟩ := List.append_inj' h rfl
    have hhalf := ih (by omega) (by omega) hhigh
    have hbit : v % 2 = 1 ↔ w % 2 = 1 := by simpa using hlow
    omega

/-! ## The trie (R167) -/

section

/-- The node below a node, on a bit. -/
def trieChild (m : Memory TrieNode) (n : Nat) (bit : Bool) : Option Nat := (Memory.read m n).bind fun nd => nd.child bit

/-- The node at the end of a path. -/
def triePath (m : Memory TrieNode) : Nat → List Bool → Option Nat
  | n, [] => some n
  | n, b :: bs => (trieChild m n b).bind fun c => triePath m c bs

variable {m m' m'' : Memory TrieNode} {N N' N'' : Nat}

theorem triePath_append (n : Nat) (xs ys : List Bool) :
    triePath m n (xs ++ ys) = (triePath m n xs).bind fun c => triePath m c ys := by
  induction xs generalizing n with
  | nil => rfl
  | cons b xs ih =>
    rw [List.cons_append, triePath, triePath, Option.bind_assoc]
    simp only [ih]

@[simp] theorem TrieNode.child_link (n : TrieNode) (bit b : Bool) (c : Nat) :
    (n.link bit c).child b = if b = bit then some c else n.child b := by
  cases bit <;> cases b <;> rfl

@[simp] theorem TrieNode.link_leaf (n : TrieNode) (bit : Bool) (c : Nat) : (n.link bit c).leaf = n.leaf := by
  cases bit <;> rfl

@[simp] theorem TrieNode.link_sym (n : TrieNode) (bit : Bool) (c : Nat) : (n.link bit c).sym = n.sym := by
  cases bit <;> rfl

/-- An arena of `N` nodes that is a tree: every node is written, and a label tells for each the path that leads to it
from node 0. -/
structure IsTree (m : Memory TrieNode) (N : Nat) (label : Nat → List Bool) : Prop where
  root : 0 < N ∧ label 0 = []
  nodes : ∀ n < N, (Memory.read m n).isSome = true
  child : ∀ n < N, ∀ b c, trieChild m n b = some c → c < N ∧ label c = label n ++ [b]

/-- A path ends at the node that has it for its label. -/
theorem IsTree.path {label : Nat → List Bool} (h : IsTree m N label) {n c : Nat} {bits : List Bool} (hn : n < N)
    (hp : triePath m n bits = some c) : c < N ∧ label c = label n ++ bits := by
  induction bits generalizing n with
  | nil => cases hp; exact ⟨hn, (List.append_nil _).symm⟩
  | cons b bits ih =>
    obtain ⟨d, hd, hp⟩ := Option.bind_eq_some_iff.1 hp
    obtain ⟨hdN, hlabel⟩ := h.child n hn b d hd
    obtain ⟨hc, hcl⟩ := ih hdN hp
    exact ⟨hc, by rw [hcl, hlabel, List.append_assoc, List.singleton_append]⟩

/-- What a node says about the code that ends there. -/
def trieMark (m : Memory TrieNode) (n : Nat) : Option (Bool × BitVec 16) :=
  (Memory.read m n).map fun nd => (nd.leaf, nd.sym)

/-- An arena that has grown: the nodes and the links it had are there, the nodes with what they said; the new nodes are
no leaves. -/
structure Grows (m : Memory TrieNode) (N : Nat) (m' : Memory TrieNode) (N' : Nat) : Prop where
  le : N ≤ N'
  child : ∀ n < N, ∀ b c, trieChild m n b = some c → trieChild m' n b = some c
  mark : ∀ n < N, trieMark m' n = trieMark m n
  new : ∀ n, N ≤ n → n < N' → trieMark m' n = some (false, 0)

theorem Grows.refl : Grows m N m N :=
  ⟨le_rfl, fun _ _ _ _ h => h, fun _ _ => rfl, fun _ h h' => absurd h' (Nat.not_lt.2 h)⟩

theorem Grows.trans (h : Grows m N m' N') (h' : Grows m' N' m'' N'') : Grows m N m'' N'' where
  le := h.le.trans h'.le
  child n hn b c hc := h'.child n (hn.trans_le h.le) b c (h.child n hn b c hc)
  mark n hn := (h'.mark n (hn.trans_le h.le)).trans (h.mark n hn)
  new n hn hn' := by
    rcases Nat.lt_or_ge n N' with hlt | hge
    · rw [h'.mark n hlt, h.new n hn hlt]
    · exact h'.new n hge hn'

/-- Growing keeps the paths. -/
theorem Grows.path (h : Grows m N m' N') {label : Nat → List Bool} (ht : IsTree m N label) {n c : Nat}
    {bits : List Bool} (hn : n < N) (hp : triePath m n bits = some c) : triePath m' n bits = some c := by
  induction bits generalizing n with
  | nil => exact hp
  | cons b bits ih =>
    obtain ⟨d, hd, hp⟩ := Option.bind_eq_some_iff.1 hp
    exact Option.bind_eq_some_iff.2 ⟨d, h.child n hn b d hd, ih (ht.child n hn b d hd).1 hp⟩

/-- A new node `N` below a node that has none on the bit. -/
def growOne (m : Memory TrieNode) (N node : Nat) (nd : TrieNode) (bit : Bool) : Memory TrieNode :=
  Memory.write (Memory.write m N emptyNode) node (nd.link bit N)

variable {node : Nat} {nd : TrieNode} {bit : Bool}

theorem growOne_read (n : Nat) : Memory.read (growOne m N node nd bit) n =
    if n = node then some (nd.link bit N) else if n = N then some emptyNode else Memory.read m n := by
  rw [growOne, Memory.read_write, Memory.read_write]

theorem growOne_child (hnode : node < N) (hread : Memory.read m node = some nd) (n : Nat) (b : Bool) :
    trieChild (growOne m N node nd bit) n b =
      if n = node ∧ b = bit then some N else if n = N then none else trieChild m n b := by
  rw [trieChild, growOne_read]
  by_cases h : n = node
  · subst h
    by_cases hb : b = bit <;> simp [hb, trieChild, hread, hnode.ne]
  · by_cases hN : n = N
    · subst hN
      cases b <;> simp [h, emptyNode, TrieNode.child]
    · simp [h, hN, trieChild]

theorem growOne_grows (hnode : node < N) (hread : Memory.read m node = some nd) (hnone : nd.child bit = none) :
    Grows m N (growOne m N node nd bit) (N + 1) where
  le := N.le_succ
  child n hn b c hc := by
    rw [growOne_child hnode hread, if_neg, if_neg hn.ne, hc]
    rintro ⟨rfl, rfl⟩
    rw [trieChild, hread, Option.bind_some, hnone] at hc
    cases hc
  mark n hn := by
    rw [trieMark, trieMark, growOne_read, if_neg hn.ne]
    split
    · next h => subst h; simp [hread]
    · rfl
  new n hn hn' := by
    obtain rfl : n = N := by omega
    rw [trieMark, growOne_read, if_neg hnode.ne', if_pos rfl]
    rfl

theorem growOne_isTree {label : Nat → List Bool} (h : IsTree m N label) (hnode : node < N)
    (hread : Memory.read m node = some nd) :
    IsTree (growOne m N node nd bit) (N + 1) (Function.update label N (label node ++ [bit])) where
  root := ⟨N.succ_pos, by rw [Function.update_of_ne h.root.1.ne, h.root.2]⟩
  nodes n hn := by
    rw [growOne_read]
    split
    · rfl
    · split
      · rfl
      · exact h.nodes n (by omega)
  child n hn b c hc := by
    rw [growOne_child hnode hread] at hc
    split at hc
    · next hb =>
      obtain ⟨rfl, rfl⟩ := hb
      cases hc
      exact ⟨N.lt_succ_self, by rw [Function.update_self, Function.update_of_ne hnode.ne]⟩
    · split at hc
      · cases hc
      · next hne =>
        obtain ⟨hcN, hlabel⟩ := h.child n (by omega) b c hc
        refine ⟨hcN.trans N.lt_succ_self, ?_⟩
        rw [Function.update_of_ne hcN.ne, Function.update_of_ne hne, hlabel]

/-- A leaf put at a node. -/
def markLeaf (m : Memory TrieNode) (n : Nat) (nd : TrieNode) (sym : Nat) : Memory TrieNode :=
  Memory.write m n { nd with leaf := true, sym := BitVec.ofNat 16 sym }

theorem markLeaf_child {n : Nat} (hread : Memory.read m n = some nd) (sym k : Nat) (b : Bool) :
    trieChild (markLeaf m n nd sym) k b = trieChild m k b := by
  rw [trieChild, trieChild, markLeaf, Memory.read_write]
  split
  · next h => subst h; rw [hread]; rfl
  · rfl

theorem markLeaf_path {n : Nat} (hread : Memory.read m n = some nd) (sym k : Nat) (bits : List Bool) :
    triePath (markLeaf m n nd sym) k bits = triePath m k bits := by
  induction bits generalizing k with
  | nil => rfl
  | cons b bits ih => simp only [triePath, markLeaf_child hread, ih]

theorem markLeaf_mark {n : Nat} (sym k : Nat) :
    trieMark (markLeaf m n nd sym) k = if k = n then some (true, BitVec.ofNat 16 sym) else trieMark m k := by
  rw [trieMark, markLeaf, Memory.read_write]
  split <;> rfl

theorem markLeaf_isTree {label : Nat → List Bool} (h : IsTree m N label) {n : Nat} (hread : Memory.read m n = some nd)
    (sym : Nat) : IsTree (markLeaf m n nd sym) N label where
  root := h.root
  nodes k hk := by
    rw [markLeaf, Memory.read_write]
    split
    · rfl
    · exact h.nodes k hk
  child k hk b c hc := h.child k hk b c (markLeaf_child hread sym k b ▸ hc)

/-- An insertion grows the arena along the bits and puts a leaf at their end. -/
theorem trieInsert_spec {s : State} {label : Nat → List Bool} {node sym : Nat} {bits : List Bool}
    (ht : IsTree s.trie s.huf.nNodes.toNat label) (hnode : node < s.huf.nNodes.toNat)
    (hroom : s.huf.nNodes.toNat + bits.length < 4294967296) :
    ∃ (u : State) (label' : Nat → List Bool) (n : Nat) (nd : TrieNode),
      trieInsert sym bits node s = .ok { u with trie := markLeaf u.trie n nd sym }
      ∧ Grows s.trie s.huf.nNodes.toNat u.trie u.huf.nNodes.toNat
      ∧ u.huf.nNodes.toNat ≤ s.huf.nNodes.toNat + bits.length
      ∧ IsTree u.trie u.huf.nNodes.toNat label' ∧ (∀ k < s.huf.nNodes.toNat, label' k = label k)
      ∧ triePath u.trie node bits = some n ∧ Memory.read u.trie n = some nd := by
  induction bits generalizing s label node with
  | nil =>
    obtain ⟨nd, hnd⟩ := Option.isSome_iff_exists.1 (ht.nodes node hnode)
    refine ⟨s, label, node, nd, ?_, .refl, le_rfl, ht, fun _ _ => rfl, rfl, hnd⟩
    rw [trieInsert, hnd, written_some, Rule.ok_bind]
    rfl
  | cons bit bits ih =>
    obtain ⟨nd, hnd⟩ := Option.isSome_iff_exists.1 (ht.nodes node hnode)
    rw [List.length_cons] at hroom
    rw [trieInsert, hnd, written_some, Rule.ok_bind]
    cases hchild : nd.child bit with
    | some c =>
      have hstep : trieChild s.trie node bit = some c := by rw [trieChild, hnd]; exact hchild
      obtain ⟨u, label', n, nd', hrun, hgrow, hle, htree, hlabel, hpath, hread⟩ :=
        ih ht (ht.child node hnode bit c hstep).1 (by omega)
      refine ⟨u, label', n, nd', hrun, hgrow, by rw [List.length_cons]; omega, htree, hlabel, ?_, hread⟩
      rw [triePath, hgrow.child node hnode bit c hstep]
      exact hpath
    | none =>
      have hgrown := growOne_grows hnode hnd hchild
      have htree := growOne_isTree (bit := bit) ht hnode hnd
      obtain ⟨s1, hs1, htrie⟩ : ∃ s1 : State, s1 = { s with
          trie := growOne s.trie s.huf.nNodes.toNat node nd bit, huf := { s.huf with nNodes := s.huf.nNodes + 1#32 } }
          ∧ s1.trie = growOne s.trie s.huf.nNodes.toNat node nd bit := ⟨_, rfl, rfl⟩
      have hcount : s1.huf.nNodes.toNat = s.huf.nNodes.toNat + 1 := by
        rw [hs1, BitVec.toNat_add]
        exact Nat.mod_eq_of_lt (by simp; omega)
      rw [← htrie, ← hcount] at hgrown htree
      obtain ⟨u, label', n, nd', hrun, hgrow, hle, htree', hlabel, hpath, hread⟩ :=
        ih (s := s1) (node := s.huf.nNodes.toNat) htree (by omega) (by omega)
      have hlink : trieChild s1.trie node bit = some s.huf.nNodes.toNat := by
        rw [htrie, growOne_child hnode hnd, if_pos ⟨rfl, rfl⟩]
      refine ⟨u, label', n, nd', ?_, hgrown.trans hgrow, by rw [List.length_cons]; omega, htree', fun k hk => ?_, ?_,
        hread⟩
      · rw [← hrun, hs1]
        rfl
      · rw [hlabel k (by omega), Function.update_of_ne hk.ne]
      · rw [triePath, hgrow.child node (by omega) bit _ hlink]
        exact hpath

end

/-! ## The trie of a list of codes (R167) -/

/-- The arena is the trie of these codes: each leads to a leaf with its symbol, and a leaf stands only at the end of
one. -/
structure TrieHolds (m : Memory TrieNode) (N : Nat) (label : Nat → List Bool) (es : List HufEntry) : Prop where
  tree : IsTree m N label
  found : ∀ e ∈ es, ∃ n, triePath m 0 (codeBits e) = some n ∧ trieMark m n = some (true, BitVec.ofNat 16 e.sym)
  leaf : ∀ n < N, ∀ sym, trieMark m n = some (true, sym) → ∃ e ∈ es, label n = codeBits e

section

variable {s : State} {label : Nat → List Bool} {es : List HufEntry}

/-- A code that is not there yet is inserted. -/
theorem trieInsert_holds (h : TrieHolds s.trie s.huf.nNodes.toNat label es) {e : HufEntry}
    (hnew : ∀ d ∈ es, codeBits d ≠ codeBits e) (hroom : s.huf.nNodes.toNat + e.len < 4294967296) :
    ∃ (t : State) (label' : Nat → List Bool), trieInsert e.sym (codeBits e) 0 s = .ok t
      ∧ TrieHolds t.trie t.huf.nNodes.toNat label' (es ++ [e])
      ∧ t.huf.nNodes.toNat ≤ s.huf.nNodes.toNat + e.len := by
  have hlen : (codeBits e).length = e.len := bitString_length _ _
  rw [← hlen] at hroom ⊢
  obtain ⟨u, label', n, nd, hrun, hgrow, hle, htree, hlabel, hpath, hread⟩ :=
    trieInsert_spec (sym := e.sym) h.tree h.tree.root.1 hroom
  obtain ⟨hn, hnl⟩ := htree.path htree.root.1 hpath
  rw [htree.root.2, List.nil_append] at hnl
  refine ⟨_, label', hrun, ⟨markLeaf_isTree htree hread e.sym, fun d hd => ?_, fun k hk sym hmark => ?_⟩, hle⟩
  · rw [markLeaf_path hread]
    rcases List.mem_append.1 hd with hd | hd
    · obtain ⟨k, hk, hmark⟩ := h.found d hd
      obtain ⟨hkN, hkl⟩ := h.tree.path h.tree.root.1 hk
      rw [h.tree.root.2, List.nil_append, ← hlabel k hkN] at hkl
      have hkn : k ≠ n := by
        rintro rfl
        exact hnew d hd (hkl.symm.trans hnl)
      exact ⟨k, hgrow.path h.tree h.tree.root.1 hk, by rw [markLeaf_mark, if_neg hkn, hgrow.mark k hkN, hmark]⟩
    · cases List.mem_singleton.1 hd
      exact ⟨n, hpath, by rw [markLeaf_mark, if_pos rfl]⟩
  · rw [markLeaf_mark] at hmark
    split at hmark
    · next hkn => exact ⟨e, List.mem_append_right es (List.mem_singleton_self e), hkn ▸ hnl⟩
    · rcases Nat.lt_or_ge k s.huf.nNodes.toNat with hlt | hge
      · obtain ⟨d, hd, hdl⟩ := h.leaf k hlt sym (hgrow.mark k hlt ▸ hmark)
        exact ⟨d, List.mem_append_left [e] hd, (hlabel k hlt).trans hdl⟩
      · rw [hgrow.new k hge hk] at hmark
        cases hmark

/-- Distinct codes are all inserted. -/
theorem trieInsertAll_holds {more : List HufEntry} (h : TrieHolds s.trie s.huf.nNodes.toNat label es)
    (hd : ((es ++ more).map codeBits).Nodup)
    (hroom : s.huf.nNodes.toNat + (more.map HufEntry.len).sum < 4294967296) :
    ∃ (t : State) (label' : Nat → List Bool), trieInsertAll more s = .ok t
      ∧ TrieHolds t.trie t.huf.nNodes.toNat label' (es ++ more) := by
  induction more generalizing s label es with
  | nil => exact ⟨s, label, rfl, by rwa [List.append_nil]⟩
  | cons e more ih =>
    rw [List.map_cons, List.sum_cons] at hroom
    have hnew : ∀ d ∈ es, codeBits d ≠ codeBits e := by
      rw [List.map_append, List.map_cons, List.nodup_append] at hd
      exact fun d hmem => hd.2.2 _ (List.mem_map_of_mem hmem) _ List.mem_cons_self
    obtain ⟨u, label', hrun, hu, hle⟩ := trieInsert_holds h hnew (by omega)
    rw [← List.singleton_append, ← List.append_assoc] at hd ⊢
    obtain ⟨t, label'', hrun', ht⟩ := ih hu hd (by omega)
    exact ⟨t, label'', Rule.bind_ok.2 ⟨u, hrun, hrun'⟩, ht⟩

/-- The arena with the root alone. -/
theorem emptyTrie_holds (m : Memory TrieNode) : TrieHolds (Memory.write m 0 emptyNode) 1 (fun _ => []) [] where
  tree := {
    root := ⟨Nat.one_pos, rfl⟩
    nodes := fun n hn => by
      obtain rfl : n = 0 := by omega
      rw [Memory.read_write_same]
      rfl
    child := fun n hn b c hc => by
      obtain rfl : n = 0 := by omega
      rw [trieChild, Memory.read_write_same] at hc
      cases b <;> cases hc }
  found := nofun
  leaf n hn sym hmark := by
    obtain rfl : n = 0 := by omega
    rw [trieMark, Memory.read_write_same] at hmark
    cases hmark

end

/-! ## `HUF.BUILD` (R166, R167) -/

section

variable {s t : State}

/-- The symbols whose codes are longer than the quick table's index. -/
def State.longCoded (s : State) : List Nat := s.coded.filter fun x => s.huf.qBits.toNat < s.lenAt x

theorem State.mem_longCoded {x : Nat} : x ∈ s.longCoded ↔ x ∈ s.coded ∧ s.huf.qBits.toNat < s.lenAt x := by
  simp [State.longCoded]

/-- The two lookup structures are those of the table. -/
structure State.Built (s : State) : Prop where
  table : s.TableReady
  hit : ∀ x ∈ s.coded, ∀ a, s.lenAt x ≤ s.huf.qBits.toNat →
    a >>> (s.huf.qBits.toNat - s.lenAt x) = s.codeAt x → Memory.read s.qt a = some (s.quickEntry x)
  miss : ∀ a < 2 ^ s.huf.qBits.toNat, (∀ x ∈ s.coded, s.lenAt x ≤ s.huf.qBits.toNat →
    a >>> (s.huf.qBits.toNat - s.lenAt x) ≠ s.codeAt x) → Memory.read s.qt a = some { len := 0, sym := 0 }
  trie : ∃ N label, TrieHolds s.trie N label (s.longCoded.map s.entryAt)

/-- Distinct symbols of a checked table have distinct codes. -/
theorem State.TableReady.codeBits_nodup (h : s.TableReady) {xs : List Nat} (hd : xs.Nodup)
    (hxs : ∀ x ∈ xs, x ∈ s.coded) : ((xs.map s.entryAt).map codeBits).Nodup := by
  rw [List.map_map]
  refine hd.map_on fun x hx y hy hxy => ?_
  obtain ⟨hxs', hx0⟩ := State.mem_coded.1 (hxs x hx)
  obtain ⟨hys', hy0⟩ := State.mem_coded.1 (hxs y hy)
  have hxy : bitString (s.lenAt x) (s.codeAt x) = bitString (s.lenAt y) (s.codeAt y) := hxy
  have hlen : s.lenAt x = s.lenAt y := by simpa using congrArg List.length hxy
  rw [hlen] at hxy
  have hcode := bitString_inj (hlen ▸ (h.codes x hxs' hx0).2) (h.codes y hys' hy0).2 hxy
  refine h.eq_of_begins (v := s.codeAt y) (hxs x hx) (hxs y hy) hlen.le le_rfl ?_ ?_
  · rw [hlen, Nat.sub_self, Nat.shiftRight_zero, hcode]
  · rw [Nat.sub_self, Nat.shiftRight_zero]

/-- The codes of a checked table have no more bits in all than there are nodes for. -/
theorem State.TableReady.longCoded_bits_le (h : s.TableReady) :
    ((s.longCoded.map s.entryAt).map HufEntry.len).sum ≤ 65536 * 32 := by
  have hbits := List.sum_le_card_nsmul ((s.longCoded.map s.entryAt).map HufEntry.len) 32 fun l hl => by
    obtain ⟨e, he, rfl⟩ := List.mem_map.1 hl
    obtain ⟨x, hx, rfl⟩ := List.mem_map.1 he
    exact (h.lengths x (State.mem_coded.1 (State.mem_longCoded.1 hx).1).1).2
  have hcoded : s.longCoded.length ≤ s.huf.size.toNat :=
    ((List.length_filter_le _ _).trans (List.length_filter_le _ _)).trans_eq List.length_range
  have hsize := h.size
  rw [List.length_map, List.length_map, smul_eq_mul] at hbits
  omega

/-- `HUF.BUILD` on a checked table builds both structures, and leaves the rest of the state and of the quick table. -/
theorem hufBuild_of_ready (h : s.TableReady) :
    ∃ t, hufBuild s = .ok t
      ∧ t = { s with qt := t.qt, trie := t.trie, huf := { s.huf with nNodes := t.huf.nNodes } }
      ∧ t.qt = (buildQuick s (s.coded.map s.entryAt)).qt ∧ t.Built := by
  have hlong : (s.coded.map s.entryAt).filter (fun e => decide (s.huf.qBits.toNat < e.len))
      = s.longCoded.map s.entryAt := by
    rw [List.filter_map]
    rfl
  have hnodup : s.longCoded.Nodup := (List.nodup_range.filter _).filter _
  have hdistinct := h.codeBits_nodup hnodup fun x hx => (State.mem_longCoded.1 hx).1
  have hbits := h.longCoded_bits_le
  obtain ⟨s2, hs2, htrie, hcount⟩ : ∃ s2 : State, s2 = { buildQuick s (s.coded.map s.entryAt) with
      trie := Memory.write s.trie 0 emptyNode, huf := { s.huf with nNodes := 1#32 } }
      ∧ s2.trie = Memory.write s.trie 0 emptyNode ∧ s2.huf.nNodes.toNat = 1 := ⟨_, rfl, rfl, rfl⟩
  have hempty : TrieHolds s2.trie s2.huf.nNodes.toNat (fun _ => []) [] := by
    rw [htrie, hcount]
    exact emptyTrie_holds s.trie
  obtain ⟨t, label, hrun, ht⟩ := trieInsertAll_holds (more := s.longCoded.map s.entryAt) hempty hdistinct (by omega)
  have hframe := trieInsertAll_frame.2 t hrun
  rw [hs2] at hframe
  have hqt : t.qt = (buildQuick s (s.coded.map s.entryAt)).qt := by rw [hframe]
  have hbuild : hufBuild s = .ok t := by
    rw [hufBuild, h.hufEntries, Rule.ok_bind]
    dsimp only
    rw [hlong, ← hrun, hs2]
    rfl
  obtain ⟨qt, trie, n, rfl⟩ :
      ∃ qt trie n, t = { s with qt := qt, trie := trie, huf := { s.huf with nNodes := n } } :=
    ⟨t.qt, t.trie, t.huf.nNodes, by rw [hframe]; rfl⟩
  refine ⟨_, hbuild, rfl, hqt, ?_⟩
  constructor
  case table => exact ⟨h.size, h.lengths, h.codes, h.prefixFree, h.longest, h.quickBits⟩
  case hit => exact fun x hx a hlen ha => (congrArg (Memory.read · a) hqt).trans (buildQuick_hit h hx hlen ha)
  case miss =>
    exact fun a ha hno => (congrArg (Memory.read · a) hqt).trans ((buildQuick_miss (s := s) hno).trans (if_pos ha))
  case trie => exact ⟨_, label, ht⟩

end

/-- Settles O32: the quick table by hit, miss and the indices behind it (R166). -/
theorem hufBuildResult : Obligations.HufBuildResult := by
  intro s h
  obtain ⟨t, hrun, hframe, hqt, -⟩ := hufBuild_of_ready h
  have hmem {x : Nat} (hx : x < s.huf.size.toNat) (h0 : 0 < s.lenAt x) : x ∈ s.coded := State.mem_coded.2 ⟨hx, h0⟩
  refine ⟨t, Rule.outcome_eq_next.2 (.inl hrun), hframe, fun x q hx h0 hlen hq => ?_, fun q hlt hno => ?_,
    fun q hge => ?_⟩
  · rw [hqt]
    exact buildQuick_hit h (hmem hx h0) hlen hq
  · rw [hqt, buildQuick_miss, if_pos hlt]
    intro x hx
    obtain ⟨hxs, h0⟩ := State.mem_coded.1 hx
    exact hno x hxs h0
  · rw [hqt, buildQuick_miss, if_neg (Nat.not_lt.2 hge)]
    intro x hx hlen hq
    exact absurd (h.lt_of_begins hx hlen hq) (Nat.not_lt.2 hge)

/-! ## The descent (R168) -/

section

variable {s : State} {N left taken node c v p : Nat} {label : Nat → List Bool}

/-- The bits ahead begin with the code of the symbol. -/
def State.comesNext (s : State) (x : Nat) : Prop := peek s (s.lenAt x) = .ok (s.codeAt x)

theorem trieChild_eq_some {m : Memory TrieNode} {n : Nat} {b : Bool} (h : trieChild m n b = some c) :
    ∃ nd, Memory.read m n = some nd ∧ nd.child b = some c := Option.bind_eq_some_iff.1 h

theorem trieMark_eq_some {m : Memory TrieNode} {n : Nat} {leaf : Bool} {sym : BitVec 16}
    (h : trieMark m n = some (leaf, sym)) : ∃ nd, Memory.read m n = some nd ∧ nd.leaf = leaf ∧ nd.sym = sym := by
  obtain ⟨nd, hnd, he⟩ := Option.map_eq_some_iff.1 h
  cases he
  exact ⟨nd, hnd, rfl, rfl⟩

/-- One bit further, to a node that is there: a leaf answers its symbol. -/
theorem trieDescend_of_child (hp : peek s (taken + 1) = .ok p) (hc : trieChild s.trie node (p % 2 == 1) = some c)
    {leaf : Bool} {sym : BitVec 16} (hm : trieMark s.trie c = some (leaf, sym)) :
    trieDescend s (left + 1) taken node =
      if leaf then .ok (sym.toNat, taken + 1) else trieDescend s left (taken + 1) c := by
  obtain ⟨nd, hnd, hchild⟩ := trieChild_eq_some hc
  obtain ⟨md, hmd, rfl, rfl⟩ := trieMark_eq_some hm
  rw [trieDescend, hp, Rule.ok_bind, hnd, written_some, Rule.ok_bind, hchild]
  dsimp only
  rw [hmd]
  rfl

/-- No node on the bit: no code begins like this. -/
theorem trieDescend_of_noChild (hp : peek s (taken + 1) = .ok p) (hn : (Memory.read s.trie node).isSome = true)
    (hc : trieChild s.trie node (p % 2 == 1) = none) :
    trieDescend s (left + 1) taken node = raise s .hufCode s.hbAddr := by
  obtain ⟨nd, hnd⟩ := Option.isSome_iff_exists.1 hn
  rw [trieChild, hnd, Option.bind_some] at hc
  rw [trieDescend, hp, Rule.ok_bind, hnd, written_some, Rule.ok_bind, hc]

theorem peek_zero (s : State) : peek s 0 = .ok 0 := rfl

/-- The bits seen so far are the first of those seen one further. -/
theorem peek_half (hv : peek s taken = .ok v) (hp : peek s (taken + 1) = .ok p) : v = p / 2 := by
  have := peek_shift (n := 1) hp
  rw [hv] at this
  exact Except.ok.inj this

/-- A path along the bits ahead, one bit further. -/
theorem triePath_peek_succ (hv : peek s taken = .ok v) (hp : peek s (taken + 1) = .ok p)
    (hpath : triePath s.trie 0 (bitString taken v) = some node) :
    triePath s.trie 0 (bitString (taken + 1) p) = trieChild s.trie node (p % 2 == 1) := by
  rw [bitString_succ, ← peek_half hv hp, triePath_append, hpath, Option.bind_some, triePath]
  exact Option.bind_fun_some _

/-- A leaf on the way along the bits ahead ends the code of the symbol that comes next. -/
theorem TrieHolds.comesNext_of_leaf (hs : s.TableReady) (ht : TrieHolds s.trie N label (s.longCoded.map s.entryAt))
    (hp : peek s taken = .ok p) (hpath : triePath s.trie 0 (bitString taken p) = some c) {sym : BitVec 16}
    (hm : trieMark s.trie c = some (true, sym)) : ∃ y ∈ s.longCoded, s.lenAt y = taken ∧ s.comesNext y := by
  obtain ⟨hcN, hlabel⟩ := ht.tree.path ht.tree.root.1 hpath
  obtain ⟨e, he, hel⟩ := ht.leaf c hcN sym hm
  obtain ⟨y, hy, rfl⟩ := List.mem_map.1 he
  rw [hlabel, ht.tree.root.2, List.nil_append] at hel
  have hel : bitString taken p = bitString (s.lenAt y) (s.codeAt y) := hel
  obtain rfl : taken = s.lenAt y := by simpa using congrArg List.length hel
  obtain ⟨hys, hy0⟩ := State.mem_coded.1 (State.mem_longCoded.1 hy).1
  refine ⟨y, hy, rfl, ?_⟩
  rw [State.comesNext, hp, bitString_inj (peek_lt hp) (hs.codes y hys hy0).2 hel]

/-- Of a checked table one code at most comes next. -/
theorem State.TableReady.comesNext_unique (hs : s.TableReady) {x y : Nat} (hx : x ∈ s.coded) (hy : y ∈ s.coded)
    (hxn : s.comesNext x) (hyn : s.comesNext y) : x = y := by
  wlog hle : s.lenAt x ≤ s.lenAt y generalizing x y
  · exact (this hy hx hyn hxn (Nat.le_of_not_le hle)).symm
  refine hs.eq_of_begins (v := s.codeAt y) hx hy hle le_rfl ?_ (by rw [Nat.sub_self, Nat.shiftRight_zero])
  have hshift := peek_shift (m := s.lenAt x) (n := s.lenAt y - s.lenAt x) (by rwa [Nat.add_sub_cancel' hle])
  rw [Nat.shiftRight_eq_div_pow]
  exact (Except.ok.inj (hxn.symm.trans hshift)).symm

theorem State.comesNext.peek {x k : Nat} (h : s.comesNext x) (hk : k ≤ s.lenAt x) :
    peek s k = .ok (s.codeAt x >>> (s.lenAt x - k)) := by
  rw [Nat.shiftRight_eq_div_pow]
  exact peek_shift (by rwa [Nat.add_sub_cancel' hk])

/-- The descent finds the long code that comes next. -/
theorem trieDescend_of_comesNext (hs : s.TableReady) (ht : TrieHolds s.trie N label (s.longCoded.map s.entryAt))
    {x : Nat} (hx : x ∈ s.longCoded) (hnext : s.comesNext x) (hlo : taken < s.lenAt x) (hhi : s.lenAt x ≤ taken + left)
    (hv : peek s taken = .ok v) (hpath : triePath s.trie 0 (bitString taken v) = some node) :
    trieDescend s left taken node = .ok (x, s.lenAt x) := by
  induction left generalizing taken node v with
  | zero => omega
  | succ left ih =>
    have hp := hnext.peek (k := taken + 1) hlo
    obtain ⟨n, hn, hmark⟩ := ht.found _ (List.mem_map_of_mem hx)
    have hxlt : x < 65536 := (State.mem_coded.1 (State.mem_longCoded.1 hx).1).1.trans_le hs.size
    obtain ⟨rest, hrest⟩ := bitString_add (taken + 1) (s.lenAt x - (taken + 1)) (s.codeAt x)
    rw [Nat.add_sub_cancel' hlo] at hrest
    have hn : triePath s.trie 0 (bitString (s.lenAt x) (s.codeAt x)) = some n := hn
    rw [hrest, triePath_append] at hn
    obtain ⟨c, hc, hcn⟩ := Option.bind_eq_some_iff.1 hn
    have hchild := (triePath_peek_succ hv hp hpath).symm.trans hc
    obtain ⟨hcN, -⟩ := ht.tree.path ht.tree.root.1 hc
    obtain ⟨nd, hnd⟩ := Option.isSome_iff_exists.1 (ht.tree.nodes c hcN)
    have hcmark : trieMark s.trie c = some (nd.leaf, nd.sym) := by rw [trieMark, hnd]; rfl
    have hend (hlen : s.lenAt x = taken + 1) : nd.leaf = true ∧ nd.sym = BitVec.ofNat 16 x := by
      have hrestlen := congrArg List.length hrest
      rw [List.length_append, bitString_length, bitString_length] at hrestlen
      obtain rfl := List.length_eq_zero_iff.1 (show rest.length = 0 by omega)
      cases hcn
      exact Prod.mk.inj (Option.some.inj (hcmark.symm.trans hmark))
    rw [trieDescend_of_child hp hchild hcmark]
    cases hleaf : nd.leaf with
    | true =>
      obtain ⟨y, hy, hylen, hynext⟩ := ht.comesNext_of_leaf hs hp hc (hleaf ▸ hcmark)
      obtain rfl := hs.comesNext_unique (State.mem_longCoded.1 hy).1 (State.mem_longCoded.1 hx).1 hynext hnext
      rw [if_pos rfl, (hend hylen).2, BitVec.toNat_ofNat, Nat.mod_eq_of_lt hxlt, hylen]
    | false =>
      have hlt : taken + 1 < s.lenAt x := lt_of_le_of_ne hlo fun h => by
        cases hleaf.symm.trans (hend h.symm).1
      exact ih hlt (by omega) hp hc

/-- Where no long code comes next the descent ends in `E_HUFF_CODE`. -/
theorem trieDescend_of_none (hs : s.TableReady) (ht : TrieHolds s.trie N label (s.longCoded.map s.entryAt))
    (hready : s.bitsReady) (hnone : ∀ x ∈ s.longCoded, ¬ s.comesNext x) (hv : peek s taken = .ok v)
    (hpath : triePath s.trie 0 (bitString taken v) = some node) :
    trieDescend s left taken node = raise s .hufCode s.hbAddr := by
  induction left generalizing taken node v with
  | zero => rfl
  | succ left ih =>
    obtain ⟨p, hp⟩ := peek_of_ready hready (taken + 1)
    have hstep := triePath_peek_succ hv hp hpath
    cases hc : trieChild s.trie node (p % 2 == 1) with
    | none => exact trieDescend_of_noChild hp (ht.tree.nodes node (ht.tree.path ht.tree.root.1 hpath).1) hc
    | some c =>
      have hcpath := hstep.trans hc
      obtain ⟨hcN, -⟩ := ht.tree.path ht.tree.root.1 hcpath
      obtain ⟨nd, hnd⟩ := Option.isSome_iff_exists.1 (ht.tree.nodes c hcN)
      have hcmark : trieMark s.trie c = some (nd.leaf, nd.sym) := by rw [trieMark, hnd]; rfl
      rw [trieDescend_of_child hp hc hcmark]
      cases hleaf : nd.leaf with
      | true =>
        obtain ⟨y, hy, -, hynext⟩ := ht.comesNext_of_leaf hs hp hcpath (hleaf ▸ hcmark)
        exact absurd hynext (hnone y hy)
      | false => exact ih hp hcpath

end

/-! ## One symbol (R168) -/

section

variable {s t : State}

/-- A hit of the quick table: the entry's symbol, behind its bits. -/
theorem hufSym_of_hit {q : Nat} {e : QEntry} (hq : peek s s.huf.qBits.toNat = .ok q) (he : Memory.read s.qt q = some e)
    (h0 : e.len ≠ 0#6) : hufSym s = consume s e.len.toNat >>= fun t => .ok (e.sym.toNat, t) := by
  rw [hufSym, hq, Rule.ok_bind, he, written_some, Rule.ok_bind, if_pos h0]
  rfl

/-- A miss: what the descent answers. -/
theorem hufSym_of_miss {q : Nat} {e : QEntry} (hq : peek s s.huf.qBits.toNat = .ok q) (he : Memory.read s.qt q = some e)
    (h0 : e.len = 0#6) :
    hufSym s = trieDescend s s.huf.maxLen.toNat 0 0 >>= fun r => consume s r.2 >>= fun t => .ok (r.1, t) := by
  rw [hufSym, hq, Rule.ok_bind, he, written_some, Rule.ok_bind, if_neg (not_not.2 h0)]
  rfl

/-- An index of the quick table begins with a code exactly when that code comes next. -/
theorem comesNext_iff_begins {q x : Nat} (hq : peek s s.huf.qBits.toNat = .ok q)
    (hlen : s.lenAt x ≤ s.huf.qBits.toNat) :
    s.comesNext x ↔ q >>> (s.huf.qBits.toNat - s.lenAt x) = s.codeAt x := by
  have hshift := peek_shift (m := s.lenAt x) (n := s.huf.qBits.toNat - s.lenAt x) (by rwa [Nat.add_sub_cancel' hlen])
  rw [State.comesNext, hshift, Nat.shiftRight_eq_div_pow, Except.ok.injEq]

/-- Over the built structures: the symbol whose code comes next, behind its code. -/
theorem hufSym_of_comesNext (h : s.Built) (hready : s.bitsReady) {x : Nat} (hx : x ∈ s.coded)
    (hnext : s.comesNext x) : hufSym s = consume s (s.lenAt x) >>= fun t => .ok (x, t) := by
  obtain ⟨hs, hhit, hmiss, N, label, ht⟩ := h
  obtain ⟨q, hq⟩ := peek_of_ready hready s.huf.qBits.toNat
  obtain ⟨hxs, h0⟩ := State.mem_coded.1 hx
  rcases Nat.lt_or_ge s.huf.qBits.toNat (s.lenAt x) with hlong | hshort
  · have hx' := State.mem_longCoded.2 ⟨hx, hlong⟩
    have hentry := hmiss q (peek_lt hq) fun y hy hlen hyq => by
      obtain rfl := hs.comesNext_unique hy hx ((comesNext_iff_begins hq hlen).2 hyq) hnext
      omega
    rw [hufSym_of_miss hq hentry rfl, trieDescend_of_comesNext hs ht hx' hnext h0 (by have := hs.longest.1 x hxs; omega)
      (peek_zero s) rfl]
    rfl
  · have hentry := hhit x hx q hshort ((comesNext_iff_begins hq hshort).1 hnext)
    have hlen : (s.quickEntry x).len.toNat = s.lenAt x := by
      have := (hs.lengths x hxs).2
      rw [State.quickEntry, BitVec.toNat_ofNat]
      omega
    have hsym : (s.quickEntry x).sym.toNat = x := by
      rw [State.quickEntry, BitVec.toNat_ofNat]
      exact Nat.mod_eq_of_lt (hxs.trans_le hs.size)
    rw [hufSym_of_hit hq hentry (fun h => by rw [h] at hlen; exact h0.ne hlen), hlen, hsym]

/-- Where no code comes next it is `E_HUFF_CODE`. -/
theorem hufSym_of_none (h : s.Built) (hready : s.bitsReady) (hnone : ∀ x ∈ s.coded, ¬ s.comesNext x) :
    hufSym s = raise s .hufCode s.hbAddr := by
  obtain ⟨hs, hhit, hmiss, N, label, ht⟩ := h
  obtain ⟨q, hq⟩ := peek_of_ready hready s.huf.qBits.toNat
  have hentry := hmiss q (peek_lt hq) fun y hy hlen hyq => hnone y hy ((comesNext_iff_begins hq hlen).2 hyq)
  rw [hufSym_of_miss hq hentry rfl, trieDescend_of_none hs ht hready
    (fun x hx => hnone x (State.mem_longCoded.1 hx).1) (peek_zero s) rfl]
  rfl

/-- `HUF.SYM` delivers the symbol in the result register (log 19). -/
theorem exec_hufSym (s : State) : exec .hufSym s =
    Rule.outcome (hufSym s >>= fun r => .ok { r.2 with opResult := BitVec.ofNat 64 r.1 }) := rfl

theorem exec_hufSym_of_ok {x : Nat} (h : hufSym s = .ok (x, t)) :
    exec .hufSym s = .next { t with opResult := BitVec.ofNat 64 x } := by
  rw [exec_hufSym, h]
  rfl

theorem exec_hufSym_of_raise {code : ErrCode} {info : Nat} (h : hufSym s = raise s code info) :
    faultedWith (exec .hufSym s) code info := by
  rw [exec_hufSym, h]
  exact faultedWith_raise ..

/-! ## Alignment and the end of the data (R165, R179) -/

theorem runRule_of_hufAlign (hseq : s.seq = .hufAlign) : runRule s = do return (← hufAlign s).goto .hufPlane := by
  unfold runRule
  rw [hseq]

theorem runRule_of_hufEnd (hseq : s.seq = .hufEnd) : runRule s = do return (← hufEnd s).goto .l2Stats := by
  unfold runRule
  rw [hseq]

theorem bit_pos_iff {b : BitVec 6} : 0 < b.toNat ↔ b ≠ 0#6 := by
  rw [Nat.pos_iff_ne_zero, BitVec.toNat_ne]
  rfl

/-- A word begun is left for the next (R165). -/
theorem hufAlign_eq (s : State) : hufAlign s = .ok { s with
    hb := if 0 < s.hb.bit.toNat then { s.hb with widx := s.hb.widx + 1, bit := 0 } else s.hb } := by
  by_cases h : s.hb.bit = 0#6
  · rw [hufAlign, if_pos h, if_neg (by rw [h]; decide)]
  · rw [hufAlign, if_neg h, if_pos (bit_pos_iff.2 h)]
    rfl

/-- The word begun and one word of padding lie inside the buffer, or it is `E_TRUNC` (R179). -/
theorem hufEnd_eq (s : State) :
    let stop := s.hb.base.toNat + 4 * (s.hb.widx.toNat + (if 0 < s.hb.bit.toNat then 1 else 0) + 1)
    hufEnd s =
      if s.inLen.toNat < stop then raise s .trunc s.hbAddr else .ok { s with cur := BitVec.ofNat 32 stop } := by
  have hword : (if s.hb.bit = 0#6 then 0 else 1) = if 0 < s.hb.bit.toNat then 1 else 0 := by
    by_cases h : s.hb.bit = 0#6
    · rw [if_pos h, if_neg (by rw [h]; decide)]
    · rw [if_neg h, if_pos (bit_pos_iff.2 h)]
  rw [← hword]
  exact raiseIf_bind ..

end

/-- Settles O33: a hit of the quick table; over the built structures the code that comes next, or none (R168); the rules
of R165 and R179. -/
theorem hufSymDecodes : Obligations.HufSymDecodes := by
  intro s
  refine ⟨fun q e hq he h0 hc => ?_, fun u hu hbuild hready => ?_, fun hp hb hseq => ?_, fun hp hb hseq => ?_⟩
  · refine exec_hufSym_of_ok ?_
    rw [hufSym_of_hit hq he h0, consume, if_pos hc]
    rfl
  · obtain ⟨t, ht, -, -, hbuilt⟩ := hufBuild_of_ready hu
    obtain rfl : t = s := by
      rcases Rule.outcome_eq_next.1 hbuild with h | h
      · exact Except.ok.inj (ht.symm.trans h)
      · cases ht.symm.trans h
    refine ⟨fun x hx h0 hnext => ?_, fun hnone =>
      exec_hufSym_of_raise (hufSym_of_none hbuilt hready fun x hx => ?_)⟩
    · have hrun := hufSym_of_comesNext hbuilt hready (State.mem_coded.2 ⟨hx, h0⟩) hnext
      rw [consume] at hrun
      split
      · next hc =>
        rw [if_pos hc] at hrun
        exact exec_hufSym_of_ok hrun
      · next hc =>
        rw [if_neg hc] at hrun
        exact exec_hufSym_of_raise hrun
    · obtain ⟨hxs, h0⟩ := State.mem_coded.1 hx
      exact hnone x hxs h0
  · exact step_of_rule_ok hp hb (due_of_hufRule (.inr (.inl hseq))) (by rw [runRule_of_hufAlign hseq, hufAlign_eq]; rfl)
  · have hrule := runRule_of_hufEnd hseq
    rw [hufEnd_eq] at hrule
    intro used stop
    split
    · next hlt =>
      rw [if_pos hlt] at hrule
      exact step_faultedWith_of_rule hp hb (due_of_hufRule (.inr (.inr hseq))) hrule
    · next hge =>
      rw [if_neg hge] at hrule
      exact step_of_rule_ok hp hb (due_of_hufRule (.inr (.inr hseq))) hrule

/-! ## A symbol at a place of the stream (R168) -/

section

variable {s t u : State} {p : Memory Elem} {prev : Byte}

/-- The state of a plane under way: the cursor at a position, some `PIX`, some last value. -/
def State.onPlane (s : State) (pos : Nat) (p : Memory Elem) (prev : Byte) : State :=
  { s.setHbPos pos with pix := p, hpPrev := prev }

theorem State.setHbPos_self (h : s.hb.bit.toNat < 32) : s.setHbPos s.hbPos = s := by
  have hw : BitVec.ofNat 32 (s.hbPos / 32) = s.hb.widx := by
    apply BitVec.eq_of_toNat_eq
    have := s.hb.widx.isLt
    rw [BitVec.toNat_ofNat, State.hbPos]
    omega
  have hb : BitVec.ofNat 6 (s.hbPos % 32) = s.hb.bit := by
    apply BitVec.eq_of_toNat_eq
    rw [BitVec.toNat_ofNat, State.hbPos]
    omega
  rw [State.setHbPos, hw, hb]

/-- A plane begins in the state as it is. -/
theorem State.onPlane_self (h : s.hb.bit.toNat < 32) : s.onPlane s.hbPos s.pix s.hpPrev = s := by
  rw [State.onPlane, State.setHbPos_self h]

/-- Two states decode the same symbol: the same bits ahead, the same table. -/
structure State.SameSymbol (s u : State) : Prop where
  inMem : u.inMem = s.inMem
  inLen : u.inLen = s.inLen
  hb : u.hb = s.hb
  huf : u.huf = s.huf
  qt : u.qt = s.qt
  trie : u.trie = s.trie

theorem State.SameSymbol.peek (h : s.SameSymbol u) (m : Nat) : peek u m = Machine.peek s m :=
  peek_congr ⟨h.inMem, h.inLen, by rw [h.hb]⟩ (by rw [State.hbPos, State.hbPos, h.hb]) m

theorem State.SameSymbol.trieDescend (h : s.SameSymbol u) {left taken node : Nat} {r : Nat × Nat}
    (hr : trieDescend s left taken node = .ok r) : Machine.trieDescend u left taken node = .ok r := by
  induction left generalizing taken node with
  | zero => cases hr
  | succ left ih =>
    obtain ⟨bits, hbits, hr⟩ := Rule.bind_ok.1 hr
    obtain ⟨n, hn, hr⟩ := Rule.bind_ok.1 hr
    rw [Machine.trieDescend, h.peek, hbits, Rule.ok_bind, h.trie, hn, Rule.ok_bind]
    cases hc : n.child (bits % 2 == 1) with
    | none => rw [hc] at hr; cases hr
    | some c =>
      rw [hc] at hr
      obtain ⟨m, hm, hr⟩ := Rule.bind_ok.1 hr
      dsimp only
      rw [hm, Rule.ok_bind]
      split at hr
      · next hleaf => rw [if_pos hleaf]; exact hr
      · next hleaf => rw [if_neg hleaf]; exact ih hr

theorem State.SameSymbol.consume (h : s.SameSymbol u) {m : Nat} (ht : consume s m = .ok t) :
    Machine.consume u m = .ok { u with hb := t.hb } := by
  obtain ⟨hc, rfl⟩ := consume_eq_ok.1 ht
  have hpos : u.hbPos = s.hbPos := by rw [State.hbPos, State.hbPos, h.hb]
  refine consume_eq_ok.2 ⟨?_, ?_⟩
  · unfold State.consumable State.bitByte
    rw [hpos, h.hb, h.inLen]
    exact hc
  · have hcursor : (s.setHbPos (s.hbPos + m)).hb = (u.setHbPos (s.hbPos + m)).hb := by
      rw [State.setHbPos_hb, State.setHbPos_hb, h.hb]
    rw [hpos, hcursor]
    rfl

theorem State.SameSymbol.hufSym (h : s.SameSymbol u) {x : Nat} (hx : hufSym s = .ok (x, t)) :
    Machine.hufSym u = .ok (x, { u with hb := t.hb }) := by
  obtain ⟨q, hq, hx⟩ := Rule.bind_ok.1 hx
  obtain ⟨e, he, hx⟩ := Rule.bind_ok.1 hx
  refine Rule.bind_ok.2 ⟨q, by rw [h.huf, h.peek, hq], Rule.bind_ok.2 ⟨e, by rw [h.qt, he], ?_⟩⟩
  split at hx
  · next h0 =>
    obtain ⟨v, hv, hx⟩ := Rule.bind_ok.1 hx
    cases hx
    exact (if_pos h0).trans (Rule.bind_ok.2 ⟨_, h.consume hv, rfl⟩)
  · next h0 =>
    obtain ⟨r, hr, hx⟩ := Rule.bind_ok.1 hx
    obtain ⟨v, hv, hx⟩ := Rule.bind_ok.1 hx
    cases hx
    have hdescend := h.trieDescend hr
    rw [← h.huf] at hdescend
    exact (if_neg h0).trans (Rule.bind_ok.2 ⟨r, hdescend, Rule.bind_ok.2 ⟨_, h.consume hv, rfl⟩⟩)

/-- A symbol of the stream is the same in the middle of a plane. -/
theorem hufSym_onPlane {pos len x : Nat} (h : hufSym (s.setHbPos pos) = .ok (x, s.setHbPos (pos + len))) :
    hufSym (s.onPlane pos p prev) = .ok (x, s.onPlane (pos + len) p prev) :=
  State.SameSymbol.hufSym (s := s.setHbPos pos) (u := s.onPlane pos p prev) ⟨rfl, rfl, rfl, rfl, rfl, rfl⟩ h

/-- The stream spells two lists one after the other. -/
theorem State.spells_append {stop pos : Nat} {xs ys : List Nat} (h : s.spells stop pos (xs ++ ys)) :
    ∃ mid, s.spells mid pos xs ∧ s.spells stop mid ys := by
  induction xs generalizing pos with
  | nil => exact ⟨pos, rfl, h⟩
  | cons x xs ih =>
    obtain ⟨len, hsym, h⟩ := h
    obtain ⟨mid, hxs, hys⟩ := ih h
    exact ⟨mid, ⟨len, hsym, hxs⟩, hys⟩

/-! ## The samples of a plane in `PIX` (R170) -/

/-- The key of a (dimension, pixel) pair. -/
def State.sampleKey (s : State) (c : Nat × Nat) : Nat := pixKey s.band.toNat (c.1 * s.np + c.2)

/-- The cells that store values at (dimension, pixel) pairs. -/
def State.sampleCells (s : State) (cs : List (Nat × Nat)) (vals : List F64) : List (Nat × Elem) :=
  (cs.zip vals).map fun c => s.pixCell s.h.etype s.band.toNat (c.1.1 * s.np + c.1.2) c.2

theorem State.sampleKey_inj {c e : Nat × Nat} (hc : c.2 < s.np) (he : e.2 < s.np)
    (h : s.sampleKey c = s.sampleKey e) : c = e := by
  have hkey : c.1 * s.np + c.2 = e.1 * s.np + e.2 := by
    simpa [State.sampleKey, pixKey] using h
  have hdim : c.1 = e.1 := by
    have hdiv := congrArg (· / s.np) hkey
    simpa only [Nat.mul_comm _ s.np, Nat.mul_add_div (Nat.zero_lt_of_lt hc), Nat.div_eq_of_lt hc, Nat.div_eq_of_lt he,
      Nat.add_zero] using hdiv
  rw [hdim] at hkey
  exact Prod.ext hdim (Nat.add_left_cancel hkey)

theorem State.mem_sampleCells_key {cs : List (Nat × Nat)} {vals : List F64} {c : Nat × Elem}
    (h : c ∈ s.sampleCells cs vals) : ∃ e ∈ cs, c.1 = s.sampleKey e := by
  obtain ⟨⟨e, v⟩, hmem, rfl⟩ := List.mem_map.1 h
  exact ⟨e, (List.of_mem_zip hmem).1, rfl⟩

/-- Values stored at distinct pairs are each found at its place. -/
theorem State.read_sampleCells {cs : List (Nat × Nat)} {vals : List F64} (hd : cs.Nodup)
    (hcs : ∀ c ∈ cs, c.2 < s.np) {i : Nat} {c : Nat × Nat} {v : F64} (hc : cs[i]? = some c) (hv : vals[i]? = some v) :
    ∃ e, Memory.read (Memory.writeAll p (s.sampleCells cs vals)) (s.sampleKey c) = some e
      ∧ storesAs s.h.etype v e := by
  have hkeys : ((s.sampleCells cs vals).map Prod.fst).Nodup := by
    have hmap : (s.sampleCells cs vals).map Prod.fst = ((cs.zip vals).map Prod.fst).map s.sampleKey := by
      rw [State.sampleCells, List.map_map, List.map_map]
      rfl
    rw [hmap]
    exact (hd.map_on fun c hc e he => s.sampleKey_inj (hcs c hc) (hcs e he)).sublist
      ((fst_zip_sublist cs vals).map _)
  have hmem : (c, v) ∈ cs.zip vals := List.mem_of_getElem? (List.getElem?_zip_eq_some.2 ⟨hc, hv⟩)
  exact ⟨_, Memory.read_writeAll_mem _ _ hkeys (List.mem_map.2 ⟨(c, v), hmem, rfl⟩), (s.pixCell_storesAs ..).2⟩

theorem State.read_sampleCells_other {cs : List (Nat × Nat)} {vals : List F64} {key : Nat}
    (h : ∀ c ∈ cs, key ≠ s.sampleKey c) :
    Memory.read (Memory.writeAll p (s.sampleCells cs vals)) key = Memory.read p key := by
  refine Memory.read_writeAll_other _ _ fun c hc => ?_
  obtain ⟨e, he, hkey⟩ := State.mem_sampleCells_key hc
  rw [hkey]
  exact (h e he).symm

end

/-- The place of a pair in a list of pairs, the first component outermost. -/
theorem getElem?_flatMap_map {α β γ : Type} {f : α → β → γ} {xs : List α} {ys : List β} {i j : Nat} {x : α}
    {y : β} (hx : xs[i]? = some x) (hy : ys[j]? = some y) :
    (xs.flatMap fun x => ys.map (f x))[i * ys.length + j]? = some (f x y) := by
  have hj := (List.getElem?_eq_some_iff.1 hy).1
  induction xs generalizing i with
  | nil => cases hx
  | cons a xs ih =>
    rw [List.flatMap_cons]
    cases i with
    | zero =>
      cases hx
      rw [List.getElem?_append_left (by simpa using hj), Nat.zero_mul, Nat.zero_add, List.getElem?_map, hy]
      rfl
    | succ i =>
      rw [List.getElem?_append_right (by rw [List.length_map, Nat.add_one_mul]; omega), List.length_map,
        Nat.add_one_mul, show i * ys.length + ys.length + j - ys.length = i * ys.length + j by omega]
      exact ih hx

section

variable {s : State}

theorem State.mem_validAmong {ks : List Nat} {k : Nat} : k ∈ s.validAmong ks ↔ k ∈ ks ∧ s.isValid k = true :=
  List.mem_filter

theorem State.mem_validPixels {k : Nat} : k ∈ s.validAmong s.pixels ↔ k < s.np ∧ s.isValid k = true := by
  rw [State.mem_validAmong, State.pixels, List.mem_range]

/-- A pixel exists, so a row has pixels. -/
theorem State.width_pos {k : Nat} (hk : k < s.np) : 0 < s.h.width.toNat :=
  Nat.pos_of_mul_pos_right (Nat.zero_lt_of_lt hk)

theorem hufPlane_delta_of_ready (hm : s.maskReady s.pixels) :
    hufPlane s .delta = deltaDims (s.validAmong s.pixels) (List.range s.h.nDim.toNat) s :=
  Rule.bind_of_ok _ (State.validOf_of_ready hm)

/-! ## Without accumulation (R173) -/

/-- The (dimension, pixel) pairs in the order of the symbols: the dimensions of a pixel adjacent. -/
def State.plainPairs (s : State) : List (Nat × Nat) :=
  (s.validAmong s.pixels).flatMap fun k => (List.range s.h.nDim.toNat).map fun d => (d, k)

theorem State.mem_plainPairs {c : Nat × Nat} :
    c ∈ s.plainPairs ↔ c.1 < s.h.nDim.toNat ∧ c.2 ∈ s.validAmong s.pixels := by
  obtain ⟨d, k⟩ := c
  simp [State.plainPairs, and_comm]

theorem State.plainPairs_nodup : s.plainPairs.Nodup := by
  have hswap : s.plainPairs = (s.validAmong s.pixels ×ˢ List.range s.h.nDim.toNat).map Prod.swap := by
    change _ = ((s.validAmong s.pixels).flatMap fun k => (List.range s.h.nDim.toNat).map (Prod.mk k)).map Prod.swap
    simp only [State.plainPairs, List.map_flatMap, List.map_map, Function.comp_def, Prod.swap_prod_mk]
  rw [hswap]
  exact ((State.validAmong_nodup s.pixels_nodup).product List.nodup_range).map Prod.swap_injective

theorem State.plainPairs_length : s.plainPairs.length = (s.validAmong s.pixels).length * s.h.nDim.toNat := by
  simp [State.plainPairs, List.length_flatMap]

theorem State.plainPairs_getElem? {z k d : Nat} (hz : (s.validAmong s.pixels)[z]? = some k) (hd : d < s.h.nDim.toNat) :
    s.plainPairs[z * s.h.nDim.toNat + d]? = some (d, k) := by
  have hplace := getElem?_flatMap_map (f := fun k d => (d, k)) hz (List.getElem?_range hd)
  rwa [List.length_range] at hplace

theorem hufPlane_plain_of_ready (hm : s.maskReady s.pixels) :
    hufPlane s .plain = planeLoop plainSample s.plainPairs s :=
  Rule.bind_of_ok _ (State.validOf_of_ready hm)

/-- The value of a symbol. -/
def State.plainValue (s : State) (x : Nat) : F64 := realOfInt ((x : Int) - s.bias)

/-- Samples one after another: each symbol's value at its pair, the cursor behind the last. -/
theorem planeLoop_plain {stop pos : Nat} {p : Memory Elem} {prev : Byte} {cs : List (Nat × Nat)} {xs : List Nat}
    (hl : xs.length = cs.length) (h : s.spells stop pos xs) :
    planeLoop plainSample cs (s.onPlane pos p prev)
      = .ok (s.onPlane stop (Memory.writeAll p (s.sampleCells cs (xs.map s.plainValue))) prev) := by
  induction cs generalizing xs pos p with
  | nil =>
    obtain rfl := List.length_eq_zero_iff.1 hl
    cases h
    rfl
  | cons c cs ih =>
    cases xs with
    | nil => cases hl
    | cons x xs =>
      obtain ⟨len, hsym, h⟩ := h
      have hsample : plainSample (s.onPlane pos p prev) c.1 c.2 = .ok (s.onPlane (pos + len)
          (Memory.writeAll p (s.sampleCells [c] [s.plainValue x])) prev) := by
        exact Rule.bind_ok.2 ⟨_, hufSym_onPlane hsym, rfl⟩
      rw [planeLoop, hsample, Rule.ok_bind, ih (by simpa using hl) h, ← Memory.writeAll_append]
      rfl

end

/-- Settles O34: the loop over the pairs, the cells it writes being distinct. -/
theorem hufPlanePlainResult : Obligations.HufPlanePlainResult := by
  intro s syms stop ks n hm hbit hlen hspells
  have hrun := planeLoop_plain (p := s.pix) (prev := s.hpPrev) (hlen.trans State.plainPairs_length.symm) hspells
  rw [State.onPlane_self hbit] at hrun
  refine ⟨_, Rule.outcome_eq_next.2 (.inl ((hufPlane_plain_of_ready hm).trans hrun)), rfl,
    fun z k d x hz hd hx => ?_, fun key hkey => ?_⟩
  · refine State.read_sampleCells State.plainPairs_nodup (fun c hc => ?_) (State.plainPairs_getElem? hz hd)
      (by rw [List.getElem?_map, hx]; rfl)
    exact (State.mem_validPixels.1 (State.mem_plainPairs.1 hc).2).1
  · refine State.read_sampleCells_other fun c hc => ?_
    obtain ⟨hd, hk⟩ := State.mem_plainPairs.1 hc
    exact hkey c.2 hk c.1 hd

/-! ## With accumulation: the predictor (R171) -/

section

variable {s : State} {p : Memory Elem} {prev : Byte} {pos d k : Nat}

/-- The left neighbour is a valid pixel of the row (R171). -/
def State.leftValid (s : State) (k : Nat) : Prop := k % s.h.width.toNat ≠ 0 ∧ s.isValid (k - 1) = true

/-- The sample above is a valid pixel (R171). -/
def State.aboveValid (s : State) (k : Nat) : Prop := s.h.width.toNat ≤ k ∧ s.isValid (k - s.h.width.toNat) = true

/-- A pixel's predictor, the values of the dimension's valid pixels `ks` before it being `val`: the last value, but the
sample above where only that is valid. -/
structure State.Predicts (s : State) (ks : List Nat) (val : Nat → Byte) (z k : Nat) (pred : Byte) : Prop where
  last : s.leftValid k ∨ ¬ s.aboveValid k → pred = if z = 0 then 0 else val (z - 1)
  above : ¬ s.leftValid k → s.aboveValid k → ∀ z' < z, ks[z']? = some (k - s.h.width.toNat) → pred = val z'

/-- Only the values before the pixel matter. -/
theorem State.Predicts.congr {ks : List Nat} {val val' : Nat → Byte} {z : Nat} {pred : Byte}
    (h : s.Predicts ks val z k pred) (hv : ∀ z' < z, val' z' = val z') : s.Predicts ks val' z k pred where
  last hl := by
    rw [h.last hl]
    split
    · rfl
    · rw [hv (z - 1) (by omega)]
  above hl ha z' hz hk := (h.above hl ha z' hz hk).trans (hv z' hz).symm

theorem State.valid_of_ready (hm : s.maskReady s.pixels) (hk : k < s.np) : s.valid k = .ok (s.isValid k) :=
  State.valid_eq_ok.2 ⟨fun hp => hm hp k (List.mem_range.2 hk), rfl⟩

/-- A test that decides what is read first. -/
theorem Rule.ite_bind_of_ok {α β : Type} {c : Prop} [Decidable c] {x y : Rule α} {a : α} (f : α → Rule β)
    (h : (if c then x else y) = .ok a) : (if c then x >>= f else y >>= f) = f a := by
  split at h
  · next hc => rw [if_pos hc, h, Rule.ok_bind]
  · next hc => rw [if_neg hc, h, Rule.ok_bind]

/-- The two tests of the predictor. -/
theorem predictor_eq (hm : s.maskReady s.pixels) (hk : k < s.np) (left above : Bool)
    (hleft : left = true ↔ s.leftValid k) (habove : above = true ↔ s.aboveValid k) :
    predictor (s.onPlane pos p prev) d k = if left then .ok prev.toNat else if above then do
        return (← (s.onPlane pos p prev).readPix s.band.toNat (d * s.np + k - s.h.width.toNat)).byte
      else .ok prev.toNat := by
  have htest {c : Prop} [Decidable c] {j : Nat} {b : Bool} (hj : j < s.np)
      (hb : b = true ↔ ¬ c ∧ s.isValid j = true) :
      (if c then (.ok false : Rule Bool) else (s.onPlane pos p prev).valid j) = .ok b := by
    have hvalid : (s.onPlane pos p prev).valid j = .ok (s.isValid j) := State.valid_of_ready hm hj
    rw [hvalid]
    by_cases hc : c
    · rw [if_pos hc, Bool.eq_false_iff.2 fun h => (hb.1 h).1 hc]
    · rw [if_neg hc]
      congr 1
      rw [Bool.eq_iff_iff, hb]
      exact ⟨fun h => ⟨hc, h⟩, fun h => h.2⟩
  have hl := htest (c := k % s.h.width.toNat = 0) (j := k - 1) (by omega) hleft
  have ha := htest (c := k < s.h.width.toNat) (j := k - s.h.width.toNat) (by omega)
    (habove.trans (and_congr_left' Nat.not_lt.symm))
  refine (Rule.ite_bind_of_ok _ hl).trans ?_
  cases left
  · exact Rule.ite_bind_of_ok _ ha
  · rfl

/-- Where the left neighbour is valid, or the sample above is not, it is the last value. -/
theorem predictor_of_last (hm : s.maskReady s.pixels) (hk : k < s.np) (h : s.leftValid k ∨ ¬ s.aboveValid k) :
    predictor (s.onPlane pos p prev) d k = .ok prev.toNat := by
  classical
  rw [predictor_eq hm hk (decide (s.leftValid k)) (decide (s.aboveValid k)) decide_eq_true_iff decide_eq_true_iff]
  rcases h with h | h
  · rw [if_pos (decide_eq_true h)]
  · rw [if_neg (c := decide (s.aboveValid k) = true) (by simpa using h), ite_self]

/-- Where only the sample above is valid, it is that. -/
theorem predictor_of_above (hm : s.maskReady s.pixels) (hk : k < s.np) (hl : ¬ s.leftValid k) (ha : s.aboveValid k)
    {e : Elem} (he : Memory.read p (s.sampleKey (d, k - s.h.width.toNat)) = some e) :
    predictor (s.onPlane pos p prev) d k = .ok e.byte := by
  classical
  rw [predictor_eq hm hk (decide (s.leftValid k)) (decide (s.aboveValid k)) decide_eq_true_iff decide_eq_true_iff,
    if_neg (by simpa using hl), if_pos (decide_eq_true ha), Nat.add_sub_assoc ha.1]
  have hread : (s.onPlane pos p prev).readPix s.band.toNat (d * s.np + (k - s.h.width.toNat)) = .ok e :=
    State.readPix_eq_ok.2 he
  rw [hread]
  rfl

/-! ## A dimension's values (R171) -/

/-- The values of the pixels done are in `PIX`. -/
def State.RowStored (s : State) (d : Nat) (p : Memory Elem) (done : List Nat) (ws : List Byte) : Prop :=
  ∀ z k, done[z]? = some k → ∃ e, Memory.read p (s.sampleKey (d, k)) = some e ∧ e.byte = (ws.getD z 0).toNat

theorem byte_of_storesAs {ty : EType} {v8 : Byte} {e : Elem} (h : storesAs ty (s.planeValue v8) e) :
    e.byte = v8.toNat := by
  obtain ⟨nan, rfl⟩ := h
  exact byte_storeElem_planeValue s nan ty v8

/-- One more value stored. -/
theorem State.RowStored.snoc {done : List Nat} {ws : List Byte} (h : s.RowStored d p done ws)
    (hl : ws.length = done.length) (hk : k ∉ done) (hnp : ∀ j ∈ done ++ [k], j < s.np) (v8 : Byte) :
    s.RowStored d (Memory.writeAll p (s.sampleCells [(d, k)] [s.planeValue v8])) (done ++ [k]) (ws ++ [v8]) := by
  have hknp : k < s.np := hnp k (by simp)
  intro z j hj
  rcases Nat.lt_or_ge z done.length with hz | hz
  · rw [List.getElem?_append_left hz] at hj
    have hmem := List.mem_of_getElem? hj
    have hother : ∀ c ∈ [(d, k)], s.sampleKey (d, j) ≠ s.sampleKey c := fun c hc hkey => by
      obtain rfl := List.mem_singleton.1 hc
      cases s.sampleKey_inj (hnp j (List.mem_append_left _ hmem)) hknp hkey
      exact hk hmem
    rw [State.read_sampleCells_other hother, List.getD_append _ _ _ _ (hl ▸ hz)]
    exact h z j hj
  · have hlen := (List.getElem?_eq_some_iff.1 hj).1
    rw [List.length_append, List.length_singleton] at hlen
    obtain rfl : z = done.length := by omega
    rw [List.getElem?_concat_length] at hj
    cases hj
    obtain ⟨e, he, hstored⟩ := State.read_sampleCells (p := p) (List.nodup_singleton (d, k))
      (fun c hc => by obtain rfl := List.mem_singleton.1 hc; exact hknp) (i := 0) rfl
      (vals := [s.planeValue v8]) (v := s.planeValue v8) rfl
    refine ⟨e, he, (byte_of_storesAs hstored).trans ?_⟩
    rw [← hl, List.getD_append_right _ _ _ _ le_rfl, Nat.sub_self]
    rfl

theorem State.validPixels_sorted (s : State) : (s.validAmong s.pixels).Pairwise (· < ·) :=
  List.pairwise_lt_range.filter _

/-- The value before a pixel, and 0 before the first (R171). -/
def lastValue (ws : List Byte) : Byte := if ws.length = 0 then 0 else ws.getD (ws.length - 1) 0

/-- The predictor of the next pixel can be read, and is the one of R171. -/
theorem exists_predictor {done rest : List Nat} {ws : List Byte} (hm : s.maskReady s.pixels)
    (hks : s.validAmong s.pixels = done ++ k :: rest) (h : s.RowStored d p done ws) (hl : ws.length = done.length) :
    ∃ pred : Byte, predictor (s.onPlane pos p (lastValue ws)) d k = .ok pred.toNat
      ∧ s.Predicts (s.validAmong s.pixels) (fun z => ws.getD z 0) done.length k pred := by
  have hk : k < s.np := (State.mem_validPixels.1 (hks ▸ List.mem_append_right done List.mem_cons_self)).1
  have hsorted := s.validPixels_sorted
  by_cases hlast : s.leftValid k ∨ ¬ s.aboveValid k
  · refine ⟨lastValue ws, predictor_of_last hm hk hlast, fun _ => by rw [lastValue, hl], fun hnl ha => ?_⟩
    exact absurd hlast (not_or.2 ⟨hnl, not_not.2 ha⟩)
  · obtain ⟨hnl, ha⟩ := not_or.1 hlast
    have ha := not_not.1 ha
    have hw := State.width_pos hk
    have hmem : k - s.h.width.toNat ∈ s.validAmong s.pixels := State.mem_validPixels.2 ⟨by omega, ha.2⟩
    have hdone : k - s.h.width.toNat ∈ done := by
      rw [hks] at hmem hsorted
      obtain ⟨-, hrest, -⟩ := List.pairwise_append.1 hsorted
      have hafter := (List.pairwise_cons.1 hrest).1
      rcases List.mem_append.1 hmem with hmem | hmem
      · exact hmem
      · have hle := ha.1
        rcases List.mem_cons.1 hmem with heq | hmem
        · omega
        · have := hafter _ hmem
          omega
    obtain ⟨z, hz⟩ := List.mem_iff_getElem?.1 hdone
    obtain ⟨e, he, hbyte⟩ := h z _ hz
    refine ⟨ws.getD z 0, hbyte ▸ predictor_of_above hm hk hnl ha he, fun hl' => absurd hl' hlast,
      fun _ _ z' hz' hk' => ?_⟩
    have hzlen := (List.getElem?_eq_some_iff.1 hz).1
    have hz'' : done[z']? = done[z]? := by
      rw [hz, ← hk', hks, List.getElem?_append_left hz']
    have hnodup : done.Nodup := by
      have := State.validAmong_nodup (s := s) s.pixels_nodup
      rw [hks] at this
      exact (List.nodup_append.1 this).1
    rw [(List.getElem?_inj hz' hnodup).1 hz'']

/-- The value of a pixel: its residual and its predictor, modulo 256. -/
def State.deltaValue (s : State) (x : Nat) (pred : Byte) : Byte := BitVec.ofInt 8 ((x : Int) - s.bias + pred.toNat)

theorem deltaPixel_onPlane {len x : Nat} {pred : Byte}
    (hsym : hufSym (s.setHbPos pos) = .ok (x, s.setHbPos (pos + len)))
    (hpred : predictor (s.onPlane (pos + len) p prev) d k = .ok pred.toNat) :
    deltaPixel (s.onPlane pos p prev) d k = .ok (s.onPlane (pos + len)
      (Memory.writeAll p (s.sampleCells [(d, k)] [s.planeValue (s.deltaValue x pred)])) (s.deltaValue x pred)) :=
  Rule.bind_ok.2 ⟨_, hufSym_onPlane hsym, Rule.bind_ok.2 ⟨_, hpred, rfl⟩⟩

theorem lastValue_concat (ws : List Byte) (v8 : Byte) : lastValue (ws ++ [v8]) = v8 := by
  rw [lastValue, List.length_append, List.length_singleton, if_neg (Nat.succ_ne_zero _), Nat.add_sub_cancel,
    List.getD_append_right _ _ _ _ le_rfl, Nat.sub_self]
  rfl

/-- The rest of a dimension: each value stored at its pixel, residual and predictor of R171. -/
theorem planeLoop_delta {stop : Nat} {done rest : List Nat} {ws : List Byte} {xs : List Nat}
    (hm : s.maskReady s.pixels) (hks : s.validAmong s.pixels = done ++ rest) (h : s.RowStored d p done ws)
    (hl : ws.length = done.length) (hx : xs.length = rest.length) (hspells : s.spells stop pos xs) :
    ∃ vs : List Byte, vs.length = rest.length
      ∧ planeLoop deltaPixel (rest.map (Prod.mk d)) (s.onPlane pos p (lastValue ws)) = .ok (s.onPlane stop
          (Memory.writeAll p (s.sampleCells (rest.map (Prod.mk d)) (vs.map s.planeValue))) (lastValue (ws ++ vs)))
      ∧ ∀ z k, rest[z]? = some k → ∃ pred,
        s.Predicts (s.validAmong s.pixels) (fun z => (ws ++ vs).getD z 0) (done.length + z) k pred
          ∧ vs[z]? = some (s.deltaValue (xs.getD z 0) pred) := by
  induction rest generalizing done ws xs pos p with
  | nil =>
    obtain rfl := List.length_eq_zero_iff.1 hx
    cases hspells
    exact ⟨[], rfl, by rw [List.append_nil]; rfl, nofun⟩
  | cons k rest ih =>
    cases xs with
    | nil => cases hx
    | cons x xs =>
      obtain ⟨len, hsym, hspells⟩ := hspells
      obtain ⟨pred, hpred, hpredicts⟩ := exists_predictor (pos := pos + len) hm hks h hl
      have hstep := deltaPixel_onPlane hsym hpred
      have hks' : s.validAmong s.pixels = done ++ [k] ++ rest := by rw [hks, List.append_assoc]; rfl
      have hnew : k ∉ done := fun hmem => by
        have := State.validAmong_nodup (s := s) s.pixels_nodup
        rw [hks] at this
        exact (List.nodup_append.1 this).2.2 k hmem k List.mem_cons_self rfl
      have hnp : ∀ j ∈ done ++ [k], j < s.np := fun j hj =>
        (State.mem_validPixels.1 (hks' ▸ List.mem_append_left rest hj)).1
      obtain ⟨vs, hlen, hrun, hrow⟩ := ih hks' (h.snoc hl hnew hnp (s.deltaValue x pred)) (by simp [hl])
        (by simpa using hx) hspells
      rw [lastValue_concat] at hrun
      simp only [List.append_assoc, List.singleton_append] at hrun hrow
      refine ⟨s.deltaValue x pred :: vs, by rw [List.length_cons, hlen, List.length_cons], ?_, fun z j hj => ?_⟩
      · rw [List.map_cons, planeLoop, hstep, Rule.ok_bind, hrun, ← Memory.writeAll_append]
        rfl
      · cases z with
        | zero =>
          cases hj
          refine ⟨pred, hpredicts.congr fun z' hz' => ?_, rfl⟩
          exact List.getD_append _ _ _ _ (hl.symm ▸ hz')
        | succ z =>
          obtain ⟨pred', hpredicts', hval⟩ := hrow z j hj
          rw [List.length_append, List.length_singleton, Nat.add_assoc, Nat.add_comm 1 z] at hpredicts'
          exact ⟨pred', hpredicts', hval⟩

/-! ## All dimensions (R171) -/

/-- The pairs of some dimensions and the valid pixels, the dimension outermost. -/
def State.deltaPairs (s : State) (ds : List Nat) : List (Nat × Nat) :=
  ds.flatMap fun d => (s.validAmong s.pixels).map (Prod.mk d)

theorem State.deltaPairs_nodup {ds : List Nat} (h : ds.Nodup) : (s.deltaPairs ds).Nodup :=
  h.product (State.validAmong_nodup s.pixels_nodup)

theorem State.mem_deltaPairs {ds : List Nat} {c : Nat × Nat} :
    c ∈ s.deltaPairs ds ↔ c.1 ∈ ds ∧ c.2 ∈ s.validAmong s.pixels := List.mem_product (a := c.1) (b := c.2)

theorem State.sampleCells_append {cs ds : List (Nat × Nat)} {vs ws : List F64} (h : cs.length = vs.length) :
    s.sampleCells (cs ++ ds) (vs ++ ws) = s.sampleCells cs vs ++ s.sampleCells ds ws := by
  rw [State.sampleCells, List.zip_append h, List.map_append]
  rfl

/-- Dimension after dimension, each from its own first pixel. -/
theorem deltaDims_run {stop : Nat} {ds xs : List Nat} (hm : s.maskReady s.pixels)
    (hx : xs.length = ds.length * (s.validAmong s.pixels).length) (hspells : s.spells stop pos xs) :
    ∃ (vs : List Byte) (prev' : Byte), vs.length = ds.length * (s.validAmong s.pixels).length
      ∧ deltaDims (s.validAmong s.pixels) ds (s.onPlane pos p prev) = .ok (s.onPlane stop
          (Memory.writeAll p (s.sampleCells (s.deltaPairs ds) (vs.map s.planeValue))) prev')
      ∧ ∀ i z k, i < ds.length → (s.validAmong s.pixels)[z]? = some k → ∃ pred,
        s.Predicts (s.validAmong s.pixels) (fun z => vs.getD (i * (s.validAmong s.pixels).length + z) 0) z k pred
          ∧ vs[i * (s.validAmong s.pixels).length + z]?
            = some (s.deltaValue (xs.getD (i * (s.validAmong s.pixels).length + z) 0) pred) := by
  induction ds generalizing xs pos p prev with
  | nil =>
    obtain rfl := List.length_eq_zero_iff.1 (hx.trans (Nat.zero_mul _))
    cases hspells
    exact ⟨[], prev, by rw [List.length_nil, List.length_nil, Nat.zero_mul], rfl, nofun⟩
  | cons d ds ih =>
    rw [List.length_cons, Nat.add_one_mul] at hx
    obtain ⟨ys, zs, rfl, hys⟩ : ∃ ys zs, xs = ys ++ zs ∧ ys.length = (s.validAmong s.pixels).length :=
      ⟨_, _, (List.take_append_drop (s.validAmong s.pixels).length xs).symm, by rw [List.length_take]; omega⟩
    rw [List.length_append] at hx
    obtain ⟨mid, hspells, hspells'⟩ := State.spells_append hspells
    obtain ⟨ws, hwlen, hrun, hrow⟩ := planeLoop_delta (d := d) (p := p) (done := [])
      (rest := s.validAmong s.pixels) (ws := []) hm rfl nofun rfl hys hspells
    obtain ⟨vs, prev', hvlen, hruns, hrows⟩ := ih (p := Memory.writeAll p
      (s.sampleCells ((s.validAmong s.pixels).map (Prod.mk d)) (ws.map s.planeValue))) (prev := lastValue ws)
      (by omega) hspells'
    refine ⟨ws ++ vs, prev', ?_, ?_, fun i z k hi hz => ?_⟩
    · rw [List.length_append, List.length_cons, Nat.add_one_mul, hwlen, hvlen, Nat.add_comm]
    · have hfirst : deltaDims (s.validAmong s.pixels) (d :: ds) (s.onPlane pos p prev)
          = deltaDims (s.validAmong s.pixels) ds (s.onPlane mid (Memory.writeAll p
            (s.sampleCells ((s.validAmong s.pixels).map (Prod.mk d)) (ws.map s.planeValue))) (lastValue ws)) :=
        Rule.bind_of_ok _ hrun
      rw [hfirst, hruns, ← Memory.writeAll_append, List.map_append,
        ← State.sampleCells_append (by rw [List.length_map, List.length_map, hwlen])]
      rfl
    · have hzlen := (List.getElem?_eq_some_iff.1 hz).1
      cases i with
      | zero =>
        obtain ⟨pred, hpredicts, hval⟩ := hrow z k hz
        simp only [Nat.zero_mul, Nat.zero_add, List.nil_append, List.length_nil] at hpredicts ⊢
        refine ⟨pred, hpredicts.congr fun z' hz' => List.getD_append _ _ _ _ (by omega), ?_⟩
        rw [List.getElem?_append_left (by omega), List.getD_append _ _ _ _ (by omega), hval]
      | succ i =>
        obtain ⟨pred, hpredicts, hval⟩ := hrows i z k (by simpa using hi) hz
        have hplace (z : Nat) : (i + 1) * (s.validAmong s.pixels).length + z
            = (s.validAmong s.pixels).length + (i * (s.validAmong s.pixels).length + z) := by
          rw [Nat.add_one_mul]
          omega
        have hlater {α : Type} (as bs : List α) (a : α) (ha : as.length = (s.validAmong s.pixels).length) (z : Nat) :
            (as ++ bs).getD ((i + 1) * (s.validAmong s.pixels).length + z) a
              = bs.getD (i * (s.validAmong s.pixels).length + z) a := by
          rw [hplace, List.getD_append_right _ _ _ _ (by omega), ha, Nat.add_sub_cancel_left]
        refine ⟨pred, hpredicts.congr fun z' _ => hlater ws vs 0 hwlen z', ?_⟩
        rw [hlater ys zs 0 hys, ← hval, hplace, List.getElem?_append_right (by omega), hwlen, Nat.add_sub_cancel_left]

/-- The sample above stands before its pixel in the scan. -/
theorem State.above_before {z z' : Nat} (hz : (s.validAmong s.pixels)[z]? = some k) (ha : s.aboveValid k)
    (hz' : (s.validAmong s.pixels)[z']? = some (k - s.h.width.toNat)) : z' < z := by
  have hk := (State.mem_validPixels.1 (List.mem_of_getElem? hz)).1
  have hw := State.width_pos hk
  have hle := ha.1
  by_contra hge
  obtain ⟨hzl, hzk⟩ := List.getElem?_eq_some_iff.1 hz
  obtain ⟨hzl', hzk'⟩ := List.getElem?_eq_some_iff.1 hz'
  rcases Nat.eq_or_lt_of_le (Nat.not_lt.1 hge) with heq | hlt
  · subst heq
    omega
  · have := List.pairwise_iff_getElem.1 s.validPixels_sorted z z' hzl hzl' hlt
    omega

end

/-- Settles O35: the dimensions one after another, the predictor of each pixel read from the row stored so far. -/
theorem hufPlaneDeltaResult : Obligations.HufPlaneDeltaResult := by
  intro s syms stop ks n w hm hbit hlen hspells
  have hdims : (List.range n).length = n := List.length_range
  obtain ⟨vs, prev', hvlen, hrun, hrows⟩ := deltaDims_run (p := s.pix) (prev := s.hpPrev) (ds := List.range n) hm
    (by rw [hdims]; exact hlen) hspells
  rw [State.onPlane_self hbit] at hrun
  rw [hdims] at hvlen
  refine ⟨_, vs, Rule.outcome_eq_next.2 (.inl ((hufPlane_delta_of_ready hm).trans hrun)), rfl, hvlen,
    fun z k d hz hd => ?_, fun z k d v hz hd hv => ?_, fun key hkey => ?_⟩
  · obtain ⟨pred, ⟨hlast, habove⟩, hval⟩ := hrows d z k (hdims.symm ▸ hd) hz
    refine ⟨pred, ?_⟩
    intro last left above
    have hlast' : s.leftValid k ∨ ¬ s.aboveValid k → pred = last := fun h => by
      rw [hlast h]
      by_cases h0 : z = 0
      · exact (if_pos h0).trans (if_pos h0).symm
      · refine (if_neg h0).trans (Eq.trans ?_ (if_neg h0).symm)
        rw [Nat.add_sub_assoc (Nat.pos_of_ne_zero h0)]
    exact ⟨hval, fun h => hlast' (.inl h), fun hl ha z' hz' => habove hl ha z' (State.above_before hz ha hz') hz',
      fun _ ha => hlast' (.inr ha)⟩
  · have hc : (s.deltaPairs (List.range n))[d * ks.length + z]? = some (d, k) :=
      getElem?_flatMap_map (List.getElem?_range hd) hz
    refine State.read_sampleCells (State.deltaPairs_nodup List.nodup_range) (fun c hc => ?_) hc
      (by rw [List.getElem?_map, hv]; rfl)
    exact (State.mem_validPixels.1 (State.mem_deltaPairs.1 hc).2).1
  · refine State.read_sampleCells_other fun c hc => ?_
    obtain ⟨hd, hk⟩ := State.mem_deltaPairs.1 hc
    exact hkey c.2 hk c.1 (List.mem_range.1 hd)

end Sys2Proof.Machine

namespace Sys2Proof.Machine

/-! # The CntZImage decoder

A block record begins with its header and offset field (`State.czHeaded`), `CZ.BS` also with its second header byte and
its count (`State.czBsHeaded`). Each record has one equation: a fault of these fields, or what is behind them. The values
then go to the valid pixels (`czDeliver_eq`, `State.deliver_delivered`). -/

section

variable {s : State} {off : CzOffset}

/-! ## The header (R186, R187) -/

theorem czHdr_eq (s : State) (version imageType height width : Word) (maxZError : F64) :
    let s1 : State := { s with
      h := { s.h with version := version, imgType := imageType, height := height, width := width,
                      maxZErr := maxZError, nDim := 1 } }
    czHdr s version imageType height width maxZError =
      if (width = 0 ∨ height = 0 ∨ s.cfg.pixMax < width.toNat * height.toNat)
          ∨ s.band ≠ 0 ∧ (width ≠ s.res.width ∨ height ≠ s.res.height) then
        raise s1 .param s.cur.toNat
      else .ok (s1.advance 34) :=
  raiseIf_or ..

/-! ## The sections (R188 to R192) -/

/-- `CZ.MSEC` without mask bytes, with a payload the buffer holds, with one it does not. -/
theorem czMsec_eq (s : State) (nby nbx numBytes : Word) (maxValue : F32) :
    let s1 : State := { s with
      h := { s.h with mNby := nby, mNbx := nbx, mBytes := numBytes, mMaxVal := maxValue }, cur := s.cur + 16 }
    czMsec s nby nbx numBytes maxValue =
      if numBytes = 0 then .ok { s1 with m := { s.m with present := false, allVoid := false } }
      else if (s.cur + 16).toNat + numBytes.toNat ≤ s.inLen.toNat then
        .ok { s1 with rlBase := s.cur + 16, rlBytes := numBytes, rlIp := 0, rlOp := 0 }
      else raise s1 .trunc (s.cur + 16).toNat := by
  intro s1
  have hstart : rmdStart s1 numBytes =
      if (s.cur + 16).toNat + numBytes.toNat ≤ s.inLen.toNat then
        .ok { s1 with rlBase := s.cur + 16, rlBytes := numBytes, rlIp := 0, rlOp := 0 }
      else raise s1 .trunc (s.cur + 16).toNat := by
    split
    · next hfits => exact Rule.bind_ok.2 ⟨(), memCheck_eq_ok.2 hfits, rfl⟩
    · next hcut => exact Rule.bind_error.2 (.inl (memCheck_eq_error.2 ⟨Nat.not_le.1 hcut, rfl⟩))
  rw [← hstart]
  rfl

theorem czPsec_eq (s : State) (nby nbx numBytes : Word) (maxValue : F32) :
    let s1 : State := { s with h := { s.h with nby := nby, nbx := nbx, pixBytes := numBytes, maxVal := maxValue } }
    czPsec s nby nbx numBytes maxValue =
      if nbx = 0 ∨ nby = 0 ∨ s.h.width.toNat < nbx.toNat ∨ s.h.height.toNat < nby.toNat then raise s1 .param s.cur.toNat
      else .ok { s1 with cur := s.cur + 16, pstart := s.cur + 16 } :=
  raiseIf_bind ..

/-- The end of a legacy mask payload: `CUR` past it, one more mask (R130, R189). -/
theorem maskEnd_eq_of_not_lerc2 (h : s.h.fmt ≠ .lerc2) :
    maskEnd s = .ok { s with
      cur := s.cur + s.h.mBytes, m := { present := true, allVoid := false, count := s.m.count + 1, held := true } } := by
  unfold maskEnd
  rw [if_neg h, if_neg h, State.advance, BitVec.ofNat_toNat, BitVec.setWidth_eq]
  rfl

/-! ## The rules between the records -/

theorem due_of_czRule (hseq : s.seq = .czSetup ∨ s.seq = .maskEnd) : due s = .ok none := by
  unfold due
  rcases hseq with hseq | hseq <;> rw [hseq]

theorem runRule_of_czSetup (hseq : s.seq = .czSetup) :
    runRule s = .ok ((czSetup s).goto (if s.band = 0 then .czMsec else .czPsec)) := by
  unfold runRule
  rw [hseq]
  rfl

theorem runRule_of_maskEnd (hseq : s.seq = .maskEnd) : runRule s = do
    let s1 ← maskEnd s
    return s1.goto (if s1.h.fmt = .lerc2 then s1.afterMask else .czPsec) := by
  unfold runRule
  rw [hseq]

/-! ## The head of a block (R195) -/

/-- The state behind the header byte and the offset field. -/
def State.czHeaded (s : State) (mode : BitVec 2) (off : CzOffset) : State :=
  { s with
    cur := s.cur + BitVec.ofNat 32 (1 + off.len),
    t := { s.t with mode := mode, otype := off.otype, offset := s.czOffsetReal off, cnt := 0 } }

/-- An offset selector of 3 faults, any other one reads its field. -/
theorem czHead_eq (s : State) (mode : BitVec 2) (off : CzOffset) :
    czHead s mode off =
      if off = .invalid then raise { s with t := { s.t with mode := mode, otype := off.otype } } .typeTag s.cur.toNat
      else .ok (s.czHeaded mode off) :=
  raiseIf_bind ..

theorem czHead_of_valid (mode : BitVec 2) (hoff : off ≠ .invalid) : czHead s mode off = .ok (s.czHeaded mode off) := by
  rw [czHead_eq, if_neg hoff]

/-- So a record that begins with the head of an invalid selector faults. -/
theorem faultedWith_of_czHead {mode : BitVec 2} {f : State → Rule State} {r : Rule State}
    (h : r = czHead s mode .invalid >>= f) : faultedWith r.outcome .typeTag s.cur.toNat := by
  rw [h, czHead_eq, if_pos rfl, raise_eq]
  exact faultedWith_of_halt rfl

/-- The offset that is read is the value of its field (R74). -/
theorem State.czOffsetReal_offsetReads (s : State) (hoff : off ≠ .invalid) : offsetReads off (s.czOffsetReal off) := by
  cases off with
  | float32 x => exact ⟨_, s.freeNaN_isNaN .origin 0, rfl⟩
  | int16 n => rfl
  | int8 n => rfl
  | invalid => exact absurd rfl hoff

theorem State.czHeaded_tileValid (mode : BitVec 2) (hm : s.maskReady s.tilePixels) :
    (s.czHeaded mode off).tileValid = .ok (s.validAmong s.tilePixels) :=
  State.tileValid_of_ready (s := s.czHeaded mode off) hm

/-! ## The delivery (R200, R202) -/

/-- One value for each pixel: the pixels, their count, the running minimum, and nothing else. -/
theorem czDeliver_eq {ks : List Nat} {vs : List F64} {n : Nat} (hks : ks.length = n) (hvs : vs.length = n)
    (hcnt : s.t.cnt = 0) :
    czDeliver s ks vs = { s with
      pix := (czDeliver s ks vs).pix, t := { s.t with cnt := BitVec.ofNat 32 n }, czMin := runMin s.czMin vs } := by
  have hcount : s.t.cnt + BitVec.ofNat 32 (min ks.length vs.length) = BitVec.ofNat 32 n := by
    rw [hks, hvs, Nat.min_self, hcnt]
    exact BitVec.zero_add _
  rw [← hcount]
  rfl

theorem czDeliver_delivered (s : State) {ks : List Nat} (vs : List F64) (hd : ks.Nodup) :
    delivered s (czDeliver s ks vs) 0 ks vs :=
  State.deliver_delivered s 0 vs hd

/-- One value for all pixels is delivered though a pixel be listed twice: each time the same element is stored. -/
theorem czDeliver_delivered_const (s : State) (ks : List Nat) (v : F64) :
    delivered s (czDeliver s ks (List.replicate ks.length v)) 0 ks (List.replicate ks.length v) := by
  have hcell {c : Nat × F64} (hc : c ∈ ks.zip (List.replicate ks.length v)) : c.1 ∈ ks ∧ c.2 = v :=
    ⟨(List.of_mem_zip hc).1, List.eq_of_mem_replicate (List.of_mem_zip hc).2⟩
  refine ⟨fun z k w hk hw => ?_, fun key hkey => ?_⟩
  · obtain rfl : w = v := List.eq_of_mem_replicate (List.mem_of_getElem? hw)
    refine ⟨_, Memory.read_writeAll_const _ _ (v := (s.pixCell s.h.etype s.band.toNat (0 * s.np + k) w).2) ?_ ?_, _, rfl⟩
    · intro c hc hkey
      obtain ⟨p, hp, rfl⟩ := List.mem_map.1 hc
      have hidx : 0 * s.np + p.1 = 0 * s.np + k := pixKey_inj.1 hkey
      rw [hidx, (hcell hp).2]
    · exact ⟨_, List.mem_map.2 ⟨(k, w), List.mem_of_getElem? (List.getElem?_zip_eq_some.2 ⟨hk, hw⟩), rfl⟩, rfl⟩
  · refine Memory.read_writeAll_other _ _ fun c hc => ?_
    obtain ⟨p, hp, rfl⟩ := List.mem_map.1 hc
    exact (hkey p.1 (hcell hp).1).symm

/-! ## `CZ.RAW` (R196) -/

/-- The values of a run of elements are read as the spec says. -/
theorem State.elemReals_readsAs {ty : EType} {bytes : List Byte} {base n z : Nat} {v : F64}
    (hv : (s.elemReals base ((List.range n).map (elemAt ty bytes)))[z]? = some v) : readsAs (elemAt ty bytes z) v := by
  rw [State.elemReals_getElem, List.getElem?_map, Option.map_map] at hv
  obtain ⟨i, hi, rfl⟩ := Option.map_eq_some_iff.1 hv
  obtain ⟨hz, rfl⟩ := List.getElem?_eq_some_iff.1 hi
  rw [List.getElem_range]
  exact s.elemReal_readsAs _ _

theorem czRaw_of_holds {bytes : List Byte} (hoff : off ≠ .invalid) (hm : s.maskReady s.tilePixels)
    (hlen : bytes.length = 4 * (s.validAmong s.tilePixels).length)
    (hholds : s.holds (s.czHeaded 0 off).cur.toNat bytes) :
    let ks := s.validAmong s.tilePixels
    let s1 := s.czHeaded 0 off
    czRaw s off = .ok ((czDeliver s1 ks (s1.elemReals 0 ((List.range ks.length).map (elemAt .f32 bytes)))).advance
      (4 * ks.length)) := by
  intro ks s1
  have hend := hholds.1
  have hcheck : memCheck s1 s1.cur.toNat (4 * ks.length) = .ok () := memCheck_eq_ok.2 (hlen ▸ hend)
  have hread : readElems s1 .f32 s1.cur.toNat ks.length = .ok ((List.range ks.length).map (elemAt .f32 bytes)) :=
    (readElems_eq_ok (s := s1) fun _ => (Nat.le_add_right _ _).trans hend).2
      ⟨bytes, hlen.trans (Nat.mul_comm 4 ks.length), hholds, rfl⟩
  exact Rule.bind_ok.2 ⟨s1, czHead_of_valid 0 hoff, Rule.bind_ok.2 ⟨ks, State.czHeaded_tileValid 0 hm,
    Rule.bind_ok.2 ⟨(), hcheck, Rule.bind_ok.2 ⟨_, hread, rfl⟩⟩⟩⟩

/-- A payload that passes the end of the buffer (R44). -/
theorem czRaw_of_past (hoff : off ≠ .invalid) (hm : s.maskReady s.tilePixels)
    (hpast : s.inLen.toNat < (s.czHeaded 0 off).cur.toNat + 4 * (s.validAmong s.tilePixels).length) :
    czRaw s off = .error (.halt ((s.czHeaded 0 off).takeFault .trunc (s.czHeaded 0 off).cur.toNat)) := by
  refine Rule.bind_error.2 (.inr ⟨_, czHead_of_valid 0 hoff, ?_⟩)
  refine Rule.bind_error.2 (.inr ⟨_, State.czHeaded_tileValid 0 hm, ?_⟩)
  exact Rule.bind_error.2 (.inl (memCheck_eq_error.2 ⟨hpast, rfl⟩))

/-! ## `CZ.BS` (R197, R201) -/

/-- The state behind the count field of a `CZ.BS` record. -/
def State.czBsHeaded (s : State) (off : CzOffset) (bits : BitVec 6) (count : CountField) : State :=
  { s with
    cur := s.cur + BitVec.ofNat 32 (1 + off.len) + BitVec.ofNat 32 (1 + count.len),
    t := { s.t with mode := 1, otype := off.otype, offset := s.czOffsetReal off, cnt := 0, bits := bits,
                    nVal := BitVec.ofNat 32 (CountField.value count) } }

theorem State.czBsHeaded_validAmong (s : State) (off : CzOffset) (bits : BitVec 6) (count : CountField) :
    (s.czBsHeaded off bits count).validAmong (s.czBsHeaded off bits count).tilePixels = s.validAmong s.tilePixels := rfl

/-- What is behind the count field: the comparison with the valid pixels, then the codes, remapped. -/
def czBsPayload (s : State) (n k : Nat) : Rule State := do
  let ks ← s.tileValid
  raiseIf s (decide (n ≠ ks.length)) .count s.cur.toNat
  let (codes, s1) ← unpk s .legacy s.cur.toNat n k
  let s2 := s1.advance (packedBytes n k)
  return czDeliver s2 ks (s2.remapCodes s2.t.offset s2.qstep (widenF32 (s2.freeNaN .stat 0) s2.h.maxVal) true codes)

theorem czBs_eq (bits : BitVec 6) (count : CountField) (hoff : off ≠ .invalid) :
    let s1 : State := { s.czHeaded 1 off with t := { (s.czHeaded 1 off).t with bits := bits } }
    let s2 := s.czBsHeaded off bits count
    czBs s off bits count =
      if count = .invalid then raise s1 .typeTag s1.cur.toNat
      else if 32 < bits.toNat then raise s2 .param s2.cur.toNat
      else czBsPayload s2 (CountField.value count) bits.toNat := by
  intro s1 s2
  rw [czBs, czHead_of_valid 1#2 hoff, Rule.ok_bind, raiseIf_bind, raiseIf_bind]
  rfl

theorem czBs_of_legal {bits : BitVec 6} {count : CountField} (hoff : off ≠ .invalid) (hcount : count ≠ .invalid)
    (hbits : bits.toNat ≤ 32) :
    czBs s off bits count = czBsPayload (s.czBsHeaded off bits count) (CountField.value count) bits.toNat := by
  rw [czBs_eq bits count hoff, if_neg hcount, if_neg (Nat.not_lt.2 hbits)]

/-- The comparison, where the mask can be read. -/
theorem czBsPayload_eq (n k : Nat) (hm : s.maskReady s.tilePixels) :
    czBsPayload s n k =
      if n ≠ (s.validAmong s.tilePixels).length then raise s .count s.cur.toNat
      else do
        let (codes, s1) ← unpk s .legacy s.cur.toNat n k
        let s2 := s1.advance (packedBytes n k)
        return czDeliver s2 (s.validAmong s.tilePixels)
          (s2.remapCodes s2.t.offset s2.qstep (widenF32 (s2.freeNaN .stat 0) s2.h.maxVal) true codes) := by
  rw [czBsPayload, State.tileValid_of_ready hm, Rule.ok_bind, raiseIf_bind]

/-- The codes of a block, remapped and clamped at the section's maximum (R108, R201). -/
def State.czCodeValues (s : State) (offset : F64) (n k : Nat) (bytes : List Byte) : List F64 :=
  s.remapCodes offset s.qstep (widenF32 (s.freeNaN .stat 0) s.h.maxVal) true (packedCodes .legacy bytes n k)

section

variable {offset v : F64} {n k z : Nat} {bytes : List Byte}

theorem State.czCodeValues_length : (s.czCodeValues offset n k bytes).length = n := by
  rw [State.czCodeValues, State.remapCodes_length, packedCodes_length]

theorem State.czCodeValues_remapsTo (hv : (s.czCodeValues offset n k bytes)[z]? = some v) :
    remapsTo (packedCode .legacy bytes k z) offset s.qstep (widenF32 (s.freeNaN .stat 0) s.h.maxVal) true v := by
  have hz : z < n := by simpa only [State.czCodeValues_length] using (List.getElem?_eq_some_iff.1 hv).1
  exact State.remapCodes_remapsTo (packedCodes_getElem? _ _ _ hz) hv

/-- A block of as many codes as valid pixels: the values of its codes, delivered behind them. -/
theorem czBsPayload_of_holds (hk : k ≤ 32) (hm : s.maskReady s.tilePixels)
    (hn : n = (s.validAmong s.tilePixels).length) (hlen : bytes.length = packedBytes n k)
    (hholds : s.holds s.cur.toNat bytes) :
    czBsPayload s n k = .ok (czDeliver
      ((s.withCodes s.cur.toNat (packedCodes .legacy bytes n k, n * k / 32, n * k % 32)).advance bytes.length)
      (s.validAmong s.tilePixels) (s.czCodeValues s.t.offset n k bytes)) := by
  rw [czBsPayload_eq n k hm, if_neg (not_not_intro hn), unpk_of_holds .legacy hk hlen fun _ => hholds, ← hlen]
  rfl

end

/-- The state behind the codes of a `CZ.BS` record: `CODES` and the bit cursor are written (R105). -/
def State.czBsRead (s : State) (off : CzOffset) (bits : BitVec 6) (count : CountField) (bytes : List Byte) : State :=
  let n := CountField.value count
  let a := s.cur + BitVec.ofNat 32 (1 + off.len) + BitVec.ofNat 32 (1 + count.len)
  let r := (packedCodes .legacy bytes n bits.toNat, n * bits.toNat / 32, n * bits.toNat % 32)
  { s with
    cur := a + BitVec.ofNat 32 bytes.length,
    t := { s.t with mode := 1, otype := off.otype, offset := s.czOffsetReal off, cnt := 0, bits := bits,
                    nVal := BitVec.ofNat 32 n },
    codes := (s.withCodes a.toNat r).codes, bs := (s.withCodes a.toNat r).bs }

theorem czBs_of_holds {bits : BitVec 6} {count : CountField} {bytes : List Byte} (hoff : off ≠ .invalid)
    (hcount : count ≠ .invalid) (hbits : bits.toNat ≤ 32) (hm : s.maskReady s.tilePixels)
    (hn : CountField.value count = (s.validAmong s.tilePixels).length)
    (hlen : bytes.length = packedBytes (CountField.value count) bits.toNat)
    (hholds : s.holds (s.czBsHeaded off bits count).cur.toNat bytes) :
    czBs s off bits count = .ok (czDeliver (s.czBsRead off bits count bytes) (s.validAmong s.tilePixels)
      (s.czCodeValues (s.czOffsetReal off) (CountField.value count) bits.toNat bytes)) := by
  rw [czBs_of_legal hoff hcount hbits,
    czBsPayload_of_holds (s := s.czBsHeaded off bits count) hbits hm hn hlen hholds]
  rfl

/-- What the delivery of a block leaves. -/
theorem czBsRead_deliver {bits : BitVec 6} {count : CountField} {bytes : List Byte} {ks : List Nat} {vs : List F64}
    (hks : ks.length = CountField.value count) (hvs : vs.length = CountField.value count) :
    let t := czDeliver (s.czBsRead off bits count bytes) ks vs
    t = { s with
      cur := s.cur + BitVec.ofNat 32 (1 + off.len) + BitVec.ofNat 32 (1 + count.len) + BitVec.ofNat 32 bytes.length,
      t := { s.t with mode := 1, otype := off.otype, offset := s.czOffsetReal off, bits := bits,
                      nVal := BitVec.ofNat 32 (CountField.value count),
                      cnt := BitVec.ofNat 32 (CountField.value count) },
      czMin := runMin s.czMin vs, codes := t.codes, bs := t.bs, pix := t.pix } := by
  intro t
  refine (czDeliver_eq hks hvs rfl).trans ?_
  rfl

/-! ## The obligations -/

/-- Settles O9: the two tests of R186, and the step of R187. -/
theorem czHdrResult : Obligations.CzHdrResult := by
  intro s version imageType height width maxZError
  have hexec : exec (.czHdr version imageType height width maxZError) s
      = (czHdr s version imageType height width maxZError).outcome := rfl
  refine ⟨?_, fun hp hb hseq => ⟨s.freeNaN .step 0, s.freeNaN_isNaN .step 0, ?_⟩⟩
  · rw [hexec, czHdr_eq]
    split
    · next hfits =>
      obtain ⟨hwidth, hheight, hpix, hband⟩ := hfits
      rw [if_neg (by rw [← Nat.not_lt] at hpix; tauto)]
      rfl
    · next hbad =>
      rw [if_pos (by rw [← Nat.not_lt] at hbad; tauto)]
      exact faultedWith_raise ..
  · rw [step_of_rule_ok hp hb (due_of_czRule (.inl hseq)) (runRule_of_czSetup hseq), czSetup, State.firstBandResults_eq]
    rfl

/-- Settles O10: the three kinds of `CZ.MSEC` (R188 to R190), the test of R192, and the end of the mask payload. -/
theorem czSectionResults : Obligations.CzSectionResults := by
  intro s nby nbx numBytes maxValue h
  have hmsec : exec (.czMsec nby nbx numBytes maxValue) s = (czMsec s nby nbx numBytes maxValue).outcome := rfl
  have hpsec : exec (.czPsec nby nbx numBytes maxValue) s = (czPsec s nby nbx numBytes maxValue).outcome := rfl
  rw [hmsec, hpsec, czMsec_eq, czPsec_eq]
  refine ⟨?_, ?_, fun hp hb hseq hfmt => ?_⟩
  · split
    · rfl
    · split
      · rfl
      · exact faultedWith_raise ..
  · split
    · exact faultedWith_raise ..
    · rfl
  · have hrule := runRule_of_maskEnd hseq
    rw [maskEnd_eq_of_not_lerc2 hfmt, Rule.ok_bind, if_neg hfmt] at hrule
    exact step_of_rule_ok hp hb (due_of_czRule (.inr hseq)) hrule

/-- Settles O11: the floats behind the head, delivered to distinct pixels (R196). -/
theorem czRawResult : Obligations.CzRawResult := by
  intro s off bytes ks a hoff hinside hm hlen hholds
  let s1 := s.czHeaded 0 off
  let vs := s1.elemReals 0 ((List.range ks.length).map (elemAt .f32 bytes))
  have hvs : vs.length = ks.length := by rw [State.elemReals_length, List.length_map, List.length_range]
  refine ⟨_, vs, s.czOffsetReal off, Rule.outcome_eq_next.2 (.inl (czRaw_of_holds hoff hm hlen hholds)),
    s.czOffsetReal_offsetReads hoff, ?_, hvs, fun z v hv => State.elemReals_readsAs hv,
    czDeliver_delivered s1 vs (State.validAmong_nodup (State.tilePixels_nodup hinside))⟩
  rw [czDeliver_eq (s := s1) rfl hvs rfl]
  rfl

/-- Settles O13: one value for every pixel (R198). -/
theorem czConstResult : Obligations.CzConstResult := by
  intro s off ks hoff hm
  let s1 := s.czHeaded 2 off
  have hrun : czConst s off = .ok (czDeliver s1 ks (List.replicate ks.length (s.czOffsetReal off))) :=
    Rule.bind_ok.2 ⟨s1, czHead_of_valid 2 hoff, Rule.bind_ok.2 ⟨ks, State.czHeaded_tileValid 2 hm, rfl⟩⟩
  refine ⟨_, s.czOffsetReal off, Rule.outcome_eq_next.2 (.inl hrun), s.czOffsetReal_offsetReads hoff, ?_,
    czDeliver_delivered_const s1 ks _⟩
  exact czDeliver_eq (s := s1) rfl (List.length_replicate ..) rfl

/-- Settles O12: the head and the count, then the codes, delivered to distinct pixels (R197, R201). -/
theorem czBsResult : Obligations.CzBsResult := by
  intro s off bits count bytes ks a hoff hcount hbits hn hinside hm hlen hholds
  rw [← hn] at hlen ⊢
  have hvs := State.czCodeValues_length (s := s) (offset := s.czOffsetReal off) (n := CountField.value count)
    (k := bits.toNat) (bytes := bytes)
  exact ⟨_, _, _, _, Rule.outcome_eq_next.2 (.inl (czBs_of_holds hoff hcount hbits hm hn hlen hholds)),
    s.czOffsetReal_offsetReads hoff, ⟨s.freeNaN .stat 0, s.freeNaN_isNaN .stat 0, rfl⟩, czBsRead_deliver hn.symm hvs, hvs,
    fun z v hv => State.czCodeValues_remapsTo hv,
    czDeliver_delivered (s.czBsRead off bits count bytes) _ (State.validAmong_nodup (State.tilePixels_nodup hinside))⟩

/-- Settles O14, fault by fault. -/
theorem czBlockFaults : Obligations.CzBlockFaults := by
  intro s off bits count header a1 a2 n
  have hbs : exec (.czBs off bits count) s = (czBs s off bits count).outcome := rfl
  refine ⟨faultedWith_raise .., ?_, fun hoff hc => ?_, fun hoff hc hbits => ?_, fun hoff hc hbits hm hn => ?_,
    fun hoff hm hpast => faultedWith_of_halt (czRaw_of_past hoff hm hpast), fun hoff hc h1 hbits hm hn hpast => ?_⟩
  · rintro rfl
    exact ⟨faultedWith_of_czHead (r := czRaw s .invalid) rfl, faultedWith_of_czHead (r := czBs s .invalid bits count) rfl,
      faultedWith_of_czHead (r := czConst s .invalid) rfl⟩
  · rw [hbs, czBs_eq bits count hoff, if_pos hc]
    exact faultedWith_raise ..
  · rw [hbs, czBs_eq bits count hoff, if_neg hc, if_pos hbits]
    exact faultedWith_raise ..
  · rw [hbs, czBs_of_legal hoff hc hbits, czBsPayload_eq (s := s.czBsHeaded off bits count) _ _ hm,
      State.czBsHeaded_validAmong, if_pos hn]
    exact faultedWith_raise ..
  · rw [hbs, czBs_of_legal hoff hc hbits, czBsPayload_eq (s := s.czBsHeaded off bits count) _ _ hm,
      State.czBsHeaded_validAmong, if_neg (not_not_intro hn)]
    exact faultedWith_of_halt (Rule.bind_error.2 (.inl (unpk_eq_halt.2 (.inr ⟨h1, hbits, hn ▸ hpast, rfl⟩))))

end

end Sys2Proof.Machine

namespace Sys2Proof.Machine

/-! # The place of the current tile

A block or a tile becomes the current one in three ways: as the first of its grid, as the next in its row (or of the next
dimension), or as the first of the next row. `czEnter` and `l2Enter` put it at its place (`czEnter_tileOk`,
`l2Enter_tileOk`), and no block or tile record moves it (`sameTile`). -/

section

variable {s t u : State} {r c d : Nat}

/-! ## What `tileOk` says, phase by phase -/

theorem tileOk_czBlock (h : s.seq = .czBlock r c) :
    s.tileOk ↔ s.tileIs (c * s.czTileW) (r * s.czTileH) s.czTileW s.czTileH := by
  unfold State.tileOk
  rw [h]

theorem tileOk_l2Tile (h : s.seq = .l2Tile r c d) : s.tileOk ↔ s.l2TileIs r c d := by
  unfold State.tileOk
  rw [h]

theorem tileOk_bs2 (h : s.seq = .bs2 r c d) : s.tileOk ↔ s.bare = true ∨ s.l2TileIs r c d := by
  unfold State.tileOk
  rw [h]

theorem tileOk_tileDeliver (h : s.seq = .tileDeliver r c d) : s.tileOk ↔ s.l2TileIs r c d := by
  unfold State.tileOk
  rw [h]

/-- The phases that need no tile. -/
def Phase.NoTile : Phase → Prop
  | .czBlock _ _ | .l2Tile _ _ _ | .bs2 _ _ _ | .tileDeliver _ _ _ => False
  | _ => True

theorem ite_noTile {a : Prop} [Decidable a] {p q : Phase} (hp : p.NoTile) (hq : q.NoTile) :
    (if a then p else q).NoTile := by
  split
  · exact hp
  · exact hq

theorem State.afterMask_noTile (s : State) : s.afterMask.NoTile :=
  ite_noTile trivial (ite_noTile trivial (ite_noTile trivial trivial))

theorem tileOk_of_noTile (h : s.seq.NoTile) : s.tileOk := by
  unfold State.tileOk
  cases hseq : s.seq with
  | czBlock | l2Tile | bs2 | tileDeliver => rw [hseq] at h; exact h.elim
  | _ => trivial

/-- Where nothing is due there is no tile to place. -/
theorem tileOk_of_idle (h : s.seq = .idle) : s.tileOk := tileOk_of_noTile (h ▸ trivial)

/-! ## Entering a tile (R193, R236) -/

/-- A tile that begins in the grid begins in the image. -/
theorem mul_lt_of_lt_ceilDiv {a b i : Nat} (h : i < ceilDiv a b) : i * b < a := by
  refine lt_of_lt_ceilDiv (Nat.pos_of_ne_zero ?_) h
  rintro rfl
  rw [ceilDiv, Nat.div_zero] at h
  exact Nat.not_lt_zero i h

theorem toNat_ofNat_of_le {n : Nat} {w : Word} (h : n ≤ w.toNat) : (BitVec.ofNat 32 n).toNat = n := by
  rw [BitVec.toNat_ofNat, Nat.mod_eq_of_lt (h.trans_lt w.isLt)]

/-- A `T` group set to a place inside the image holds that place: no register cuts it. -/
theorem tileIs_of_set {x y width height : Nat} (hx : x ≤ s.h.width.toNat) (hy : y ≤ s.h.height.toNat)
    (hx0 : s.t.x0 = BitVec.ofNat 32 x) (hy0 : s.t.y0 = BitVec.ofNat 32 y)
    (hwidth : s.t.width = BitVec.ofNat 32 (min width (s.h.width.toNat - x)))
    (hheight : s.t.height = BitVec.ofNat 32 (min height (s.h.height.toNat - y))) : s.tileIs x y width height := by
  refine ⟨?_, ?_, hx, hy, ?_, ?_⟩
  · rw [hx0, toNat_ofNat_of_le hx]
  · rw [hy0, toNat_ofNat_of_le hy]
  · rw [hwidth, toNat_ofNat_of_le (w := s.h.width) (by omega)]
  · rw [hheight, toNat_ofNat_of_le (w := s.h.height) (by omega)]

theorem czEnter_tileOk (hx : c * s.czTileW ≤ s.h.width.toNat) (hy : r * s.czTileH ≤ s.h.height.toNat) :
    (czEnter s r c).tileOk :=
  (tileOk_czBlock rfl).2 (tileIs_of_set (s := czEnter s r c) hx hy rfl rfl rfl rfl)

theorem l2Enter_tileOk (hx : c * s.h.mbs.toNat ≤ s.h.width.toNat) (hy : r * s.h.mbs.toNat ≤ s.h.height.toNat)
    {n : Word} (hd : d ≤ n.toNat) : (l2Enter s r c d).tileOk :=
  (tileOk_l2Tile rfl).2
    ⟨toNat_ofNat_of_le hd, tileIs_of_set (s := l2Enter s r c d) hx hy rfl rfl rfl rfl⟩

/-- The first tile of a grid is at the corner of the image. -/
theorem l2Enter_first_tileOk (s : State) : (l2Enter s 0 0 0).tileOk :=
  l2Enter_tileOk (by omega) (by omega) (n := 0) (Nat.zero_le _)

theorem czEnter_first_tileOk (s : State) : (czEnter s 0 0).tileOk := czEnter_tileOk (by omega) (by omega)

/-- The block after one that is at its place is at its place (R193). -/
theorem nextBlock_tileOk (h : s.tileIs (c * s.czTileW) (r * s.czTileH) s.czTileW s.czTileH) :
    (nextBlock s r c).tileOk := by
  obtain ⟨-, -, -, hy, -, -⟩ := h
  unfold nextBlock
  split
  · next hcol => exact czEnter_tileOk (mul_lt_of_lt_ceilDiv hcol).le hy
  · split
    · next hrow => exact czEnter_tileOk (by omega) (mul_lt_of_lt_ceilDiv hrow).le
    · exact tileOk_of_noTile trivial

/-- So is the tile after one (R237). -/
theorem nextTile_tileOk (h : s.l2TileIs r c d) : (nextTile s r c d).tileOk := by
  obtain ⟨-, -, -, hx, hy, -, -⟩ := h
  unfold nextTile
  split
  · next hdim => exact l2Enter_tileOk hx hy hdim.le
  · split
    · next hcol => exact l2Enter_tileOk (mul_lt_of_lt_ceilDiv hcol).le hy (n := 0) (Nat.zero_le _)
    · split
      · next hrow => exact l2Enter_tileOk (by omega) (mul_lt_of_lt_ceilDiv hrow).le (n := 0) (Nat.zero_le _)
      · exact tileOk_of_noTile trivial

/-- The order of the blocks, by the phase that is due (R193). -/
theorem nextBlock_seq (s : State) (r c : Nat) :
    (nextBlock s r c).seq = if c + 1 < s.czCols then .czBlock r (c + 1)
      else if r + 1 < s.czRows then .czBlock (r + 1) 0 else .czStats := by
  unfold nextBlock
  rw [apply_ite State.seq, apply_ite State.seq]
  rfl

/-- The order of the tiles (R237). -/
theorem nextTile_seq (s : State) (r c d : Nat) :
    (nextTile s r c d).seq = if d + 1 < s.h.nDim.toNat then .l2Tile r c (d + 1)
      else if c + 1 < s.l2Cols then .l2Tile r (c + 1) 0
      else if r + 1 < s.l2Rows then .l2Tile (r + 1) 0 0 else .l2Stats := by
  unfold nextTile
  rw [apply_ite State.seq, apply_ite State.seq, apply_ite State.seq]
  rfl

/-! ## What a record leaves of the tile -/

theorem sameTile.tileIs {x y width height : Nat} (h : sameTile s u) (hs : s.tileIs x y width height) :
    u.tileIs x y width height := by
  obtain ⟨-, hh, hx0, hy0, hwidth, hheight, -⟩ := h
  unfold State.tileIs
  rwa [hh, hx0, hy0, hwidth, hheight]

theorem sameTile.l2TileIs (h : sameTile s u) (hs : s.l2TileIs r c d) : u.l2TileIs r c d := by
  have hdim : u.t.dim = s.t.dim := by obtain ⟨-, -, -, -, -, -, hdim⟩ := h; exact hdim
  have hh : u.h = s.h := by obtain ⟨-, hh, -⟩ := h; exact hh
  refine ⟨hdim ▸ hs.1, ?_⟩
  rw [hh]
  exact h.tileIs hs.2

/-- A block record ends in a fault or leaves the tile. -/
theorem exec_czBlock {i : Instr} (hi : i.streamPos = some .czBlock) (h : exec i s = .next u) :
    u.busy = false ∨ sameTile s u := by
  cases i with
  | czRaw off => exact (czRaw_keeps s off).next h
  | czBs off bits count => exact (czBs_keeps s off bits count).next h
  | czConst off => exact (czConst_keeps s off).next h
  | czRsvd _ => exact Rule.Keeps.next (raise_meets _ s _ _) h
  | _ => cases hi

/-- So does a tile record. -/
theorem exec_l2Tile {i : Instr} (hi : i.streamPos = some .l2Tile) (h : exec i s = .next u) :
    u.busy = false ∨ sameTile s u := by
  cases i with
  | l2TileRaw otype tag => exact ((l2TileRaw_keeps s otype tag).next h).imp_right And.left
  | l2TileBs otype tag => exact ((l2TileBs_keeps s otype tag).next h).imp_right And.left
  | l2TileXb otype tag => exact ((l2TileXb_keeps s otype tag).next h).imp_right And.left
  | l2TileConst otype tag => exact ((l2TileConst_keeps s otype tag).next h).imp_right And.left
  | _ => cases hi

theorem bs2Head_sameTile {lutf : Bool} {numBits : BitVec 5} {count : CountField}
    (h : bs2Head s lutf numBits count = .ok u) : sameTile s u ∧ u.bare = s.bare := by
  obtain ⟨-, -, rfl⟩ := bs2Head_eq_ok.1 h
  exact ⟨⟨⟨rfl, rfl, rfl⟩, rfl, rfl, rfl, rfl, rfl, rfl⟩, rfl⟩

/-- What a `BS2` record leaves besides: whether it is bare. -/
theorem bs2Head_keepsTile (s : State) (lutf : Bool) (numBits : BitVec 5) (count : CountField) :
    (bs2Head s lutf numBits count).Keeps (fun s t => sameTile s t ∧ t.bare = s.bare) s :=
  ⟨fun _ h => bs2Head_sameTile h, (bs2Head_keeps s lutf numBits count).2⟩

theorem bs2Aff_keepsTile (s : State) (numBits : BitVec 5) (count : CountField) :
    (bs2Aff s numBits count).Keeps (fun s t => sameTile s t ∧ t.bare = s.bare) s := by
  refine (bs2Head_keepsTile s false numBits count).bind fun u ⟨hu, hbare⟩ => ?_
  refine (reads_of_ne_halt fun _ => bs2Args_ne_halt).bind fun _ _ => ?_
  exact (unpk_meets u _ _ _ _).bind fun _ ⟨hv, hv'⟩ => .pure ⟨hu.trans hv, hv'.trans hbare⟩

theorem lutLoad_keepsTile (s : State) (args : RemapArgs) :
    (lutLoad s args).Keeps (fun s t => sameTile s t ∧ t.bare = s.bare) s :=
  (unpk_meets s _ _ _ _).bind fun _ hr => .pure hr

theorem bs2Lut_keepsTile (s : State) (numBits : BitVec 5) (count : CountField) :
    (bs2Lut s numBits count).Keeps (fun s t => sameTile s t ∧ t.bare = s.bare) s := by
  refine (bs2Head_keepsTile s true numBits count).bind fun u ⟨hu, hbare⟩ => ?_
  refine (readLe_reads u _ _).bind fun _ _ => (raiseIf_reads _ _ _ _).bind fun _ _ => ?_
  refine (reads_of_ne_halt fun _ => bs2Args_ne_halt).bind fun args _ => ?_
  refine (lutLoad_keepsTile _ args).bind fun v ⟨hv, hv'⟩ => (unpk_meets v _ _ _ _).bind fun _ ⟨hw, hw'⟩ => ?_
  exact (remapLutAll_reads _ _).bind fun _ _ => .pure ⟨(hu.trans hv).trans hw, (hw'.trans hv').trans hbare⟩

theorem exec_bs2 {i : Instr} (hi : i.streamPos = some .bs2) (h : exec i s = .next u) :
    u.busy = false ∨ (sameTile s u ∧ u.bare = s.bare) := by
  cases i with
  | bs2Aff numBits count => exact (bs2Aff_keepsTile s numBits count).next h
  | bs2Lut numBits count => exact (bs2Lut_keepsTile s numBits count).next h
  | _ => cases hi

/-- The code lengths of a Huffman table are bare (R156). -/
theorem exec_hufTable_bare {i : Instr} (hi : i.streamPos = some .hufTable) (h : exec i s = .next u) :
    u.busy = false ∨ u.bare = true := by
  cases i with
  | hufTable v size i0 i1 => exact ((hufTable_keeps s v size i0 i1).next h).imp_right And.right
  | _ => cases hi

/-! ## A step at a record -/

/-- The instruction due where a record is stands at its position. -/
theorem streamPos_of_due {i : Instr} {pos : StreamPos} {a : Nat} (hr : s.recordAt = some (pos, a)) (hpos : pos ≠ .rle)
    (hd : due s = .ok (some i)) : i.streamPos = some pos := by
  rw [due_of_recordAt hr fun hrun => absurd hrun hpos] at hd
  cases hf : fetch s pos a with
  | error e => rw [hf] at hd; cases hd
  | ok j =>
    rw [hf] at hd
    cases hd
    exact (decodeAt_eq_ok_iff.1 (fetch_eq_ok.1 hf)).place

/-- A step of a running call that leaves it running ran the instruction that was due, and what follows it is due; or the
rule that was. -/
theorem engineStep_goesOn (hb : s.busy = true) (h : engineStep s = .next t) (ht : t.busy = true) :
    (∃ i u, due s = .ok (some i) ∧ exec i s = .next u ∧ u.busy = true ∧ u.seq = s.seq ∧ t = sequence i u)
      ∨ (due s = .ok none ∧ runRule s = .ok t) := by
  rcases engineStep_eq_next hb h with ⟨i, u, hd, hu, rfl⟩ | ⟨hd, hr | hr⟩ | hd
  · have hub : u.busy = true := by
      by_contra hstop
      rw [Bool.not_eq_true] at hstop
      rw [sequence_of_stopped i hstop, hstop] at ht
      cases ht
    exact .inl ⟨i, u, hd, hu, hub, exec_seq hb hu hub, rfl⟩
  · exact .inr ⟨hd, hr⟩
  · obtain ⟨hstop, -⟩ := (runRule_meets s).2 t hr
    cases hstop.symm.trans ht
  · obtain ⟨hstop, -⟩ := (due_readsFrom s).2 t hd
    cases hstop.symm.trans ht

/-- At a record it ran the record. -/
theorem engineStep_of_record {pos : StreamPos} {a : Nat} (hb : s.busy = true) (hr : s.recordAt = some (pos, a))
    (hpos : pos ≠ .rle) (h : engineStep s = .next t) (ht : t.busy = true) :
    ∃ i u, i.streamPos = some pos ∧ exec i s = .next u ∧ u.busy = true ∧ u.seq = s.seq ∧ t = sequence i u := by
  rcases engineStep_goesOn hb h ht with ⟨i, u, hd, hrun⟩ | ⟨hd, -⟩
  · exact ⟨i, u, streamPos_of_due hr hpos hd, hrun⟩
  · rw [due_of_recordAt hr fun hrun => absurd hrun hpos] at hd
    cases hf : fetch s pos a <;> rw [hf] at hd <;> cases hd

/-- A block, and then the next one (R193). -/
theorem engineStep_czBlock (hb : s.busy = true) (hseq : s.seq = .czBlock r c) (h : engineStep s = .next t)
    (ht : t.busy = true) : ∃ u, sameTile s u ∧ t = nextBlock u r c := by
  obtain ⟨i, u, hi, hu, hub, huseq, rfl⟩ := engineStep_of_record (pos := .czBlock) (a := s.cur.toNat) hb
    (by unfold State.recordAt; rw [hseq]) nofun h ht
  refine ⟨u, (exec_czBlock hi hu).resolve_left (by rw [hub]; nofun), ?_⟩
  rw [sequence, huseq, hseq, hub]
  rfl

/-- A tile record, and then its `BS2` record or the next tile (R237, R245). -/
theorem engineStep_l2Tile (hb : s.busy = true) (hseq : s.seq = .l2Tile r c d) (h : engineStep s = .next t)
    (ht : t.busy = true) : ∃ u, sameTile s u ∧ (t = u.goto (.bs2 r c d) ∨ t = nextTile u r c d) := by
  obtain ⟨i, u, hi, hu, hub, huseq, rfl⟩ := engineStep_of_record (pos := .l2Tile) (a := s.cur.toNat) hb
    (by unfold State.recordAt; rw [hseq]) nofun h ht
  refine ⟨u, (exec_l2Tile hi hu).resolve_left (by rw [hub]; nofun), ?_⟩
  have hnext : sequence i u = if u.t.mode = 1#2 then u.goto (.bs2 r c d) else nextTile u r c d := by
    rw [sequence, huseq, hseq, hub]
    rfl
  rw [hnext]
  exact ite_eq_or_eq _ _ _

/-- The `BS2` record of a tile, and then its delivery; a bare one, and then the codes (R158, R245). -/
theorem engineStep_bs2 (hb : s.busy = true) (hseq : s.seq = .bs2 r c d) (h : engineStep s = .next t)
    (ht : t.busy = true) :
    ∃ u, sameTile s u ∧ t = u.goto (if s.bare then .hufCodes else .tileDeliver r c d) := by
  obtain ⟨i, u, hi, hu, hub, huseq, rfl⟩ := engineStep_of_record (pos := .bs2) (a := s.cur.toNat) hb
    (by unfold State.recordAt; rw [hseq]) nofun h ht
  obtain ⟨htile, hbare⟩ := (exec_bs2 hi hu).resolve_left (by rw [hub]; nofun)
  refine ⟨u, htile, ?_⟩
  rw [sequence, huseq, hseq, hub, hbare]
  rfl

/-- The table header, and then its code lengths (R157). -/
theorem engineStep_hufTable (hb : s.busy = true) (hseq : s.seq = .hufTable) (h : engineStep s = .next t)
    (ht : t.busy = true) : t.seq = .bs2 0 0 0 ∧ t.bare = true := by
  obtain ⟨i, u, hi, hu, hub, huseq, rfl⟩ := engineStep_of_record (pos := .hufTable) (a := s.cur.toNat) hb
    (by unfold State.recordAt; rw [hseq]) nofun h ht
  have hbare := (exec_hufTable_bare hi hu).resolve_left (by rw [hub]; nofun)
  rw [sequence, huseq, hseq, hub]
  exact ⟨rfl, hbare⟩

/-- The delivery of a tile, and then the next one (R237, R245). -/
theorem engineStep_tileDeliver (hb : s.busy = true) (hseq : s.seq = .tileDeliver r c d) (h : engineStep s = .next t)
    (ht : t.busy = true) : ∃ u, sameTile s u ∧ t = nextTile u r c d := by
  rcases engineStep_goesOn hb h ht with ⟨i, _, hd, -⟩ | ⟨-, hr⟩
  · unfold due at hd
    rw [hseq] at hd
    cases hd
  · unfold runRule at hr
    rw [hseq] at hr
    obtain ⟨u, hu, hr⟩ := Rule.bind_ok.1 hr
    cases hr
    exact ⟨u, (tileDeliver_keeps s).1 u hu, rfl⟩

/-! ## Every other step -/

/-- What follows an instruction whose phase has no tile: a phase that needs none, or the first tile of a grid. -/
theorem sequence_tileOk (i : Instr) (hu : u.seq.NoTile) (hhuf : u.seq ≠ .hufTable) : (sequence i u).tileOk := by
  have noTile {p : Phase} (hp : p.NoTile) : (u.goto p).tileOk := tileOk_of_noTile hp
  unfold sequence
  refine iteInduction (fun _ => tileOk_of_noTile hu) fun _ => ?_
  cases hseq : u.seq with
  | czBlock | l2Tile | bs2 | tileDeliver => rw [hseq] at hu; exact hu.elim
  | hufTable => exact absurd hseq hhuf
  | ident | czMsec | rle | l2Hdr => exact noTile (ite_noTile trivial trivial)
  | l2Mask => exact noTile (ite_noTile u.afterMask_noTile trivial)
  | l2Flag =>
    exact iteInduction (fun _ => iteInduction (fun _ => noTile trivial) fun _ => l2Enter_first_tileOk u) fun _ =>
      noTile trivial
  | l2Hf => exact iteInduction (fun _ => l2Enter_first_tileOk u) fun _ => noTile trivial
  | czHdr | maskExpand | czPsec | checksum | constSurf | l2Ranges | hufBuild | hufPlane | maskAnd | reshape =>
    exact noTile trivial
  | _ => exact tileOk_of_noTile hu

/-- The rules between records enter the first block of a band, or no tile. -/
theorem runRule_tileOk (hs : s.seq.NoTile) (h : runRule s = .ok t) : t.tileOk := by
  have next {r : Rule State} {p : State → Phase} (hp : ∀ u, (p u).NoTile) :
      (do let u ← r; return u.goto (p u)) = .ok t → t.tileOk := by
    intro h
    obtain ⟨u, -, h⟩ := Rule.bind_ok.1 h
    cases h
    exact tileOk_of_noTile (hp u)
  have done {u : State} (hu : u.tileOk) : (.ok u : Rule State) = .ok t → t.tileOk := by
    rintro ⟨⟩
    exact hu
  revert h
  unfold runRule
  cases hseq : s.seq with
  | tileDeliver => rw [hseq] at hs; exact hs.elim
  | bandStart | checksumTest | hufCodes | hufAlign | hufEnd | l2Stats | bandEnd | sweep | finish =>
    exact next fun _ => trivial
  | czSetup => exact done (tileOk_of_noTile (ite_noTile trivial trivial))
  | maskEnd => exact next fun u => ite_noTile u.afterMask_noTile trivial
  | czPrefill => exact done (czEnter_first_tileOk (czPrefill s))
  | rangesTest =>
    intro h
    obtain ⟨_, -, h⟩ := Rule.bind_ok.1 h
    refine done (tileOk_of_noTile ?_) h
    exact ite_noTile trivial trivial
  | bandTail => exact next fun _ => ite_noTile trivial trivial
  | czStats | l2Setup | l2Prefill => exact done (tileOk_of_noTile trivial)
  | _ => exact done (tileOk_of_noTile hs)

/-- A step of the busy engine keeps the tile at its place. -/
theorem engineStep_tileOk (hb : s.busy = true) (hs : s.tileOk) (h : engineStep s = .next t) : t.tileOk := by
  by_cases ht : t.busy = true
  · have other (hseq : s.seq.NoTile) (hhuf : s.seq ≠ .hufTable) : t.tileOk := by
      rcases engineStep_goesOn hb h ht with ⟨i, u, -, -, -, huseq, rfl⟩ | ⟨-, hr⟩
      · exact sequence_tileOk i (huseq ▸ hseq) (huseq ▸ hhuf)
      · exact runRule_tileOk hseq hr
    cases hseq : s.seq with
    | czBlock r c =>
      obtain ⟨u, hu, rfl⟩ := engineStep_czBlock hb hseq h ht
      have hh : u.h = s.h := by obtain ⟨-, hh, -⟩ := hu; exact hh
      refine nextBlock_tileOk ?_
      have := hu.tileIs ((tileOk_czBlock hseq).1 hs)
      simpa only [State.czTileW, State.czTileH, hh] using this
    | l2Tile r c d =>
      obtain ⟨u, hu, rfl | rfl⟩ := engineStep_l2Tile hb hseq h ht
      · exact (tileOk_bs2 rfl).2 (.inr (hu.l2TileIs ((tileOk_l2Tile hseq).1 hs)))
      · exact nextTile_tileOk (hu.l2TileIs ((tileOk_l2Tile hseq).1 hs))
    | bs2 r c d =>
      obtain ⟨u, hu, rfl⟩ := engineStep_bs2 hb hseq h ht
      rcases (tileOk_bs2 hseq).1 hs with hbare | htile
      · rw [hbare]
        exact tileOk_of_noTile trivial
      · cases s.bare
        · exact (tileOk_tileDeliver rfl).2 (hu.l2TileIs htile)
        · exact tileOk_of_noTile trivial
    | tileDeliver r c d =>
      obtain ⟨u, hu, rfl⟩ := engineStep_tileDeliver hb hseq h ht
      exact nextTile_tileOk (hu.l2TileIs ((tileOk_tileDeliver hseq).1 hs))
    | hufTable =>
      obtain ⟨htseq, hbare⟩ := engineStep_hufTable hb hseq h ht
      exact (tileOk_bs2 htseq).2 (.inl hbare)
    | _ => exact other (hseq ▸ trivial) (hseq ▸ nofun)
  · rcases engineStep_leadsTo hb h with ⟨hgo, -⟩ | ⟨-, -, -, -, -, hidle, -⟩ | ⟨-, -, -, hidle, -⟩
    · exact absurd (hgo.busy_eq.trans hb) ht
    · exact tileOk_of_idle hidle
    · exact tileOk_of_idle hidle

end

/-- Settles O58: the invariant along every step, and the two orders. -/
theorem tileStaysInGrid : Obligations.TileStaysInGrid := by
  refine ⟨fun s t hs h => ?_, fun s t hp hb h ht => ?_⟩
  · exact step_preserves (P := State.tileOk) (fun _ _ _ _ _ _ _ _ _ hs => hs) (fun _ => trivial) (fun _ => trivial)
      engineStep_tileOk hs h
  · rw [step_of_empty hp] at h
    obtain ⟨v, hv, rfl⟩ := nextFree_eq_next.1 h
    refine ⟨fun r c hseq => ?_, fun r c d hd => ?_⟩
    · obtain ⟨u, ⟨-, hh, -⟩, rfl⟩ := engineStep_czBlock hb hseq hv ht
      refine (nextBlock_seq u r c).trans ?_
      simp only [State.czCols, State.czRows, State.czTileW, State.czTileH, hh]
    · obtain ⟨u, ⟨-, hh, -⟩, rfl⟩ : ∃ u, sameTile s u ∧ v = nextTile u r c d := by
        rcases hd with ⟨hseq, hne⟩ | hseq
        · obtain ⟨u, hu, rfl | rfl⟩ := engineStep_l2Tile hb hseq hv ht
          · exact absurd rfl hne
          · exact ⟨u, hu, rfl⟩
        · exact engineStep_tileDeliver hb hseq hv ht
      refine (nextTile_seq u r c d).trans ?_
      simp only [State.l2Cols, State.l2Rows, hh]

end Sys2Proof.Machine

namespace Sys2Proof.Machine

/-! # The end of a band and of a call

Six rules run after the last block or tile: the statistics, the snap of `CUR` to the declared end, after `MASK.AND` the
tail of the band, and the completion. -/

section

variable {s : State}

/-! ## The rules that are due -/

theorem due_of_endRule (hseq : s.seq = .czStats ∨ s.seq = .l2Stats ∨ s.seq = .bandEnd ∨ s.seq = .bandTail ∨ s.seq = .finish) :
    due s = .ok none := by
  unfold due
  rcases hseq with hseq | hseq | hseq | hseq | hseq <;> rw [hseq]

theorem runRule_of_czStats (hseq : s.seq = .czStats) : runRule s = .ok ((czStats s).goto .bandEnd) := by
  unfold runRule
  rw [hseq]
  rfl

theorem runRule_of_l2Stats (hseq : s.seq = .l2Stats) : runRule s = do return (← l2Stats s).goto .bandEnd := by
  unfold runRule
  rw [hseq]

theorem runRule_of_bandEnd (hseq : s.seq = .bandEnd) : runRule s = do return (← bandEnd s).goto .maskAnd := by
  unfold runRule
  rw [hseq]

theorem runRule_of_bandTail (hseq : s.seq = .bandTail) : runRule s = do
    let s1 ← bandTail s
    return s1.goto (if s1.moreBands then .bandStart else .sweep) := by
  unfold runRule
  rw [hseq]

theorem runRule_of_finish (hseq : s.seq = .finish) : runRule s = do return (← finishCall s).goto .idle := by
  unfold runRule
  rw [hseq]

/-! ## The declared end (R203, R262) -/

theorem bandEnd_eq (s : State) :
    bandEnd s =
      if s.declaredEnd + 1 < s.cur.toNat ∨ s.cur.toNat + 1 < s.declaredEnd then raise s .cursor s.cur.toNat
      else if s.inLen.toNat < s.declaredEnd then raise s .trunc s.declaredEnd
      else .ok { s with cur := BitVec.ofNat 32 s.declaredEnd } := by
  rw [bandEnd, raiseIf_bind, raiseIf_bind]
  simp only [or_comm]
  rfl

/-! ## The statistics (R202, R251) -/

/-- A record put into `BSTAT` stands at the band's index, and no other changes. -/
theorem State.putStat_read (s : State) (st : BandStat) :
    Memory.read (s.putStat st).bstat s.band.toNat = some st
      ∧ ∀ other, other ≠ s.band.toNat → Memory.read (s.putStat st).bstat other = Memory.read s.bstat other :=
  ⟨Memory.read_write_same _ _ _, fun _ h => Memory.read_write_other _ _ h⟩

/-- The per-dimension values of a band: those of its ranges, where it has them, else one value for all dimensions. -/
theorem dimValues_of_ready {mem : MemName} {m : Memory F64} {ranges : Bool} {n : Nat} (v : F64)
    (h : ranges = true → ∀ d < n, (Memory.read m d).isSome = true) :
    ∃ vs, (if ranges then dimList mem m (List.range n) else .ok (List.replicate n v)) = .ok vs
      ∧ ∀ d < n, vs[d]? = if ranges then Memory.read m d else some v := by
  cases ranges with
  | false => exact ⟨_, rfl, fun d hd => List.getElem?_replicate_of_lt hd⟩
  | true =>
    obtain ⟨vs, hvs⟩ := readsEach_of_isSome (f := Memory.read m) (xs := List.range n)
      fun d hd => h rfl d (List.mem_range.1 hd)
    exact ⟨vs, dimList_eq_ok.2 hvs, fun d hd => hvs.get (List.getElem?_range hd)⟩

theorem State.hasRanges_iff (s : State) :
    s.hasRanges = true ↔ 4 ≤ s.h.version.toInt ∧ s.h.nValid ≠ 0 ∧ feq s.h.zMin s.h.zMax = false := by
  simp [State.hasRanges, and_assoc]

/-- The statistics of a Lerc2 band whose ranges, if it has them, can be read. -/
theorem l2Stats_of_ready (h : s.hasRanges = true → ∀ d < s.h.nDim.toNat,
    (Memory.read s.dimMin d).isSome = true ∧ (Memory.read s.dimMax d).isSome = true) :
    ∃ st, l2Stats s = .ok (s.putStat st) ∧ st.min = s.h.zMin ∧ st.max = s.h.zMax ∧ st.etype = s.h.etype
      ∧ st.nDim = s.h.nDim ∧ (4 ≤ s.h.version.toInt → ∀ d < s.h.nDim.toNat,
        st.dimMin[d]? = (if s.hasRanges then Memory.read s.dimMin d else some s.h.zMin)
          ∧ st.dimMax[d]? = if s.hasRanges then Memory.read s.dimMax d else some s.h.zMax) := by
  obtain ⟨lo, hlo, hlo'⟩ := dimValues_of_ready (mem := .dimMin) (m := s.dimMin) s.h.zMin fun hr d hd => (h hr d hd).1
  obtain ⟨hi, hhi, hhi'⟩ := dimValues_of_ready (mem := .dimMax) (m := s.dimMax) s.h.zMax fun hr d hd => (h hr d hd).2
  refine ⟨_, (Rule.ite_bind_of_ok _ hlo).trans (Rule.ite_bind_of_ok _ hhi), rfl, rfl, rfl, rfl, fun h4 d hd => ?_⟩
  rw [decide_eq_true h4]
  exact ⟨hlo' d hd, hhi' d hd⟩

/-! ## The tail of a band (R272, R273, R278, R280) -/

/-- More than 10 bytes are left (R273). -/
theorem State.moreBands_iff (s : State) : s.moreBands = true ↔ 10 < s.inLen.toNat - s.cur.toNat := by
  rw [State.moreBands, decide_eq_true_iff]
  omega

/-- The packed mask, the header echo, the number of bands and the end of the file. -/
theorem bandTail_of_ready (packed : Prop) [Decidable packed]
    (hp : packed ↔ s.optFlags.getLsbD 3 = true ∧ s.m.present = true)
    (hbits : s.band = 0 → packed → ∀ j < s.maskBytes, (Memory.read s.bitset j).isSome = true)
    (hstat : s.optFlags.getLsbD 4 = true → (Memory.read s.bstat s.band.toNat).isSome = true) :
    ∃ t, bandTail s = .ok t
      ∧ t = { s with
          encmask := t.encmask, bstat := t.bstat, band := s.band + 1,
          res := { s.res with
            nBands := s.band + 1, eof := s.cur,
            encValid := if s.band = 0 then decide packed else s.res.encValid } }
      ∧ (∀ j, Memory.read t.encmask j =
        if s.band = 0 ∧ packed ∧ j < s.maskBytes then Memory.read s.bitset j else Memory.read s.encmask j)
      ∧ (∀ st, Memory.read s.bstat s.band.toNat = some st → Memory.read t.bstat s.band.toNat = some
        (if s.optFlags.getLsbD 4 then
          { st with fileInfo := some { h := s.h, dimMin := s.dimMin, dimMax := s.dimMax } }
        else st))
      ∧ ∀ other, other ≠ s.band.toNat → Memory.read t.bstat other = Memory.read s.bstat other := by
  obtain ⟨u, hu, hus, henc⟩ := firstBandMask_of_ready packed hp hbits
  generalize u.encmask = enc at hus henc
  obtain ⟨v, hv, hvs, hecho, hother⟩ := fileInfo_of_ready (s := u) (by rw [hus]; exact hstat)
  generalize v.bstat = stats at hvs hecho hother
  subst hus
  subst hvs
  exact ⟨_, Rule.bind_ok.2 ⟨_, hu, Rule.bind_ok.2 ⟨_, hv, rfl⟩⟩, rfl, henc, hecho, hother⟩

/-! ## The completion (R277, R281) -/

theorem finishCall_of_ready (h : ∀ k < s.np, (Memory.read s.cmask k).isSome = true) :
    finishCall s = .ok { s with
      res := { s.res with maskValid := s.optFlags.getLsbD 2
        && (decide (s.m.count ≠ 0) || (List.range s.np).any fun k => Memory.read s.cmask k == some 0#8) },
      busy := false, done := true } := by
  obtain ⟨ks, hks⟩ := State.excluded_of_isSome h
  have hany : (!ks.isEmpty) = (List.range s.np).any fun k => Memory.read s.cmask k == some 0#8 := by
    obtain ⟨-, hmem⟩ := State.excluded_eq_ok hks
    rw [Bool.eq_iff_iff, Bool.not_eq_true', List.isEmpty_eq_false_iff_exists_mem, List.any_eq_true]
    simp only [hmem, List.mem_range, beq_iff_eq]
  have hcount : (s.m.count != 0#32) = decide (s.m.count ≠ 0) := by
    rw [Bool.eq_iff_iff, bne_iff_ne, decide_eq_true_iff]
    rfl
  rw [← hany, ← hcount, finishCall, hks]
  rfl

end

/-! ## The obligations -/

/-- Settles O49: the two tests of the snap (R203, R262). -/
theorem bandEndSnap : Obligations.BandEndSnap := by
  intro s hp hb hseq stop
  have hd := due_of_endRule (s := s) (.inr (.inr (.inl hseq)))
  have hrule := runRule_of_bandEnd hseq
  have hstop : s.declaredEnd = stop := rfl
  rw [bandEnd_eq, hstop] at hrule
  split
  · next hfar =>
    rw [if_pos hfar] at hrule
    exact step_faultedWith_of_rule hp hb hd hrule
  · next hnear =>
    rw [if_neg hnear] at hrule
    split
    · next hpast =>
      rw [if_pos hpast] at hrule
      exact step_faultedWith_of_rule hp hb hd hrule
    · next hin =>
      rw [if_neg hin] at hrule
      exact step_of_rule_ok hp hb hd hrule

/-- Settles O51, rule by rule. -/
theorem completionWrite : Obligations.CompletionWrite := by
  intro s hp hb b n
  refine ⟨?_, ?_, ?_, ?_⟩
  · intro hseq
    obtain ⟨hread, hother⟩ := s.putStat_read _
    exact ⟨_, _, step_of_rule_ok hp hb (due_of_endRule (.inl hseq)) (runRule_of_czStats hseq), rfl, hread, rfl,
      ⟨s.freeNaN .stat 0, s.freeNaN_isNaN .stat 0, rfl⟩, rfl, rfl, hother⟩
  · intro hseq ranges hready
    have hranges : s.hasRanges = true ↔ ranges := s.hasRanges_iff
    obtain ⟨st, hst, hmin, hmax, htype, hdim, hdims⟩ := l2Stats_of_ready fun hr => hready (hranges.1 hr)
    obtain ⟨hread, hother⟩ := s.putStat_read st
    have hrule := runRule_of_l2Stats hseq
    rw [hst, Rule.ok_bind] at hrule
    refine ⟨_, st, step_of_rule_ok hp hb (due_of_endRule (.inr (.inl hseq))) hrule, rfl, hread, hmin, hmax, htype, hdim,
      fun h4 d hd => ?_, hother⟩
    obtain ⟨hlo, hhi⟩ := hdims h4 d hd
    split
    · next hr =>
      rw [if_pos (hranges.2 hr)] at hlo hhi
      exact ⟨hlo, hhi⟩
    · next hr =>
      rw [if_neg (mt hranges.1 hr)] at hlo hhi
      exact ⟨hlo, hhi⟩
  · intro hseq packed hbits hstat
    obtain ⟨t, ht, hts, henc, hecho, hother⟩ := bandTail_of_ready packed Iff.rfl hbits hstat
    have hrule := runRule_of_bandTail hseq
    rw [ht, Rule.ok_bind] at hrule
    refine ⟨_, step_of_rule_ok hp hb (due_of_endRule (.inr (.inr (.inr (.inl hseq))))) hrule, ?_, henc, hecho, hother⟩
    have hcur : t.cur = s.cur := by rw [hts]
    have hlen : t.inLen = s.inLen := by rw [hts]
    have hseq' : (if t.moreBands then Phase.bandStart else .sweep)
        = if 10 < s.inLen.toNat - s.cur.toNat then .bandStart else .sweep := by
      rw [if_congr t.moreBands_iff rfl rfl, hcur, hlen]
    rw [hseq']
    generalize t.encmask = enc at hts
    generalize t.bstat = stats at hts
    subst hts
    rfl
  · intro hseq hmask
    have hrule := runRule_of_finish hseq
    rw [finishCall_of_ready hmask, Rule.ok_bind] at hrule
    exact step_of_rule_ok hp hb (due_of_endRule (.inr (.inr (.inr (.inr hseq))))) hrule

end Sys2Proof.Machine

namespace Sys2Proof.Machine

/-! # The dispatcher

The start of a call and of a band, the combined mask, the pre-fills and the no-data sweep, the transpose of `RESHAPE`.
The sweep is one list of cells written into `PIX` (`sweepBands_eq`); the transpose goes band by band, and each band's
elements are still the old ones when its turn comes (`reshapeBands_of_ready`). -/

section

variable {s : State}

/-! ## The start of a call and of a band (R266, R267, R269, R270) -/

theorem exec_cmdGo_of_ready (x : BitVec 31) (hb : s.busy = false) (hr : s.inputReady = true) :
    exec (.cmdGo x) s = .next s.startCall := by
  have hexec : exec (.cmdGo x) s = execCmdGo x s := rfl
  rw [hexec, execCmdGo, hb, hr]
  rfl

theorem setFormat_eq (s : State) (f : Format) :
    setFormat s f = if s.band ≠ 0 ∧ f ≠ s.h.fmt then raise s .magic s.cur.toNat
      else .ok { s with h := { s.h with fmt := f } } :=
  raiseIf_bind ..

/-- In band 0, or where the container stays the same, the identifier is stored. -/
theorem outcome_setFormat {f : Format} (h : s.band = 0 ∨ s.h.fmt = f) :
    (setFormat s f).outcome = .next { s with h := { s.h with fmt := f } } := by
  rw [setFormat_eq, if_neg]
  · rfl
  · rintro ⟨hband, hfmt⟩
    exact h.elim hband fun heq => hfmt heq.symm

theorem faultedWith_setFormat {f : Format} (hband : s.band ≠ 0) (hfmt : s.h.fmt ≠ f) :
    faultedWith (setFormat s f).outcome .magic s.cur.toNat := by
  rw [setFormat_eq, if_pos ⟨hband, hfmt.symm⟩]
  exact faultedWith_raise ..

theorem bandStart_eq (s : State) :
    bandStart s = if s.band.toNat = s.cfg.bandMax then raise s .param s.cur.toNat
      else .ok { s with h := { s.h with blob0 := s.cur } } :=
  raiseIf_bind ..

/-! ## The rules that are due -/

theorem due_of_dispatchRule (hseq : s.seq = .bandStart ∨ s.seq = .czPrefill ∨ s.seq = .l2Prefill ∨ s.seq = .sweep) :
    due s = .ok none := by
  unfold due
  rcases hseq with hseq | hseq | hseq | hseq <;> rw [hseq]

theorem runRule_of_bandStart (hseq : s.seq = .bandStart) : runRule s = do return (← bandStart s).goto .ident := by
  unfold runRule
  rw [hseq]

theorem runRule_of_czPrefill (hseq : s.seq = .czPrefill) : runRule s = .ok (czEnter (czPrefill s) 0 0) := by
  unfold runRule
  rw [hseq]
  rfl

theorem runRule_of_l2Prefill (hseq : s.seq = .l2Prefill) : runRule s = .ok ((l2Prefill s).goto .l2Mask) := by
  unfold runRule
  rw [hseq]
  rfl

theorem runRule_of_sweep (hseq : s.seq = .sweep) : runRule s = do return (← noDataSweep s).goto .reshape := by
  unfold runRule
  rw [hseq]

theorem czPrefill_eq (s : State) :
    czPrefill s = { s with
      pix := (s.fillBand s.np s.czNoData).pix, res := { s.res with noData := s.czNoData, ndValid := true },
      czMin := none } := rfl

theorem l2Prefill_eq (s : State) :
    l2Prefill s = { s with
      pix := (s.fillBand (s.np * s.h.nDim.toNat) s.l2NoData).pix,
      res := { s.res with noData := s.l2NoData, ndValid := s.optFlags.getLsbD 1 } } := rfl

/-! ## The combined mask (R274) -/

/-- What `MASK.AND` puts at a pixel whose mask can be read: the old byte, which band 0 takes as 1, or 0. -/
theorem State.andByte_of_ready {k : Nat} (hm : s.m.present = true → (Memory.read s.maskx k).isSome = true) {old : Byte}
    (hold : if s.band = 0 then old = 1#8 else Memory.read s.cmask k = some old) :
    s.andByte k = some (if s.isValid k then old &&& 1#8 else 0#8) := by
  have hread : (if s.band = 0#32 then some 1#8 else Memory.read s.cmask k) = some old := by
    split at hold
    · next hband => exact (if_pos hband).trans (congrArg some hold.symm)
    · next hband => exact (if_neg hband).trans hold
  have hwritten : ¬ (s.m.present = true ∧ (Memory.read s.maskx k).isSome = false) := fun ⟨hp, hnone⟩ =>
    Bool.false_ne_true (hnone.symm.trans (hm hp))
  rw [State.andByte, if_neg hwritten, hread, Option.map_some]
  cases s.isValid k <;> simp

/-- A pixel's old byte, where the combined mask of the bands before can be read. -/
theorem State.exists_oldByte {k : Nat} (h : s.band ≠ 0 → (Memory.read s.cmask k).isSome = true) :
    ∃ old, if s.band = 0 then old = 1#8 else Memory.read s.cmask k = some old := by
  by_cases hband : s.band = 0
  · exact ⟨1#8, by rw [if_pos hband]⟩
  · obtain ⟨old, hold⟩ := Option.isSome_iff_exists.1 (h hband)
    exact ⟨old, by rw [if_neg hband, hold]⟩

/-! ## Indices of `PIX` -/

theorem pixKey_eq_base_add (b i : Nat) : pixKey b i = pixKey b 0 + i := by simp [pixKey]

/-- An index made of a row and a place in it stays below the number of both. -/
theorem mul_add_lt_mul {a b m n : Nat} (ha : a < m) (hb : b < n) : a * n + b < m * n :=
  calc a * n + b < (a + 1) * n := by rw [Nat.succ_mul]; omega
    _ ≤ m * n := Nat.mul_le_mul_right n ha

/-- The element of dimension `d` at a pixel is one of the band's. -/
theorem State.index_lt {k d n : Nat} (hk : k < s.np) (hd : d < n) : d * s.np + k < s.np * n := by
  rw [Nat.mul_comm s.np n]
  exact mul_add_lt_mul hd hk

/-- Row by row, `n` places in each: place `d` of row `k` stands at `k*n + d`. -/
theorem getElem?_rows {α : Type} (f : Nat → Nat → α) {m n k d : Nat} (hk : k < m) (hd : d < n) :
    ((List.range m).flatMap fun k => (List.range n).map (f k))[k * n + d]? = some (f k d) := by
  induction m with
  | zero => omega
  | succ m ih =>
    have hlen : ((List.range m).flatMap fun k => (List.range n).map (f k)).length = m * n := by simp
    rw [List.range_succ, List.flatMap_append, List.flatMap_singleton]
    by_cases hkm : k < m
    · rw [List.getElem?_append_left (by rw [hlen]; exact mul_add_lt_mul hkm hd), ih hkm]
    · obtain rfl : k = m := by omega
      rw [List.getElem?_append_right (by omega), hlen, Nat.add_sub_cancel_left, List.getElem?_map,
        List.getElem?_range hd, Option.map_some]

/-! ## The pre-fills (R194, R220) -/

/-- `pix` is `PIX` of `s` with the no-data value stored at the first `n` indices of the current band. -/
structure State.Prefilled (s : State) (n : Nat) (nd : F64) (pix : Memory Elem) : Prop where
  filled : ∀ i < n, ∃ e, Memory.read pix (pixKey s.band.toNat i) = some e ∧ storesAs s.h.etype nd e
  kept : ∀ key, (∀ i < n, key ≠ pixKey s.band.toNat i) → Memory.read pix key = Memory.read s.pix key

theorem State.fillBand_prefilled (s : State) (n : Nat) (nd : F64) : s.Prefilled n nd (s.fillBand n nd).pix := by
  refine ⟨fun i hi => ?_, fun key hkey => ?_⟩
  · obtain ⟨-, hstores⟩ := s.pixCell_storesAs s.h.etype s.band.toNat i nd
    refine ⟨_, ?_, hstores⟩
    rw [State.fillBand, pixKey_eq_base_add _ i, Memory.read_writeRange_inside _ _ _ (by simpa using hi), List.getElem?_map,
      List.getElem?_range hi, Option.map_some]
  · refine Memory.read_writeRange_outside _ _ _ ?_
    rw [List.length_map, List.length_range]
    by_contra hin
    have hne := hkey (key - pixKey s.band.toNat 0)
    unfold pixKey at hin hne
    omega

/-! ## The no-data sweep (R275) -/

/-- The cells the sweep writes into one band: the no-data value at the pixels `ks` in every dimension. -/
def State.noDataCells (s : State) (ks : List Nat) (b : Nat) : List (Nat × Elem) :=
  (Memory.read s.bstat b).toList.flatMap fun st =>
    (ks.flatMap fun k => (List.range st.nDim.toNat).map fun d => d * s.np + k).map fun i =>
      s.pixCell st.etype b i s.res.noData

theorem State.mem_noDataCells {ks : List Nat} {b : Nat} {c : Nat × Elem} :
    c ∈ s.noDataCells ks b ↔ ∃ st, Memory.read s.bstat b = some st ∧ ∃ k ∈ ks, ∃ d < st.nDim.toNat,
      s.pixCell st.etype b (d * s.np + k) s.res.noData = c := by
  simp [State.noDataCells]

/-- The sweep of bands whose statistics are there is one list of cells: no band's cells depend on another's. -/
theorem sweepBands_eq (ks : List Nat) {bs : List Nat} (h : ∀ b ∈ bs, ∃ st, Memory.read s.bstat b = some st) :
    sweepBands ks bs s = .ok (s.putPix (bs.flatMap (s.noDataCells ks))) := by
  induction bs generalizing s with
  | nil => rfl
  | cons b bs ih =>
    obtain ⟨st, hst⟩ := h b (by simp)
    have hcells : s.noDataCells ks b = (ks.flatMap fun k => (List.range st.nDim.toNat).map fun d => d * s.np + k).map
        fun i => s.pixCell st.etype b i s.res.noData := by
      rw [State.noDataCells, hst, Option.toList_some, List.flatMap_singleton]
    rw [sweepBands, hst, written_some, Rule.ok_bind]
    dsimp only
    rw [← hcells, ih (s := s.putPix _) fun c hc => h c (by simp [hc]),
      List.flatMap_cons, State.putPix, State.putPix, State.putPix, Memory.writeAll_append]
    rfl

/-- Where the indices of the bands stay below 2^32, a cell of the sweep stands at its key: every other one there has the
same value. -/
theorem State.read_noDataCells {ks bs : List Nat} {c : Nat × Elem} (hc : c ∈ bs.flatMap (s.noDataCells ks))
    (hk : ∀ k ∈ ks, k < s.np)
    (hsize : ∀ b ∈ bs, ∀ st, Memory.read s.bstat b = some st → s.np * st.nDim.toNat ≤ 4294967296) :
    Memory.read (s.putPix (bs.flatMap (s.noDataCells ks))).pix c.1 = some c.2 := by
  refine Memory.read_writeAll_const _ _ (fun c' hc' hkey => ?_) ⟨c, hc, rfl⟩
  obtain ⟨b, hb, hcb⟩ := List.mem_flatMap.1 hc
  obtain ⟨b', hb', hcb'⟩ := List.mem_flatMap.1 hc'
  obtain ⟨st, hst, k, hks, d, hd, rfl⟩ := State.mem_noDataCells.1 hcb
  obtain ⟨st', hst', k', hks', d', hd', rfl⟩ := State.mem_noDataCells.1 hcb'
  have hi := (index_lt (hk k hks) hd).trans_le (hsize b hb st hst)
  have hi' := (index_lt (hk k' hks') hd').trans_le (hsize b' hb' st' hst')
  obtain ⟨rfl, hidx⟩ := (pixKey_inj_band hi' hi).1 hkey
  obtain rfl := Option.some.inj (hst'.symm.trans hst)
  rw [hidx]

theorem noDataSweep_of_ready (hmask : ∀ k < s.np, (Memory.read s.cmask k).isSome = true)
    (hstat : ∀ b < s.res.nBands.toNat, ∃ st, Memory.read s.bstat b = some st ∧ s.np * st.nDim.toNat ≤ 4294967296) :
    ∃ pix, noDataSweep s = .ok { s with pix := pix }
      ∧ (∀ b < s.res.nBands.toNat, ∀ st, Memory.read s.bstat b = some st → ∀ k < s.np, ∀ d < st.nDim.toNat,
        Memory.read s.cmask k = some 0#8 → ∃ e, Memory.read pix (pixKey b (d * s.np + k)) = some e
          ∧ storesAs st.etype s.res.noData e)
      ∧ ∀ key, (∀ b < s.res.nBands.toNat, ∀ st, Memory.read s.bstat b = some st → ∀ k < s.np, ∀ d < st.nDim.toNat,
        Memory.read s.cmask k = some 0#8 → key ≠ pixKey b (d * s.np + k)) →
        Memory.read pix key = Memory.read s.pix key := by
  obtain ⟨ks, hks⟩ := State.excluded_of_isSome hmask
  obtain ⟨-, hmem⟩ := State.excluded_eq_ok hks
  have hbands : ∀ b ∈ List.range s.res.nBands.toNat, ∃ st, Memory.read s.bstat b = some st := fun b hb =>
    (hstat b (List.mem_range.1 hb)).imp fun _ h => h.1
  have hsize : ∀ b ∈ List.range s.res.nBands.toNat, ∀ st, Memory.read s.bstat b = some st →
      s.np * st.nDim.toNat ≤ 4294967296 := fun b hb st hst => by
    obtain ⟨st', hst', hle⟩ := hstat b (List.mem_range.1 hb)
    rwa [Option.some.inj (hst.symm.trans hst')]
  refine ⟨_, by rw [noDataSweep, hks, Rule.ok_bind, sweepBands_eq ks hbands]; rfl,
    fun b hb st hst k hk d hd hzero => ?_, fun key hkey => ?_⟩
  · have hcell : s.pixCell st.etype b (d * s.np + k) s.res.noData ∈ s.noDataCells ks b :=
      State.mem_noDataCells.2 ⟨st, hst, k, (hmem k).2 ⟨hk, hzero⟩, d, hd, rfl⟩
    obtain ⟨-, hstores⟩ := s.pixCell_storesAs st.etype b (d * s.np + k) s.res.noData
    exact ⟨_, State.read_noDataCells (List.mem_flatMap.2 ⟨b, List.mem_range.2 hb, hcell⟩)
      (fun k hk => ((hmem k).1 hk).1) hsize, hstores⟩
  · refine Memory.read_writeAll_other _ _ fun c hc => ?_
    obtain ⟨b, hb, hcb⟩ := List.mem_flatMap.1 hc
    obtain ⟨st, hst, k, hks, d, hd, rfl⟩ := State.mem_noDataCells.1 hcb
    obtain ⟨hk, hzero⟩ := (hmem k).1 hks
    exact (hkey b (List.mem_range.1 hb) st hst k hk d hd hzero).symm

/-! ## The transpose (R276) -/

/-- The statistics of a band are there, and every element of it that the transpose reads. -/
def State.ReshapeReady (s : State) (b : Nat) : Prop :=
  ∃ st, Memory.read s.bstat b = some st ∧ s.np * st.nDim.toNat ≤ 4294967296
    ∧ (1 < st.nDim.toNat → ∀ i < s.np * st.nDim.toNat, (Memory.read s.pix (pixKey b i)).isSome = true)

/-- `pix` is `PIX` of `s` with the bands `bs` transposed, and nothing else changed. -/
structure State.Reshaped (s : State) (bs : List Nat) (pix : Memory Elem) : Prop where
  moved : ∀ b ∈ bs, ∀ st, Memory.read s.bstat b = some st → 1 < st.nDim.toNat → ∀ k < s.np, ∀ d < st.nDim.toNat,
    Memory.read pix (pixKey b (k * st.nDim.toNat + d)) = Memory.read s.pix (pixKey b (d * s.np + k))
  kept : ∀ key, (∀ b ∈ bs, ∀ st, Memory.read s.bstat b = some st → 1 < st.nDim.toNat →
    ∀ i < s.np * st.nDim.toNat, key ≠ pixKey b i) → Memory.read pix key = Memory.read s.pix key

/-- The elements of a band in the order of the result: element `k*n + d` of the list is element `d*NP + k`. -/
theorem readInterleaved_of_ready {b n : Nat}
    (h : ∀ i < s.np * n, (Memory.read s.pix (pixKey b i)).isSome = true) :
    ∃ es, readPixAll s b ((List.range s.np).flatMap fun k => (List.range n).map fun d => d * s.np + k) = .ok es
      ∧ es.length = s.np * n
      ∧ ∀ k < s.np, ∀ d < n, es[k * n + d]? = Memory.read s.pix (pixKey b (d * s.np + k)) := by
  obtain ⟨es, hes⟩ := readsEach_of_isSome (f := fun i => Memory.read s.pix (pixKey b i))
    (xs := (List.range s.np).flatMap fun k => (List.range n).map fun d => d * s.np + k) fun i hi => by
      simp only [List.mem_flatMap, List.mem_map, List.mem_range] at hi
      obtain ⟨k, hk, d, hd, rfl⟩ := hi
      exact h _ (State.index_lt hk hd)
  refine ⟨es, readPixAll_eq_ok.2 hes, by simpa using hes.length, fun k hk d hd => ?_⟩
  exact hes.get (getElem?_rows (fun k d => d * s.np + k) hk hd)

/-- One band: transposed where it has more than one dimension, else passed over. -/
theorem reshapeBands_cons_of_ready {b : Nat} (bs : List Nat) (h : s.ReshapeReady b) :
    ∃ pix, reshapeBands (b :: bs) s = reshapeBands bs { s with pix := pix } ∧ s.Reshaped [b] pix := by
  obtain ⟨st, hst, -, hpix⟩ := h
  have huniq {st'} (hst' : Memory.read s.bstat b = some st') : st' = st := Option.some.inj (hst'.symm.trans hst)
  rw [reshapeBands, hst, written_some, Rule.ok_bind]
  by_cases hn : 1 < st.nDim.toNat
  · obtain ⟨es, hes, hlen, hget⟩ := readInterleaved_of_ready (hpix hn)
    refine ⟨Memory.writeRange s.pix (pixKey b 0) es, ?_, fun c hc st' hst' _ k hk d hd => ?_, fun key hkey => ?_⟩
    · dsimp only
      rw [if_pos hn, hes, Rule.ok_bind]
    · obtain rfl := List.mem_singleton.1 hc
      obtain rfl := huniq hst'
      rw [← hget k hk d hd, pixKey_eq_base_add c (_ + d)]
      exact Memory.read_writeRange_inside s.pix (pixKey c 0) es (hlen ▸ mul_add_lt_mul hk hd)
    · refine Memory.read_writeRange_outside _ _ _ ?_
      have hne := hkey b (List.mem_singleton_self b) st hst hn (key - pixKey b 0)
      unfold pixKey at hne ⊢
      omega
  · refine ⟨s.pix, if_neg hn, fun c hc st' hst' hn' => ?_, fun _ _ => rfl⟩
    obtain rfl := List.mem_singleton.1 hc
    obtain rfl := huniq hst'
    exact absurd hn' hn

/-- Elements of different bands are different, below 2^32. -/
theorem pixKey_ne_of_band {b c i j : Nat} (hbc : b ≠ c) (hi : i < 4294967296) (hj : j < 4294967296) :
    pixKey b i ≠ pixKey c j := fun h => hbc ((pixKey_inj_band hi hj).1 h).1

/-- The transposed band leaves the elements of every other one. -/
theorem State.Reshaped.read_other {b c i : Nat} {pix : Memory Elem} (h : s.Reshaped [b] pix) (hb : s.ReshapeReady b)
    (hcb : c ≠ b) (hi : i < 4294967296) : Memory.read pix (pixKey c i) = Memory.read s.pix (pixKey c i) := by
  obtain ⟨st, hst, hsize, -⟩ := hb
  refine h.kept _ fun b' hb' st' hst' _ j hj => ?_
  obtain rfl := List.mem_singleton.1 hb'
  obtain rfl := Option.some.inj (hst'.symm.trans hst)
  exact pixKey_ne_of_band hcb hi (hj.trans_le hsize)

theorem State.ReshapeReady.of_reshaped {b c : Nat} {pix : Memory Elem} (hc : s.ReshapeReady c)
    (h : s.Reshaped [b] pix) (hb : s.ReshapeReady b) (hcb : c ≠ b) : { s with pix := pix }.ReshapeReady c := by
  obtain ⟨st, hst, hsize, hpix⟩ := hc
  refine ⟨st, hst, hsize, fun hn i hi => ?_⟩
  have hread := h.read_other hb hcb (hi.trans_le hsize)
  exact (congrArg Option.isSome hread).trans (hpix hn i hi)

/-- A band transposed and then some others: all of them are. -/
theorem State.Reshaped.cons {b : Nat} {bs : List Nat} {pix pix' : Memory Elem} (h : s.Reshaped [b] pix)
    (h' : { s with pix := pix }.Reshaped bs pix') (hb : s.ReshapeReady b) (hbs : ∀ c ∈ bs, s.ReshapeReady c)
    (hnew : b ∉ bs) : s.Reshaped (b :: bs) pix' := by
  refine ⟨fun c hc st hst hn k hk d hd => ?_, fun key hkey => ?_⟩
  · rcases List.mem_cons.1 hc with rfl | hc
    · have hlater : Memory.read pix' (pixKey c (k * st.nDim.toNat + d))
          = Memory.read pix (pixKey c (k * st.nDim.toNat + d)) := by
        refine h'.kept _ fun c' hc' st' hst' _ i hi => ?_
        obtain ⟨_, hstc, hsize, -⟩ := hb
        obtain ⟨_, hstc', hsize', -⟩ := hbs c' hc'
        obtain rfl := Option.some.inj (hst.symm.trans hstc)
        obtain rfl := Option.some.inj (hst'.symm.trans hstc')
        exact pixKey_ne_of_band (fun heq => hnew (heq ▸ hc')) ((mul_add_lt_mul hk hd).trans_le hsize)
          (hi.trans_le hsize')
      exact hlater.trans (h.moved c (List.mem_singleton_self c) st hst hn k hk d hd)
    · obtain ⟨_, hstc, hsize, -⟩ := hbs c hc
      obtain rfl := Option.some.inj (hst.symm.trans hstc)
      exact (h'.moved c hc st hst hn k hk d hd).trans
        (h.read_other hb (fun heq => hnew (heq ▸ hc)) ((State.index_lt hk hd).trans_le hsize))
  · have hlater := h'.kept key fun c hc => hkey c (List.mem_cons_of_mem b hc)
    exact hlater.trans (h.kept key fun c hc => hkey c (List.mem_singleton.1 hc ▸ List.mem_cons_self))

theorem reshapeBands_of_ready {bs : List Nat} (hd : bs.Nodup) (h : ∀ b ∈ bs, s.ReshapeReady b) :
    ∃ pix, reshapeBands bs s = .ok { s with pix := pix } ∧ s.Reshaped bs pix := by
  induction bs generalizing s with
  | nil => exact ⟨s.pix, rfl, nofun, fun _ _ => rfl⟩
  | cons b bs ih =>
    obtain ⟨hnew, hd⟩ := List.nodup_cons.1 hd
    have hb := h b List.mem_cons_self
    have hbs : ∀ c ∈ bs, s.ReshapeReady c := fun c hc => h c (List.mem_cons_of_mem b hc)
    obtain ⟨pix, heq, hpix⟩ := reshapeBands_cons_of_ready bs hb
    obtain ⟨pix', hrest, hpix'⟩ := ih (s := { s with pix := pix }) hd fun c hc =>
      (hbs c hc).of_reshaped hpix hb fun heq => hnew (heq ▸ hc)
    exact ⟨pix', heq.trans hrest, hpix.cons hpix' hb hbs hnew⟩

end

/-! ## The obligations -/

/-- Settles O7: the accepted `GO` is `startCall`, whose fields are read off (R266, R321). -/
theorem goStartsCall : Obligations.GoStartsCall := by
  intro s x
  refine ⟨fun hb hr => ⟨s.startCall, exec_cmdGo_of_ready x hb hr, ?_⟩, exec_cmdGo_of_busy x⟩
  simp [State.startCall, State.flagsGo, State.resetWith]

/-- Settles O8: both identifiers go through `setFormat`, the start of a band through `bandStart`. -/
theorem identifierSettlesContainer : Obligations.IdentifierSettlesContainer := by
  intro s leading space sixth
  refine ⟨outcome_setFormat, outcome_setFormat, faultedWith_setFormat, faultedWith_setFormat, fun hp hb hseq => ?_⟩
  have hd := due_of_dispatchRule (s := s) (.inl hseq)
  have hrule := runRule_of_bandStart hseq
  rw [bandStart_eq] at hrule
  split
  · next hlimit =>
    rw [if_pos hlimit] at hrule
    exact step_faultedWith_of_rule hp hb hd hrule
  · next hbelow =>
    rw [if_neg hbelow] at hrule
    exact step_of_rule_ok hp hb hd hrule

/-- Settles O47: the bytes of `andMask`, written from address 0. -/
theorem maskAndResult : Obligations.MaskAndResult := by
  intro s hmask hold
  have hready {k : Nat} (hk : k < s.np) (hp : s.m.present = true) : (Memory.read s.maskx k).isSome = true :=
    hmask hp k (List.mem_range.2 hk)
  obtain ⟨xs, hxs⟩ := readsEach_of_isSome (f := s.andByte) (xs := List.range s.np) fun k hk => by
    have hk := List.mem_range.1 hk
    obtain ⟨old, ho⟩ := s.exists_oldByte fun hband => hold hband k hk
    rw [State.andByte_of_ready (hready hk) ho]
    rfl
  have hlen : xs.length = s.np := by simpa using hxs.length
  have hexec : exec .maskAnd s = (maskAnd s).outcome := rfl
  refine ⟨{ s with cmask := Memory.writeRange s.cmask 0 xs }, ?_, rfl, fun k hk old ho => ?_, fun k hk => ?_⟩
  · rw [hexec, maskAnd, andMask_eq_ok.2 hxs]
    rfl
  · rw [Memory.read_writeRange_zero _ _ (hlen ▸ hk), hxs.get (List.getElem?_range hk),
      State.andByte_of_ready (hready hk) ho]
  · exact Memory.read_writeRange_zero_past _ _ (hlen ▸ hk)

/-- Settles O48: band by band, each one's elements being the old ones when its turn comes. -/
theorem reshapeResult : Obligations.ReshapeResult := by
  intro s hready
  have hexec : exec .reshape s = (reshape s).outcome := rfl
  rw [hexec, reshape]
  cases hflag : s.optFlags.getLsbD 5 with
  | false => exact ⟨s, rfl, rfl, fun _ => rfl, nofun, fun _ _ => rfl⟩
  | true =>
    obtain ⟨pix, heq, hpix⟩ := reshapeBands_of_ready (s := s) List.nodup_range
      fun b hb => hready b (List.mem_range.1 hb)
    refine ⟨{ s with pix := pix }, ?_, rfl, nofun, fun _ b hb => hpix.moved b (List.mem_range.2 hb), fun key hkey => ?_⟩
    · rw [if_pos rfl, heq, Rule.outcome_ok]
    · exact hpix.kept key fun b hb => hkey b (List.mem_range.1 hb)

/-- Settles O50: the sweep as one list of cells, and the two pre-fills as one range of a band. -/
theorem noDataSweepResult : Obligations.NoDataSweep := by
  intro s hp hb
  refine ⟨fun hseq hmask hstat => ?_, fun hseq => ?_, fun hseq => ?_⟩
  · obtain ⟨pix, heq, hfilled, hkept⟩ := noDataSweep_of_ready hmask hstat
    have hrule := runRule_of_sweep hseq
    rw [heq, Rule.ok_bind] at hrule
    exact ⟨_, step_of_rule_ok hp hb (due_of_dispatchRule (.inr (.inr (.inr hseq)))) hrule, rfl, hfilled, hkept⟩
  · intro nd
    have hpix := s.fillBand_prefilled s.np s.czNoData
    have hrule := runRule_of_czPrefill hseq
    have htile := (tileOk_czBlock rfl).1 (czEnter_first_tileOk (czPrefill s))
    rw [czPrefill_eq] at hrule htile
    generalize (s.fillBand s.np s.czNoData).pix = pix at hpix hrule htile
    rw [Nat.zero_mul, Nat.zero_mul] at htile
    refine ⟨_, step_of_rule_ok hp hb (due_of_dispatchRule (.inr (.inl hseq))) hrule, ?_, htile, hpix.filled, hpix.kept⟩
    rw [czEnter, Nat.zero_mul, Nat.zero_mul]
    rfl
  · intro nd n
    have hpix := s.fillBand_prefilled (s.np * s.h.nDim.toNat) s.l2NoData
    have hrule := runRule_of_l2Prefill hseq
    rw [l2Prefill_eq] at hrule
    generalize (s.fillBand (s.np * s.h.nDim.toNat) s.l2NoData).pix = pix at hpix hrule
    exact ⟨_, step_of_rule_ok hp hb (due_of_dispatchRule (.inr (.inr (.inl hseq)))) hrule, rfl, hpix.filled, hpix.kept⟩

end Sys2Proof.Machine

namespace Sys2Proof.Machine

/-! # The canonical form of the memories

Every rule is built from a few writes (`Memory.write`, `writeAll`, `writeRange`), each of which keeps the canonical form
(Laws/Memory.lean). The parts of a rule compose by `Rule.Meets.bind`: where a part writes a memory, the proof that its
state is canonical names that field alone (`{ h with pix := … }`), and where it writes none, none (`{ h with }`). Fault
entry empties the outputs and leaves the rest (R291), so a fault keeps the form too. -/

/-- A rule that hands on a value only: its faults leave every memory canonical. -/
abbrev Rule.ReadsWf {α : Type} (r : Rule α) : Prop := r.Meets (fun _ => True) State.MemoriesWf

/-- A rule that leaves every memory canonical, whether it completes or faults. -/
abbrev Rule.RunsWf (r : Rule State) : Prop := r.Meets State.MemoriesWf State.MemoriesWf

section

variable {α β : Type} {s t : State}

/-- A rule that takes no fault meets any postcondition of faults. -/
theorem Rule.Meets.of_noFault {Q : State → Prop} {r : Rule α} (h : ∀ t, r ≠ .error (.halt t)) :
    r.Meets (fun _ => True) Q :=
  ⟨fun _ _ => trivial, fun t e => absurd e (h t)⟩

/-- A reader first, then a rule that meets its postcondition whatever was read. -/
theorem Rule.Meets.andThen {P : β → Prop} {Q : State → Prop} {r : Rule α} {f : α → Rule β}
    (h : r.Meets (fun _ => True) Q) (hf : ∀ a, (f a).Meets P Q) : Rule.Meets P Q (r >>= f) :=
  h.bind fun a _ => hf a

/-! ## The writes -/

theorem State.MemoriesWf.takeFault (h : s.MemoriesWf) (code : ErrCode) (info : Nat) :
    (s.takeFault code info).MemoriesWf :=
  { h with
    bitset := Memory.wf_nil, maskx := Memory.wf_nil, cmask := Memory.wf_nil, encmask := Memory.wf_nil,
    pix := Memory.wf_nil, bstat := Memory.wf_nil }

theorem State.MemoriesWf.advance (h : s.MemoriesWf) (n : Nat) : (s.advance n).MemoriesWf := { h with }

theorem State.MemoriesWf.putPix (h : s.MemoriesWf) (cells : List (Nat × Elem)) : (s.putPix cells).MemoriesWf :=
  { h with pix := Memory.writeAll_wf cells h.pix }

theorem State.MemoriesWf.deliver (h : s.MemoriesWf) (d : Nat) (ks : List Nat) (vs : List F64) :
    (s.deliver d ks vs).MemoriesWf :=
  { h.putPix _ with }

theorem State.MemoriesWf.czDeliver (h : s.MemoriesWf) (ks : List Nat) (vs : List F64) :
    (czDeliver s ks vs).MemoriesWf :=
  { h.deliver 0 ks vs with }

theorem State.MemoriesWf.fillBand (h : s.MemoriesWf) (n : Nat) (nd : F64) : (s.fillBand n nd).MemoriesWf :=
  { h with pix := Memory.writeRange_wf h.pix _ _ }

theorem State.MemoriesWf.putStat (h : s.MemoriesWf) (st : BandStat) : (s.putStat st).MemoriesWf :=
  { h with bstat := Memory.write_wf h.bstat _ _ }

theorem State.MemoriesWf.rlPut (h : s.MemoriesWf) (consumed : Nat) (bytes : List Byte) :
    (s.rlPut consumed bytes).MemoriesWf :=
  { h with bitset := Memory.writeRange_wf h.bitset _ _ }

theorem State.MemoriesWf.withCodes (h : s.MemoriesWf) (a : Nat) (r : List Nat × Nat × Nat) :
    (s.withCodes a r).MemoriesWf :=
  { h with codes := Memory.writeRange_wf h.codes _ _ }

theorem State.MemoriesWf.firstBandResults (h : s.MemoriesWf) : s.firstBandResults.MemoriesWf := by
  rw [State.firstBandResults_eq]; exact { h with }

/-! ## The readers -/

theorem raise_meetsWf {P : α → Prop} {code : ErrCode} {info : Nat} (h : s.MemoriesWf) :
    Rule.Meets P State.MemoriesWf (raise s code info) := by
  constructor <;> intro t e <;> cases e
  exact h.takeFault code info

theorem raiseIf_readsWf {test : Bool} {code : ErrCode} {info : Nat} (h : s.MemoriesWf) :
    (raiseIf s test code info).ReadsWf :=
  .ite (raise_meetsWf h) (.ok trivial)

theorem memCheck_readsWf {a n : Nat} (h : s.MemoriesWf) : (memCheck s a n).ReadsWf :=
  .ite (.ok trivial) (raise_meetsWf h)

theorem memRead_readsWf {a n : Nat} (h : s.MemoriesWf) : (memRead s a n).ReadsWf :=
  .andThen (memCheck_readsWf h) fun _ => .of_noFault fun _ => inBytes_ne_halt

theorem readLe_readsWf {a n : Nat} (h : s.MemoriesWf) : (readLe s a n).ReadsWf :=
  .andThen (memRead_readsWf h) fun _ => .pure trivial

theorem readElem_readsWf {ty : EType} {a : Nat} (h : s.MemoriesWf) : (readElem s ty a).ReadsWf :=
  .andThen (readLe_readsWf h) fun _ => .pure trivial

theorem readElems_readsWf {ty : EType} {a n : Nat} (h : s.MemoriesWf) : (readElems s ty a n).ReadsWf :=
  ⟨fun _ _ => trivial, fun _ e => by obtain ⟨b, -, -, rfl⟩ := readElems_eq_halt e; exact h.takeFault _ _⟩

theorem validOf_readsWf {ks : List Nat} : (s.validOf ks).ReadsWf := .of_noFault fun _ => State.validOf_ne_halt

theorem written_readsWf {mem : MemName} {index : Nat} {o : Option α} : (written mem index o).ReadsWf :=
  .of_noFault fun _ => written_ne_halt

theorem tileValues_readsWf {ks : List Nat} {vs : List F64} : (tileValues s ks vs).ReadsWf :=
  .of_noFault fun _ => tileValues_ne_halt

theorem bs2Args_readsWf : (bs2Args s).ReadsWf := .of_noFault fun _ => bs2Args_ne_halt

theorem excluded_readsWf : s.excluded.ReadsWf := .of_noFault fun _ => State.excluded_ne_halt

theorem remapLut_readsWf {c : Nat} (h : s.MemoriesWf) : (remapLut s c).ReadsWf :=
  .andThen (raiseIf_readsWf h) fun _ => written_readsWf

theorem remapLutAll_readsWf {cs : List Nat} (h : s.MemoriesWf) : (remapLutAll s cs).ReadsWf :=
  ⟨fun _ _ => trivial, fun _ e => by rw [remapLutAll_eq_halt e]; exact h.takeFault _ _⟩

/-! ## Headers and sections -/

theorem setFormat_runsWf {f : Format} (h : s.MemoriesWf) : (setFormat s f).RunsWf :=
  .andThen (raiseIf_readsWf h) fun _ => .pure { h with }

theorem czHdr_runsWf {v i ht w : Word} {e : F64} (h : s.MemoriesWf) : (czHdr s v i ht w e).RunsWf :=
  .andThen (raiseIf_readsWf { h with }) fun _ => .andThen (raiseIf_readsWf { h with }) fun _ => .pure { h with }

theorem rmdStart_runsWf {numBytes : Word} (h : s.MemoriesWf) : (rmdStart s numBytes).RunsWf :=
  .andThen (memCheck_readsWf h) fun _ => .pure { h with }

theorem czMsec_runsWf {nby nbx n : Word} {m : F32} (h : s.MemoriesWf) : (czMsec s nby nbx n m).RunsWf :=
  .ite (.ok { h with }) (rmdStart_runsWf { h with })

theorem czPsec_runsWf {nby nbx n : Word} {m : F32} (h : s.MemoriesWf) : (czPsec s nby nbx n m).RunsWf :=
  .andThen (raiseIf_readsWf { h with }) fun _ => .pure { h with }

theorem l2Hdr_runsWf {header : L2Header} (h : s.MemoriesWf) : (l2Hdr s header).RunsWf := by
  cases header with
  | unsupported v => exact raise_meetsWf { h with }
  | fields => exact .andThen (raiseIf_readsWf { h with }) fun _ => .pure { h with }

theorem checkValidCount_runsWf (h : s.MemoriesWf) : (checkValidCount s).RunsWf :=
  .andThen (.of_noFault fun _ => State.nvalid_ne_halt) fun _ => .andThen (raiseIf_readsWf h) fun _ => .pure h

theorem l2Mask_runsWf {n : Word} (h : s.MemoriesWf) : (l2Mask s n).RunsWf :=
  .ite (.andThen (raiseIf_readsWf { h with }) fun _ => .pure { h with })
    (.ite (rmdStart_runsWf { h with })
      (.andThen (raiseIf_readsWf { h with }) fun _ => checkValidCount_runsWf { h with }))

theorem maskEnd_runsWf (h : s.MemoriesWf) : (maskEnd s).RunsWf :=
  .ite (checkValidCount_runsWf { h with }) (.ok { h with })

/-- `DIMMIN` and `DIMMAX` are written (R226). -/
theorem l2Ranges_runsWf (h : s.MemoriesWf) : (l2Ranges s).RunsWf :=
  .andThen (readElems_readsWf h) fun _ => .andThen (readElems_readsWf h) fun _ =>
    .pure { h with dimMin := Memory.writeRange_wf h.dimMin _ _, dimMax := Memory.writeRange_wf h.dimMax _ _ }

theorem hufTable_runsWf {v n i j : Word} (h : s.MemoriesWf) : (hufTable s v n i j).RunsWf :=
  .andThen (raiseIf_readsWf { h with }) fun _ => .andThen (raiseIf_readsWf { h with }) fun _ =>
    .andThen (raiseIf_readsWf { h with }) fun _ => .andThen (raiseIf_readsWf { h with }) fun _ => .pure { h with }

theorem l2HfPlain_runsWf (h : s.MemoriesWf) : (l2HfPlain s).RunsWf :=
  .andThen (raiseIf_readsWf { h with }) fun _ => .pure { h with }

theorem f32Sum_runsWf {a n : Nat} (h : s.MemoriesWf) : (f32Sum s a n).RunsWf :=
  .andThen (memRead_readsWf h) fun _ => .pure { h with }

/-! ## Masks -/

theorem rleLit_runsWf {run : BitVec 16} (h : s.MemoriesWf) : (rleLit s run).RunsWf :=
  have hu : (s.rlHead run).MemoriesWf := { h with }
  .andThen (raiseIf_readsWf hu) fun _ => .andThen (raiseIf_readsWf hu) fun _ => .andThen (memRead_readsWf hu) fun _ =>
    .pure (hu.rlPut _ _)

theorem rleRep_runsWf {run : BitVec 16} (h : s.MemoriesWf) : (rleRep s run).RunsWf :=
  have hu : (s.rlHead run).MemoriesWf := { h with }
  .andThen (raiseIf_readsWf hu) fun _ => .andThen (raiseIf_readsWf hu) fun _ => .andThen (memRead_readsWf hu) fun _ =>
    .pure (hu.rlPut _ _)

theorem rleEnd_runsWf (h : s.MemoriesWf) : (rleEnd s).RunsWf :=
  .andThen (raiseIf_readsWf { h with }) fun _ => .andThen (raiseIf_readsWf { h with }) fun _ => .pure { h with }

/-- `MASKX` is written (R139). -/
theorem maskExpand_runsWf (h : s.MemoriesWf) : (maskExpand s).RunsWf :=
  .andThen (.of_noFault fun _ => expandBits_ne_halt) fun _ =>
    .pure { h with maskx := Memory.writeRange_wf h.maskx _ _ }

/-- `CMASK` is written (R274). -/
theorem maskAnd_runsWf (h : s.MemoriesWf) : (maskAnd s).RunsWf :=
  .andThen (.of_noFault fun _ => andMask_ne_halt) fun _ =>
    .pure { h with cmask := Memory.writeRange_wf h.cmask _ _ }

/-- `ENCMASK` is written (R278). -/
theorem encodedMask_runsWf (h : s.MemoriesWf) : (encodedMask s).RunsWf :=
  .ite (.andThen (.of_noFault fun _ => bitsetBytes_ne_halt) fun _ =>
    .pure { h with encmask := Memory.writeRange_wf h.encmask _ _ }) (.ok { h with })

/-! ## The unpacker -/

/-- `CODES` is written (R100). -/
theorem unpk_meetsWf {conv : Conv} {a n k : Nat} (h : s.MemoriesWf) :
    (unpk s conv a n k).Meets (fun r => r.2.MemoriesWf) State.MemoriesWf := by
  refine ⟨fun r e => ?_, fun t e => ?_⟩
  · obtain ⟨-, bytes, -, -, -, ht⟩ := unpk_eq_ok (codes := r.1) (t := r.2).1 e
    rw [ht]
    exact h.withCodes _ _
  · rcases unpk_eq_halt.1 e with ⟨-, rfl⟩ | ⟨-, -, -, rfl⟩ <;> exact h.takeFault _ _

theorem bs2Head_runsWf {lutf : Bool} {numBits : BitVec 5} {count : CountField} (h : s.MemoriesWf) :
    (bs2Head s lutf numBits count).RunsWf :=
  .andThen (raiseIf_readsWf { h with }) fun _ =>
    .ite (.andThen (raiseIf_readsWf { h with }) fun _ => .pure { h with })
      (.andThen validOf_readsWf fun _ => .andThen (raiseIf_readsWf { h with }) fun _ => .pure { h with })

theorem bs2Aff_runsWf {numBits : BitVec 5} {count : CountField} (h : s.MemoriesWf) :
    (bs2Aff s numBits count).RunsWf :=
  .bind (bs2Head_runsWf h) fun _ hu => .andThen bs2Args_readsWf fun _ => .bind (unpk_meetsWf hu) fun _ hr =>
    .pure { hr with }

/-- `LUT` is written (R118). -/
theorem lutLoad_runsWf {args : RemapArgs} (h : s.MemoriesWf) : (lutLoad s args).RunsWf :=
  .bind (unpk_meetsWf h) fun _ hr => .pure { hr with lut := Memory.writeRange_wf hr.lut _ _ }

theorem bs2Lut_runsWf {numBits : BitVec 5} {count : CountField} (h : s.MemoriesWf) :
    (bs2Lut s numBits count).RunsWf :=
  .bind (bs2Head_runsWf h) fun _ hu => .andThen (readLe_readsWf hu) fun _ => .andThen (raiseIf_readsWf { hu with }) fun _ =>
    .andThen bs2Args_readsWf fun _ => .bind (lutLoad_runsWf { hu with }) fun _ hv => .bind (unpk_meetsWf hv) fun _ hr =>
      .andThen (remapLutAll_readsWf { hr with }) fun _ => .pure { hr with }

/-! ## Blocks, tiles and bodies -/

theorem czHead_runsWf {mode : BitVec 2} {off : CzOffset} (h : s.MemoriesWf) : (czHead s mode off).RunsWf :=
  .andThen (raiseIf_readsWf { h with }) fun _ => .pure { h with }

theorem czRaw_runsWf {off : CzOffset} (h : s.MemoriesWf) : (czRaw s off).RunsWf :=
  .bind (czHead_runsWf h) fun _ hu => .andThen validOf_readsWf fun _ => .andThen (memCheck_readsWf hu) fun _ =>
    .andThen (readElems_readsWf hu) fun _ => .pure ((hu.czDeliver _ _).advance _)

theorem czBs_runsWf {off : CzOffset} {bits : BitVec 6} {count : CountField} (h : s.MemoriesWf) :
    (czBs s off bits count).RunsWf :=
  .bind (czHead_runsWf h) fun _ hu => .andThen (raiseIf_readsWf { hu with }) fun _ =>
    .andThen (raiseIf_readsWf { hu with }) fun _ => .andThen validOf_readsWf fun _ =>
      .andThen (raiseIf_readsWf { hu with }) fun _ => .bind (unpk_meetsWf { hu with }) fun _ hr =>
        .pure ((hr.advance _).czDeliver _ _)

theorem czConst_runsWf {off : CzOffset} (h : s.MemoriesWf) : (czConst s off).RunsWf :=
  .bind (czHead_runsWf h) fun _ hu => .andThen validOf_readsWf fun _ => .pure (hu.czDeliver _ _)

theorem tileHead_runsWf {mode otype : BitVec 2} {tag : BitVec 4} (h : s.MemoriesWf) :
    (tileHead s mode otype tag).RunsWf :=
  .andThen (raiseIf_readsWf h) fun _ => .andThen (raiseIf_readsWf { h with }) fun _ => .pure { h with }

theorem originField_runsWf (h : s.MemoriesWf) : (originField s).RunsWf := by
  unfold originField
  split
  · exact raise_meetsWf h
  · exact .andThen (readElem_readsWf h) fun _ => .pure { h with }

theorem l2TileRaw_runsWf {otype : BitVec 2} {tag : BitVec 4} (h : s.MemoriesWf) : (l2TileRaw s otype tag).RunsWf :=
  .bind (tileHead_runsWf h) fun _ hu => .andThen validOf_readsWf fun _ => .andThen (memCheck_readsWf hu) fun _ =>
    .andThen (readElems_readsWf hu) fun _ => .pure ((hu.deliver _ _ _).advance _)

theorem l2TileBs_runsWf {otype : BitVec 2} {tag : BitVec 4} (h : s.MemoriesWf) : (l2TileBs s otype tag).RunsWf :=
  .bind (tileHead_runsWf h) fun _ hu => .bind (originField_runsWf hu) fun _ hv => .pure { hv with }

theorem l2TileXb_runsWf {otype : BitVec 2} {tag : BitVec 4} (h : s.MemoriesWf) : (l2TileXb s otype tag).RunsWf :=
  .bind (tileHead_runsWf h) fun _ hu => .andThen validOf_readsWf fun _ =>
    .ite (.andThen (.of_noFault fun _ => refElems_ne_halt) fun _ => .pure { hu.putPix _ with })
      (.pure (hu.deliver _ _ _))

theorem l2TileConst_runsWf {otype : BitVec 2} {tag : BitVec 4} (h : s.MemoriesWf) :
    (l2TileConst s otype tag).RunsWf :=
  .bind (tileHead_runsWf h) fun _ hu => .bind (originField_runsWf hu) fun _ hv => .andThen validOf_readsWf fun _ =>
    .andThen tileValues_readsWf fun _ => .pure (hv.deliver _ _ _)

theorem tileDeliver_runsWf (h : s.MemoriesWf) : (tileDeliver s).RunsWf :=
  .andThen validOf_readsWf fun _ => .andThen tileValues_readsWf fun _ => .pure (h.deliver _ _ _)

theorem l2Sweep_runsWf (h : s.MemoriesWf) : (l2Sweep s).RunsWf :=
  .andThen (memCheck_readsWf (h.advance 1)) fun _ => .andThen (readElems_readsWf (h.advance 1)) fun _ =>
    .andThen validOf_readsWf fun _ => .pure (((h.advance 1).putPix _).advance _)

theorem surfDims_runsWf {source : SurfSource} {ks ds : List Nat} (h : s.MemoriesWf) :
    (surfDims source ks ds s).RunsWf := by
  induction ds generalizing s with
  | nil => exact .ok h
  | cons d ds ih => exact .andThen (.of_noFault fun _ => surfValue_ne_halt) fun _ => ih (h.putPix _)

theorem constSurf_runsWf {source : SurfSource} (h : s.MemoriesWf) : (constSurf s source).RunsWf :=
  .andThen validOf_readsWf fun _ => surfDims_runsWf h

/-! ## The Huffman operations -/

/-- `HLEN` is written: zeros, then the lengths of the record (R158). -/
theorem hufLengths_runsWf (h : s.MemoriesWf) : (hufLengths s).RunsWf :=
  .andThen (raiseIf_readsWf h) fun _ => .andThen (raiseIf_readsWf h) fun _ =>
    .pure { h with hlen := Memory.writeAll_wf _ (Memory.writeRange_wf h.hlen _ _) }

theorem consume_runsWf {m : Nat} (h : s.MemoriesWf) : (consume s m).RunsWf :=
  .ite (.ok { h with }) (raise_meetsWf h)

/-- `HCODE` is written, code by code (R162). -/
theorem readCodes_runsWf {syms : List Nat} (h : s.MemoriesWf) : (readCodes s syms).RunsWf := by
  induction syms generalizing s with
  | nil => exact .ok h
  | cons x syms ih =>
    exact .andThen (.of_noFault fun _ => State.hlenOf_ne_halt) fun _ =>
      .ite (ih h) (.andThen (.of_noFault fun _ => peek_ne_halt) fun _ =>
        .bind (consume_runsWf { h with hcode := Memory.write_wf h.hcode _ _ }) fun _ hu => ih hu)

theorem hufCodes_runsWf (h : s.MemoriesWf) : (hufCodes s).RunsWf :=
  .bind (hufLengths_runsWf h) fun _ hu => .bind (readCodes_runsWf { hu with }) fun _ hv =>
    .andThen (.of_noFault fun _ => entriesOf_ne_halt) fun _ => .andThen (raiseIf_readsWf hv) fun _ =>
      .andThen (raiseIf_readsWf hv) fun _ => .pure { hv with }

theorem hufAlign_runsWf (h : s.MemoriesWf) : (hufAlign s).RunsWf := by
  refine .ok ?_
  split
  · exact h
  · exact { h with }

/-- `TRIE` is written: a leaf is marked, or a node added below its parent (R167). -/
theorem trieInsert_runsWf {sym : Nat} {bits : List Bool} {node : Nat} (h : s.MemoriesWf) :
    (trieInsert sym bits node s).RunsWf := by
  induction bits generalizing node s with
  | nil => exact .andThen written_readsWf fun _ => .pure { h with trie := Memory.write_wf h.trie _ _ }
  | cons bit bits ih =>
    refine .andThen written_readsWf fun n => ?_
    split
    · exact ih h
    · exact ih { h with trie := Memory.write_wf (Memory.write_wf h.trie _ _) _ _ }

theorem trieInsertAll_runsWf {es : List HufEntry} (h : s.MemoriesWf) : (trieInsertAll es s).RunsWf := by
  induction es generalizing s with
  | nil => exact .ok h
  | cons e es ih => exact .bind (trieInsert_runsWf h) fun _ hu => ih hu

/-- `QT` is written, and `TRIE` from its root on (R166, R167). -/
theorem hufBuild_runsWf (h : s.MemoriesWf) : (hufBuild s).RunsWf :=
  .andThen (.of_noFault fun _ => entriesOf_ne_halt) fun _ => trieInsertAll_runsWf
    { h with qt := Memory.writeAll_wf _ (Memory.writeRange_wf h.qt _ _), trie := Memory.write_wf h.trie _ _ }

theorem hufSym_meetsWf (h : s.MemoriesWf) : (hufSym s).Meets (fun r => r.2.MemoriesWf) State.MemoriesWf := by
  refine ⟨fun r e => ?_, fun t e => ?_⟩
  · obtain ⟨len, hr⟩ := hufSym_eq_ok (x := r.1) (t := r.2) e
    rw [hr]
    exact { h with }
  · rcases hufSym_eq_halt e with rfl | rfl <;> exact h.takeFault _ _

theorem plainSample_runsWf {d k : Nat} (h : s.MemoriesWf) : (plainSample s d k).RunsWf :=
  .bind (hufSym_meetsWf h) fun _ hr => .pure (hr.putPix _)

theorem deltaPixel_runsWf {d k : Nat} (h : s.MemoriesWf) : (deltaPixel s d k).RunsWf :=
  .bind (hufSym_meetsWf h) fun _ hr => .andThen (.of_noFault fun _ => predictor_ne_halt) fun _ =>
    .pure { hr.putPix _ with }

theorem planeLoop_runsWf {f : State → Nat → Nat → Rule State}
    (hf : ∀ {s d k}, State.MemoriesWf s → (f s d k).RunsWf) {cs : List (Nat × Nat)} (h : s.MemoriesWf) :
    (planeLoop f cs s).RunsWf := by
  induction cs generalizing s with
  | nil => exact .ok h
  | cons c cs ih => exact .bind (hf h) fun _ hu => ih hu

theorem deltaDims_runsWf {ks ds : List Nat} (h : s.MemoriesWf) : (deltaDims ks ds s).RunsWf := by
  induction ds generalizing s with
  | nil => exact .ok h
  | cons d ds ih => exact .bind (planeLoop_runsWf deltaPixel_runsWf { h with }) fun _ hu => ih hu

theorem hufPlane_runsWf {mode : PlaneMode} (h : s.MemoriesWf) : (hufPlane s mode).RunsWf :=
  .andThen validOf_readsWf fun _ => by
    cases mode with
    | delta => exact deltaDims_runsWf h
    | plain => exact planeLoop_runsWf plainSample_runsWf h

theorem hufEnd_runsWf (h : s.MemoriesWf) : (hufEnd s).RunsWf :=
  .andThen (raiseIf_readsWf h) fun _ => .pure { h with }

/-! ## The rules around a band and the end of a call -/

theorem bandStart_runsWf (h : s.MemoriesWf) : (bandStart s).RunsWf :=
  .andThen (raiseIf_readsWf h) fun _ => .pure { h with }

theorem czSetup_wf (h : s.MemoriesWf) : (czSetup s).MemoriesWf := State.MemoriesWf.firstBandResults { h with }

theorem l2Setup_wf (h : s.MemoriesWf) : (l2Setup s).MemoriesWf := State.MemoriesWf.firstBandResults { h with }

theorem checksumTest_runsWf (h : s.MemoriesWf) : (checksumTest s).RunsWf :=
  .andThen (raiseIf_readsWf h) fun _ => .pure h

theorem l2Stats_runsWf (h : s.MemoriesWf) : (l2Stats s).RunsWf :=
  have stats (mem : MemName) (m : Memory F64) (ds : List Nat) : (dimList mem m ds).ReadsWf :=
    .of_noFault fun _ => dimList_ne_halt
  .ite (.andThen (stats _ _ _) fun _ => .ite (.andThen (stats _ _ _) fun _ => .pure (h.putStat _)) (.pure (h.putStat _)))
    (.ite (.andThen (stats _ _ _) fun _ => .pure (h.putStat _)) (.pure (h.putStat _)))

theorem bandEnd_runsWf (h : s.MemoriesWf) : (bandEnd s).RunsWf :=
  .andThen (raiseIf_readsWf h) fun _ => .andThen (raiseIf_readsWf h) fun _ => .pure { h with }

theorem fileInfo_runsWf (h : s.MemoriesWf) : (fileInfo s).RunsWf :=
  .ite (.andThen written_readsWf fun _ => .pure (h.putStat _)) (.ok h)

theorem bandTail_runsWf (h : s.MemoriesWf) : (bandTail s).RunsWf :=
  .bind (.ite (encodedMask_runsWf h) (.ok h)) fun _ hu => .bind (fileInfo_runsWf hu) fun _ hv => .pure { hv with }

theorem sweepBands_runsWf {ks bs : List Nat} (h : s.MemoriesWf) : (sweepBands ks bs s).RunsWf := by
  induction bs generalizing s with
  | nil => exact .ok h
  | cons b bs ih => exact .andThen written_readsWf fun _ => ih (h.putPix _)

theorem noDataSweep_runsWf (h : s.MemoriesWf) : (noDataSweep s).RunsWf :=
  .andThen excluded_readsWf fun _ => sweepBands_runsWf h

theorem reshapeBands_runsWf {bs : List Nat} (h : s.MemoriesWf) : (reshapeBands bs s).RunsWf := by
  induction bs generalizing s with
  | nil => exact .ok h
  | cons b bs ih =>
    exact .andThen written_readsWf fun _ => .ite
      (.andThen (.of_noFault fun _ => readPixAll_ne_halt) fun _ => ih { h with pix := Memory.writeRange_wf h.pix _ _ })
      (ih h)

theorem reshape_runsWf (h : s.MemoriesWf) : (reshape s).RunsWf := .ite (reshapeBands_runsWf h) (.ok h)

theorem finishCall_runsWf (h : s.MemoriesWf) : (finishCall s).RunsWf :=
  .andThen excluded_readsWf fun _ => .pure { h with }

/-! ## Every instruction -/

/-- What a rule's instruction leads to. -/
theorem Rule.RunsWf.next {r : Rule State} (h : r.RunsWf) (e : r.outcome = .next t) : t.MemoriesWf :=
  (Rule.outcome_eq_next.1 e).elim (h.1 t) (h.2 t)

/-- A call starts with `IN` as it was and nothing in the other memories (R266). -/
theorem startCall_memoriesWf (h : s.MemoriesWf) : s.startCall.MemoriesWf := by
  constructor
  case inMem => exact h.inMem
  all_goals exact Memory.wf_nil

/-- A reset leaves at most `IN` (R316, R318). -/
theorem resetInput_memoriesWf (h : s.MemoriesWf) : s.resetInput.MemoriesWf := by
  constructor
  case inMem => exact iteInduction (motive := Memory.wf) (fun _ => h.inMem) fun _ => Memory.wf_nil
  all_goals exact Memory.wf_nil

theorem exec_memoriesWf {i : Instr} (h0 : s.MemoriesWf) (h : exec i s = .next t) : t.MemoriesWf := by
  cases i with
  | cmdGo x =>
    simp only [exec, execCmdGo] at h
    split_ifs at h
    · cases h; exact h0
    · cases h; exact startCall_memoriesWf h0
  | idCntz _ _ => exact (setFormat_runsWf h0).next h
  | idLerc2 _ => exact (setFormat_runsWf h0).next h
  | czHdr _ _ _ _ _ => exact (czHdr_runsWf h0).next h
  | czMsec _ _ _ _ => exact (czMsec_runsWf h0).next h
  | czPsec _ _ _ _ => exact (czPsec_runsWf h0).next h
  | czRaw _ => exact (czRaw_runsWf h0).next h
  | czBs _ _ _ => exact (czBs_runsWf h0).next h
  | czConst _ => exact (czConst_runsWf h0).next h
  | czRsvd _ => exact Rule.RunsWf.next (raise_meetsWf h0) h
  | rleLit _ => exact (rleLit_runsWf h0).next h
  | rleRep _ => exact (rleRep_runsWf h0).next h
  | rleEnd => exact (rleEnd_runsWf h0).next h
  | rleZero => exact Rule.RunsWf.next (raise_meetsWf (s := s.rlHead 0#16) { h0 with }) h
  | l2Hdr _ => exact (l2Hdr_runsWf h0).next h
  | l2Mask _ => exact (l2Mask_runsWf h0).next h
  | l2Ranges => exact (l2Ranges_runsWf h0).next h
  | l2Sweep _ => exact (l2Sweep_runsWf h0).next h
  | l2Body => cases h; exact { h0 with }
  | l2HfTiles => cases h; exact { h0 with }
  | l2HfDelta => cases h; exact { h0 with }
  | l2HfPlain => exact (l2HfPlain_runsWf h0).next h
  | l2TileRaw _ _ => exact (l2TileRaw_runsWf h0).next h
  | l2TileBs _ _ => exact (l2TileBs_runsWf h0).next h
  | l2TileXb _ _ => exact (l2TileXb_runsWf h0).next h
  | l2TileConst _ _ => exact (l2TileConst_runsWf h0).next h
  | bs2Aff _ _ => exact (bs2Aff_runsWf h0).next h
  | bs2Lut _ _ => exact (bs2Lut_runsWf h0).next h
  | hufTable _ _ _ _ => exact (hufTable_runsWf h0).next h
  | unpkL _ _ _ => exact Rule.RunsWf.next (.bind (unpk_meetsWf h0) fun _ hr => .pure hr) h
  | unpkM _ _ _ => exact Rule.RunsWf.next (.bind (unpk_meetsWf h0) fun _ hr => .pure hr) h
  | remapAff _ _ _ _ _ => cases h; exact { h0 with }
  | remapLut c =>
    exact Rule.RunsWf.next (r := do return { s with opResult := ← remapLut s c.toNat })
      (.andThen (remapLut_readsWf h0) fun _ => .pure { h0 with }) h
  | maskExpand => exact (maskExpand_runsWf h0).next h
  | f32Sum _ _ => exact (f32Sum_runsWf h0).next h
  | hufBuild => exact (hufBuild_runsWf h0).next h
  | hufSym =>
    exact Rule.RunsWf.next (r := do let (sym, s1) ← hufSym s; return { s1 with opResult := BitVec.ofNat 64 sym })
      (.bind (hufSym_meetsWf h0) fun _ hr => .pure { hr with }) h
  | hufPlane _ => exact (hufPlane_runsWf h0).next h
  | constSurf _ => exact (constSurf_runsWf h0).next h
  | maskAnd => exact (maskAnd_runsWf h0).next h
  | reshape => exact (reshape_runsWf h0).next h

/-! ## Every step -/

/-- Entering a tile writes only the `T` group and what is due. -/
theorem nextBlock_memoriesWf (h : s.MemoriesWf) (r c : Nat) : (nextBlock s r c).MemoriesWf := by
  unfold nextBlock
  split_ifs <;> exact { h with }

theorem nextTile_memoriesWf (h : s.MemoriesWf) (r c d : Nat) : (nextTile s r c d).MemoriesWf := by
  unfold nextTile
  split_ifs <;> exact { h with }

/-- The sequence rules write no memory. -/
theorem sequence_memoriesWf (i : Instr) (h : s.MemoriesWf) : (sequence i s).MemoriesWf := by
  unfold sequence
  refine iteInduction (fun _ => h) fun _ => ?_
  cases s.seq with
  | czBlock r c => exact nextBlock_memoriesWf h r c
  | l2Tile r c d => exact iteInduction (fun _ => { h with }) fun _ => nextTile_memoriesWf h r c d
  | l2Flag => exact iteInduction (fun _ => iteInduction (fun _ => { h with }) fun _ => { h with }) fun _ => { h with }
  | l2Hf => exact iteInduction (fun _ => { h with }) fun _ => { h with }
  | _ => exact { h with }

theorem runRule_runsWf (h : s.MemoriesWf) : (runRule s).RunsWf := by
  have next {r : Rule State} {p : State → Phase} (hr : r.RunsWf) : Rule.RunsWf (do let u ← r; return u.goto (p u)) :=
    hr.bind fun _ hu => .pure { hu with }
  unfold runRule
  cases s.seq with
  | bandStart => exact next (bandStart_runsWf h)
  | czSetup => exact .pure { czSetup_wf h with }
  | maskEnd => exact next (maskEnd_runsWf h)
  | czPrefill => exact .pure { h.fillBand s.np s.czNoData with }
  | czStats => exact .pure { h.putStat _ with }
  | checksumTest => exact next (checksumTest_runsWf h)
  | l2Setup => exact .pure { l2Setup_wf h with }
  | l2Prefill => exact .pure { h.fillBand (s.np * s.h.nDim.toNat) s.l2NoData with }
  | rangesTest => exact .andThen (.of_noFault fun _ => constDims_ne_halt) fun _ => .pure { h with }
  | hufCodes => exact next (hufCodes_runsWf h)
  | hufAlign => exact next (hufAlign_runsWf h)
  | hufEnd => exact next (hufEnd_runsWf h)
  | tileDeliver r c d => exact (tileDeliver_runsWf h).bind fun _ hu => .pure (nextTile_memoriesWf hu r c d)
  | l2Stats => exact next (l2Stats_runsWf h)
  | bandEnd => exact next (bandEnd_runsWf h)
  | bandTail => exact next (bandTail_runsWf h)
  | sweep => exact next (noDataSweep_runsWf h)
  | finish => exact next (finishCall_runsWf h)
  | _ => exact .ok h

/-- A fault before anything runs is a fault of the state itself (R132, R147, or in the fetch). -/
theorem due_readsWf (h : s.MemoriesWf) : (due s).ReadsWf := by
  have fetched (pos : StreamPos) (a : Nat) : (some <$> fetch s pos a).ReadsWf := by
    refine ⟨fun _ _ => trivial, fun t e => ?_⟩
    cases hf : fetch s pos a with
    | ok _ => rw [hf] at e; cases e
    | error _ =>
      rw [hf] at e
      cases e
      rcases fetch_eq_halt hf with ⟨_, _, -, -, rfl⟩ | rfl | rfl <;> exact h.takeFault _ _
  unfold due
  cases s.seq with
  | rle => exact .ite (raise_meetsWf h) (fetched _ _)
  | checksum => exact .ite (raise_meetsWf h) (.ok trivial)
  | ident | czHdr | czMsec | czPsec | czBlock | l2Hdr | l2Mask | l2Ranges | l2Flag | l2Hf | hufTable | bs2 | l2Tile =>
    exact fetched _ _
  | _ => exact .ok trivial

theorem engineStep_memoriesWf (h : s.MemoriesWf) (e : engineStep s = .next t) : t.MemoriesWf := by
  cases hb : s.busy with
  | false => rw [engineStep_of_idle hb] at e; cases e; exact h
  | true =>
    rcases engineStep_eq_next hb e with ⟨i, u, -, hu, rfl⟩ | ⟨-, hr | hr⟩ | hd
    · exact sequence_memoriesWf i (exec_memoriesWf h hu)
    · exact (runRule_runsWf h).1 t hr
    · exact (runRule_runsWf h).2 t hr
    · exact (due_readsWf h).2 t hd

/-- Of the host's accesses a write to `IN` alone writes a memory (R40); a start and a reset empty the others. -/
theorem hostStep_memoriesWf {ev : HostEvent} (h : s.MemoriesWf) (e : hostStep ev s = .next t) : t.MemoriesWf := by
  cases ev with
  | turn => exact engineStep_memoriesWf h e
  | reset => cases e; exact resetInput_memoriesWf h
  | writeReg word v =>
    by_cases hw : word = 0
    · subst hw
      rcases hostStep_cmd e with rfl | rfl
      · exact h
      · exact startCall_memoriesWf h
    · rw [hostStep_writeReg hw, hostWriteReg_eq] at e
      split at e
      · cases e
      · cases e; rw [State.putReg_eq]; exact { h with }
  | writeIn a x =>
    simp only [hostStep, hostAccess, hostWriteIn] at e
    split_ifs at e
    cases e
    exact { h with inMem := Memory.write_wf h.inMem a x }
  | _ => cases e; exact { h with }

end

/-- Settles O55: the host's accesses and the steps of the engine both keep the canonical form, and the count of free values
is no memory. -/
theorem memoriesStayCanonical : Obligations.MemoriesStayCanonical := by
  intro s t hs h
  cases hp : s.port with
  | nil =>
    rw [step_of_empty hp] at h
    obtain ⟨u, hu, rfl⟩ := nextFree_eq_next.1 h
    exact { engineStep_memoriesWf hs hu with }
  | cons ev rest =>
    rw [step_of_event hp] at h
    obtain ⟨u, hu, rfl⟩ := nextFree_eq_next.1 h
    exact { hostStep_memoriesWf (s := { s with port := rest }) { hs with } hu with }

end Sys2Proof.Machine

namespace Sys2Proof.Machine

/-! # The successor of an instruction

A step at which an instruction is due is `exec` and then `sequence` (log 1). `sequence` reads the phase of the state `exec`
leaves, and an instruction that did not end the call leaves the phase as it was (`exec_seq`): so what is due next is read
off the phase in which the step began. -/

section

variable {s t : State} {i : Instr} {pos : StreamPos} {a : Nat} {p : Phase}

/-! ## The instruction that is due -/

/-- What the statement supposes: the instruction is the record whose bytes stand where one is fetched, or the operation of
the phase (R79, R257). -/
def State.runsNext (s : State) (i : Instr) : Prop :=
  (∃ pos a, s.recordAt = some (pos, a) ∧ (pos = .rle → s.rlIp.toNat + 2 ≤ s.rlBytes.toNat)
    ∧ decodeAt pos (window s maxRecordBytes a) = .ok i)
  ∨ (s.operationDue = some i ∧ (s.seq = .checksum → 14 ≤ s.h.blobSize.toInt))

/-- A record whose bytes stand at its place is due (R257). -/
theorem due_of_decodeAt (hr : s.recordAt = some (pos, a)) (hrun : pos = .rle → s.rlIp.toNat + 2 ≤ s.rlBytes.toNat)
    (hdec : decodeAt pos (window s maxRecordBytes a) = .ok i) : due s = .ok (some i) := by
  rw [due_of_recordAt hr hrun, fetch_eq_ok.2 hdec]
  rfl

/-- An operation is due in its phase; the checksum where its range is not empty (R147). -/
theorem due_of_operationDue (ho : s.operationDue = some i) (hsum : s.seq = .checksum → 14 ≤ s.h.blobSize.toInt) :
    due s = .ok (some i) := by
  unfold State.operationDue at ho
  unfold due
  cases hseq : s.seq <;> rw [hseq] at ho <;> cases ho
  case checksum => exact if_neg (Int.not_lt.2 (hsum hseq))
  all_goals rfl

/-- No operation stands in the stream (R79). -/
theorem streamPos_of_operationDue (ho : s.operationDue = some i) : i.streamPos = none := by
  unfold State.operationDue at ho
  cases hseq : s.seq <;> rw [hseq] at ho <;> cases ho <;> rfl

theorem State.runsNext.due (h : s.runsNext i) : due s = .ok (some i) := by
  rcases h with ⟨pos, a, hr, hrun, hdec⟩ | ⟨ho, hsum⟩
  · exact due_of_decodeAt hr hrun hdec
  · exact due_of_operationDue ho hsum

/-- What stands in the stream was fetched at its position. -/
theorem State.runsNext.recordAt (h : s.runsNext i) (hi : i.streamPos = some pos) : ∃ a, s.recordAt = some (pos, a) := by
  rcases h with ⟨q, a, hr, -, hdec⟩ | ⟨ho, -⟩
  · cases (decodeAt_eq_ok_iff.1 hdec).place.symm.trans hi
    exact ⟨a, hr⟩
  · cases (streamPos_of_operationDue ho).symm.trans hi

/-- Outside the grids of blocks and tiles a position belongs to one phase. -/
theorem seq_of_recordAt (hr : s.recordAt = some (pos, a)) (hblock : pos ≠ .czBlock) (htile : pos ≠ .l2Tile)
    (hbs2 : pos ≠ .bs2) : s.seq = (posPhase pos).1 := by
  unfold State.recordAt at hr
  cases hseq : s.seq <;> rw [hseq] at hr <;> cases hr
  case czBlock => exact absurd rfl hblock
  case l2Tile => exact absurd rfl htile
  case bs2 => exact absurd rfl hbs2
  all_goals rfl

/-! ## What the sequence rules read -/

/-- The phase after that of an instruction whose successor depends on nothing else. -/
def Phase.successor : Phase → Option Phase
  | .czHdr => some .czSetup
  | .maskExpand => some .maskEnd
  | .czPsec => some .czPrefill
  | .checksum => some .checksumTest
  | .constSurf _ => some .l2Stats
  | .l2Ranges => some .rangesTest
  | .hufTable => some (.bs2 0 0 0)
  | .hufBuild => some .hufAlign
  | .hufPlane => some .hufEnd
  | .maskAnd => some .bandTail
  | .reshape => some .finish
  | _ => none

theorem sequence_of_successor (hb : t.busy = true) (hp : t.seq.successor = some p) : sequence i t = t.goto p := by
  rw [sequence, hb]
  cases hseq : t.seq <;> rw [hseq] at hp <;> cases hp <;> rfl

/-- The container settles which header is due (R185, R215). -/
theorem sequence_ident {f : Format} (hb : t.busy = true) (hseq : t.seq = .ident) (hfmt : t.h.fmt = f) :
    sequence i t = t.goto (if f = .lerc2 then .l2Hdr else .czHdr) := by
  rw [sequence, hb, hseq, ← hfmt]; rfl

/-- A mask section of no bytes has no payload (R188, R190). -/
theorem sequence_czMsec {n : Word} (hb : t.busy = true) (hseq : t.seq = .czMsec) (hbytes : t.h.mBytes = n) :
    sequence i t = t.goto (if n = 0 then .czPsec else .rle) := by
  rw [sequence, hb, hseq, ← hbytes]; rfl

/-- Runs follow until the end mark (R132). -/
theorem sequence_rle (hb : t.busy = true) (hseq : t.seq = .rle) :
    sequence i t = t.goto (if i = .rleEnd then .maskExpand else .rle) := by
  rw [sequence, hb, hseq]; rfl

/-- From version 3 on a checksum is verified (R147). -/
theorem sequence_l2Hdr (hb : t.busy = true) (hseq : t.seq = .l2Hdr) :
    sequence i t = t.goto (if 3 ≤ t.h.version.toInt then .checksum else .l2Setup) := by
  rw [sequence, hb, hseq]; rfl

/-- A mask with a payload is followed by its runs (R223). -/
theorem sequence_l2Mask_of_payload (hb : t.busy = true) (hseq : t.seq = .l2Mask) (hn : t.h.maskBytes ≠ 0) :
    sequence i t = t.goto .rle := by
  rw [sequence, hb, hseq]
  exact congrArg t.goto (if_neg hn)

/-- A one-sweep body is the whole body (R231). -/
theorem sequence_l2Sweep {flag : Byte} (hb : t.busy = true) (hseq : t.seq = .l2Flag) :
    sequence (.l2Sweep flag) t = t.goto .l2Stats := by
  rw [sequence, hb, hseq]; rfl

/-- A bare `BS2` record holds the lengths of a Huffman table, any other the values of a tile (R158, R245). -/
theorem sequence_bs2 {r c d : Nat} {bare : Bool} (hb : t.busy = true) (hseq : t.seq = .bs2 r c d) (hbare : t.bare = bare) :
    sequence i t = t.goto (if bare then .hufCodes else .tileDeliver r c d) := by
  rw [sequence, hb, hseq, ← hbare]; rfl

/-- A tile of mode 1 is followed by its `BS2` record (R245). -/
theorem sequence_l2Tile_of_mode {r c d : Nat} (hb : t.busy = true) (hseq : t.seq = .l2Tile r c d)
    (hmode : t.t.mode = 1#2) : sequence i t = t.goto (.bs2 r c d) := by
  rw [sequence, hb, hseq]
  exact if_pos hmode

/-! ## What a record leaves for them -/

/-- The alternative of a record that has not ended the call. -/
theorem Rule.Keeps.running {P : State → State → Prop} {r : Rule State} (h : r.Keeps P s) (e : r.outcome = .next t)
    (hb : t.busy = true) : P s t :=
  (h.next e).resolve_left (by rw [hb]; nofun)

theorem czMsec_keeps_mBytes (s : State) (nby nbx n : Word) (m : F32) :
    (czMsec s nby nbx n m).Keeps (fun _ t => t.h.mBytes = n) s :=
  .ite (.ok rfl) ((rmdStart_keeps _ _).mono fun _ h => congrArg HGroup.mBytes h.2)

/-- Whether a `BS2` record is bare it leaves as it was. -/
theorem exec_bare_of_bs2 {r c d : Nat} (hseq : s.seq = .bs2 r c d) (hd : due s = .ok (some i)) (h : exec i s = .next t)
    (hb : t.busy = true) : t.bare = s.bare := by
  have hr : s.recordAt = some (.bs2, s.cur.toNat) := by unfold State.recordAt; rw [hseq]
  obtain ⟨-, hbare⟩ := (exec_bs2 (streamPos_of_due hr nofun hd) h).resolve_left (by rw [hb]; nofun)
  exact hbare

/-! ## The step -/

/-- The step at which an instruction is due: its meaning, then what is due after it, the free values counted on. -/
theorem step_of_due (hp : s.port = []) (hb : s.busy = true) (hd : due s = .ok (some i)) :
    step s = nextFree (execThen i s) := by
  rw [step_of_empty hp, engineStep_of_due hb hd]

theorem step_of_due_next (hp : s.port = []) (hb : s.busy = true) (hd : due s = .ok (some i)) (h : exec i s = .next t) :
    step s = .next { sequence i t with fresh := (sequence i t).fresh + 1 } := by
  rw [step_of_due hp hb hd, execThen, h]
  rfl

end

/-- Settles O4: the step is `execThen`, and each successor is read off `sequence` in the phase in which the step began. -/
theorem stepRunsInstruction : Obligations.StepRunsInstruction := by
  intro s i hp hb hdue
  have hdue : s.runsNext i := hdue
  refine ⟨?_, fun t ht => ?_⟩
  · rw [step_of_due hp hb hdue.due, execThen]
    cases exec i s <;> rfl
  have hnext := step_of_due_next hp hb hdue.due ht
  refine ⟨fun hstop => by rw [hnext, sequence_of_stopped i hstop], fun hrun => ?_⟩
  intro goesOn
  have hseq : t.seq = s.seq := exec_seq hb ht hrun
  have phase {pos : StreamPos} (hi : i.streamPos = some pos) (hblock : pos ≠ .czBlock) (htile : pos ≠ .l2Tile)
      (hbs2 : pos ≠ .bs2) : t.seq = (posPhase pos).1 := by
    obtain ⟨a, hr⟩ := hdue.recordAt hi
    exact hseq.trans (seq_of_recordAt hr hblock htile hbs2)
  have follows {p : Phase} (hq : sequence i t = t.goto p) : goesOn p := by
    rw [hq] at hnext
    exact hnext
  have fixed {q p : Phase} (hq : s.seq = q) (hsucc : q.successor = some p) : goesOn p :=
    follows (sequence_of_successor hrun (by rw [hseq, hq, hsucc]))
  refine ⟨?ident, ?identLerc, fun hq => fixed hq rfl, ?msec, ?rle, fun hq => fixed hq rfl, fun hq => fixed hq rfl,
    ?l2Hdr, fun hq => fixed hq rfl, ?mask, fun _ hq => fixed hq rfl, fun hq => fixed hq rfl, ?sweep,
    fun hq => fixed hq rfl, ?bs2, fun hq => fixed hq rfl, fun hq => fixed hq rfl, ?tileBs, fun hq => fixed hq rfl,
    fun hq => fixed hq rfl⟩
  case ident =>
    rintro leading space rfl
    exact follows (sequence_ident hrun (phase rfl nofun nofun nofun) ((setFormat_keeps s .cntz).running ht hrun).2)
  case identLerc =>
    rintro sixth rfl
    exact follows (sequence_ident hrun (phase rfl nofun nofun nofun) ((setFormat_keeps s .lerc2).running ht hrun).2)
  case msec =>
    rintro nby nbx n maxValue rfl
    have hbytes : t.h.mBytes = n := (czMsec_keeps_mBytes s nby nbx n maxValue).running ht hrun
    exact follows (sequence_czMsec hrun (phase rfl nofun nofun nofun) hbytes)
  case rle => exact fun hq => follows (sequence_rle hrun (hseq.trans hq))
  case l2Hdr => exact fun hq => follows (sequence_l2Hdr hrun (hseq.trans hq))
  case mask =>
    rintro n rfl hn
    obtain ⟨-, hh⟩ := (l2Mask_keeps s n).running ht hrun
    exact follows (sequence_l2Mask_of_payload hrun (phase rfl nofun nofun nofun) (by rw [hh]; exact hn))
  case sweep =>
    rintro flag rfl
    exact follows (sequence_l2Sweep hrun (phase rfl nofun nofun nofun))
  case bs2 =>
    intro r c d hq
    exact follows (sequence_bs2 hrun (hseq.trans hq) (exec_bare_of_bs2 hq hdue.due ht hrun))
  case tileBs =>
    rintro otype tag r c d rfl hq
    obtain ⟨-, hmode⟩ := (l2TileBs_keeps s otype tag).running ht hrun
    exact follows (sequence_l2Tile_of_mode hrun (hseq.trans hq) hmode)

end Sys2Proof.Machine

namespace Sys2Proof.Machine

/-! # Fault entry and reset -/

/-- Settles O52, field by field; the engine has stopped, so that it stays as it is (R290, R334). -/
theorem faultEntry : Obligations.FaultEntry := by
  refine ⟨by decide, fun s code info => ?_⟩
  intro t
  refine ⟨rfl, rfl, rfl, rfl, rfl, rfl, rfl, rfl, rfl, rfl, rfl, rfl, rfl, rfl, fun hp => ?_⟩
  have hstop : t.busy = false := State.takeFault_busy s code info
  have hport : t.port = [] := hp
  rw [step_of_empty hport, engineStep_of_idle hstop]
  rfl

/-- Every control register reads 0 after a reset (R316). -/
theorem regValue_resetWith (cfg : Config) (word : Nat) : (State.resetWith cfg).regValue word = 0#32 := by
  have hhigh : (0#64).extractLsb' 32 32 = 0#32 := by decide
  match word with
  | 1 => exact statusWord_eq _
  | 13 => exact resFlagsWord_eq _
  | 9 | 17 => exact hhigh
  | 0 | 2 | 3 | 4 | 5 | 6 | 7 | 8 | 10 | 11 | 12 | 14 | 15 | 16 => rfl
  | n + 18 => exact regValue_eq_zero (.inr (.inr (by omega)))

theorem resetWith_memoriesWf (cfg : Config) : (State.resetWith cfg).MemoriesWf := by
  constructor <;> exact Memory.wf_nil

theorem resetWith_statusOk (cfg : Config) : (State.resetWith cfg).statusOk :=
  ⟨⟨.inl ⟨rfl, rfl, rfl⟩, fun _ => ⟨rfl, rfl⟩⟩, ⟨nofun, fun h => absurd rfl h⟩⟩

theorem resetWith_bitsLegal (cfg : Config) : (State.resetWith cfg).bitsLegal := bitsLegal_of_reset rfl rfl rfl rfl

/-- Nothing is due, so no tile has a place. -/
theorem resetWith_tileOk (cfg : Config) : (State.resetWith cfg).tileOk := trivial

/-- The reset input is taken before anything else, and leaves `resetInput` (R315, R318). -/
theorem step_of_reset {s : State} {rest : List HostEvent} (hp : s.port = .reset :: rest) :
    step s = .next { State.resetWith s.cfg with
      inMem := if s.busy then s.inMem else [], port := rest, fresh := s.fresh + 1 } :=
  step_of_hostStep (t := State.resetInput { s with port := rest }) hp rfl

/-- Settles O54: the reset state's registers and invariants, and the step that takes the reset input. -/
theorem resetValues : Obligations.ResetValues := by
  refine ⟨fun cfg => ?_, fun s rest hp => ⟨_, step_of_reset hp, rfl⟩⟩
  intro s
  obtain ⟨hmasks, hcursors⟩ := resetWith_bitsLegal cfg
  have hinvariants : s.MemoriesWf ∧ s.statusOk ∧ s.masksBinary ∧ s.cursorsOk ∧ s.tileOk :=
    ⟨resetWith_memoriesWf cfg, resetWith_statusOk cfg, hmasks, hcursors, resetWith_tileOk cfg⟩
  refine ⟨regValue_resetWith cfg, ?_⟩
  iterate 30 refine ⟨rfl, ?_⟩
  exact hinvariants

end Sys2Proof.Machine

namespace Sys2Proof.Machine

/-! # A change of one byte

One byte weighs 1 or 256 in the sum of the pairs, so a change of it moves that sum by less than 65535 and not by 0
(`sum_bytePairs_set`). The first of the engine's two sums agrees with the sum of the pairs modulo 65535 and ends in the
range 1 to 65536 (`fletcher_fst_range`), where the low half of the result word tells any two values apart. -/

/-! ## The sum of the pairs -/

theorem foldl_addPair_fst (ws : List Nat) (q : Nat × Nat) : (ws.foldl addPair q).1 = q.1 + ws.sum := by
  induction ws generalizing q with
  | nil => rfl
  | cons w ws ih => rw [List.foldl_cons, ih, List.sum_cons, addPair, Nat.add_assoc]

/-- Both sums start at 65535, which is 0 here (R146). -/
theorem fletcher_fst_modEq (bytes : List Byte) : (fletcher bytes).1 ≡ (bytePairs bytes).sum [MOD 65535] := by
  have h := (fletcher_agree bytes).1
  rw [foldl_addPair_fst] at h
  exact h.trans Nat.add_modEq_left

/-- What a byte counts for in its pair: the first byte is the high one (R146). -/
def byteWeight (i : Nat) : Nat := if i % 2 = 0 then 256 else 1

theorem byteWeight_zero : byteWeight 0 = 256 := rfl

theorem byteWeight_one : byteWeight 1 = 1 := rfl

theorem byteWeight_add_two (i : Nat) : byteWeight (i + 2) = byteWeight i := by simp [byteWeight]

/-- A byte replaced: the sum of the pairs loses the old byte's share and takes on the new one's. -/
theorem sum_bytePairs_set (bytes : List Byte) {i : Nat} (x : Byte) {old : Byte} (h : bytes[i]? = some old) :
    (bytePairs (bytes.set i x)).sum + byteWeight i * old.toNat = (bytePairs bytes).sum + byteWeight i * x.toNat := by
  induction bytes using bytePairs.induct generalizing i with
  | case1 y z rest ih =>
    match i with
    | 0 =>
      obtain rfl : y = old := Option.some.inj h
      simp only [List.set_cons_zero, bytePairs, List.sum_cons, byteWeight_zero]
      omega
    | 1 =>
      obtain rfl : z = old := Option.some.inj h
      simp only [List.set_cons_succ, List.set_cons_zero, bytePairs, List.sum_cons, byteWeight_one]
      omega
    | i + 2 =>
      have hrest := ih (i := i) h
      simp only [List.set_cons_succ, bytePairs, List.sum_cons, byteWeight_add_two]
      omega
  | case2 y =>
    match i with
    | 0 =>
      obtain rfl : y = old := Option.some.inj h
      simp only [List.set_cons_zero, bytePairs, List.sum_cons, byteWeight_zero]
      omega
    | i + 1 => cases h
  | case3 => cases h

/-- A byte's share is below 65535, so two bytes with shares that agree modulo 65535 are one. -/
theorem byte_eq_of_weight_modEq {i : Nat} {x y : Byte}
    (h : byteWeight i * x.toNat ≡ byteWeight i * y.toNat [MOD 65535]) : x = y := by
  have hx := x.isLt
  have hy := y.isLt
  apply BitVec.eq_of_toNat_eq
  unfold byteWeight Nat.ModEq at h
  split at h <;> omega

theorem sum_bytePairs_set_not_modEq {bytes : List Byte} {i : Nat} {x : Byte} (hi : i < bytes.length)
    (hx : bytes[i]? ≠ some x) : ¬ (bytePairs (bytes.set i x)).sum ≡ (bytePairs bytes).sum [MOD 65535] := by
  intro hsame
  have hold : bytes[i]? = some bytes[i] := List.getElem?_eq_getElem hi
  have hset := sum_bytePairs_set bytes x hold
  have hweight : byteWeight i * bytes[i].toNat ≡ byteWeight i * x.toNat [MOD 65535] :=
    Nat.ModEq.add_left_cancel hsame (congrArg (· % 65535) hset)
  exact hx (byte_eq_of_weight_modEq hweight ▸ hold)

/-! ## The range of the first sum -/

/-- Where a first sum can stand after `t` pairs of a block: a fold leaves at most 65895, a pair adds at most 65535. -/
def SumInBlock (t x : Nat) : Prop := 0 < x ∧ x ≤ 65895 + 65535 * t

theorem SumInBlock.addPair {t w : Nat} {r : Nat × Nat} (h : SumInBlock t r.1) (hw : w ≤ 65535) :
    SumInBlock (t + 1) (addPair r w).1 := by
  obtain ⟨hpos, hle⟩ := h
  unfold SumInBlock Machine.addPair
  omega

/-- A fold after at most the 359 pairs of a block starts the next one (R146). -/
theorem SumInBlock.carryFold {t x : Nat} (h : SumInBlock t x) (ht : t ≤ 359) : SumInBlock 0 (carryFold x) := by
  obtain ⟨hpos, hle⟩ := h
  unfold SumInBlock Machine.carryFold
  omega

theorem SumInBlock.closeBlock {t : Nat} {r : Nat × Nat} (h : SumInBlock t r.1) (ht : t ≤ 359) :
    SumInBlock 0 (closeBlock t r).1 := by
  unfold Machine.closeBlock
  split
  · next hzero => exact hzero ▸ h
  · exact h.carryFold ht

/-- After the last pair at most one odd byte is added to a folded sum. -/
theorem fletcherSums_fst_inBlock (bytes : List Byte) {t : Nat} {r : Nat × Nat} (h : SumInBlock t r.1) (ht : t < 359) :
    0 < (fletcherSums bytes t r.1 r.2).1 ∧ (fletcherSums bytes t r.1 r.2).1 < 131176 := by
  induction bytes using bytePairs.induct generalizing t r with
  | case1 x y rest ih =>
    have hx := x.isLt
    have hy := y.isLt
    have hpair : SumInBlock (t + 1) (addPair r (x.toNat * 256 + y.toNat)).1 := h.addPair (by omega)
    rw [fletcherSums_cons_cons]
    split
    · exact ih (r := foldSums _) (hpair.carryFold ht) (by decide)
    · next hfull =>
      have hopen : t + 1 ≠ 359 := hfull
      exact ih hpair (by omega)
  | case2 x =>
    have hx := x.isLt
    obtain ⟨hpos, hle⟩ := h.closeBlock ht.le
    rw [fletcherSums_singleton]
    unfold addPair
    omega
  | case3 =>
    obtain ⟨hpos, hle⟩ := h.closeBlock ht.le
    rw [fletcherSums_nil]
    omega

/-- The first half of the result is never 0, and passes 16 bits by 1 at most (R146, R148). -/
theorem fletcher_fst_range (bytes : List Byte) : 0 < (fletcher bytes).1 ∧ (fletcher bytes).1 ≤ 65536 := by
  have hstart : SumInBlock 0 65535 := ⟨by decide, by decide⟩
  have h := fletcherSums_fst_inBlock (r := (65535, 65535)) bytes hstart (by decide)
  rw [fletcher_eq]
  simp only [foldSums, carryFold] at h ⊢
  omega

/-! ## The result word -/

theorem fletcherWord_low (bytes : List Byte) : (fletcherWord bytes).toNat % 65536 = (fletcher bytes).1 % 65536 := by
  rw [fletcherWord, BitVec.toNat_ofNat]
  omega

/-- One result word, one first sum. -/
theorem fletcher_fst_eq_of_word_eq {bytes other : List Byte} (h : fletcherWord bytes = fletcherWord other) :
    (fletcher bytes).1 = (fletcher other).1 := by
  have hlow := fletcherWord_low bytes
  rw [h, fletcherWord_low other] at hlow
  have hrange := fletcher_fst_range bytes
  have hrange' := fletcher_fst_range other
  omega

/-- A change of one byte changes the first sum modulo 65535, hence the result (R301). -/
theorem fletcherWord_set_ne {bytes : List Byte} {i : Nat} {x : Byte} (hi : i < bytes.length)
    (hx : bytes[i]? ≠ some x) : fletcherWord (bytes.set i x) ≠ fletcherWord bytes := by
  intro hword
  refine sum_bytePairs_set_not_modEq hi hx ?_
  calc (bytePairs (bytes.set i x)).sum
    _ ≡ (fletcher (bytes.set i x)).1 [MOD 65535] := (fletcher_fst_modEq _).symm
    _ = (fletcher bytes).1 := fletcher_fst_eq_of_word_eq hword
    _ ≡ (bytePairs bytes).sum [MOD 65535] := fletcher_fst_modEq _

/-! ## The two steps of the check (R147) -/

section

variable {s : State}

/-- The sum over a range that is held, and what is due after it. -/
theorem step_of_checksum {bytes : List Byte} (hp : s.port = []) (hb : s.busy = true) (hseq : s.seq = .checksum)
    (hsize : 14 ≤ s.h.blobSize.toInt) (hlen : bytes.length = (s.h.blobSize - 14#32).toNat)
    (hholds : s.holds (s.h.blob0 + 14#32).toNat bytes) :
    step s = .next { s with
      fSum1 := BitVec.ofNat 32 (fletcher bytes).1, fSum2 := BitVec.ofNat 32 (fletcher bytes).2,
      opResult := (fletcherWord bytes).setWidth 64, seq := .checksumTest, fresh := s.fresh + 1 } := by
  have hop : s.operationDue = some (.f32Sum (s.h.blob0 + 14#32) (s.h.blobSize - 14#32)) := by
    unfold State.operationDue
    rw [hseq]
  have hexec : exec (.f32Sum (s.h.blob0 + 14#32) (s.h.blobSize - 14#32)) s
      = (f32Sum s (s.h.blob0 + 14#32).toNat (s.h.blobSize - 14#32).toNat).outcome := rfl
  rw [← hlen, f32Sum_of_holds hholds, Rule.outcome_ok] at hexec
  have hstep := step_of_due_next hp hb (due_of_operationDue hop fun _ => hsize) hexec
  rw [sequence_of_successor (p := .checksumTest) ?busy ?phase] at hstep
  case busy => exact hb
  case phase => exact congrArg Phase.successor hseq
  exact hstep

/-- A result that is not the header's checksum is `E_CHECKSUM`, with the result for its value. -/
theorem step_of_checksumTest_ne {c : Word} (hp : s.port = []) (hb : s.busy = true) (hseq : s.seq = .checksumTest)
    (hc : s.opResult = c.setWidth 64) (hne : c ≠ s.h.checksum) : faultedWith (step s) .checksum c.toNat := by
  obtain ⟨-, -, htest, -⟩ := f32SumResult s 0 0 []
  have hresult : s.opResult.setWidth 32 = c := by rw [hc, BitVec.setWidth_setWidth_of_le c (by decide), BitVec.setWidth_eq]
  have h := htest hp hb hseq
  rwa [hresult, if_neg hne] at h

end

/-- Settles O29: the byte's share of the first sum (`fletcherWord_set_ne`), then the sum's step and the comparison's. -/
theorem oneByteChangeDetected : Obligations.OneByteChangeDetected := by
  intro bytes i x hi hx
  have hne := fletcherWord_set_ne hi hx
  refine ⟨hne, fun s hp hb hseq hsize hlen hsum hholds => ?_⟩
  have hlen' : (bytes.set i x).length = (s.h.blobSize - 14).toNat := List.length_set.trans hlen
  exact ⟨_, step_of_checksum hp hb hseq hsize hlen' hholds, rfl, rfl, rfl, rfl,
    step_of_checksumTest_ne hp hb rfl rfl fun heq => hne (heq.trans hsum)⟩

end Sys2Proof.Machine

namespace Sys2Proof.Machine

/-! # No output before the checksum

Up to the comparison a band runs two rules and three instructions, none of which writes an output memory. A step without
a fault ran the one that was due (`engineStep_of_noError`). -/

section

variable {s t u : State}

/-- The output memories of R292 are as they were. -/
def State.OutputsKept (s t : State) : Prop :=
  t.pix = s.pix ∧ t.bitset = s.bitset ∧ t.maskx = s.maskx ∧ t.cmask = s.cmask

/-! ## The rules and the instructions before the comparison -/

theorem bandStart_keepsOutputs (s : State) : (bandStart s).Keeps State.OutputsKept s :=
  (raiseIf_reads _ _ _ _).bind fun _ _ => .pure ⟨rfl, rfl, rfl, rfl⟩

theorem setFormat_keepsOutputs (s : State) (f : Format) : (setFormat s f).Keeps State.OutputsKept s :=
  (raiseIf_reads _ _ _ _).bind fun _ _ => .pure ⟨rfl, rfl, rfl, rfl⟩

theorem l2Hdr_keepsOutputs (s : State) (header : L2Header) : (l2Hdr s header).Keeps State.OutputsKept s := by
  cases header with
  | unsupported v => exact raise_meets _ _ _ _
  | fields => exact (raiseIf_reads _ _ _ _).bind fun _ _ => .pure ⟨rfl, rfl, rfl, rfl⟩

theorem f32Sum_keepsOutputs (s : State) (a n : Nat) : (f32Sum s a n).Keeps State.OutputsKept s :=
  (memRead_reads _ _ _).bind fun _ _ => .pure ⟨rfl, rfl, rfl, rfl⟩

/-- What an identifier, a Lerc2 header or a checksum leaves of the outputs, if it does not fault. -/
theorem exec_keepsOutputs {i : Instr}
    (hi : i.streamPos = some .ident ∨ i.streamPos = some .l2Hdr ∨ ∃ a n, i = .f32Sum a n)
    (h : exec i s = .next u) (hu : u.busy = true) : s.OutputsKept u := by
  cases i with
  | idCntz _ _ => exact (setFormat_keepsOutputs s _).running h hu
  | idLerc2 _ => exact (setFormat_keepsOutputs s _).running h hu
  | l2Hdr header => exact (l2Hdr_keepsOutputs s header).running h hu
  | f32Sum a n => exact (f32Sum_keepsOutputs s _ _).running h hu
  | _ => simp [Instr.streamPos] at hi

/-! ## A step without a fault -/

/-- A step of the engine that leaves `ERR` at 0 ran the instruction due, and what follows it is due; or it ran the rule
that was due. -/
theorem engineStep_of_noError (hb : s.busy = true) (h : engineStep s = .next t) (ht : t.err = false) :
    (∃ i u, due s = .ok (some i) ∧ exec i s = .next u ∧ u.busy = true ∧ u.seq = s.seq ∧ t = sequence i u)
      ∨ (due s = .ok none ∧ runRule s = .ok t) := by
  have noFault {v : State} (hv : s.FaultsTo v) (herr : v.err = false) : False := by
    obtain ⟨-, hv, -⟩ := hv
    cases herr.symm.trans hv
  rcases engineStep_eq_next hb h with ⟨i, u, hd, hu, rfl⟩ | ⟨hd, hr | hr⟩ | hd
  · rcases exec_leadsTo hb hu with hgo | hfault
    · have hub : u.busy = true := hgo.busy_eq.trans hb
      exact .inl ⟨i, u, hd, hu, hub, exec_seq hb hu hub, rfl⟩
    · rw [sequence_of_stopped i hfault.1] at ht
      exact (noFault hfault ht).elim
  · exact .inr ⟨hd, hr⟩
  · exact (noFault ((runRule_meets s).2 t hr) ht).elim
  · exact (noFault ((due_readsFrom s).2 t hd) ht).elim

/-! ## Phase by phase -/

/-- Where a rule is due. -/
theorem runRule_of_engineStep (hb : s.busy = true) (hd : due s = .ok none) (h : engineStep s = .next t)
    (ht : t.err = false) : runRule s = .ok t := by
  rcases engineStep_of_noError hb h ht with ⟨i, u, hi, -⟩ | ⟨-, hr⟩
  · cases hd.symm.trans hi
  · exact hr

/-- Where an instruction is due. -/
theorem exec_of_engineStep (hb : s.busy = true) (hd : due s ≠ .ok none) (h : engineStep s = .next t)
    (ht : t.err = false) :
    ∃ i u, due s = .ok (some i) ∧ exec i s = .next u ∧ u.busy = true ∧ u.seq = s.seq ∧ t = sequence i u :=
  (engineStep_of_noError hb h ht).resolve_right fun hr => hd hr.1

theorem due_ne_none_of_recordAt {pos : StreamPos} {a : Nat} (hr : s.recordAt = some (pos, a)) (hpos : pos ≠ .rle) :
    due s ≠ .ok none := by
  rw [due_of_recordAt hr fun hrun => absurd hrun hpos]
  cases fetch s pos a <;> nofun

theorem engineStep_bandStart (hb : s.busy = true) (hseq : s.seq = .bandStart) (h : engineStep s = .next t)
    (ht : t.err = false) : s.OutputsKept t := by
  have hr := runRule_of_engineStep hb (due_of_dispatchRule (.inl hseq)) h ht
  rw [runRule_of_bandStart hseq] at hr
  obtain ⟨u, hu, hgoto⟩ := Rule.bind_ok.1 hr
  cases hgoto
  exact (bandStart_keepsOutputs s).1 u hu

theorem engineStep_ident (hb : s.busy = true) (hseq : s.seq = .ident) (h : engineStep s = .next t)
    (ht : t.err = false) : s.OutputsKept t := by
  have hrec : s.recordAt = some (.ident, s.cur.toNat) := by unfold State.recordAt; rw [hseq]
  obtain ⟨i, u, hd, hu, hub, hus, rfl⟩ := exec_of_engineStep hb (due_ne_none_of_recordAt hrec nofun) h ht
  have hkept := exec_keepsOutputs (.inl (streamPos_of_due hrec nofun hd)) hu hub
  rw [sequence_ident hub (hus.trans hseq) rfl]
  exact hkept

/-- From version 3 on the checksum is due after the header (R218). -/
theorem engineStep_l2Hdr (hb : s.busy = true) (hseq : s.seq = .l2Hdr) (h : engineStep s = .next t)
    (ht : t.err = false) : s.OutputsKept t ∧ (3 ≤ t.h.version.toInt → t.seq = .checksum) := by
  have hrec : s.recordAt = some (.l2Hdr, s.cur.toNat + 6) := by unfold State.recordAt; rw [hseq]
  obtain ⟨i, u, hd, hu, hub, hus, rfl⟩ := exec_of_engineStep hb (due_ne_none_of_recordAt hrec nofun) h ht
  have hkept := exec_keepsOutputs (.inr (.inl (streamPos_of_due hrec nofun hd))) hu hub
  rw [sequence_l2Hdr hub (hus.trans hseq)]
  exact ⟨hkept, fun hversion => if_pos hversion⟩

theorem engineStep_checksum (hb : s.busy = true) (hseq : s.seq = .checksum) (h : engineStep s = .next t)
    (ht : t.err = false) : s.OutputsKept t ∧ t.seq = .checksumTest := by
  have hop : due s = raise s .param s.h.blob0.toNat
      ∨ due s = .ok (some (.f32Sum (s.h.blob0 + 14#32) (s.h.blobSize - 14#32))) := by
    unfold due
    rw [hseq]
    exact ite_eq_or_eq _ _ _
  have hsome : due s ≠ .ok none := by rcases hop with hop | hop <;> rw [hop] <;> nofun
  obtain ⟨i, u, hd, hu, hub, hus, rfl⟩ := exec_of_engineStep hb hsome h ht
  rw [sequence_of_successor (p := .checksumTest) hub (by rw [hus, hseq]; rfl)]
  rcases hop with hop | hop
  · cases hd.symm.trans hop
  · cases hd.symm.trans hop
    have hkept := exec_keepsOutputs (.inr (.inr ⟨_, _, rfl⟩)) hu hub
    exact ⟨hkept, rfl⟩

/-- The comparison leaves everything but what is due, and lets only the header's checksum pass (R147). -/
theorem engineStep_checksumTest (hb : s.busy = true) (hseq : s.seq = .checksumTest) (h : engineStep s = .next t)
    (ht : t.err = false) : t = s.goto .l2Setup ∧ s.opResult.setWidth 32 = s.h.checksum := by
  have hr := runRule_of_engineStep hb (due_of_checksumTest hseq) h ht
  rw [runRule_of_checksumTest hseq, checksumTest_eq] at hr
  split at hr
  · next heq => cases hr; exact ⟨rfl, heq⟩
  · cases hr

end

/-- Settles O60, phase by phase. -/
theorem noOutputBeforeChecksum : Obligations.NoOutputBeforeChecksum := by
  intro s t hp hb _ hphase h ht
  rw [step_of_empty hp] at h
  obtain ⟨u, hu, rfl⟩ := nextFree_eq_next.1 h
  have other {p q : Phase} {P : Prop} (hseq : s.seq = p) (hpq : p ≠ q) (hq : s.seq = q) : P :=
    absurd (hseq.symm.trans hq) hpq
  rcases hphase with hseq | hseq | hseq | hseq | hseq
  · obtain ⟨hpix, hbitset, hmaskx, hcmask⟩ := engineStep_bandStart hb hseq hu ht
    exact ⟨hpix, hbitset, hmaskx, hcmask, other hseq nofun, other hseq nofun, other hseq nofun⟩
  · obtain ⟨hpix, hbitset, hmaskx, hcmask⟩ := engineStep_ident hb hseq hu ht
    exact ⟨hpix, hbitset, hmaskx, hcmask, other hseq nofun, other hseq nofun, other hseq nofun⟩
  · obtain ⟨⟨hpix, hbitset, hmaskx, hcmask⟩, hdue⟩ := engineStep_l2Hdr hb hseq hu ht
    exact ⟨hpix, hbitset, hmaskx, hcmask, fun _ => hdue, other hseq nofun, other hseq nofun⟩
  · obtain ⟨⟨hpix, hbitset, hmaskx, hcmask⟩, hdue⟩ := engineStep_checksum hb hseq hu ht
    exact ⟨hpix, hbitset, hmaskx, hcmask, other hseq nofun, fun _ => hdue, other hseq nofun⟩
  · obtain ⟨rfl, hsum⟩ := engineStep_checksumTest hb hseq hu ht
    exact ⟨rfl, rfl, rfl, rfl, other hseq nofun, other hseq nofun, fun _ => ⟨rfl, hsum⟩⟩

end Sys2Proof.Machine

namespace Sys2Proof.Machine

/-! # The header and the mask of a Lerc2 band

The header and the mask. Each record has one equation for each of its cases; where all that is left of it is a test,
`outcome_of_test` reads off both outcomes. The step at which a record is due is `exec` and its successor
(`step_of_record`). -/

section

variable {s : State}

/-! ## The rules and the records that are due -/

theorem due_of_l2Rule (hseq : s.seq = .l2Setup ∨ s.seq = .rangesTest) : due s = .ok none := by
  unfold due
  rcases hseq with hseq | hseq <;> rw [hseq]

/-- A step at a record whose bytes the buffer holds: the record, then what is due after it. -/
theorem step_of_record {pos : StreamPos} {a : Nat} {bytes : List Byte} {i : Instr} {t : State} (hp : s.port = [])
    (hb : s.busy = true) (hr : s.recordAt = some (pos, a)) (hpos : pos ≠ .rle) (hh : s.holds a bytes)
    (hn : bytes.length ≤ maxRecordBytes) (hd : ∀ rest, decodeAt pos (bytes ++ rest) = .ok i) (h : exec i s = .next t) :
    step s = .next { sequence i t with fresh := (sequence i t).fresh + 1 } := by
  refine step_of_due_next hp hb ?_ h
  rw [due_of_recordAt hr fun hrun => absurd hrun hpos, fetch_of_holds hh hn hd]
  rfl

/-- A test in front of a rule. -/
theorem raiseIf_test {α : Type} (s : State) (test : Bool) (code : ErrCode) (info : Nat) (rest : Rule α) :
    (do raiseIf s test code info; rest) = if test = true then raise s code info else rest := by
  cases test <;> rfl

/-- A test that is all that is left of a record: it completes or faults. -/
theorem outcome_of_test (c : Prop) [Decidable c] (t u : State) (code : ErrCode) (info : Nat) :
    if c then Rule.outcome (if c then .ok t else raise u code info) = .next t
    else faultedWith (Rule.outcome (if c then .ok t else raise u code info)) code info := by
  split
  · rfl
  · exact faultedWith_raise ..

/-! ## The header (R216, R217, R219) -/

theorem headerLength_eq (v : Int) : headerLength v = if v < 3 then 58 else if v = 3 then 62 else 66 := by
  unfold headerLength
  by_cases h3 : v < 3
  · rw [if_pos h3, if_pos h3]
  · rw [if_neg h3, if_neg h3]
    exact if_congr (by omega) rfl rfl

/-- What the checks of R217 ask of a header. -/
theorem State.badHeader_eq_false :
    s.badHeader = false ↔ s.h.width ≠ 0 ∧ s.h.height ≠ 0 ∧ s.h.nDim ≠ 0 ∧ s.h.nDim.toNat ≤ s.cfg.dimMax
      ∧ s.np * s.h.nDim.toNat ≤ s.cfg.pixMax ∧ 0 ≤ s.h.imgType.toInt ∧ s.h.imgType.toInt ≤ 7 ∧ 0 < s.h.mbs.toInt
      ∧ (headerLength s.h.version.toInt : Int) ≤ s.h.blobSize.toInt ∧ s.h.nValid.toNat ≤ s.np
      ∧ (s.band = 0 ∨ (s.h.width = s.res.width ∧ s.h.height = s.res.height)) := by
  have hband : (s.band != 0#32 && (s.h.width != s.res.width || s.h.height != s.res.height)) = false ↔
      s.band = 0 ∨ (s.h.width = s.res.width ∧ s.h.height = s.res.height) := by
    simp [Classical.or_iff_not_imp_left]
  simp only [State.badHeader, Bool.or_eq_false_iff, hband]
  simp [and_assoc]

/-- A header is stored, and passes the checks or faults. -/
theorem l2Hdr_fields_eq (s : State) (version checksum height width numDims numValid mbs blobSize imageType : Word)
    (maxZError zMin zMax : F64) :
    let u : State := { s with
      h := { s.h with version := version, checksum := checksum, height := height, width := width, nDim := numDims,
                      nValid := numValid, mbs := mbs, blobSize := blobSize, imgType := imageType,
                      maxZErr := maxZError, zMin := zMin, zMax := zMax },
      cur := s.cur + BitVec.ofNat 32 (headerLength version.toInt) }
    l2Hdr s (.fields version checksum height width numDims numValid mbs blobSize imageType maxZError zMin zMax)
      = if u.badHeader = false then .ok u else raise u .param s.h.blob0.toNat := by
  intro u
  rw [← ite_not]
  exact (raiseIf_test ..).trans (if_congr (.of_eq (Bool.not_eq_false _).symm) rfl rfl)

theorem runRule_of_l2Setup (hseq : s.seq = .l2Setup) : runRule s = .ok ((l2Setup s).goto .l2Prefill) := by
  unfold runRule
  rw [hseq]
  rfl

/-! ## The mask (R222 to R224) -/

/-- The pixels `MASKX` marks as valid. -/
def State.markedCount (s : State) : Nat := ((List.range s.np).filter fun k => Memory.read s.maskx k == some 1#8).length

/-- `MASKX` is written at every pixel of the band. -/
def State.maskWritten (s : State) : Prop := ∀ k < s.np, (Memory.read s.maskx k).isSome = true

/-- Where the band has a mask, its marked pixels are the valid ones. -/
theorem State.validAmong_pixels_length (hp : s.m.present = true) : (s.validAmong s.pixels).length = s.markedCount := by
  have hvalid : s.isValid = fun k => Memory.read s.maskx k == some 1#8 := by
    funext k
    rw [State.isValid, if_pos hp]
  rw [State.validAmong, hvalid]
  rfl

/-- The test of the count of valid pixels (R140). -/
theorem checkValidCount_of_written (hp : s.m.present = true) (hw : s.maskWritten) :
    checkValidCount s = if s.markedCount = s.h.nValid.toNat then .ok s else raise s .count s.cur.toNat := by
  have hcount : s.nvalid = .ok s.markedCount :=
    State.nvalid_eq_ok.2 ⟨fun _ k hk => hw k (List.mem_range.1 hk), (State.validAmong_pixels_length hp).symm⟩
  rw [checkValidCount, hcount, Rule.ok_bind, raiseIf_bind, ite_not]
  rfl

/-- A payload starts where the buffer holds it (R130). -/
theorem rmdStart_eq (s : State) (numBytes : Word) :
    rmdStart s numBytes = if s.cur.toNat + numBytes.toNat ≤ s.inLen.toNat then
        .ok { s with rlBase := s.cur, rlBytes := numBytes, rlIp := 0, rlOp := 0 }
      else raise s .trunc s.cur.toNat := by
  split
  · next hfits => exact Rule.bind_ok.2 ⟨(), memCheck_eq_ok.2 hfits, rfl⟩
  · next hcut => exact Rule.bind_error.2 (.inl (memCheck_eq_error.2 ⟨Nat.not_le.1 hcut, rfl⟩))

/-- The state behind the field of `L2.MASK`. -/
def State.l2Masked (s : State) (numBytes : Word) : State :=
  { s with h := { s.h with maskBytes := numBytes }, cur := s.cur + 4 }

/-- No pixel or every pixel is valid, and a mask array would say nothing (R222). -/
abbrev State.uniform (s : State) : Prop := s.h.nValid = 0 ∨ s.h.nValid.toNat = s.np

theorem l2Mask_of_uniform (numBytes : Word) (h : s.uniform) :
    l2Mask s numBytes = if numBytes = 0 then
        .ok { s.l2Masked numBytes with m := { s.m with present := false, allVoid := decide (s.h.nValid = 0) } }
      else raise (s.l2Masked numBytes) .mask (s.cur + 4).toNat := by
  refine (if_pos h).trans ((raiseIf_test ..).trans ?_)
  rw [← ite_not]
  exact if_congr (not_iff_comm.1 bne_iff_ne.symm) rfl rfl

theorem l2Mask_of_payload {numBytes : Word} (h : ¬ s.uniform) (hn : numBytes ≠ 0) :
    l2Mask s numBytes = rmdStart (s.l2Masked numBytes) numBytes :=
  (if_neg h).trans (if_pos hn)

theorem l2Mask_of_reuse {numBytes : Word} (h : ¬ s.uniform) (hn : numBytes = 0) :
    l2Mask s numBytes = if s.m.held = false then raise (s.l2Masked numBytes) .mask (s.cur + 4).toNat
      else checkValidCount { s.l2Masked numBytes with m := { s.m with present := true, allVoid := false } } := by
  refine (if_neg h).trans ((if_neg (not_not_intro hn)).trans ((raiseIf_test ..).trans ?_))
  exact if_congr (.of_eq (Bool.not_eq_true' s.m.held)) rfl rfl

/-- An earlier mask used again (R224). -/
theorem l2Mask_of_held {numBytes : Word} (h : ¬ s.uniform) (hn : numBytes = 0) (hheld : s.m.held = true)
    (hw : s.maskWritten) :
    l2Mask s numBytes = if s.markedCount = s.h.nValid.toNat then
        .ok { s.l2Masked numBytes with m := { s.m with present := true, allVoid := false } }
      else raise { s.l2Masked numBytes with m := { s.m with present := true, allVoid := false } } .count
        (s.cur + 4).toNat := by
  rw [l2Mask_of_reuse h hn, if_neg (Bool.not_eq_false _ ▸ hheld)]
  exact checkValidCount_of_written
    (s := { s.l2Masked numBytes with m := { s.m with present := true, allVoid := false } }) rfl hw

/-- The state behind a mask payload: `CUR` past it, one more mask (R130, R223). -/
def State.l2MaskRead (s : State) : State :=
  { s with cur := s.cur + s.h.maskBytes,
           m := { present := true, allVoid := false, count := s.m.count + 1, held := true } }

theorem maskEnd_of_lerc2 (hfmt : s.h.fmt = .lerc2) (hw : s.maskWritten) :
    maskEnd s = if s.markedCount = s.h.nValid.toNat then .ok s.l2MaskRead
      else raise s.l2MaskRead .count (s.cur + s.h.maskBytes).toNat := by
  have hend : maskEnd s = checkValidCount s.l2MaskRead := by
    unfold maskEnd
    rw [if_pos hfmt, if_pos hfmt, State.advance, BitVec.ofNat_toNat, BitVec.setWidth_eq]
    rfl
  rw [hend]
  exact checkValidCount_of_written (s := s.l2MaskRead) rfl hw

/-- After a mask without a payload the body is due (R215, R225 to R227). -/
theorem sequence_l2Mask_of_none {i : Instr} {t : State} (hb : t.busy = true) (hseq : t.seq = .l2Mask)
    (hn : t.h.maskBytes = 0) : sequence i t = t.goto t.afterMask := by
  rw [sequence, hb, hseq]
  exact congrArg t.goto (if_pos hn)

/-- The step at an `L2.MASK` record without a payload. -/
theorem step_of_l2Mask_none {m : MaskGroup} (hp : s.port = []) (hb : s.busy = true) (hseq : s.seq = .l2Mask)
    (hh : s.holds s.cur.toNat [0, 0, 0, 0]) (h : l2Mask s 0 = .ok { s.l2Masked 0 with m := m }) :
    step s = .next { s.l2Masked 0 with m := m, seq := s.afterMask, fresh := s.fresh + 1 } := by
  have hr : s.recordAt = some (.l2Mask, s.cur.toNat) := by unfold State.recordAt; rw [hseq]
  rw [step_of_record (i := .l2Mask 0) hp hb hr nofun hh (by decide) (fun _ => rfl) (Rule.outcome_eq_next.2 (.inl h)),
    sequence_l2Mask_of_none (t := { s.l2Masked 0 with m := m }) hb hseq rfl]
  rfl

end

/-! ## The obligations -/

/-- Settles O36: the checks of R217 as one condition, the version's fault, and the step of R219. -/
theorem l2HdrResult : Obligations.L2HdrResult := by
  intro s version checksum height width numDims numValid mbs blobSize imageType maxZError zMin zMax i len
  refine ⟨?_, faultedWith_raise .., fun hp hb hseq => ⟨s.freeNaN .step 0, s.freeNaN_isNaN .step 0, ?_⟩⟩
  · have hlen : headerLength version.toInt = len := headerLength_eq version.toInt
    clear_value len
    subst hlen
    have hexec : exec i s = (l2Hdr s (.fields version checksum height width numDims numValid mbs blobSize imageType
        maxZError zMin zMax)).outcome := rfl
    rw [hexec, l2Hdr_fields_eq, if_congr State.badHeader_eq_false rfl rfl]
    exact outcome_of_test ..
  · rw [step_of_rule_ok hp hb (due_of_l2Rule (.inl hseq)) (runRule_of_l2Setup hseq), l2Setup,
      State.firstBandResults_eq]
    rfl

/-- Settles O37: the three kinds of `L2.MASK` (R222 to R224), the end of its payload, the step at a mask without one. -/
theorem l2MaskResult : Obligations.L2MaskResult := by
  intro s numBytes h a marked successor
  have hexec : exec (.l2Mask numBytes) s = (l2Mask s numBytes).outcome := rfl
  rw [hexec]
  refine ⟨fun hu => ?_, fun hu hn => ?_, fun hu hn hheld => ?_, fun hu hn hheld hw => ?_, fun hp hb hseq hfmt hw => ?_,
    fun hp hb hseq hh => ⟨fun hu => ?_, fun hu hheld hw hcount => ?_⟩⟩
  · rw [l2Mask_of_uniform numBytes hu]
    exact outcome_of_test ..
  · rw [l2Mask_of_payload hu hn, rmdStart_eq]
    exact outcome_of_test ..
  · rw [l2Mask_of_reuse hu hn, if_pos hheld]
    exact faultedWith_raise ..
  · rw [l2Mask_of_held hu hn hheld hw]
    exact outcome_of_test ..
  · have hrule := runRule_of_maskEnd hseq
    have hmarked : s.markedCount = marked := rfl
    rw [maskEnd_of_lerc2 hfmt hw, hmarked] at hrule
    intro stop
    split
    · next hcount =>
      have hnext : (if s.l2MaskRead.h.fmt = .lerc2 then s.l2MaskRead.afterMask else .czPsec) = successor := if_pos hfmt
      rw [if_pos hcount, Rule.ok_bind, hnext] at hrule
      exact step_of_rule_ok hp hb (due_of_czRule (.inr hseq)) hrule
    · next hcount =>
      rw [if_neg hcount] at hrule
      exact step_faultedWith_of_rule hp hb (due_of_czRule (.inr hseq)) hrule
  · exact step_of_l2Mask_none hp hb hseq hh ((l2Mask_of_uniform 0 hu).trans (if_pos rfl))
  · exact step_of_l2Mask_none hp hb hseq hh ((l2Mask_of_held hu rfl hheld hw).trans (if_pos hcount))

end Sys2Proof.Machine

namespace Sys2Proof.Machine

/-! # The values and the flag bytes of a Lerc2 body

The ranges are two runs of elements, one behind the other. A one-sweep body and a constant surface store values at
(dimension, pixel) pairs, each of which has a key of its own (`State.read_sampleCells`). -/

section

variable {s : State}

/-! ## Runs of elements -/

/-- A run of elements the buffer holds. -/
theorem readElems_of_holds {ty : EType} {a n : Nat} {bytes : List Byte} (hl : bytes.length = n * esize ty)
    (hh : s.holds a bytes) : readElems s ty a n = .ok ((List.range n).map (elemAt ty bytes)) :=
  (readElems_eq_ok fun _ => (Nat.le_add_right _ _).trans hh.1).2 ⟨bytes, hl, hh, rfl⟩

/-- The elements of a run that is followed by others. -/
theorem elemAt_append_left {ty : EType} {xs ys : List Byte} {n z : Nat} (hl : xs.length = n * esize ty) (hz : z < n) :
    elemAt ty (xs ++ ys) z = elemAt ty xs z := by
  have hend : z * esize ty + esize ty ≤ xs.length := by
    rw [hl, ← Nat.succ_mul]
    exact Nat.mul_le_mul_right _ hz
  rw [elemAt, elemAt, List.drop_append_of_le_length (by omega), List.take_append_of_le_length]
  rw [List.length_drop]
  omega

/-- The elements behind a run. -/
theorem elemAt_append_right {ty : EType} {xs ys : List Byte} {n : Nat} (hl : xs.length = n * esize ty) (z : Nat) :
    elemAt ty (xs ++ ys) (n + z) = elemAt ty ys z := by
  rw [elemAt, elemAt, Nat.add_mul, ← hl, List.drop_length_add_append]

/-- The value of element `z` of a run that has been read. -/
theorem State.exists_elemReals {ty : EType} {bytes : List Byte} {base n z : Nat} (hz : z < n) :
    ∃ v, (s.elemReals base ((List.range n).map (elemAt ty bytes)))[z]? = some v ∧ readsAs (elemAt ty bytes z) v := by
  have hlen : z < (s.elemReals base ((List.range n).map (elemAt ty bytes))).length := by simpa using hz
  exact ⟨_, List.getElem?_eq_getElem hlen, State.elemReals_readsAs (List.getElem?_eq_getElem hlen)⟩

/-! ## The ranges (R226, R228) -/

/-- The minima and the maxima of a band, one run behind the other. -/
theorem l2Ranges_of_holds {lows highs : List Byte} (hlow : lows.length = s.h.nDim.toNat * s.imgSize)
    (hhigh : highs.length = s.h.nDim.toNat * s.imgSize) (hh : s.holds s.cur.toNat (lows ++ highs)) :
    l2Ranges s = .ok { s with
      cur := s.cur + BitVec.ofNat 32 (2 * s.h.nDim.toNat * s.imgSize),
      dimMin := Memory.writeRange s.dimMin 0
        (s.elemReals 0 ((List.range s.h.nDim.toNat).map (elemAt s.imgEType lows))),
      dimMax := Memory.writeRange s.dimMax 0
        (s.elemReals s.h.nDim.toNat ((List.range s.h.nDim.toNat).map (elemAt s.imgEType highs))) } := by
  have hlows : s.holds s.cur.toNat lows := State.holds_part (xs := []) (zs := highs) hh
  have hhighs : s.holds (s.cur.toNat + s.h.nDim.toNat * s.imgSize) highs := by
    rw [← hlow]
    exact State.holds_part (zs := []) (by rwa [List.append_nil])
  exact (Rule.bind_of_ok _ (readElems_of_holds hlow hlows)).trans (Rule.bind_of_ok _ (readElems_of_holds hhigh hhighs))

/-- Value `z` of the minima and maxima is the first to pass the end of the buffer. -/
theorem l2Ranges_cut {z : Nat} {bytes : List Byte} (hz : z < 2 * s.h.nDim.toNat) (hl : bytes.length = z * s.imgSize)
    (hh : s.holds s.cur.toNat bytes) (hlt : s.inLen.toNat < s.cur.toNat + (z + 1) * s.imgSize) :
    l2Ranges s = .error (.halt (s.takeFault .trunc (s.cur.toNat + z * s.imgSize))) := by
  refine Rule.bind_error.2 ?_
  by_cases hmin : z < s.h.nDim.toNat
  · exact .inl (readElems_cut hmin hl hh hlt)
  · obtain ⟨y, rfl⟩ := Nat.exists_eq_add_of_le (Nat.not_lt.1 hmin)
    obtain ⟨lows, highs, rfl, hlow⟩ : ∃ lows highs, bytes = lows ++ highs ∧ lows.length = s.h.nDim.toNat * s.imgSize :=
      ⟨_, _, (List.take_append_drop (s.h.nDim.toNat * s.imgSize) bytes).symm, by
        rw [List.length_take, hl, Nat.add_mul]; omega⟩
    rw [List.length_append, hlow, Nat.add_mul] at hl
    rw [Nat.add_assoc, Nat.add_mul, ← Nat.add_assoc] at hlt
    have hlows : s.holds s.cur.toNat lows := State.holds_part (xs := []) (zs := highs) hh
    have hhighs : s.holds (s.cur.toNat + s.h.nDim.toNat * s.imgSize) highs := by
      rw [← hlow]
      exact State.holds_part (zs := []) (by rwa [List.append_nil])
    refine .inr ⟨_, readElems_of_holds hlow hlows, Rule.bind_error.2 (.inl ?_)⟩
    rw [Nat.add_mul, ← Nat.add_assoc]
    exact readElems_cut (by omega) (Nat.add_left_cancel hl) hhighs hlt

/-- The test of the ranges and what is due after it (R228). -/
theorem step_of_rangesTest {lo hi : Nat → F64} (hp : s.port = []) (hb : s.busy = true) (hseq : s.seq = .rangesTest)
    (h : ∀ d < s.h.nDim.toNat, Memory.read s.dimMin d = some (lo d) ∧ Memory.read s.dimMax d = some (hi d)) :
    step s = .next { s with
      seq := if (List.range s.h.nDim.toNat).all fun d => feq (lo d) (hi d) then .constSurf .dimMin else .l2Flag,
      fresh := s.fresh + 1 } := by
  have hrule : runRule s = do
      let const ← constDims s (List.range s.h.nDim.toNat)
      return s.goto (if const then .constSurf .dimMin else .l2Flag) := by
    unfold runRule
    rw [hseq]
  rw [constDims_eq fun d hd => h d (List.mem_range.1 hd), Rule.ok_bind] at hrule
  exact step_of_rule_ok hp hb (due_of_l2Rule (.inr hseq)) hrule

/-! ## The one-sweep body (R231, R232) -/

/-- The cells of a one-sweep body are those of its (dimension, pixel) pairs. -/
theorem sweepCells_eq (es : List Elem) :
    sweepCells s (s.validAmong s.pixels) es = s.sampleCells s.plainPairs (s.elemReals 0 es) := by
  have hspots : ((s.validAmong s.pixels).flatMap fun k => (List.range s.h.nDim.toNat).map fun d => d * s.np + k)
      = s.plainPairs.map fun c => c.1 * s.np + c.2 := by
    simp only [State.plainPairs, List.map_flatMap, List.map_map, Function.comp_def]
  rw [sweepCells, hspots, List.zip_map_left, List.map_map]
  rfl

theorem l2Sweep_of_holds {bytes : List Byte} (hm : s.maskReady s.pixels)
    (hcount : (s.validAmong s.pixels).length = s.h.nValid.toNat)
    (hl : bytes.length = (s.validAmong s.pixels).length * s.h.nDim.toNat * s.imgSize)
    (hh : s.holds (s.cur + 1).toNat bytes) :
    l2Sweep s = .ok { s with
      cur := s.cur + 1 + BitVec.ofNat 32 bytes.length,
      pix := Memory.writeAll s.pix (s.sampleCells s.plainPairs (s.elemReals 0
        ((List.range ((s.validAmong s.pixels).length * s.h.nDim.toNat)).map (elemAt s.imgEType bytes)))) } := by
  have hcheck : memCheck (s.advance 1) (s.cur + 1).toNat (s.h.nValid.toNat * s.h.nDim.toNat * s.imgSize) = .ok () :=
    memCheck_eq_ok.2 (by rw [← hcount, ← hl]; exact hh.1)
  have hread : readElems (s.advance 1) s.imgEType (s.cur + 1).toNat (s.h.nValid.toNat * s.h.nDim.toNat)
      = .ok ((List.range (s.h.nValid.toNat * s.h.nDim.toNat)).map (elemAt s.imgEType bytes)) :=
    readElems_of_holds (s := s.advance 1) (by rw [← hcount]; exact hl) hh
  have hvalid : (s.advance 1).validOf (List.range s.np) = .ok (s.validAmong s.pixels) :=
    State.validOf_of_ready (s := s.advance 1) hm
  rw [hl, ← sweepCells_eq, hcount]
  exact (Rule.bind_of_ok _ hcheck).trans ((Rule.bind_of_ok _ hread).trans (Rule.bind_of_ok _ hvalid))

/-- A payload that passes the end of the buffer (R44). -/
theorem l2Sweep_of_past (h : s.inLen.toNat < (s.cur + 1).toNat + s.h.nValid.toNat * s.h.nDim.toNat * s.imgSize) :
    l2Sweep s = .error (.halt ((s.advance 1).takeFault .trunc (s.cur + 1).toNat)) :=
  Rule.bind_error.2 (.inl (memCheck_eq_error.2 ⟨h, rfl⟩))

/-! ## The constant surface (R229) -/

theorem zip_map_self {α β : Type} (xs : List α) (f : α → β) : xs.zip (xs.map f) = xs.map fun x => (x, f x) := by
  have hzip := List.zip_map' (f := id) (g := f) (l := xs)
  rwa [List.map_id] at hzip

/-- Values that are a function of their pair. -/
theorem State.sampleCells_map (cs : List (Nat × Nat)) (f : Nat × Nat → F64) :
    s.sampleCells cs (cs.map f) = cs.map fun c => s.pixCell s.h.etype s.band.toNat (c.1 * s.np + c.2) (f c) := by
  rw [State.sampleCells, zip_map_self, List.map_map]
  rfl

/-- The surface of some dimensions is one list of cells: no dimension's value depends on another's cells. -/
theorem surfDims_eq {source : SurfSource} {c : Nat → F64} {ds : List Nat}
    (h : ∀ d ∈ ds, surfValue s source d = .ok (c d)) :
    surfDims source (s.validAmong s.pixels) ds s
      = .ok (s.putPix (s.sampleCells (s.deltaPairs ds) ((s.deltaPairs ds).map fun p => c p.1))) := by
  have general (ks : List Nat) : surfDims source ks ds s = .ok (s.putPix ((ds.flatMap fun d => ks.map (Prod.mk d)).map
      fun p => s.pixCell s.h.etype s.band.toNat (p.1 * s.np + p.2) (c p.1))) := by
    induction ds generalizing s with
    | nil => rfl
    | cons d ds ih =>
      rw [surfDims, h d List.mem_cons_self, Rule.ok_bind,
        ih (s := s.putPix _) fun e he => h e (List.mem_cons_of_mem d he), List.flatMap_cons, List.map_append,
        List.map_map, State.putPix, State.putPix, State.putPix, Memory.writeAll_append]
      rfl
  rw [State.sampleCells_map]
  exact general _

/-- The value of each dimension (R227, R228). -/
def State.surfaceValue (s : State) (source : SurfSource) (d : Nat) : F64 :=
  match source with
  | .globalMin => s.h.zMin
  | .dimMin => (Memory.read s.dimMin d).getD 0#64

theorem surfValue_of_ready {source : SurfSource} {d : Nat}
    (h : source = .dimMin → (Memory.read s.dimMin d).isSome = true) :
    surfValue s source d = .ok (s.surfaceValue source d) := by
  rw [surfValue_eq_ok]
  cases source with
  | globalMin => rfl
  | dimMin =>
    obtain ⟨v, hv⟩ := Option.isSome_iff_exists.1 (h rfl)
    simp only [State.surfaceValue, hv, Option.getD_some]

theorem constSurf_of_ready {source : SurfSource} (hm : s.maskReady s.pixels)
    (h : source = .dimMin → ∀ d < s.h.nDim.toNat, (Memory.read s.dimMin d).isSome = true) :
    constSurf s source = .ok (s.putPix (s.sampleCells (s.deltaPairs (List.range s.h.nDim.toNat))
      ((s.deltaPairs (List.range s.h.nDim.toNat)).map fun p => s.surfaceValue source p.1))) :=
  (Rule.bind_of_ok _ (State.validOf_of_ready hm)).trans
    (surfDims_eq fun d hd => surfValue_of_ready fun hsource => h hsource d (List.mem_range.1 hd))

/-! ## The flag bytes (R231, R234) -/

theorem l2HfPlain_eq (s : State) :
    l2HfPlain s = if s.h.version.toInt < 4 then raise (s.advance 1) .blockMode s.cur.toNat
      else .ok { s.advance 1 with planeMode := .plain } :=
  raiseIf_bind ..

/-- After the first flag byte of a tiled body: the second one under the Huffman condition, else the first tile. -/
theorem sequence_l2Body {t : State} (hb : t.busy = true) (hseq : t.seq = .l2Flag) :
    sequence .l2Body t = if t.huffmanCondition then t.goto .l2Hf else l2Enter t 0 0 0 := by
  rw [sequence, hb, hseq]
  rfl

theorem sequence_l2Hf {i : Instr} {t : State} (hb : t.busy = true) (hseq : t.seq = .l2Hf) :
    sequence i t = if i = .l2HfTiles then l2Enter t 0 0 0 else t.goto .hufTable := by
  rw [sequence, hb, hseq]
  rfl

/-- The first tile stands at the corner of the image (R236). -/
theorem l2Enter_first_tileIs (s : State) : (l2Enter s 0 0 0).tileIs 0 0 s.h.mbs.toNat s.h.mbs.toNat := by
  obtain ⟨-, htile⟩ := (tileOk_l2Tile rfl).1 (l2Enter_first_tileOk s)
  rwa [Nat.zero_mul] at htile

/-- The state at the first tile. -/
theorem l2Enter_first_eq (s : State) : l2Enter s 0 0 0 = { s with
    seq := .l2Tile 0 0 0,
    t := { s.t with x0 := 0, y0 := 0, dim := 0, width := (l2Enter s 0 0 0).t.width,
                    height := (l2Enter s 0 0 0).t.height } } := by
  simp only [l2Enter, Nat.zero_mul]
  rfl

end

/-! ## The obligations -/

/-- Settles O38: the two runs of values (R226), the one that is cut, and the test of R228. -/
theorem l2RangesResult : Obligations.L2RangesResult := by
  intro s bytes n
  refine ⟨fun hl hh => ?_, fun z hz hl hh hlt => faultedWith_of_halt (l2Ranges_cut hz hl hh hlt),
    fun hp hb hseq lo hi h => ?_⟩
  · obtain ⟨lows, highs, rfl, hlow⟩ : ∃ lows highs, bytes = lows ++ highs ∧ lows.length = n * s.imgSize :=
      ⟨_, _, (List.take_append_drop (n * s.imgSize) bytes).symm, by
        rw [List.length_take, hl, Nat.mul_assoc, Nat.two_mul]; omega⟩
    have hhigh : highs.length = n * s.imgSize := by
      rw [List.length_append, hlow, Nat.mul_assoc, Nat.two_mul] at hl
      exact Nat.add_left_cancel hl
    have hlen (base : Nat) (bytes : List Byte) :
        (s.elemReals base ((List.range n).map (elemAt s.imgEType bytes))).length = n := by simp
    refine ⟨_, Rule.outcome_eq_next.2 (.inl (l2Ranges_of_holds hlow hhigh hh)), by rw [hl], fun d hd => ?_,
      fun d hd => ⟨Memory.read_writeRange_zero_past _ _ ((hlen 0 lows).trans_le hd),
        Memory.read_writeRange_zero_past _ _ ((hlen n highs).trans_le hd)⟩⟩
    obtain ⟨lo, hlo, hloReads⟩ := s.exists_elemReals (ty := s.imgEType) (bytes := lows) (base := 0) hd
    obtain ⟨hi, hhi, hhiReads⟩ := s.exists_elemReals (ty := s.imgEType) (bytes := highs) (base := n) hd
    rw [elemAt_append_left hlow hd, elemAt_append_right hlow]
    exact ⟨lo, hi, (Memory.read_writeRange_zero _ _ (hd.trans_eq (hlen 0 lows).symm)).trans hlo,
      (Memory.read_writeRange_zero _ _ (hd.trans_eq (hlen n highs).symm)).trans hhi, hloReads, hhiReads⟩
  · rw [step_of_rangesTest hp hb hseq h]
    refine ⟨fun hall => ?_, fun ⟨d, hd, hne⟩ => ?_⟩
    · rw [if_pos (List.all_eq_true.2 fun d hd => hall d (List.mem_range.1 hd))]
    · have hsome : ¬ ((List.range s.h.nDim.toNat).all fun d => feq (lo d) (hi d)) = true := fun hall =>
        Bool.false_ne_true (hne.symm.trans (List.all_eq_true.1 hall d (List.mem_range.2 hd)))
      rw [if_neg hsome]

/-- Settles O39: the values one pixel after another, at pairs that are distinct (R232). -/
theorem l2SweepResult : Obligations.L2SweepResult := by
  intro s flag bytes ks n a
  refine ⟨fun hm hcount hl hh => ?_, fun hlt => faultedWith_of_halt (l2Sweep_of_past hlt)⟩
  refine ⟨_, Rule.outcome_eq_next.2 (.inl (l2Sweep_of_holds hm hcount hl hh)), rfl, fun z k d hz hd => ?_,
    fun key hkey => ?_⟩
  · have hplace : z * n + d < ks.length * n := mul_add_lt_mul (List.getElem?_eq_some_iff.1 hz).1 hd
    obtain ⟨v, hv, hreads⟩ := s.exists_elemReals (ty := s.imgEType) (bytes := bytes) (base := 0) hplace
    obtain ⟨e, he, hstores⟩ := State.read_sampleCells (p := s.pix) s.plainPairs_nodup
      (fun c hc => (State.mem_validPixels.1 (State.mem_plainPairs.1 hc).2).1) (State.plainPairs_getElem? hz hd) hv
    exact ⟨v, e, hreads, he, hstores⟩
  · refine State.read_sampleCells_other fun c hc => ?_
    obtain ⟨hd, hk⟩ := State.mem_plainPairs.1 hc
    exact hkey c.2 hk c.1 hd

/-- Settles O46: the surface as one list of cells at distinct pairs (R229). -/
theorem constSurfResult : Obligations.ConstSurfResult := by
  intro s source ks n hm hready
  refine ⟨_, Rule.outcome_eq_next.2 (.inl (constSurf_of_ready hm hready)), rfl, fun k hk d hd => ?_, fun key hkey => ?_⟩
  · have hpair : (d, k) ∈ s.deltaPairs (List.range n) := State.mem_deltaPairs.2 ⟨List.mem_range.2 hd, hk⟩
    obtain ⟨i, hi⟩ := List.mem_iff_getElem?.1 hpair
    obtain ⟨e, he, hstores⟩ := State.read_sampleCells (p := s.pix) (State.deltaPairs_nodup List.nodup_range)
      (fun c hc => (State.mem_validPixels.1 (State.mem_deltaPairs.1 hc).2).1) hi
      (vals := (s.deltaPairs (List.range n)).map fun p => s.surfaceValue source p.1)
      (by rw [List.getElem?_map, hi]; rfl)
    exact ⟨_, e, surfValue_eq_ok.1 (surfValue_of_ready fun hsource => hready hsource d hd), he, hstores⟩
  · refine State.read_sampleCells_other fun c hc => ?_
    obtain ⟨hd, hk⟩ := State.mem_deltaPairs.1 hc
    exact hkey c.2 hk c.1 (List.mem_range.1 hd)

/-- Settles O40: the effects of the flag bytes, and their successors (R231, R234). -/
theorem l2FlagResults : Obligations.L2FlagResults := by
  intro s
  have hplain : exec .l2HfPlain s = (l2HfPlain s).outcome := rfl
  rw [l2HfPlain_eq] at hplain
  have hexecPlain (hv : 4 ≤ s.h.version.toInt) :
      exec .l2HfPlain s = .next { s with cur := s.cur + 1, planeMode := .plain } := by
    rw [hplain, if_neg (Int.not_lt.2 hv)]
    rfl
  refine ⟨rfl, rfl, rfl, hexecPlain, fun hv => ?_, fun hp hb => ?_⟩
  · rw [hplain, if_pos hv]
    exact faultedWith_raise ..
  intro next toFirstTile
  have hfirst (h : step s = .next { l2Enter (s.advance 1) 0 0 0 with fresh := s.fresh + 1 }) : toFirstTile := by
    refine ⟨_, h, ?_, l2Enter_first_tileIs (s.advance 1)⟩
    rw [l2Enter_first_eq]
    rfl
  have hhf (hseq : s.seq = .l2Hf) : s.recordAt = some (.l2Hf, s.cur.toNat) := by unfold State.recordAt; rw [hseq]
  refine ⟨fun hseq hh => ⟨s.freeNaN .step 1, s.freeNaN_isNaN .step 1, ?_⟩, fun hseq hh => ?_, fun hseq hh => ?_,
    fun hseq hh hv => ?_⟩
  · have hr : s.recordAt = some (.l2Flag, s.cur.toNat) := by unfold State.recordAt; rw [hseq]
    have hstep := step_of_record (i := .l2Body) (t := s.advance 1) hp hb hr nofun hh (by decide) (fun _ => rfl) rfl
    rw [sequence_l2Body (t := s.advance 1) hb hseq] at hstep
    have hcond : (s.advance 1).huffmanCondition = true ↔ 1 < s.h.version.toInt ∧ s.h.imgType.toInt ≤ 1
        ∧ flt (fabs (fadd (s.freeNaN .step 1) s.h.maxZErr 0xBFE0000000000000#64)) 0x3EE4F8B588E368F1#64 = true := by
      rw [State.huffmanCondition, Bool.and_eq_true, Bool.and_eq_true, decide_eq_true_iff, decide_eq_true_iff, and_assoc]
      rfl
    split
    · next hyes =>
      rw [if_pos (hcond.2 hyes)] at hstep
      exact hstep
    · next hno =>
      rw [if_neg fun h => hno (hcond.1 h)] at hstep
      exact hfirst hstep
  · have hstep := step_of_record (i := .l2HfTiles) (t := s.advance 1) hp hb (hhf hseq) nofun hh (by decide)
      (fun _ => rfl) rfl
    rw [sequence_l2Hf (t := s.advance 1) hb hseq] at hstep
    exact hfirst hstep
  · have hstep := step_of_record (i := .l2HfDelta) hp hb (hhf hseq) nofun hh (by decide) (fun _ => rfl) rfl
    rwa [sequence_l2Hf (t := l2HfDelta s) hb hseq] at hstep
  · have hstep := step_of_record (i := .l2HfPlain) hp hb (hhf hseq) nofun hh (by decide) (fun _ => rfl) (hexecPlain hv)
    rwa [sequence_l2Hf (t := { s with cur := s.cur + 1, planeMode := .plain }) hb hseq] at hstep

end Sys2Proof.Machine

namespace Sys2Proof.Machine

/-! # The tile records of a Lerc2 body

A tile record begins with its header byte (`State.tileHeaded`), modes 1 and 3 with the origin field behind it
(`State.tileOrigin`). What passes the header goes to the valid pixels of the tile (`State.deliver_delivered`). -/

section

variable {s : State} {mode otype : BitVec 2} {tag : BitVec 4}

/-! ## The header (R238, R240) -/

/-- The state behind the header byte. -/
def State.tileHeaded (s : State) (mode otype : BitVec 2) (tag : BitVec 4) : State :=
  { s with cur := s.cur + 1, t := { s.t with xband := s.flagOf tag, mode := mode, otype := otype, cnt := 0 } }

theorem tileHead_of_fits (otype : BitVec 2) (hfits : s.tagFits tag)
    (hflag : s.flagOf tag = true → s.t.dim ≠ 0 ∧ mode ≠ 0) :
    tileHead s mode otype tag = .ok (s.tileHeaded mode otype tag) :=
  tileHead_eq_ok.2 ⟨hfits, hflag, rfl⟩

/-- The two faults of a header, both at its byte. -/
theorem tileHead_of_bad (otype : BitVec 2)
    (h : ¬ s.tagFits tag ∨ (s.flagOf tag = true ∧ (s.t.dim = 0 ∨ mode = 0))) :
    ∃ u : State, tileHead s mode otype tag = .error (.halt (u.takeFault .integrity s.cur.toNat)) := by
  cases hmismatch : s.tagMismatch tag with
  | true => exact ⟨s, Rule.bind_error.2 (.inl (raiseIf_eq_error.2 ⟨hmismatch, rfl⟩))⟩
  | false =>
    obtain ⟨hflag, hbad⟩ := h.resolve_left (not_not_intro (State.tagMismatch_eq_false.1 hmismatch))
    have htest : (s.flagOf tag && (s.t.dim == 0#32 || mode == 0#2)) = true := by
      rw [hflag, Bool.true_and, Bool.or_eq_true, beq_iff_eq, beq_iff_eq]
      exact hbad
    exact ⟨_, Rule.bind_error.2 (.inr ⟨(), raiseIf_eq_ok.2 hmismatch,
      Rule.bind_error.2 (.inl (raiseIf_eq_error.2 ⟨htest, rfl⟩))⟩)⟩

/-- So a record that begins with such a header faults. -/
theorem faultedWith_of_tileHead {f : State → Rule State} {r : Rule State} (hr : r = tileHead s mode otype tag >>= f)
    (h : ¬ s.tagFits tag ∨ (s.flagOf tag = true ∧ (s.t.dim = 0 ∨ mode = 0))) :
    faultedWith r.outcome .integrity s.cur.toNat := by
  obtain ⟨u, hu⟩ := tileHead_of_bad otype h
  rw [hu] at hr
  exact faultedWith_of_halt hr

theorem State.tileHeaded_tileValid (hm : s.maskReady s.tilePixels) :
    (s.tileHeaded mode otype tag).tileValid = .ok (s.validAmong s.tilePixels) :=
  State.tileValid_of_ready (s := s.tileHeaded mode otype tag) hm

/-! ## The delivery (R200, R244) -/

/-- One value for each pixel: the pixels, their count, and nothing else. -/
theorem State.deliver_eq_of_length (s : State) (d : Nat) {ks : List Nat} {vs : List F64} (h : vs.length = ks.length) :
    s.deliver d ks vs = { s with
      pix := (s.deliver d ks vs).pix, t := { s.t with cnt := s.t.cnt + BitVec.ofNat 32 ks.length } } := by
  rw [State.deliver_eq, h, Nat.min_self]

/-- Behind a header, where the count is 0. -/
theorem State.deliver_eq_of_cnt_zero {s : State} (d : Nat) {ks : List Nat} {vs : List F64} (h : vs.length = ks.length)
    (hcnt : s.t.cnt = 0) :
    s.deliver d ks vs = { s with
      pix := (s.deliver d ks vs).pix, t := { s.t with cnt := BitVec.ofNat 32 ks.length } } := by
  have hcount : s.t.cnt + BitVec.ofNat 32 ks.length = BitVec.ofNat 32 ks.length := by
    rw [hcnt]
    exact BitVec.zero_add _
  rw [State.deliver_eq_of_length s d h, hcount]

/-! ## `L2.TILE.RAW` (R244) -/

theorem l2TileRaw_of_holds {bytes : List Byte} (hfits : s.tagFits tag) (hflag : s.flagOf tag = false)
    (hm : s.maskReady s.tilePixels) (hl : bytes.length = (s.validAmong s.tilePixels).length * s.imgSize)
    (hh : s.holds (s.cur + 1).toNat bytes) :
    let ks := s.validAmong s.tilePixels
    let s1 := s.tileHeaded 0 otype tag
    l2TileRaw s otype tag = .ok ((s1.deliver s.t.dim.toNat ks
      (s1.elemReals 0 ((List.range ks.length).map (elemAt s.imgEType bytes)))).advance (ks.length * s.imgSize)) := by
  intro ks s1
  have hhead : tileHead s 0 otype tag = .ok s1 :=
    tileHead_of_fits otype hfits fun h => absurd (hflag.symm.trans h) Bool.false_ne_true
  have hcheck : memCheck s1 s1.cur.toNat (ks.length * s.imgSize) = .ok () := memCheck_eq_ok.2 (hl ▸ hh.1)
  exact (Rule.bind_of_ok _ hhead).trans <| (Rule.bind_of_ok _ (State.tileHeaded_tileValid hm)).trans <|
    (Rule.bind_of_ok _ hcheck).trans (Rule.bind_of_ok _ (readElems_of_holds (s := s1) hl hh))

/-- A payload that passes the end of the buffer (R44). -/
theorem l2TileRaw_of_past (hfits : s.tagFits tag) (hflag : s.flagOf tag = false) (hm : s.maskReady s.tilePixels)
    (hpast : s.inLen.toNat < (s.cur + 1).toNat + (s.validAmong s.tilePixels).length * s.imgSize) :
    l2TileRaw s otype tag = .error (.halt ((s.tileHeaded 0 otype tag).takeFault .trunc (s.cur + 1).toNat)) := by
  have hhead : tileHead s 0 otype tag = .ok (s.tileHeaded 0 otype tag) :=
    tileHead_of_fits otype hfits fun h => absurd (hflag.symm.trans h) Bool.false_ne_true
  exact (Rule.bind_of_ok _ hhead).trans <| (Rule.bind_of_ok _ (State.tileHeaded_tileValid hm)).trans <|
    Rule.bind_error.2 (.inl (memCheck_eq_error.2 ⟨hpast, rfl⟩))

/-! ## The origin (R242) -/

/-- The state behind the origin field. -/
def State.tileOrigin (s : State) (mode otype : BitVec 2) (tag : BitVec 4) (ot : EType) (offset : F64) : State :=
  { s with
    cur := s.cur + 1 + BitVec.ofNat 32 (esize ot),
    t := { s.t with xband := s.flagOf tag, mode := mode, otype := otype, offset := offset, cnt := 0 } }

theorem originField_of_tileHeaded {ot : EType} {bytes : List Byte} (mode : BitVec 2) (tag : BitVec 4)
    (hot : s.originType otype = some ot) (hl : bytes.length = esize ot) (hh : s.holds (s.cur + 1).toNat bytes) :
    ∃ offset, readsAs (elemAt ot bytes 0) offset
      ∧ originField (s.tileHeaded mode otype tag) = .ok (s.tileOrigin mode otype tag ot offset) :=
  originField_of_holds (s := s.tileHeaded mode otype tag) hot hl hh

/-- A selector without a type faults at the header byte. -/
theorem originField_of_none (mode : BitVec 2) (tag : BitVec 4) (hot : s.originType otype = none) :
    originField (s.tileHeaded mode otype tag)
      = .error (.halt ((s.tileHeaded mode otype tag).takeFault .typeTag s.cur.toNat)) := by
  have hcur : (s.tileHeaded mode otype tag).cur - 1#32 = s.cur := BitVec.add_sub_cancel s.cur 1#32
  have hnone : (s.tileHeaded mode otype tag).originType (s.tileHeaded mode otype tag).t.otype = none := hot
  rw [originField, hnone, hcur]
  rfl

/-- A field that passes the end of the buffer (R44). -/
theorem originField_of_past {ot : EType} (mode : BitVec 2) (tag : BitVec 4) (hot : s.originType otype = some ot)
    (hpast : s.inLen.toNat < (s.cur + 1).toNat + esize ot) :
    originField (s.tileHeaded mode otype tag)
      = .error (.halt ((s.tileHeaded mode otype tag).takeFault .trunc (s.cur + 1).toNat)) := by
  have hsome : (s.tileHeaded mode otype tag).originType (s.tileHeaded mode otype tag).t.otype = some ot := hot
  rw [originField, hsome]
  exact Rule.bind_error.2 (.inl (readElem_eq_halt.2 ⟨hpast, rfl⟩))

/-- A record of mode 1 or 3 whose origin faults. -/
theorem faultedWith_of_originField {f : State → Rule State} {r : Rule State} {code : ErrCode} {info : Nat} {u : State}
    (hr : r = tileHead s mode otype tag >>= fun s1 => originField s1 >>= f) (hfits : s.tagFits tag)
    (hflag : s.flagOf tag = true → s.t.dim ≠ 0) (hmode : mode ≠ 0)
    (h : originField (s.tileHeaded mode otype tag) = .error (.halt (u.takeFault code info))) :
    faultedWith r.outcome code info := by
  rw [tileHead_of_fits otype hfits fun hx => ⟨hflag hx, hmode⟩, Rule.ok_bind, h] at hr
  exact faultedWith_of_halt hr

/-! ## `L2.TILE.BS` and `L2.TILE.CONST` (R245, R249) -/

theorem l2TileBs_of_origin {ot : EType} {offset : F64} (hfits : s.tagFits tag)
    (hflag : s.flagOf tag = true → s.t.dim ≠ 0)
    (h : originField (s.tileHeaded 1 otype tag) = .ok (s.tileOrigin 1 otype tag ot offset)) :
    l2TileBs s otype tag = .ok { s.tileOrigin 1 otype tag ot offset with bare := false } :=
  (Rule.bind_of_ok _ (tileHead_of_fits otype hfits fun hx => ⟨hflag hx, by decide⟩)).trans (Rule.bind_of_ok _ h)

/-- The order of the tiles uses no free value. -/
theorem nextTile_fresh (s : State) (r c d : Nat) : (nextTile s r c d).fresh = s.fresh := by
  unfold nextTile
  rw [apply_ite State.fresh, apply_ite State.fresh, apply_ite State.fresh]
  exact (congrArg _ (congrArg _ (ite_self _))).trans ((congrArg _ (ite_self _)).trans (ite_self _))

/-- The step of the delivery, and the next tile (R237, R245). -/
theorem step_of_tileDeliver {ty tx d : Nat} {u : State} (hp : s.port = []) (hb : s.busy = true)
    (hseq : s.seq = .tileDeliver ty tx d) (h : tileDeliver s = .ok u) :
    step s = .next { nextTile u ty tx d with fresh := u.fresh + 1 } := by
  have hdue : due s = .ok none := by
    unfold due
    rw [hseq]
  have hrule : runRule s = do return nextTile (← tileDeliver s) ty tx d := by
    unfold runRule
    rw [hseq]
  rw [h, Rule.ok_bind] at hrule
  rw [step_of_rule_ok hp hb hdue hrule, nextTile_fresh]

/-- The values of a tile at its valid pixels, where the mask, the bound and the reference can be read. -/
theorem tileDeliver_of_values {ws : List F64} (hm : s.maskReady s.tilePixels)
    (h : tileValues s (s.validAmong s.tilePixels) s.val = .ok ws) :
    tileDeliver s = .ok (s.deliver s.t.dim.toNat (s.validAmong s.tilePixels) ws) :=
  (Rule.bind_of_ok _ (State.tileValid_of_ready hm)).trans (Rule.bind_of_ok _ h)

theorem l2TileConst_of_values {ot : EType} {offset : F64} {ws : List F64} (hfits : s.tagFits tag)
    (hflag : s.flagOf tag = true → s.t.dim ≠ 0) (hm : s.maskReady s.tilePixels)
    (horigin : originField (s.tileHeaded 3 otype tag) = .ok (s.tileOrigin 3 otype tag ot offset))
    (h : tileValues (s.tileOrigin 3 otype tag ot offset) (s.validAmong s.tilePixels)
      (List.replicate (s.validAmong s.tilePixels).length offset) = .ok ws) :
    l2TileConst s otype tag
      = .ok ((s.tileOrigin 3 otype tag ot offset).deliver s.t.dim.toNat (s.validAmong s.tilePixels) ws) :=
  (Rule.bind_of_ok _ (tileHead_of_fits otype hfits fun hx => ⟨hflag hx, by decide⟩)).trans <|
    (Rule.bind_of_ok _ horigin).trans <|
      (Rule.bind_of_ok _ (State.tileValid_of_ready (s := s.tileOrigin 3 otype tag ot offset) hm)).trans
        (Rule.bind_of_ok _ h)

/-! ## `L2.TILE.XB` (R247) -/

/-- A value that is no NaN is stored the same whatever the free bits are (R112). -/
theorem storeElem_of_not_nan {v : F64} (h : f64IsNaN v = false) (nan nan' : BitVec 64) (ty : EType) :
    storeElem nan ty v = storeElem nan' ty v := by
  have hnarrow : narrowF64 nan v = narrowF64 nan' v := by simp only [narrowF64, h, Bool.false_eq_true, if_false]
  cases ty <;> simp only [storeElem, hnarrow]

theorem f64IsNaN_zero : f64IsNaN 0#64 = false := by decide

/-- The element of the reference dimension at a pixel. -/
def State.refElem (s : State) (k : Nat) : Elem :=
  (Memory.read s.pix (pixKey s.band.toNat ((s.t.dim.toNat - 1) * s.np + k))).getD { ty := .i8, bits := 0 }

theorem State.read_reference {ks : List Nat} {k : Nat} (h : s.referenceReady ks) (hk : k ∈ ks) :
    Memory.read s.pix (pixKey s.band.toNat ((s.t.dim.toNat - 1) * s.np + k)) = some (s.refElem k) := by
  obtain ⟨e, he⟩ := Option.isSome_iff_exists.1 (h k hk)
  rw [State.refElem, he, Option.getD_some]

theorem refElems_of_ready {ks : List Nat} (h : s.referenceReady ks) : refElems s ks = .ok (ks.map s.refElem) := by
  rw [refElems_eq_ok, readsEach, List.map_map]
  exact List.map_congr_left fun k hk => State.read_reference h hk

/-- What an `L2.TILE.XB` record puts at a pixel: the reference element, or the constant 0. -/
def State.xbElem (s : State) (tag : BitVec 4) (k : Nat) : Elem :=
  if s.flagOf tag then s.refElem k else storeElem 0 s.h.etype 0

theorem l2TileXb_of_ready (hfits : s.tagFits tag)
    (hflag : s.flagOf tag = true → s.t.dim ≠ 0 ∧ s.referenceReady (s.validAmong s.tilePixels))
    (hm : s.maskReady s.tilePixels) :
    let ks := s.validAmong s.tilePixels
    l2TileXb s otype tag = .ok { s with
      cur := s.cur + 1,
      t := { s.t with xband := s.flagOf tag, mode := 2, otype := otype, cnt := BitVec.ofNat 32 ks.length },
      pix := Memory.writeAll s.pix
        (ks.map fun k => (pixKey s.band.toNat (s.t.dim.toNat * s.np + k), s.xbElem tag k)) } := by
  intro ks
  have hhead : tileHead s 2 otype tag = .ok (s.tileHeaded 2 otype tag) :=
    tileHead_of_fits otype hfits fun hx => ⟨(hflag hx).1, by decide⟩
  have hvalid : (s.tileHeaded 2 otype tag).tileValid = .ok ks := State.tileHeaded_tileValid hm
  refine (Rule.bind_of_ok _ hhead).trans ((Rule.bind_of_ok _ hvalid).trans ?_)
  by_cases hx : s.flagOf tag = true
  · have helem : s.xbElem tag = s.refElem := funext fun k => if_pos hx
    have hrefs : refElems (s.tileHeaded 2 otype tag) ks = .ok (ks.map s.refElem) :=
      refElems_of_ready (s := s.tileHeaded 2 otype tag) (hflag hx).2
    refine (if_pos hx).trans ((Rule.bind_of_ok _ hrefs).trans ?_)
    rw [zip_map_self, List.map_map, helem]
    rfl
  · have helem : s.xbElem tag = fun _ => storeElem 0 s.h.etype 0 := funext fun k => if_neg hx
    have hcells : ((ks.zip (List.replicate ks.length 0#64)).map fun c =>
          (s.tileHeaded 2 otype tag).pixCell s.h.etype s.band.toNat (s.t.dim.toNat * s.np + c.1) c.2)
        = ks.map fun k => (pixKey s.band.toNat (s.t.dim.toNat * s.np + k), storeElem 0 s.h.etype 0) := by
      rw [← List.map_const', zip_map_self, List.map_map]
      exact List.map_congr_left fun k _ => congrArg (Prod.mk _) (storeElem_of_not_nan f64IsNaN_zero _ _ _)
    refine (if_neg hx).trans ?_
    rw [helem, ← hcells,
      State.deliver_eq_of_cnt_zero (s := s.tileHeaded 2 otype tag) _ List.length_replicate rfl]
    rfl

/-- Elements that depend on their pixel only are stored though a pixel be listed twice. -/
theorem Memory.read_writeAll_pixels (p : Memory Elem) (b base : Nat) (ks : List Nat) (f : Nat → Elem) :
    (∀ k ∈ ks, Memory.read (Memory.writeAll p (ks.map fun k => (pixKey b (base + k), f k))) (pixKey b (base + k))
      = some (f k))
    ∧ ∀ key, (∀ k ∈ ks, key ≠ pixKey b (base + k)) →
      Memory.read (Memory.writeAll p (ks.map fun k => (pixKey b (base + k), f k))) key = Memory.read p key := by
  refine ⟨fun k hk => Memory.read_writeAll_const _ _ (fun c hc hkey => ?_) ⟨_, List.mem_map_of_mem hk, rfl⟩,
    fun key hkey => Memory.read_writeAll_other _ _ fun c hc => ?_⟩
  · obtain ⟨k', -, rfl⟩ := List.mem_map.1 hc
    rw [Nat.add_left_cancel (pixKey_inj.1 hkey)]
  · obtain ⟨k', hk', rfl⟩ := List.mem_map.1 hc
    exact (hkey k' hk').symm

/-! ## The faults of a `BS2` record (R113, R116, R117) -/

section

variable {numBits : BitVec 5} {count : CountField}

/-- A count selector without a width (R113). -/
theorem bs2Head_of_invalid (s : State) (lutf : Bool) (numBits : BitVec 5) :
    ∃ u : State, bs2Head s lutf numBits .invalid = .error (.halt (u.takeFault .typeTag s.cur.toNat)) :=
  ⟨_, rfl⟩

/-- A count other than that of the tile's valid pixels (R246). -/
theorem bs2Head_of_count (lutf : Bool) (numBits : BitVec 5) (hc : count ≠ .invalid) (hbare : s.bare = false)
    (hm : s.maskReady s.tilePixels) (hn : CountField.value count ≠ (s.validAmong s.tilePixels).length) :
    ∃ u : State, bs2Head s lutf numBits count
      = .error (.halt (u.takeFault .count (s.cur + BitVec.ofNat 32 (1 + count.len)).toNat)) := by
  refine ⟨s.bs2Headed lutf numBits count, Rule.bind_error.2 (.inr ⟨(), raiseIf_eq_ok.2 (decide_eq_false hc), ?_⟩)⟩
  refine (if_neg (by rw [State.advance_bare, hbare]; nofun)).trans (Rule.bind_error.2 (.inr ⟨_,
    State.tileValid_of_ready (s := s.bs2Headed lutf numBits count) hm, Rule.bind_error.2 (.inl ?_)⟩))
  exact raiseIf_eq_error.2 ⟨decide_eq_true hn, rfl⟩

/-- A bare count above the table's capacity (R116). -/
theorem bs2Head_of_capacity (lutf : Bool) (numBits : BitVec 5) (hc : count ≠ .invalid) (hbare : s.bare = true)
    (hn : s.cfg.hufSymMax < CountField.value count) :
    ∃ u : State, bs2Head s lutf numBits count
      = .error (.halt (u.takeFault .param (s.cur + BitVec.ofNat 32 (1 + count.len)).toNat)) := by
  refine ⟨s.bs2Headed lutf numBits count, Rule.bind_error.2 (.inr ⟨(), raiseIf_eq_ok.2 (decide_eq_false hc), ?_⟩)⟩
  refine (if_pos (by rw [State.advance_bare]; exact hbare)).trans (Rule.bind_error.2 (.inl ?_))
  exact raiseIf_eq_error.2 ⟨decide_eq_true hn, rfl⟩

/-- Both forms of the record begin with its head. -/
theorem exec_bs2_begins {i : Instr} (hi : i = .bs2Aff numBits count ∨ i = .bs2Lut numBits count) :
    ∃ lutf f, exec i s = Rule.outcome (bs2Head s lutf numBits count >>= f) := by
  rcases hi with rfl | rfl
  · exact ⟨false, _, rfl⟩
  · exact ⟨true, _, rfl⟩

/-- So a fault of the head is the record's. -/
theorem faultedWith_of_bs2Head {i : Instr} {code : ErrCode} {info : Nat}
    (hi : i = .bs2Aff numBits count ∨ i = .bs2Lut numBits count)
    (h : ∀ lutf, ∃ u : State, bs2Head s lutf numBits count = .error (.halt (u.takeFault code info))) :
    faultedWith (exec i s) code info := by
  obtain ⟨lutf, f, hexec⟩ := exec_bs2_begins (s := s) hi
  obtain ⟨u, hu⟩ := h lutf
  rw [hexec, hu]
  exact faultedWith_of_halt rfl

theorem bs2Args_of_ready (hz : s.bare = false → s.zmaxReady s.t.dim.toNat) : bs2Args s = .ok s.remapOperands :=
  bs2Args_eq_ok.2 ⟨hz, rfl⟩

/-- The codes of `BS2.AFF` pass the end of the buffer (R103). -/
theorem bs2Aff_of_past (hc : count ≠ .invalid) (hn : s.countFits (CountField.value count))
    (hz : s.bare = false → s.zmaxReady s.t.dim.toNat) (hk : 1 ≤ numBits.toNat)
    (hpast : s.inLen.toNat < (s.cur + BitVec.ofNat 32 (1 + count.len)).toNat
      + packedBytes (CountField.value count) numBits.toNat) :
    bs2Aff s numBits count = .error (.halt ((s.bs2Headed false numBits count).takeFault .trunc
      (s.cur + BitVec.ofNat 32 (1 + count.len)).toNat)) := by
  have hnVal : (s.bs2Headed false numBits count).t.nVal.toNat = CountField.value count :=
    CountField.toNat_ofNat_value count
  have hunpk := (unpk_eq_halt (s := s.bs2Headed false numBits count) (conv := s.h.conv)).2
    (.inr ⟨hk, numBits.isLt.le, hnVal.symm ▸ hpast, rfl⟩)
  exact (Rule.bind_of_ok _ (bs2Head_of_fits false numBits hc hn)).trans <|
    (Rule.bind_of_ok _ (bs2Args_of_ready (s := s.bs2Headed false numBits count) hz)).trans <|
      Rule.bind_error.2 (.inl hunpk)

/-- What is behind the test of a table's size: the entries, the indices, the lookups (R117). -/
def lutEntries (s : State) (nLut : Byte) (args : RemapArgs) : Rule State := do
  let s3 ← lutLoad s args
  let k := bitLength (nLut.toNat - 1)
  let (indices, s4) ← unpk s3 s3.h.conv s3.cur.toNat s3.t.nVal.toNat k
  let s5 := s4.advance (packedBytes s3.t.nVal.toNat k)
  let vs ← remapLutAll s5 indices
  return { s5 with val := vs }

/-- What is behind the size byte of a table: its test, the operands, the table (R117). -/
def bs2LutBody (s : State) (nLut : Byte) : Rule State := do
  raiseIf s (decide (nLut.toNat = 0)) .param s.cur.toNat
  let args ← bs2Args s
  lutEntries s nLut args

/-- The size byte passes the end of the buffer. -/
theorem bs2Lut_of_pastSize (hc : count ≠ .invalid) (hn : s.countFits (CountField.value count))
    (hpast : s.inLen.toNat < (s.cur + BitVec.ofNat 32 (1 + count.len)).toNat + 1) :
    bs2Lut s numBits count = .error (.halt ((s.bs2Headed true numBits count).takeFault .trunc
      (s.cur + BitVec.ofNat 32 (1 + count.len)).toNat)) :=
  (Rule.bind_of_ok _ (bs2Head_of_fits true numBits hc hn)).trans
    (Rule.bind_error.2 (.inl (readLe_eq_halt.2 ⟨hpast, rfl⟩)))

theorem bs2Lut_of_size {nLut : Byte} (hc : count ≠ .invalid) (hn : s.countFits (CountField.value count))
    (hh : s.holds (s.cur + BitVec.ofNat 32 (1 + count.len)).toNat [nLut]) :
    bs2Lut s numBits count = bs2LutBody ((s.bs2Headed true numBits count).lutSized nLut) nLut := by
  have hread : readLe (s.bs2Headed true numBits count) (s.bs2Headed true numBits count).cur.toNat 1 = .ok nLut.toNat :=
    readLe_one_of_holds hh
  have hsize : BitVec.ofNat 8 nLut.toNat = nLut := by rw [BitVec.ofNat_toNat, BitVec.setWidth_eq]
  rw [bs2Lut, Rule.bind_of_ok _ (bs2Head_of_fits true numBits hc hn), Rule.bind_of_ok _ hread, hsize]
  rfl

/-- A table of no entry is a fault behind its size. -/
theorem bs2LutBody_of_zero (s : State) : bs2LutBody s 0 = raise s .param s.cur.toNat := rfl

/-- A table of some entries goes on with them. -/
theorem bs2Lut_of_pos {nLut : Byte} (hc : count ≠ .invalid) (hn : s.countFits (CountField.value count))
    (hz : s.bare = false → s.zmaxReady s.t.dim.toNat) (h0 : nLut ≠ 0)
    (hh : s.holds (s.cur + BitVec.ofNat 32 (1 + count.len)).toNat [nLut]) :
    bs2Lut s numBits count = lutEntries ((s.bs2Headed true numBits count).lutSized nLut) nLut s.remapOperands :=
  (bs2Lut_of_size hc hn hh).trans <|
    (Rule.bind_of_ok (a := ()) _ (raiseIf_eq_ok.2 (decide_eq_false (BitVec.toNat_ne.1 h0)))).trans
      (Rule.bind_of_ok _ (bs2Args_of_ready (s := (s.bs2Headed true numBits count).lutSized nLut) hz))

/-- The entries pass the end of the buffer (R103, R118). -/
theorem bs2Lut_of_pastEntries {nLut : Byte} (hc : count ≠ .invalid) (hn : s.countFits (CountField.value count))
    (hz : s.bare = false → s.zmaxReady s.t.dim.toNat) (h0 : nLut ≠ 0) (hk : 1 ≤ numBits.toNat)
    (hh : s.holds (s.cur + BitVec.ofNat 32 (1 + count.len)).toNat [nLut])
    (hpast : s.inLen.toNat < (s.cur + BitVec.ofNat 32 (1 + count.len) + 1).toNat
      + packedBytes (nLut.toNat - 1) numBits.toNat) :
    bs2Lut s numBits count = .error (.halt (((s.bs2Headed true numBits count).lutSized nLut).takeFault .trunc
      (s.cur + BitVec.ofNat 32 (1 + count.len) + 1).toNat)) := by
  have hwidth := toNat_setWidth_numBits numBits
  rw [← hwidth] at hk hpast
  have hload : lutLoad ((s.bs2Headed true numBits count).lutSized nLut) s.remapOperands
      = .error (.halt (((s.bs2Headed true numBits count).lutSized nLut).takeFault .trunc
        (s.cur + BitVec.ofNat 32 (1 + count.len) + 1).toNat)) :=
    Rule.bind_error.2 (.inl (unpk_eq_halt.2 (.inr ⟨hk, hwidth.trans_le numBits.isLt.le, hpast, rfl⟩)))
  exact (bs2Lut_of_pos hc hn hz h0 hh).trans (Rule.bind_error.2 (.inl hload))

/-- The indices pass the end of the buffer (R103, R117). -/
theorem bs2Lut_of_pastIndices {nLut : Byte} {entries : List Byte} {kIdx : Nat} (hc : count ≠ .invalid)
    (hn : s.countFits (CountField.value count)) (hz : s.bare = false → s.zmaxReady s.t.dim.toNat) (h0 : nLut ≠ 0)
    (hbits : bitLength (nLut.toNat - 1) = kIdx) (hk : 1 ≤ kIdx)
    (hl : entries.length = packedBytes (nLut.toNat - 1) numBits.toNat)
    (hh : s.holds (s.cur + BitVec.ofNat 32 (1 + count.len)).toNat (nLut :: entries))
    (hpast : s.inLen.toNat < (s.cur + BitVec.ofNat 32 (1 + count.len) + BitVec.ofNat 32 (1 + entries.length)).toNat
      + packedBytes (CountField.value count) kIdx) :
    ∃ u : State, bs2Lut s numBits count = .error (.halt (u.takeFault .trunc
      (s.cur + BitVec.ofNat 32 (1 + count.len) + BitVec.ofNat 32 (1 + entries.length)).toNat)) := by
  obtain ⟨hsizeAt, hentriesAt, -⟩ := State.holds_lutRecord (indices := []) (by rwa [List.append_nil])
  have hwidth := toNat_setWidth_numBits numBits
  rw [← hwidth] at hl
  obtain ⟨w, hload, hw⟩ := lutLoad_of_holds (s := (s.bs2Headed true numBits count).lutSized nLut) s.remapOperands
    (hwidth.trans_le numBits.isLt.le) hl hentriesAt
  have hcur : w.cur = s.cur + BitVec.ofNat 32 (1 + count.len) + BitVec.ofNat 32 (1 + entries.length) := by
    have hoff : BitVec.ofNat 32 (1 + entries.length) = 1 + BitVec.ofNat 32 entries.length := BitVec.ofNat_add ..
    rw [hw, hoff, ← BitVec.add_assoc]
    rfl
  have hnVal : w.t.nVal.toNat = CountField.value count := by rw [hw]; exact CountField.toNat_ofNat_value count
  have hinLen : w.inLen = s.inLen := by rw [hw]; rfl
  have hunpk : unpk w w.h.conv w.cur.toNat w.t.nVal.toNat (bitLength (nLut.toNat - 1))
      = .error (.halt (w.takeFault .trunc w.cur.toNat)) :=
    unpk_eq_halt.2 (.inr ⟨hbits.symm ▸ hk, bitLength_size_le nLut,
      by rw [hcur, hnVal, hinLen, hbits]; exact hpast, rfl⟩)
  refine ⟨w, (bs2Lut_of_pos hc hn hz h0 hsizeAt).trans <| (Rule.bind_of_ok _ hload).trans
    (Rule.bind_error.2 (.inl ?_))⟩
  rw [hunpk, hcur]

end

/-! ## How the records of a tile begin -/

/-- Every tile record begins with the header, and only that of `L2.TILE.RAW` has mode 0. -/
theorem exec_l2Tile_begins {i : Instr} (hi : i = .l2TileRaw otype tag ∨ i = .l2TileBs otype tag
      ∨ i = .l2TileXb otype tag ∨ i = .l2TileConst otype tag) :
    ∃ mode f, exec i s = Rule.outcome (tileHead s mode otype tag >>= f) ∧ (i = .l2TileRaw otype tag → mode = 0) := by
  rcases hi with rfl | rfl | rfl | rfl
  · exact ⟨0, _, rfl, fun _ => rfl⟩
  · exact ⟨1, _, rfl, nofun⟩
  · exact ⟨2, _, rfl, nofun⟩
  · exact ⟨3, _, rfl, nofun⟩

/-- Those of modes 1 and 3 go on with the origin field. -/
theorem exec_origin_begins {i : Instr} (hi : i = .l2TileBs otype tag ∨ i = .l2TileConst otype tag) :
    ∃ mode f, exec i s = Rule.outcome (tileHead s mode otype tag >>= fun s1 => originField s1 >>= f) ∧ mode ≠ 0 := by
  rcases hi with rfl | rfl
  · exact ⟨1, _, rfl, by decide⟩
  · exact ⟨3, _, rfl, by decide⟩

end

/-! ## The obligations -/

/-- Settles O41: the values behind the header, delivered to distinct pixels (R244). -/
theorem l2TileRawResult : Obligations.L2TileRawResult := by
  intro s otype tag bytes ks a hfits hflag hinside hm hl hh
  let s1 := s.tileHeaded 0 otype tag
  let vs := s1.elemReals 0 ((List.range ks.length).map (elemAt s.imgEType bytes))
  have hvs : vs.length = ks.length := by rw [State.elemReals_length, List.length_map, List.length_range]
  refine ⟨_, vs, Rule.outcome_eq_next.2 (.inl (l2TileRaw_of_holds hfits hflag hm hl hh)), ?_, hvs,
    fun z v hv => State.elemReals_readsAs hv,
    State.deliver_delivered s1 s.t.dim.toNat vs (State.validAmong_nodup (State.tilePixels_nodup hinside))⟩
  rw [State.deliver_eq_of_cnt_zero (s := s1) _ hvs rfl, hl, ← hflag]
  rfl

/-- Settles O42: the header and the origin (R242), then the loop of R245. -/
theorem l2TileBsResult : Obligations.L2TileBsResult := by
  intro s otype tag ot bytes ks d a
  refine ⟨fun hfits hflag hot hl hh => ?_, fun ty tx d0 hp hb hseq hinside hm hl hx => ?_⟩
  · obtain ⟨offset, hreads, horigin⟩ := originField_of_tileHeaded 1 tag hot hl hh
    exact ⟨offset, hreads, Rule.outcome_eq_next.2 (.inl (l2TileBs_of_origin hfits hflag horigin))⟩
  · obtain ⟨ws, hws, hwlen, hvals⟩ := tileValues_of_ready hl hx
    exact ⟨s.deliver d ks ws, ws, step_of_tileDeliver hp hb hseq (tileDeliver_of_values hm hws), hwlen,
      State.deliver_eq_of_length s d hwlen, fun z k v delta hk hdelta hv => hvals z k delta v hk hdelta hv,
      State.deliver_delivered s d ws (State.validAmong_nodup (State.tilePixels_nodup hinside))⟩

/-- Settles O43: elements that depend on their pixel only (R247). -/
theorem l2TileXbResult : Obligations.L2TileXbResult := by
  intro s otype tag ks d hfits hflag hm
  obtain ⟨hstored, hkept⟩ := Memory.read_writeAll_pixels s.pix s.band.toNat (d * s.np) ks (s.xbElem tag)
  refine ⟨_, Rule.outcome_eq_next.2 (.inl (l2TileXb_of_ready hfits hflag hm)), rfl, fun k hk => ?_, hkept⟩
  split
  · next hx =>
    rw [State.read_reference (hflag hx).2 hk]
    exact (hstored k hk).trans (congrArg some (if_pos hx))
  · next hx => exact (hstored k hk).trans (congrArg some (if_neg hx))

/-- Settles O44: one value for every pixel, or its cross-band sums (R248, R249). -/
theorem l2TileConstResult : Obligations.L2TileConstResult := by
  intro s otype tag ot bytes ks d a hfits hflag hot hl hh hinside hm
  obtain ⟨offset, hreads, horigin⟩ := originField_of_tileHeaded 3 tag hot hl hh
  let s2 := s.tileOrigin 3 otype tag ot offset
  obtain ⟨ws, hws, hwlen, hvals⟩ := tileValues_of_ready (s := s2) (ks := ks) (vs := List.replicate ks.length offset)
    List.length_replicate fun hx => (hflag hx).2
  have hrun := l2TileConst_of_values hfits (fun hx => (hflag hx).1) hm horigin hws
  refine ⟨_, ws, offset, Rule.outcome_eq_next.2 (.inl hrun), hreads, ?_, hwlen, fun z k v hk hv => ?_,
    State.deliver_delivered s2 d ws (State.validAmong_nodup (State.tilePixels_nodup hinside))⟩
  · exact State.deliver_eq_of_cnt_zero (s := s2) d hwlen rfl
  · have hz : z < ks.length := (List.getElem?_eq_some_iff.1 hk).1
    exact hvals z k offset v hk (List.getElem?_replicate_of_lt hz) hv

/-- Settles O45, fault by fault. -/
theorem tileRecordFaults : Obligations.TileRecordFaults := by
  intro s otype tag numBits count i a
  refine ⟨fun hi hbad => ?_, fun hi hfits hflag hot => ?_,
    fun hi => ⟨?_, fun hc hbare hm hn => ?_, fun hc hbare hn => ?_⟩, fun hc hn hh => ?_,
    fun hfits hflag hm hpast => faultedWith_of_halt (l2TileRaw_of_past hfits hflag hm hpast),
    fun ot hi hfits hflag hot hpast => ?_, fun hc hn hz => ⟨fun hk hpast => ?_, fun hpast => ?_,
      fun nLut entries kIdx h0 => ⟨fun hk hh hpast => ?_, fun hshift hleast hk hl hh => ?_⟩⟩⟩
  · obtain ⟨mode, f, hexec, hmode⟩ := exec_l2Tile_begins (s := s) hi
    rw [hexec]
    exact faultedWith_of_tileHead rfl (hbad.imp_right (And.imp_right (Or.imp_right hmode)))
  · obtain ⟨mode, f, hexec, hmode⟩ := exec_origin_begins (s := s) hi
    rw [hexec]
    exact faultedWith_of_originField rfl hfits hflag hmode (originField_of_none mode tag hot)
  · rintro rfl
    exact faultedWith_of_bs2Head hi fun lutf => bs2Head_of_invalid s lutf numBits
  · exact faultedWith_of_bs2Head hi fun lutf => bs2Head_of_count lutf numBits hc hbare hm hn
  · exact faultedWith_of_bs2Head hi fun lutf => bs2Head_of_capacity lutf numBits hc hbare hn
  · exact faultedWith_of_halt ((bs2Lut_of_size hc hn hh).trans (bs2LutBody_of_zero _))
  · obtain ⟨mode, f, hexec, hmode⟩ := exec_origin_begins (s := s) hi
    rw [hexec]
    exact faultedWith_of_originField rfl hfits hflag hmode (originField_of_past mode tag hot hpast)
  · exact faultedWith_of_halt (bs2Aff_of_past hc hn hz hk hpast)
  · exact faultedWith_of_halt (bs2Lut_of_pastSize hc hn hpast)
  · exact faultedWith_of_halt (bs2Lut_of_pastEntries hc hn hz h0 hk hh hpast)
  · intro b hpast
    obtain ⟨u, hu⟩ := bs2Lut_of_pastIndices hc hn hz h0 (bitLength_unique hshift hleast) hk hl hh hpast
    exact faultedWith_of_halt hu

end Sys2Proof.Machine
